-- ==== Sys2Proof/Word.lean ====
section
/-! DEFINITION. The word types of the Ridge processor (rules R6, R13 of spec/00_scope.md). -/

namespace Sys2Proof

/-- A byte, "the basic addressable unit" (R13). -/
abbrev Byte := BitVec 8

/-- A halfword (R13). -/
abbrev Half := BitVec 16

/-- A word: the width of a general or special register (R6, R13). -/
abbrev Word := BitVec 32

/-- A double word: the width of a register pair (R13). -/
abbrev Double := BitVec 64

/-- A 4-bit register field R1 or R2: a register number, or an immediate 0..15 (R11, R151). -/
abbrev Reg := BitVec 4

/-- A 20-bit page number, bits 0..19 of an address (R119). -/
abbrev Page := BitVec 20

end Sys2Proof
end

