-- ==== Sys2Proof/Config.lean ====
section
/-! DEFINITION. The parameters the manual leaves open (rule R7 of spec/00_scope.md) and the free values. Every
`opaque` constant has no body: nothing in Lean can evaluate it, so a theorem holds for every value of it. -/

namespace Sys2Proof

/-! ## Free values (spec/93_implementation_defined.md, "any value") -/

/-- `unspecified(32)`: the word drawn at the given count of draws (R10, R44, R522). -/
opaque Config.freeWord : Nat → Word

/-- A choice between two behaviours the spec allows, drawn at the given count (R473). -/
opaque Config.freeBit : Nat → Bool

/-- A choice among finitely many candidates, drawn at the given count (U10, U14, U38, TMT replacement R111). -/
opaque Config.freeIndex : Nat → Nat

/-! ## Virtual memory: the layout of a VRT entry (R118, D15, D16) -/

/-- Places of the fields of a 64-bit VRT entry: `...At` is the weight of a field's least significant bit. -/
structure VrtLayout where
  segBits  : Nat
  pageBits : Nat
  segAt    : Nat
  tagAt    : Nat
  linkAt   : Nat
  rAt      : Nat
  vvvAt    : Nat
  mAt      : Nat
  pageAt   : Nat
  deriving DecidableEq, Repr, Inhabited

/-- Every field of the entry as (place, width): Tag and Link are 16 bits, R and M one, VVV three (R118). -/
def VrtLayout.fields (l : VrtLayout) : List (Nat × Nat) :=
  [(l.segAt, l.segBits), (l.tagAt, 16), (l.linkAt, 16), (l.rAt, 1), (l.vvvAt, 3), (l.mAt, 1), (l.pageAt, l.pageBits)]

/-- The constraints of R118 and R125: the fields lie in the entry and do not overlap; SEG_BITS is 1..32 (D15);
the real page number is extended to 20 bits, so it has at most 20. -/
def VrtLayout.wf (l : VrtLayout) : Bool :=
  decide (1 ≤ l.segBits ∧ l.segBits ≤ 32 ∧ 1 ≤ l.pageBits ∧ l.pageBits ≤ 20) &&
  l.fields.all (fun f => decide (f.1 + f.2 ≤ 64)) &&
  decide (l.fields.Pairwise (fun f g => f.1 + f.2 ≤ g.1 ∨ g.1 + g.2 ≤ f.1))

/-- Any layout at all; only `Config.vrtLayout` reads it. -/
opaque Config.anyVrtLayout : VrtLayout

/-- The parameter `VRT_LAYOUT` with `SEG_BITS` (D15, D16): some layout that meets the constraints of R118, no more is
known of it. (The other branch only makes the constant total: the layout it names is never known to be the one.) -/
def Config.vrtLayout : VrtLayout :=
  if Config.anyVrtLayout.wf then Config.anyVrtLayout
  else { segBits := 16, pageBits := 11, segAt := 48, tagAt := 32, linkAt := 16, rAt := 15, vvvAt := 12, mAt := 11, pageAt := 0 }

/-! ## The instruction cache (R140, R612) -/

/-- Any number at all; only `Config.cacheLineBits` reads it. -/
opaque Config.anyCacheLineBits : Nat

/-- The size of a line of the instruction cache as a power of two: not stated, at most the 256 bytes of the whole cache
(R140). -/
def Config.cacheLineBits : Nat := if Config.anyCacheLineBits ≤ 8 then Config.anyCacheLineBits else 8

/-! ## The Process Control Block (R430, R431, D17) -/

/-- Byte offsets of the PCB's members from the real address in SR14. -/
structure PcbLayout where
  regs  : Vector Word 16
  pc    : Word
  cs    : Word
  ds    : Word
  tw    : Word
  clock : Word
  deriving DecidableEq, Repr, Inhabited

/-- The offsets of all 21 members. -/
def PcbLayout.offsets (l : PcbLayout) : List Word :=
  l.regs.toList ++ [l.pc, l.cs, l.ds, l.tw, l.clock]

/-- The constraints of R431: each offset a multiple of 4, all distinct. -/
def PcbLayout.wf (l : PcbLayout) : Bool :=
  l.offsets.all (fun o => decide (o.toNat % 4 = 0)) && decide l.offsets.Nodup

/-- Any layout at all; only `Config.pcbLayout` reads it. -/
opaque Config.anyPcbLayout : PcbLayout

/-- The parameter `PCB_LAYOUT` (D17): some layout that meets the constraints of R431, no more is known of it. -/
def Config.pcbLayout : PcbLayout :=
  if Config.anyPcbLayout.wf then Config.anyPcbLayout
  else { regs := Vector.ofFn (fun i => BitVec.ofNat 32 (4 * i.val)), pc := 0x40, cs := 0x44, ds := 0x48, tw := 0x4C, clock := 0x50 }

/-! ## Integer arithmetic -/

/-- The parameter `ESUB_CARRY` (R263, D24): true if C after ESUB is the borrow, false if it is the adder's carry. -/
opaque Config.esubCarryIsBorrow : Bool

/-! ## Real numbers: what `REAL_NUMERICS` leaves uninterpreted (R282, R283, D23) -/

/-- Whether the exponent of all ones is reserved in a real (R282); it fixes `REAL_MAX_MAG`. -/
opaque Config.realTopReserved : Bool

/-- Whether the exponent of all ones is reserved in a double real (R282); it fixes `DREAL_MAX_MAG`. -/
opaque Config.doubleTopReserved : Bool

/-- The real operations that end by R289 or R299, but for the divisions. -/
inductive RealOp
  | neg | add | sub | mpy
  deriving DecidableEq, Repr, Inhabited

/-- The two conversions to integer: FIXT and FIXR (R296, R297). -/
inductive FixOp
  | truncate | round
  deriving DecidableEq, Repr, Inhabited

/-- The conditions of R283 that the result of a division can have. -/
inductive RealCond
  | ok | overflow | underflow | divZero
  deriving DecidableEq, Repr, Inhabited

/-- Those that every other real result can have: DIVZERO is for the divisions only (R289, R299). -/
inductive RangeCond
  | ok | overflow | underflow
  deriving DecidableEq, Repr, Inhabited

/-- A 32-bit real result that P1 and P4 do not fix: a rounding, or a malformed operand (U20 to U23). -/
opaque Config.otherReal : RealOp → Word → Word → Word × RangeCond

/-- The same for double reals. -/
opaque Config.otherDouble : RealOp → Double → Double → Double × RangeCond

/-- The same for RDIV: its condition can be DIVZERO for a divisor that is not all zeros, too (R283, U20). -/
opaque Config.otherQuotient : Word → Word → Word × RealCond

/-- The same for DRDIV. -/
opaque Config.otherDoubleQuotient : Double → Double → Double × RealCond

/-- FLOAT of an integer of more than 24 significant bits (R295). -/
opaque Config.otherFloat : Word → Word

/-- MAKERD of a malformed real (U20, U21). -/
opaque Config.otherMakerd : Word → Double

/-- MAKEDR where rounding is needed or the operand is malformed (R308, U23). -/
opaque Config.otherMakedr : Double → Word × RangeCond

/-- FIXT and FIXR of a malformed real: a value, and whether it is an integer overflow (U20 to U22). -/
opaque Config.otherFix : FixOp → Word → Word × Bool

/-- DFIXT and DFIXR of a malformed double real. -/
opaque Config.otherDFix : FixOp → Double → Word × Bool

/-- The tie rule of FIXR: whether this operand, halfway between two integers, goes to the greater one (U23). -/
opaque Config.fixrTieUp : Word → Bool

/-- The tie rule of DFIXR (U23). -/
opaque Config.dfixrTieUp : Double → Bool

/-- RCOMP with a malformed operand: less, equal or greater (U20 to U22). -/
opaque Config.otherRcomp : Word → Word → Ordering

/-- DRCOMP with a malformed operand. -/
opaque Config.otherDRcomp : Double → Double → Ordering

/-! ## The memory error logging RAM (R452, R454, D22) -/

/-- `elog_addr`: the RAM address in the input of ELOGR and ELOGW. -/
opaque Config.elogAddr : Word → Nat

/-- `elog_wdata`: the data bit in the input of ELOGW. -/
opaque Config.elogData : Word → Bool

/-- The polarity of ELOGR status bit 27: the bit's value while an external interrupt is pending. -/
opaque Config.externalStatus : Bool

/-! ## Devices (R470 to R475, D21, D43) -/

/-- One transaction between the processor and a device. -/
inductive IoTransaction
  /-- READ sent this address word. -/
  | read (address : Word)
  /-- WRITE sent this address word and this data word. -/
  | write (address data : Word)
  /-- The I/O Interrupt Read word taken from a requesting device (ITEST, external interrupt entry). -/
  | ioir (word : Word)
  deriving DecidableEq, Repr, Inhabited

/-- What the addressed device makes of a READ or a WRITE. -/
inductive DeviceReply
  /-- It takes the command; `data` is the read data word. -/
  | accepted (data : Word)
  /-- It is not ready to accept a command. -/
  | notReady
  /-- It does not respond in time. -/
  | timedOut
  deriving DecidableEq, Repr, Inhabited

/-- Whether a device with this number exists (R474). -/
opaque Config.devicePresent : BitVec 8 → Bool

/-- The reply to the newest transaction of the history, by a device whose own state is a function of the history. -/
opaque Config.deviceReply : List IoTransaction → DeviceReply

/-- Whether the device withdraws its request when its IOIR word, the newest transaction, is taken (R475). -/
opaque Config.deviceWithdraws : List IoTransaction → Bool

/-- Places of the bits T and N of an I/O status word, bit 0 the least significant (R473). -/
structure IoStatusLayout where
  t : BitVec 5
  n : BitVec 5
  deriving DecidableEq, Repr, Inhabited

/-- Any layout at all; only `Config.ioStatusLayout` reads it. -/
opaque Config.anyIoStatusLayout : IoStatusLayout

/-- The parameter `IO_STATUS_LAYOUT` (R473): T and N are two different bits, no more is known. -/
def Config.ioStatusLayout : IoStatusLayout :=
  if Config.anyIoStatusLayout.t ≠ Config.anyIoStatusLayout.n then Config.anyIoStatusLayout else { t := 0, n := 1 }

end Sys2Proof
end

