-- ==== Sys2Proof/Machine/State.lean ====
section
/-! DEFINITION. The state of the machine, plain data (spec/10_state.md), the reasons a run stops, and the state after
reset. -/

namespace Sys2Proof.Machine

/-- The processor's mode (R53, R500). -/
inductive Mode
  | user | kernel
  deriving DecidableEq, Repr, Inhabited

/-- The two virtual segments of a user program (R80). -/
inductive Segment
  | code | data
  deriving DecidableEq, Repr, Inhabited

/-- Real memory: (address, byte) pairs in canonical form, see `Memory.wf`. -/
abbrev Memory := List Host.Cell

/-- What an address the list does not hold reads as. DESIGN CHOICE (unsafe), log 5: the spec leaves the contents of memory
after reset unspecified (R64). -/
def Memory.unlisted : Byte := 0

/-- The canonical form: addresses strictly rising, no entry equal to what an unlisted address reads as. -/
abbrev Memory.wf (m : Memory) : Prop :=
  m.Pairwise (fun c d => c.1 < d.1) ∧ ∀ c ∈ m, c.2 ≠ Memory.unlisted

/-- A stretch of installed real memory (the parameter `real_memory` of D14). -/
structure Region where
  base : Nat
  size : Nat
  deriving DecidableEq, Repr, Inhabited

/-- A TMT entry: "the real page number, virtual address, and modify bits" (R110, R119). -/
structure TmtEntry where
  page     : Page
  realPage : Page
  modified : Bool
  deriving DecidableEq, Repr, Inhabited

/-- A page that a user program has accessed, and whether by a store: what the marks of R123 may follow. -/
structure PageAccess where
  segment : Word
  page    : Page
  stored  : Bool
  deriving DecidableEq, Repr, Inhabited

/-- A stretch of addresses fetched since the last flush, in kernel mode (`space` is none) or in a user code segment. -/
structure SeenFetch where
  space   : Option Word
  address : Word
  length  : Nat
  deriving DecidableEq, Repr, Inhabited

/-- What the instruction cache and the fetch-ahead unit may still hold that memory no longer does (R140, R141, R612;
log 38). -/
structure FetchState where
  /-- Bytes overwritten since the last flush, as they were before. -/
  stale   : List Host.Cell
  /-- After FLUSH: the old bytes that each of the buffered instructions may still show, the next one's first. -/
  ahead   : List (List Host.Cell)
  /-- The address the next buffered instruction must have. -/
  aheadPc : Word
  /-- What has been fetched since the last flush: the cache may hold it. -/
  seen    : List SeenFetch
  deriving DecidableEq, Repr, Inhabited

/-- Nothing old is left to fetch: the state after a flush that discards the fetch-ahead too (R141). -/
def FetchState.empty : FetchState := { stale := [], ahead := [], aheadPc := 0, seen := [] }

/-- The interrupts that wait (R57, R539): one pending state per source, one IOIR word per requesting device. -/
structure Pending where
  /-- The IOIR words of the devices that request an interrupt; the most significant byte is the device number (R475). -/
  external  : List Word
  switch0   : Bool
  powerFail : Bool
  endGlitch : Bool
  timer1    : Bool
  timer2    : Bool
  deriving DecidableEq, Repr, Inhabited

/-- No interrupt waits. -/
def Pending.none : Pending :=
  { external := [], switch0 := false, powerFail := false, endGlitch := false, timer1 := false, timer2 := false }

/-- The six interrupt sources (R508). -/
inductive Source
  | external | switch0 | powerFail | endGlitch | timer1 | timer2
  deriving DecidableEq, Repr, Inhabited

/-- How far the millisecond tick has come: what its next access of memory continues from (R131, R541). `address` is that of the
word, or of the time of day, that has been read. -/
inductive TickStage
  /-- No tick is under way. -/
  | idle
  /-- The clock word has been read. -/
  | clockRead (address count : Word)
  /-- The clock word is counted; the time of day comes next. -/
  | clockCounted
  /-- The more significant word of the time of day has been read. -/
  | highRead (address high : Word)
  /-- Both words of the time of day have been read. -/
  | timeRead (address : Word) (time : Double)
  /-- The more significant word of the new time of day is written, the other is to be. -/
  | highWritten (address low : Word)
  /-- The time of day is counted; timer 1 comes next. -/
  | timeCounted
  /-- The timer 1 count has been read. -/
  | timer1Read (address count : Word)
  /-- Timer 1 is counted, to this value; timer 2 comes next. -/
  | timer1Counted (timer1 : Word)
  /-- The timer 2 count has been read. -/
  | timer2Read (timer1 address count : Word)
  deriving DecidableEq, Repr, Inhabited

/-- What can happen between any two memory accesses, at a boundary or within an instruction (R96, R111, R123, R131). -/
inductive MemoryEvent
  /-- The tick makes its next access of memory, or its first one (R541). -/
  | tickAccess
  /-- A device writes a byte of real memory (R131). -/
  | dmaWrite (address : Word) (byte : Byte)
  /-- A TMT entry disappears (R111). -/
  | tmtDrop (seg : Segment) (page : Page)
  /-- The hardware marks the VRT entry of a page that was accessed: R, or M where it was stored to (R123). -/
  | vrtMark (segment : Word) (page : Page) (modified : Bool)
  deriving DecidableEq, Repr, Inhabited

/-- What the outside world and the memory system can do at an instruction boundary (R16). -/
inductive WorldEvent
  /-- The millisecond tick falls here whole, or what is left of the one under way (R541). -/
  | tick
  /-- A device requests an interrupt; its IOIR word (R475). -/
  | deviceRequest (ioir : Word)
  /-- A device withdraws its request. -/
  | deviceWithdraw (device : BitVec 8)
  /-- Switch 0 is depressed and released (R536). -/
  | switch0
  /-- AC power is being removed (R537). -/
  | powerFail
  /-- Power came back after a glitch (R538). -/
  | endGlitch
  /-- One of the events that can also fall within an instruction. -/
  | memory (e : MemoryEvent)
  /-- The memory system writes a bit of the error logging RAM (R455). -/
  | elogWrite (address : Nat) (bit : Bool)
  /-- The boot device switch is set (R59). -/
  | setBootDevice (on : Bool)
  /-- The load enable switch is set (R59). -/
  | setLoadEnable (on : Bool)
  /-- The next load or store meets a double bit parity error (R206, R526). -/
  | parityData
  /-- The next CCB word read at an exception entry meets one (R558). -/
  | parityEntry
  deriving DecidableEq, Repr, Inhabited

/-- One instruction boundary as the outside makes it (R507): the events that fall there, in order; the pending source the
processor accepts, if it accepts one; a double bit parity error the fetch-ahead unit meets (R525), with its address; and
what happens within the instruction or exception entry that follows, one list before each of its memory accesses (R131). -/
structure Boundary where
  events      : List WorldEvent
  accept      : Option Source
  parityFetch : Option Word
  within      : List (List MemoryEvent)
  deriving DecidableEq, Repr, Inhabited

/-- A boundary at which nothing happens. -/
def Boundary.quiet : Boundary := { events := [], accept := .none, parityFetch := .none, within := [] }

/-- The whole state. INVENTORY.md lists the rule that names each field. -/
structure State where
  /-- R0..R15 (R30). -/
  regs             : Vector Word 16
  /-- The program counter: the address of the instruction in progress (R36). -/
  pc               : Word
  /-- SR0..SR15 (R41). -/
  sr               : Vector Word 16
  /-- R53. -/
  mode             : Mode
  /-- The pause after RUM with SR14 = 1 (R58, R441). -/
  paused           : Bool
  /-- Real memory (R54). -/
  mem              : Memory
  /-- Which real addresses have memory (R94); no step changes it. -/
  installed        : List Region
  /-- The code half of the TMT (R110). -/
  codeTmt          : List TmtEntry
  /-- The data half of the TMT (R110). -/
  dataTmt          : List TmtEntry
  /-- The pages user programs have accessed, each once for accesses of either kind (R123). -/
  accessed         : List PageAccess
  /-- Instruction cache and fetch-ahead (R56). -/
  fetch            : FetchState
  /-- Pending interrupts (R57). -/
  pending          : Pending
  /-- The addresses of the error logging RAM whose bit is 1, rising (R60). -/
  elog             : List Nat
  /-- The millisecond tick under way, if one is (R131, R541). -/
  tickStage        : TickStage
  /-- R59, status bit 30. -/
  bootDeviceSwitch : Bool
  /-- R59, status bit 31. -/
  loadEnableSwitch : Bool
  /-- The transactions with devices, newest first (R474). -/
  ioTrace          : List IoTransaction
  /-- The MODEL's own: a parity error waits for the next load or store (R206, R526). -/
  parityData       : Bool
  /-- The MODEL's own: a parity error waits in the next CCB word read at an exception entry (R558). -/
  parityEntry      : Bool
  /-- The MODEL's own: what happens before each of the coming memory accesses of the instruction in progress (R131). -/
  within           : List (List MemoryEvent)
  /-- The MODEL's own: what the outside does at the coming boundaries (R16); a boundary past its end is quiet. -/
  world            : List Boundary
  /-- The MODEL's own: how many free values have been drawn. -/
  draws            : Nat
  deriving DecidableEq, Repr

/-- Reasons the machine stops with a fault. -/
inductive Fault
  /-- An access to a real address with no memory behind it, raised by every access of R94; the manual describes no bus
  error. Safe: the run stops. -/
  | outsideRealMemory (address : Nat)
  deriving DecidableEq, Repr

/-- Reasons the model defines no step. All are safe: the run stops where the spec gives the hardware no behaviour. -/
inductive Refusal
  /-- The instruction has no meaning in this model yet; raised by no arm of `exec`. -/
  | notModelled (mnemonic : String)
  /-- The program counter is odd at a step (R38, D7); raised by the instruction boundary, before anything else happens
there. -/
  | oddPc
  /-- Sequential execution runs past 0xFFFFFFFF (R39, D9); raised by the fetch and by the advance of the pc. -/
  | pastLastAddress
  /-- OP 0x4C with a subop the manual does not list (R166, D13); raised by the fetch. -/
  | unassignedSubop (subop : Reg)
  /-- SR11 is no multiple of 4, or the CCB does not lie in real memory, at an exception entry or a tick (R512, R558, U41);
or the CCB word of an exception entry meets a parity error (R558, U16). -/
  | ccbUnusable
  /-- SR14 is neither 1 nor a multiple of 4, at SUS, LUS, LDREGS or a tick (R431, U42). -/
  | pcbMisaligned
  /-- SR13 is no mask 2^k - 1 with k at least 4, at a VRT search (R116, U5). -/
  | vrtMaskInvalid
  /-- A VRT entry's address is no multiple of 4 (D14); raised by a VRT search. -/
  | vrtEntryMisaligned
  /-- A VRT search matches an entry whose VVV is not 111 (R121, U7). -/
  | vrtMatchInvalid
  /-- A VRT chain does not end within 8192 entries (R122, U6). -/
  | vrtChainEndless
  /-- TBIT, SBIT or CBIT with a bit number above 63 (R329, U28). -/
  | bitNumberOutOfRange
  /-- EADD or ESUB with R1 = 0 (R261, U19). -/
  | carryRegisterConflict
  deriving DecidableEq, Repr

/-- The machine right after reset. The spec gives no reset value (R62, R64, R600): each value is a DESIGN CHOICE, log 7
(memory: log 5; installed memory: log 6); mode KERNEL is the premise of R63 and D30. -/
def State.reset : State where
  regs := Vector.replicate 16 0
  pc := 0
  sr := Vector.replicate 16 0
  mode := .kernel
  paused := false
  mem := []
  installed := [{ base := 0, size := 2 ^ 32 }]
  codeTmt := []
  dataTmt := []
  accessed := []
  fetch := .empty
  pending := .none
  elog := []
  tickStage := .idle
  bootDeviceSwitch := false
  loadEnableSwitch := false
  ioTrace := []
  parityData := false
  parityEntry := false
  within := []
  world := []
  draws := 0

end Sys2Proof.Machine
end

