-- ==== Sys2Proof/Machine/Exceptions.lean ====
section
/-! DEFINITION. The exceptions: what they report, and where the CCB holds their handlers (spec/60_exceptions.md rules R508,
R520, R521). -/

namespace Sys2Proof.Machine

/-- Every exception of the CCB table, with what it reports. -/
inductive Exception
  /-- KCALL n (R531). -/
  | kcall (n : BitVec 8)
  /-- Data alignment (R523): the segment number in user mode, none in kernel mode; the effective address. -/
  | dataAlignment (segment : Option Word) (address : Word)
  /-- Illegal instruction (R524): opcode, R1 field, and the R2 field for a register format opcode. -/
  | illegalInstruction (op : Byte) (r1 : Reg) (r2 : Option Reg)
  /-- Double bit parity error on a code fetch (R525). -/
  | parityCodeFetch (address : Word)
  /-- Double bit parity error on execute (R526). -/
  | parityExecute (address : Word)
  /-- Page fault (R527): the segment number searched for and the virtual address. -/
  | pageFault (segment address : Word)
  /-- Kernel violation (R530): opcode, R1 field, R2 field. -/
  | kernelViolation (op : Byte) (r1 r2 : Reg)
  /-- Check trap (R528): R1 field, R2 field. -/
  | check (r1 r2 : Reg)
  /-- A traps word trap with its code, 0..20 (R529). -/
  | trapsWord (code : Nat)
  /-- External interrupt with the device's IOIR word (R535). -/
  | external (ioir : Word)
  /-- R536. -/
  | switch0
  /-- R537. -/
  | powerFail
  /-- R538. -/
  | endGlitch
  /-- R543. -/
  | timer1
  /-- R543. -/
  | timer2
  deriving DecidableEq, Repr

/-- The offset of an exception's entry in the CCB (R520); the check trap is at 0x418 (C3, D20). -/
def Exception.ccbOffset : Exception → Nat
  | .kcall n => 4 * n.toNat
  | .dataAlignment _ _ => 0x400
  | .illegalInstruction _ _ _ => 0x404
  | .parityCodeFetch _ => 0x408
  | .parityExecute _ => 0x40C
  | .pageFault _ _ => 0x410
  | .kernelViolation _ _ _ => 0x414
  | .check _ _ => 0x418
  | .trapsWord _ => 0x41C
  | .external _ => 0x420
  | .switch0 => 0x424
  | .powerFail => 0x428
  | .endGlitch => 0x42C
  | .timer1 => 0x430
  | .timer2 => 0x434

/-- The SR1 column of R521; `none` is a blank cell. -/
def Exception.info1 : Exception → Option Word
  | .kcall n => some (n.zeroExtend 32)
  | .illegalInstruction op _ _ => some (op.zeroExtend 32)
  | .kernelViolation op _ _ => some (op.zeroExtend 32)
  | .external w => some w
  | _ => none

/-- The SR2 column of R521. In kernel mode a data alignment trap has no segment number (R523). -/
def Exception.info2 : Exception → Option Word
  | .dataAlignment seg _ => seg
  | .illegalInstruction _ r1 _ => some (r1.zeroExtend 32)
  | .pageFault seg _ => some seg
  | .kernelViolation _ r1 _ => some (r1.zeroExtend 32)
  | .check r1 _ => some (r1.zeroExtend 32)
  | _ => none

/-- The SR3 column of R521; the traps word code is there (C5, D19). -/
def Exception.info3 : Exception → Option Word
  | .dataAlignment _ a => some a
  | .illegalInstruction _ _ r2 => r2.map (fun f => f.zeroExtend 32)
  | .parityCodeFetch a => some a
  | .parityExecute a => some a
  | .pageFault _ a => some a
  | .kernelViolation _ _ r2 => some (r2.zeroExtend 32)
  | .check _ r2 => some (r2.zeroExtend 32)
  | .trapsWord code => some (BitVec.ofNat 32 code)
  | _ => none

end Sys2Proof.Machine
end

