-- ==== Sys2Proof/Machine/Bytes.lean ====
section
/-! DEFINITION. Bytes of memory and of instructions: byte order (rules R87, R88 of spec/20_memory.md), and the operations
on the memory list that keep it canonical. -/

namespace Sys2Proof

/-- `sext_32` of a 16-bit displacement (R160). -/
def sext16 (d : Half) : Word := d.signExtend 32

/-- Two bytes in memory order, most significant first (R87). -/
def halfOfBytes (b0 b1 : Byte) : Half := b0 ++ b1

/-- Four bytes in memory order (R87). -/
def wordOfBytes (b0 b1 b2 b3 : Byte) : Word := (b0 ++ b1) ++ (b2 ++ b3)

/-- The bytes of a halfword in memory order (R88). -/
def bytesOfHalf (h : Half) : List Byte := [h.extractLsb' 8 8, h.extractLsb' 0 8]

/-- The bytes of a word in memory order (R88). -/
def bytesOfWord (w : Word) : List Byte :=
  [w.extractLsb' 24 8, w.extractLsb' 16 8, w.extractLsb' 8 8, w.extractLsb' 0 8]

namespace Machine

/-- The byte at an address. -/
def Memory.read : Memory → Nat → Byte
  | [], _ => Memory.unlisted
  | (k, b) :: m, a => if k = a then b else Memory.read m a

/-- The memory without an entry for an address. -/
def Memory.erase (m : Memory) (a : Nat) : Memory := m.filter (fun c => c.1 ≠ a)

/-- The memory with an entry put in its place, replacing one of the same address. -/
def Memory.insert : Memory → Nat → Byte → Memory
  | [], a, b => [(a, b)]
  | (k, c) :: m, a, b =>
    if a < k then (a, b) :: (k, c) :: m
    else if a = k then (a, b) :: m
    else (k, c) :: Memory.insert m a b

/-- Writing one byte; the value an unlisted address reads as removes the entry. -/
def Memory.write (m : Memory) (a : Nat) (b : Byte) : Memory :=
  if b = Memory.unlisted then m.erase a else m.insert a b

/-- The `n` bytes from address `a` as a number, most significant byte at the lowest address (R88). -/
def Memory.load (m : Memory) : Nat → Nat → Nat
  | _, 0 => 0
  | a, n + 1 => (m.read a).toNat * 256 ^ n + m.load (a + 1) n

/-- The low `n` bytes of `v` written from address `a`, most significant byte at the lowest address (R88). -/
def Memory.store (m : Memory) : Nat → Nat → Nat → Memory
  | _, 0, _ => m
  | a, n + 1, v => (m.store (a + 1) n v).write a (BitVec.ofNat 8 (v / 256 ^ n))

/-- Bytes written one after the other from address `a`. -/
def Memory.storeBytes (m : Memory) : Nat → List Byte → Memory
  | _, [] => m
  | a, b :: bs => (m.storeBytes (a + 1) bs).write a b

end Machine
end Sys2Proof
end

