-- ==== Sys2Proof/Machine/Registers.lean ====
section
/-! DEFINITION. The named operations over registers, the program counter and the free values (spec/10_state.md). -/

namespace Sys2Proof.Machine

/-- What a step, or an instruction, answers. -/
abbrev Outcome := Host.Outcome State Fault Refusal

/-! ## Registers -/

/-- `x[r]` (R30). No general register is hard-wired (R31). -/
def State.reg (s : State) (r : Reg) : Word := s.regs[r.toNat]'r.isLt

/-- `x[r] <- v`. -/
def State.setReg (s : State) (r : Reg) (v : Word) : State := { s with regs := s.regs.set r.toNat v r.isLt }

/-- `xp[r]`: `x[r]` above `x[(r+1) mod 16]` (R10, R32). -/
def State.pair (s : State) (r : Reg) : Double := s.reg r ++ s.reg (r + 1)

/-- `xp[r] <- v`: the high half to `x[r]`, the low half to `x[(r+1) mod 16]` (R10). -/
def State.setPair (s : State) (r : Reg) (v : Double) : State :=
  (s.setReg r (v.extractLsb' 32 32)).setReg (r + 1) (v.extractLsb' 0 32)

/-- `sr[k]` (R41). -/
def State.spec (s : State) (k : Reg) : Word := s.sr[k.toNat]'k.isLt

/-- `sr[k] <- v`; every bit of every special register can be written (R41). -/
def State.setSpec (s : State) (k : Reg) (v : Word) : State := { s with sr := s.sr.set k.toNat v k.isLt }

/-- `pc <- t`. -/
def State.setPc (s : State) (t : Word) : State := { s with pc := t }

/-- `twbit(k)`: bit k of the traps word, bit 0 the most significant (R10, R50). -/
def State.trapEnabled (s : State) (k : Nat) : Bool := (s.spec 10).getMsbD k

/-- The privileged mode bit, bit 31 of the traps word (R50, R502). -/
def State.privileged (s : State) : Bool := s.trapEnabled 31

/-- `next`, the address of the next sequential instruction (R10), modulo 2^32. -/
def State.nextPc (s : State) (len : Nat) : Word := s.pc + BitVec.ofNat 32 len

/-- The end of an instruction that does not transfer control: `pc <- pc + len` (R37). Running past the last address is
refused (R39, D9). -/
def advance (len : Nat) (s : State) : Outcome :=
  if s.pc.toNat + len < 2 ^ 32 then .next (s.setPc (s.nextPc len)) else .refused .pastLastAddress

/-! ## The Process Control Block -/

/-- The real address of a PCB member: SR14 plus its offset. -/
def State.pcbAddress (s : State) (offset : Word) : Word := s.spec 14 + offset

/-! ## Free values -/

/-- `unspecified(32)`: the next free word (R10). -/
def State.freeWord (s : State) : Word := Config.freeWord s.draws

/-- The state after one free value has been drawn. -/
def State.drawn (s : State) : State := { s with draws := s.draws + 1 }

/-- `x[r] <- unspecified(32)`. -/
def State.scrambleReg (s : State) (r : Reg) : State := (s.setReg r s.freeWord).drawn

/-- `xp[r] <- unspecified(64)`. -/
def State.scramblePair (s : State) (r : Reg) : State := (s.scrambleReg r).scrambleReg (r + 1)

/-- The candidate a free choice takes from a list, if there is one. With one candidate nothing is left to choose. -/
def chooseFrom {α : Type} (n : Nat) : List α → Option α
  | [] => none
  | [a] => some a
  | a :: b :: l => some ((a :: b :: l).getD (Config.freeIndex n % (l.length + 2)) a)

end Sys2Proof.Machine
end

