-- ==== Sys2Proof/Machine/RealMemory.lean ====
section
/-! DEFINITION. Accesses of real memory (spec/20_memory.md rules R94 and R96), and how operations that may raise an exception
follow one another. -/

namespace Sys2Proof.Machine

/-- Whether there is memory at a real address. -/
def State.installedAt (s : State) (a : Nat) : Bool :=
  decide (a < 2 ^ 32) && s.installed.any (fun r => decide (r.base ≤ a) && decide (a < r.base + r.size))

/-- Whether there is memory at all `n` addresses from `a`. -/
def State.backed (s : State) (a n : Nat) : Bool := (List.range n).all (fun k => s.installedAt (a + k))

/-- The bytes among the `n` from `a` that differ between two memories, as they were in the first. -/
def changedBytes (old new : Memory) (a n : Nat) : List Host.Cell :=
  (List.range n).filterMap (fun k =>
    if old.read (a + k) = new.read (a + k) then none else some (a + k, old.read (a + k)))

/-- Real memory replaced by `m`, which differs from it at most in the `n` bytes from `a`: the old bytes stay visible to
instruction fetch until a flush (R140). -/
def State.setMem (s : State) (m : Memory) (a n : Nat) : State :=
  { s with mem := m, fetch := { s.fetch with stale := changedBytes s.mem m a n ++ s.fetch.stale } }

/-- A result of an operation that may access memory: a value, an exception the instruction raises, or the end of the
run. -/
inductive Access (α : Type)
  | ok (v : α) (s : State)
  | trap (e : Exception) (s : State)
  | fault (f : Fault)
  | refused (r : Refusal)

/-- One operation after another. -/
def Access.bind {α β : Type} (x : Access α) (k : α → State → Access β) : Access β :=
  match x with
  | .ok v s => k v s
  | .trap e s => .trap e s
  | .fault f => .fault f
  | .refused r => .refused r

/-- `RealRead(ra, n)` (R94): the bytes as a number, most significant first. -/
def realRead (a n : Nat) (s : State) : Access Nat :=
  if s.backed a n then .ok (s.mem.load a n) s else .fault (.outsideRealMemory a)

/-- `RealWrite(ra, n, v)` (R94). -/
def realWrite (a n v : Nat) (s : State) : Access Unit :=
  if s.backed a n then .ok () (s.setMem (s.mem.store a n v) a n) else .fault (.outsideRealMemory a)

/-- `RealRead32`. -/
def realRead32 (a : Word) (s : State) : Access Word :=
  (realRead a.toNat 4 s).bind fun v s' => .ok (BitVec.ofNat 32 v) s'

/-- `RealWrite32`. -/
def realWrite32 (a v : Word) (s : State) : Access Unit := realWrite a.toNat 4 v.toNat s

/-! ## Accesses in parts (R96, U12)

`pause` is what happens before an access: it changes the state, or ends the run. -/

/-- The pause before which nothing happens. -/
def noPause (s : State) : Access Unit := .ok () s

/-- A read in one access, after a pause. -/
def pausedRead (pause : State → Access Unit) (a n : Nat) (s : State) : Access Nat :=
  (pause s).bind fun _ s1 => realRead a n s1

/-- A write in one access, after a pause. -/
def pausedWrite (pause : State → Access Unit) (a n v : Nat) (s : State) : Access Unit :=
  (pause s).bind fun _ s1 => realWrite a n v s1

/-- A read of a word or less in one access, and of 8 bytes in two, the most significant word first (R96, U12). The 8 bytes are
those of LOADD, at a multiple of 8, so no address passes 2^32 (R91). -/
def readParts (pause : State → Access Unit) (a n : Nat) (s : State) : Access Nat :=
  if n = 8 then
    (pausedRead pause a 4 s).bind fun hi s1 =>
    (pausedRead pause (a + 4) 4 s1).bind fun lo s2 => .ok (hi * 2 ^ 32 + lo) s2
  else pausedRead pause a n s

/-- A write, in the same parts. -/
def writeParts (pause : State → Access Unit) (a n v : Nat) (s : State) : Access Unit :=
  if n = 8 then
    (pausedWrite pause a 4 (v / 2 ^ 32) s).bind fun _ s1 => pausedWrite pause (a + 4) 4 v s1
  else pausedWrite pause a n v s

end Sys2Proof.Machine
end

