-- ==== Sys2Proof/Machine/Tick.lean ====
section
/-! DEFINITION. The millisecond tick, one access of memory after the other (spec/60_exceptions.md rules R540 to R546,
spec/20_memory.md rules R96 and R131). -/

namespace Sys2Proof.Machine

/-- Whether SR11 points at a CCB in real memory (R512): a multiple of 4, and memory at its last byte, the sum modulo 2^32
(R10). -/
def State.ccbPlaced (s : State) : Bool :=
  decide ((s.spec 11).toNat % 4 = 0) && s.installedAt (s.spec 11 + 0x44F).toNat

/-- The word the tick counts in: the process clock of the PCB, or with SR14 = 1 the clock tick while paused count. -/
def State.clockWord (s : State) : Word :=
  if s.spec 14 = 1 then s.spec 11 + 0x43C else s.pcbAddress Config.pcbLayout.clock

/-- A timer interrupt becomes pending where its count is negative. -/
def State.timersPending (s : State) (t1 t2 : Word) : State :=
  { s with pending := { s.pending with
      timer1 := s.pending.timer1 || decide (t1.toInt < 0), timer2 := s.pending.timer2 || decide (t2.toInt < 0) } }

/-- The tick at a stage. -/
def State.setTick (s : State) (stage : TickStage) : State := { s with tickStage := stage }

/-- The tick reads a word, and goes on from what it reads. -/
def tickRead (a : Word) (stage : Word → TickStage) (s : State) : Access Unit :=
  (realRead32 a s).bind fun v s1 => .ok () (s1.setTick (stage v))

/-- The tick writes a word. -/
def tickWrite (a v : Word) (stage : TickStage) (s : State) : Access Unit :=
  (realWrite32 a v s).bind fun _ s1 => .ok () (s1.setTick stage)

/-- The tick reads a word of the CCB data area, at the address SR11 gives now; where SR11 gives none it is refused (R546, U41). -/
def tickReadCcb (offset : Word) (stage : Word → Word → TickStage) (s : State) : Access Unit :=
  if s.ccbPlaced then tickRead (s.spec 11 + offset) (stage (s.spec 11 + offset)) s else .refused .ccbUnusable

/-- The first access of a tick. Before SR11 and SR14 are valid it is refused (R546, U41, U42). -/
def tickBegin (s : State) : Access Unit :=
  if s.ccbPlaced = false then .refused .ccbUnusable
  else if s.spec 14 ≠ 1 ∧ (s.spec 14).toNat % 4 ≠ 0 then .refused .pcbMisaligned
  else tickRead s.clockWord (.clockRead s.clockWord) s

/-- The next access of the tick, in the order of R541; the time of day is two words (R96), the more significant one first
(DESIGN CHOICE, log 11). After the last one the timer interrupts become pending. -/
def tickAccess (s : State) : Access Unit :=
  match s.tickStage with
  | .idle => tickBegin s
  | .clockRead a count => tickWrite a (count + 1) .clockCounted s
  | .clockCounted => tickReadCcb 0x448 .highRead s
  | .highRead a high => tickRead (a + 4) (fun low => .timeRead a (high ++ low)) s
  | .timeRead a time =>
    let new := time + 1000000
    tickWrite a (new.extractLsb' 32 32) (.highWritten a (new.extractLsb' 0 32)) s
  | .highWritten a low => tickWrite (a + 4) low .timeCounted s
  | .timeCounted => tickReadCcb 0x440 .timer1Read s
  | .timer1Read a count => tickWrite a (count - 1) (.timer1Counted (count - 1)) s
  | .timer1Counted t1 => tickReadCcb 0x444 (.timer2Read t1) s
  | .timer2Read t1 a count =>
    (tickWrite a (count - 1) .idle s).bind fun _ s1 => .ok () (s1.timersPending t1 (count - 1))

/-- The next accesses of the tick to its end, `n` at most. -/
def tickAccesses : Nat → State → Access Unit
  | 0, s => .ok () s
  | n + 1, s => (tickAccess s).bind fun _ s1 => if s1.tickStage = .idle then .ok () s1 else tickAccesses n s1

/-- The millisecond tick with nothing in between (R541), or what is left of the one under way: ten accesses at most. -/
def tick (s : State) : Access Unit := tickAccesses 10 s

end Sys2Proof.Machine
end

