-- ==== Sys2Proof/Machine/Vrt.lean ====
section
/-! DEFINITION. The Virtual to Real Translation table: its entries and the search (spec/20_memory.md rules R116 to R125). -/

namespace Sys2Proof.Machine

/-! ## Entries (R118) -/

/-- A field of a VRT entry, zero-extended. -/
def vrtField (at_ width : Nat) (e : Double) : Nat := (e.extractLsb' at_ width).toNat

/-- `seg(e)`. -/
def vrtSeg (e : Double) : Nat := vrtField Config.vrtLayout.segAt Config.vrtLayout.segBits e
/-- `tag(e)`. -/
def vrtTag (e : Double) : Half := e.extractLsb' Config.vrtLayout.tagAt 16
/-- `link(e)`. -/
def vrtLink (e : Double) : Half := e.extractLsb' Config.vrtLayout.linkAt 16
/-- `vvv(e)`. -/
def vrtVvv (e : Double) : BitVec 3 := e.extractLsb' Config.vrtLayout.vvvAt 3
/-- `m(e)`. -/
def vrtM (e : Double) : Bool := e.getLsbD Config.vrtLayout.mAt
/-- `realpage(e)`, zero-extended to 20 bits (R125). -/
def vrtRealPage (e : Double) : Page := BitVec.ofNat 20 (vrtField Config.vrtLayout.pageAt Config.vrtLayout.pageBits e)
/-- The entry with its referenced bit set. -/
def vrtSetR (e : Double) : Double := e ||| (1#64 <<< Config.vrtLayout.rAt)
/-- The entry with its modified bit set. -/
def vrtSetM (e : Double) : Double := e ||| (1#64 <<< Config.vrtLayout.mAt)

/-- VRMASK is a right-justified mask of ones, at least 15 (R116). -/
def vrtMaskValid (m : Word) : Bool := decide (15 ≤ m.toNat) && decide (m &&& (m + 1) = 0)

/-- `va<0..19>`, the page number (R119). -/
def pageOf (va : Word) : Page := va.extractLsb' 12 20

/-- The real address of a page and the offset `va<20..31>` (R119, R125). -/
def realAddress (p : Page) (va : Word) : Word := p ++ va.extractLsb' 0 12

/-- The address of the first VRT entry of a search, steps 1 to 3 of R119. -/
def vrtHead (segment va : Word) (s : State) : Word :=
  s.spec 12 + (((segment + (pageOf va).zeroExtend 32) &&& s.spec 13) <<< 3)

/-- Whether a search for a segment number takes an entry for its own: by the low SEG_BITS bits of the number (R46, D15), of
TRANS and DIRT too, where D15 wins over R465's clause on wider numbers (DEDUCED, log 13). -/
def segMatches (segment : Word) (e : Double) : Bool :=
  decide (vrtSeg e = segment.toNat % 2 ^ Config.vrtLayout.segBits)

/-- Whether an entry is the one searched for (R119 step 4, R121): segment number and tag. -/
def vrtMatches (segment va : Word) (e : Double) : Bool :=
  segMatches segment e && decide (vrtTag e = va.extractLsb' 16 16)

/-! ## The search (R119) -/

/-- The 64 bits of two words, the one at the lower offset the most significant (R88). -/
def vrtWords (high low : Nat) : Double := BitVec.ofNat 32 high ++ BitVec.ofNat 32 low

/-- The entry at an address, read in two words (R95, R96), the one at the address first. The second is at the address plus 4
modulo 2^32 (R10): an entry at 0xFFFFFFFC has it at 0 (DEDUCED, log 14). `pause` says what happens before each word is read. -/
def readEntry (pause : State → Access Unit) (ea : Word) (s : State) : Access Double :=
  (pausedRead pause ea.toNat 4 s).bind fun high s1 =>
  (pausedRead pause (ea + 4).toNat 4 s1).bind fun low s2 => .ok (vrtWords high low) s2

/-- Steps 4 to 6 from the entry at an address, examining at most `fuel` entries (R122): the entry found with its address, or
none. `pause` says what happens before each word is read. -/
def vrtChain (pause : State → Access Unit) (segment va : Word) :
    Nat → Word → State → Access (Option (Word × Double))
  | 0, _, _ => .refused .vrtChainEndless
  | fuel + 1, ea, s =>
    if ea.toNat % 4 ≠ 0 then .refused .vrtEntryMisaligned
    else
      (readEntry pause ea s).bind fun e s1 =>
        if vrtMatches segment va e then
          if vrtVvv e = 7 then .ok (some (ea, e)) s1 else .refused .vrtMatchInvalid
        else if vrtLink e = 0 then .ok none s1
        else vrtChain pause segment va fuel (s.spec 12 + (vrtLink e).zeroExtend 32) s1

/-- The whole search for a segment number and a virtual address. -/
def vrtSearchWith (pause : State → Access Unit) (segment va : Word) (s : State) :
    Access (Option (Word × Double)) :=
  if vrtMaskValid (s.spec 13) then vrtChain pause segment va 8192 (vrtHead segment va s) s
  else .refused .vrtMaskInvalid

/-- The search in memory as it stands. -/
def vrtFind (segment va : Word) (s : State) : Access (Option (Word × Double)) := vrtSearchWith noPause segment va s

/-- A word stored in memory. -/
def State.setWord (s : State) (a v : Word) : State := s.setMem (s.mem.store a.toNat 4 v.toNat) a.toNat 4

/-- The entry at an address changed in memory, in its two words: what sets its R or M bit (R123, R465, R466). -/
def State.markEntry (s : State) (ea : Word) (update : Double → Double) : State :=
  let e := update (vrtWords (s.mem.load ea.toNat 4) (s.mem.load (ea + 4).toNat 4))
  (s.setWord ea (e.extractLsb' 32 32)).setWord (ea + 4) (e.extractLsb' 0 32)

end Sys2Proof.Machine
end

