-- ==== Sys2Proof/Machine/Bus.lean ====
section
/-! DEFINITION. The memory accesses of instructions and exception entries, and what other agents do between them
(spec/20_memory.md rules R96, R111, R123, R131). -/

namespace Sys2Proof.Machine

/-! ## Device writes -/

/-- A device's byte written into real memory by DMA (R16, R131). Where no memory is, the byte is lost: DESIGN CHOICE, log 59
(R94 and U4 speak of the processor's accesses only). -/
def dmaByte (a : Nat) (b : Byte) (s : State) : State :=
  if s.installedAt a then s.setMem (s.mem.write a b) a 1 else s

/-! ## The Translation Mapping Table (R110, R111) -/

/-- The half of the TMT for a segment. -/
def State.tmt (s : State) : Segment → List TmtEntry
  | .code => s.codeTmt
  | .data => s.dataTmt

/-- A half of the TMT replaced. -/
def State.setTmt (s : State) (seg : Segment) (t : List TmtEntry) : State :=
  match seg with
  | .code => { s with codeTmt := t }
  | .data => { s with dataTmt := t }

/-- The mapping of a page gone from a half of the TMT. -/
def State.dropTmt (s : State) (seg : Segment) (page : Page) : State :=
  s.setTmt seg ((s.tmt seg).filter (fun x => x.page ≠ page))

/-! ## Marks that follow accesses (R123) -/

/-- An access put into a list that does not hold it. -/
def noteAccess (l : List PageAccess) (x : PageAccess) : List PageAccess := if l.contains x then l else x :: l

/-- An access of user mode to a page, noted. -/
def State.recordAccess (s : State) (segment : Word) (page : Page) (stored : Bool) : State :=
  { s with accessed := noteAccess s.accessed { segment := segment, page := page, stored := stored } }

/-- Whether the hardware may mark the VRT entry of a page (R123): R after any access to it, M after a store. -/
def State.mayMark (s : State) (segment : Word) (page : Page) (modified : Bool) : Bool :=
  s.accessed.any (fun x => decide (x.segment = segment ∧ x.page = page) && (x.stored || !modified))

/-- A mark of R or M: in user mode, after an access that allows it, on the entry that maps the page, if one does. -/
def State.markPage (s : State) (segment : Word) (page : Page) (modified : Bool) : State :=
  if s.mode = .user ∧ s.mayMark segment page modified = true then
    match vrtFind segment (page ++ 0#12) s with
    | .ok (some (ea, _)) _ => s.markEntry ea (if modified then vrtSetM else vrtSetR)
    | _ => s
  else s

/-! ## Events between accesses -/

/-- One event. -/
def applyMemoryEvent (e : MemoryEvent) (s : State) : Access Unit :=
  match e with
  | .tickAccess => tickAccess s
  | .dmaWrite a b => .ok () (dmaByte a.toNat b s)
  | .tmtDrop seg page => .ok () (s.dropTmt seg page)
  | .vrtMark segment page modified => .ok () (s.markPage segment page modified)

/-- Events one after the other. -/
def applyMemoryEvents : List MemoryEvent → State → Access Unit
  | [], s => .ok () s
  | e :: es, s => (applyMemoryEvent e s).bind fun _ s1 => applyMemoryEvents es s1

/-- What happens before the next memory access of the instruction in progress (R131). A tick that cannot go on ends the run
(R94, R546). -/
def State.between (s : State) : Access Unit :=
  match s.within with
  | [] => .ok () s
  | es :: rest => applyMemoryEvents es { s with within := rest }

/-! ## Accesses -/

/-- A read by an instruction: each of its parts after the events that fall before it (R96, U12). -/
def busRead (a n : Nat) (s : State) : Access Nat := readParts State.between a n s

/-- A write by an instruction. -/
def busWrite (a n v : Nat) (s : State) : Access Unit := writeParts State.between a n v s

/-- A word read by an instruction. -/
def busRead32 (a : Word) (s : State) : Access Word :=
  (busRead a.toNat 4 s).bind fun v s1 => .ok (BitVec.ofNat 32 v) s1

/-- A word written by an instruction. -/
def busWrite32 (a v : Word) (s : State) : Access Unit := busWrite a.toNat 4 v.toNat s

/-- The VRT search of an access, of TRANS or of DIRT: each word of an entry after the events that fall before it. -/
def vrtSearch (segment va : Word) (s : State) : Access (Option (Word × Double)) :=
  vrtSearchWith State.between segment va s

end Sys2Proof.Machine
end

