-- ==== Sys2Proof/Machine/Ops.lean ====
section
/-! DEFINITION. Taking an exception, returning from one, and the mode checks (spec/60_exceptions.md rules R510 to R512,
spec/46_kernel_state_switching.md, spec/47_maintenance_vm_io.md rules R460 to R462). -/

namespace Sys2Proof.Machine

/-! ## Taking an exception (R510 to R512) -/

/-- The address of the CCB word at an offset (R510, R520), modulo 2^32 (R10). -/
def State.ccbAddress (s : State) (off : Nat) : Word := s.spec 11 + BitVec.ofNat 32 off

/-- Whether an entry can be made (R512, R558): SR11 at a CCB, the entry's own word in real memory, no parity error on it. -/
def State.ccbUsable (s : State) (off : Nat) : Bool :=
  !s.parityEntry && s.ccbPlaced && s.backed (s.ccbAddress off).toNat 4

/-- The handler's address: the CCB word at an offset (R510). -/
def State.ccbWord (s : State) (off : Nat) : Word := BitVec.ofNat 32 (s.mem.load (s.ccbAddress off).toNat 4)

/-- One of SR1, SR2, SR3 at an entry: the table's value, or `unspecified(32)` for a blank cell (R522). -/
def State.setInfo (s : State) (k : Reg) (v : Option Word) : State :=
  match v with
  | some w => s.setSpec k w
  | none => (s.setSpec k s.freeWord).drawn

/-- Where the return address goes: SR15, with SR0 = 1, from user mode; SR0 from kernel mode and from the pause (R510). -/
def State.saveReturn (s : State) (ret : Word) : State :=
  match s.mode with
  | .user => (s.setSpec 15 ret).setSpec 0 1
  | .kernel => s.setSpec 0 ret

/-- Exception entry (R510) where the CCB word can be read: the registers saved, kernel mode, the pc at the handler. -/
def enterException (e : Exception) (ret : Word) (s : State) : Outcome :=
  if s.ccbUsable e.ccbOffset then
    let t := (((s.saveReturn ret).setInfo 1 e.info1).setInfo 2 e.info2).setInfo 3 e.info3
    .next { t with mode := .kernel, paused := false, pc := s.ccbWord e.ccbOffset }
  else .refused .ccbUnusable

/-- Exception entry (R510), for every trap and interrupt: `ret` is the address to save. Nothing else changes (R511), but for
what other agents do before the CCB is read; they raise no exception of this program (R558 refuses one within an entry). -/
def takeException (e : Exception) (ret : Word) (s : State) : Outcome :=
  match s.between with
  | .ok _ s0 => enterException e ret s0
  | .trap _ _ => .refused .ccbUnusable
  | .fault f => .fault f
  | .refused r => .refused r

/-- A trap of the instruction in progress: the saved address is its own (R506, R510). -/
def raise (e : Exception) (s : State) : Outcome := takeException e s.pc s

/-- The end of an operation that may have raised an exception. -/
def Access.finish {α : Type} (x : Access α) (k : α → State → Outcome) : Outcome :=
  match x with
  | .ok v s => k v s
  | .trap e s => raise e s
  | .fault f => .fault f
  | .refused r => .refused r

/-! ## Returning (R440, R462, R555, R556) -/

/-- Nothing translated and nothing cached: what FLUSH, LUS and TRAPEXIT do to the TMT (R112, R141). -/
def State.flushTmt (s : State) : State := { s with codeTmt := [], dataTmt := [] }

/-- The instruction cache and the fetch-ahead unit emptied, as LUS and TRAPEXIT leave them (R141). -/
def State.flushFetch (s : State) : State := { s with fetch := .empty }

/-- The old bytes the next instruction may still show, where it is one of those buffered ahead at an earlier FLUSH. -/
def FetchState.buffered (f : FetchState) (pc : Word) : List Host.Cell := if f.aheadPc = pc then f.ahead.headD [] else []

/-- The cache emptied by FLUSH at the current pc: each of the two instructions already fetched ahead may still show the old
bytes it could have shown, and no later one (R140, R141). -/
def State.flushCacheOnly (s : State) : State :=
  let next := s.nextPc 2
  { s with fetch := {
      stale := [], ahead := [s.fetch.buffered next ++ s.fetch.stale, s.fetch.stale], aheadPc := next, seen := [] } }

/-- RUM with SR14 not 1: user mode, at SR15 (R440). -/
def State.resumeUser (s : State) : State := { s with mode := .user, pc := s.spec 15 }

/-- TRAPEXIT: on in kernel mode, at SR0, with TMT and cache flushed (R462). -/
def State.resumeKernel (s : State) : State := { s.flushTmt.flushFetch with pc := s.spec 0 }

/-! ## Mode checks (R425, R450, R503) -/

/-- A kernel-only instruction: outside kernel mode it raises a kernel violation and does nothing else. -/
def kernelOnly (op : Byte) (r1 r2 : Reg) (k : State → Outcome) (s : State) : Outcome :=
  match s.mode with
  | .kernel => k s
  | .user => raise (.kernelViolation op r1 r2) s

/-- A kernel-or-privileged instruction: also available in user mode with bit 31 of the traps word set. -/
def kernelOrPrivileged (op : Byte) (r1 r2 : Reg) (k : State → Outcome) (s : State) : Outcome :=
  match s.mode with
  | .kernel => k s
  | .user => if s.privileged then k s else raise (.kernelViolation op r1 r2) s

end Sys2Proof.Machine
end

