-- ==== Sys2Proof/Machine/Translate.lean ====
section
/-! DEFINITION. Address translation through the TMT and the VRT, and data accesses (spec/20_memory.md sections 4 and 6). -/

namespace Sys2Proof.Machine

/-! ## The Translation Mapping Table (R110 to R112) -/

/-- The entry for a page, if the half holds one. -/
def tmtFind (t : List TmtEntry) (p : Page) : Option TmtEntry := t.find? (fun e => e.page = p)

/-- A half of the TMT with a mapping loaded: it replaces one of the same page; in a half of 16 a free choice is replaced
(R111). -/
def tmtLoad (n : Nat) (t : List TmtEntry) (e : TmtEntry) : List TmtEntry :=
  let rest := t.filter (fun x => x.page ≠ e.page)
  if rest.length < 16 then e :: rest else e :: (rest.eraseIdx (Config.freeIndex n % 16)).take 15

/-- `seg_number` (R91): SR8 for CODE, SR9 for DATA. -/
def State.segNumber (s : State) : Segment → Word
  | .code => s.spec 8
  | .data => s.spec 9

/-- After the search of a translation (R119): the R bit is set in the entry found in memory and the TMT loaded, or a page
fault is raised. -/
def loadMapping (seg : Segment) (va : Word) (found : Option (Word × Double)) (s : State) : Access Page :=
  match found with
  | some (ea, e) =>
    s.between.bind fun _ s0 =>
      let s1 := s0.markEntry ea vrtSetR
      let entry : TmtEntry := { page := pageOf va, realPage := vrtRealPage e, modified := vrtM e }
      .ok entry.realPage (s1.setTmt seg (tmtLoad s1.draws (s1.tmt seg) entry)).drawn
  | none => .trap (.pageFault (s.segNumber seg) va) s

/-- The mapping of a page: from the TMT, or from the VRT (R119). -/
def lookupPage (seg : Segment) (va : Word) (s : State) : Access Page :=
  s.between.bind fun _ s0 =>
    match tmtFind (s0.tmt seg) (pageOf va) with
    | some e => .ok e.realPage s0
    | none => (vrtSearch (s0.segNumber seg) va s0).bind (loadMapping seg va)

/-- `Translate(seg, va, access)` (R119), user mode. The access is noted: from now on the hardware may mark the page (R123). -/
def translate (seg : Segment) (va : Word) (write : Bool) (s : State) : Access Word :=
  (lookupPage seg va s).bind fun p s1 =>
    .ok (realAddress p va) (s1.recordAccess (s1.segNumber seg) (pageOf va) write)

/-- The real address an access uses: the address itself in kernel mode, translated in user mode (R82, R91). -/
def resolve (seg : Segment) (va : Word) (write : Bool) (s : State) : Access Word :=
  match s.mode with
  | .kernel => .ok va s
  | .user => translate seg va write s

/-! ## Data accesses (R91 to R93) -/

/-- The segment number a data alignment trap reports: none in kernel mode (R523). -/
def State.alignmentSegment (s : State) (seg : Segment) : Option Word :=
  match s.mode with
  | .user => some (s.segNumber seg)
  | .kernel => none

/-- `MemRead(seg, va, n)` (R91): alignment, translation, then the memory cycle with its parity check (R93). A waiting parity
error is met before it matters whether memory is there (R94): DESIGN CHOICE, log 33. -/
def memRead (seg : Segment) (va : Word) (n : Nat) (s : State) : Access Nat :=
  if va.toNat % n ≠ 0 then .trap (.dataAlignment (s.alignmentSegment seg) va) s
  else
    (resolve seg va false s).bind fun ra s1 =>
      if s1.parityData then .trap (.parityExecute va) { s1 with parityData := false }
      else busRead ra.toNat n s1

/-- `MemWrite(DATA, va, n, v)` (R92): the same checks; a parity error (R10, R206) is met before anything is written (DEDUCED,
log 50), and before it matters whether memory is there (R94; DESIGN CHOICE, log 33). -/
def memWrite (va : Word) (n v : Nat) (s : State) : Access Unit :=
  if va.toNat % n ≠ 0 then .trap (.dataAlignment (s.alignmentSegment .data) va) s
  else
    (resolve .data va true s).bind fun ra s1 =>
      if s1.parityData then .trap (.parityExecute va) { s1 with parityData := false }
      else busWrite ra.toNat n v s1

end Sys2Proof.Machine
end

