-- ==== Sys2Proof/Machine/Operands.lean ====
section
/-! DEFINITION. The operand forms: immediates (R154), shift counts (R360), bit numbers (R329), effective addresses
(R201, R202), branch targets (R401), register ranges (R433), relations (R345). -/

namespace Sys2Proof.Machine

/-- The immediate in the R2 field, zero-extended (R154). -/
def immediate (r2 : Reg) : Word := r2.zeroExtend 32

/-- `count_single`: the low five bits of a count register (R360). -/
def countSingle (w : Word) : Nat := (w.extractLsb' 0 5).toNat

/-- `count_double`: the low six bits (R360). -/
def countDouble (w : Word) : Nat := (w.extractLsb' 0 6).toNat

/-- `count_imm`: the R2 field (R360). -/
def countImmediate (r2 : Reg) : Nat := r2.toNat

/-- Data segment addressing without index (R201). -/
def eaData (disp : Word) (_s : State) : Word := disp

/-- Data segment addressing with index (R201). -/
def eaDataX (rx : Reg) (disp : Word) (s : State) : Word := s.reg rx + disp

/-- Code segment addressing without index (R202): relative to the instruction's own address (D4). -/
def eaCode (disp : Word) (s : State) : Word := s.pc + disp

/-- Code segment addressing with index (R202). -/
def eaCodeX (rx : Reg) (disp : Word) (s : State) : Word := s.pc + s.reg rx + disp

/-- A branch target: the low bit of the displacement, the prediction bit, takes no part (R401, D41). -/
def branchTarget (disp : Word) (s : State) : Word := s.pc + (disp &&& 0xFFFFFFFE)

/-- The registers SUS, LUS and LDREGS move, first to last; only the first where R1 exceeds R2 (R433). -/
def registerRange (r1 r2 : Reg) : List Reg :=
  if r1.toNat ≤ r2.toNat then (List.range' r1.toNat (r2.toNat - r1.toNat + 1)).map (fun k => BitVec.ofNat 4 k)
  else [r1]

/-- A relational operator of TEST, TESTI and BR (R345). -/
inductive Relation
  | gt | lt | eq | le | ge | ne
  deriving DecidableEq, Repr

/-- `rop(a, b)` on signed words (R345). -/
def Relation.holds (rop : Relation) (a b : Word) : Bool :=
  match rop with
  | .gt => decide (b.toInt < a.toInt)
  | .lt => decide (a.toInt < b.toInt)
  | .eq => decide (a.toInt = b.toInt)
  | .le => decide (a.toInt ≤ b.toInt)
  | .ge => decide (b.toInt ≤ a.toInt)
  | .ne => decide (a.toInt ≠ b.toInt)

/-- 0 or 1 as a word. -/
def wordOfBool (b : Bool) : Word := if b then 1 else 0

/-- -1, 0 or 1 as a word: the result of a compare instruction (R350 to R353). -/
def wordOfOrdering (o : Ordering) : Word :=
  match o with
  | .lt => 0xFFFFFFFF
  | .eq => 0
  | .gt => 1

end Sys2Proof.Machine
end

