-- ==== Sys2Proof/Machine/Flags.lean ====
section
/-! DEFINITION. The machine has no flags (R40). What other machines keep in flags is here: the exact integer results with
their overflow conditions, and the traps word traps that report them (R237, R238, R284). -/

namespace Sys2Proof.Machine

/-- Whether an exact result does not fit a signed word (R241). -/
def overflows (n : Int) : Bool := decide (n < -(2 ^ 31)) || decide (2 ^ 31 - 1 < n)

/-- `trunc32` of an exact result (R10). -/
def trunc32 (n : Int) : Word := BitVec.ofInt 32 n

/-- The exact sum of R241. -/
def exactAdd (a b : Word) : Int := a.toInt + b.toInt

/-- The exact difference of R242. -/
def exactSub (a b : Word) : Int := a.toInt - b.toInt

/-- The exact product of R243. -/
def exactMpy (a b : Word) : Int := a.toInt * b.toInt

/-- The quotient truncated toward zero (R244). -/
def exactDiv (a b : Word) : Int := a.toInt.tdiv b.toInt

/-- The remainder with the sign of the dividend (R245). -/
def exactRem (a b : Word) : Int := a.toInt - a.toInt.tdiv b.toInt * b.toInt

/-- The overflow of DIV and REM: the largest negative integer divided by -1 (R244, R245). -/
def divOverflows (a b : Word) : Bool := decide (a.toInt = -(2 ^ 31)) && decide (b.toInt = -1)

/-- The result of ASL: the sign kept, the 31 bits below it shifted left (R376). -/
def shiftArithmeticLeft (a : Word) (n : Nat) : Word := (a.extractLsb' 31 1) ++ ((a.extractLsb' 0 31) <<< n)

/-- The overflow of ASL: some bit among the n most significant below the sign differs from it (R376). -/
def shiftOverflows (a : Word) (n : Nat) : Bool :=
  (List.range n).any (fun k => a.getLsbD (30 - k) != a.getLsbD 31)

/-- The carry of EADD: bit 32 of the exact unsigned sum (R262). -/
def addCarry (a b : Word) : Word := wordOfBool (decide (2 ^ 32 ≤ a.toNat + b.toNat))

/-- `ESUB_CARRY`: the borrow or the adder's carry (R263). -/
def subCarry (a b : Word) : Word :=
  wordOfBool (if Config.esubCarryIsBorrow then decide (a.toNat < b.toNat) else decide (b.toNat ≤ a.toNat))

/-- Codes, and traps word bits, of the arithmetic traps (R50, R529, D18): integer overflow. -/
def codeO : Nat := 16
/-- Integer divide by zero. -/
def codeD0 : Nat := 17
/-- Real overflow. -/
def codeRO : Nat := 18
/-- Real underflow. -/
def codeRU : Nat := 19
/-- Real divide by zero. -/
def codeRD0 : Nat := 20

/-- The end of a 2-byte instruction that meets the condition with this code: the trap if the traps word enables it, else
the next instruction (R237, R238, R284). -/
def trapsWordEnd (code : Nat) (s : State) : Outcome :=
  if s.trapEnabled code then raise (.trapsWord code) s else advance 2 s

/-- The end of an integer instruction: an overflow trap if it overflowed and the trap is enabled (R237). -/
def overflowEnd (overflow : Bool) (s : State) : Outcome :=
  if overflow then trapsWordEnd codeO s else advance 2 s

end Sys2Proof.Machine
end

