-- ==== Sys2Proof/Machine/Branch.lean ====
section
/-! DEFINITION. Branch, call, return and loop instructions (spec/45_branch.md). The prediction bit has no architectural
effect (R405). -/

namespace Sys2Proof.Machine

/-! ## Shared operations -/

/-- To the target if the condition holds, else to the next instruction (R403, R404). -/
def branchIf (c : Bool) (disp : Word) (len : Nat) (s : State) : Outcome :=
  if c then .next (s.setPc (branchTarget disp s)) else advance len s

/-- Compare and branch (R403). -/
def branchCompare (rop : Relation) (r1 r2 : Reg) (disp : Word) (len : Nat) (s : State) : Outcome :=
  branchIf (rop.holds (s.reg r1) (s.reg r2)) disp len s

/-- Compare immediate and branch (R404). -/
def branchCompareImmediate (rop : Relation) (r1 r2 : Reg) (disp : Word) (len : Nat) (s : State) : Outcome :=
  branchIf (rop.holds (s.reg r1) (immediate r2)) disp len s

/-- The address of the next instruction into a register, then to the target, both formed first (R410 to R412). -/
def linkAndGo (r1 : Reg) (target : Word) (len : Nat) (s : State) : Outcome :=
  .next ((s.setReg r1 (s.nextPc len)).setPc target)

/-- R415: the register incremented, wrapping, and the branch taken if the sum is negative. -/
def loopBranch (r1 r2 : Reg) (disp : Word) (len : Nat) (s : State) : Outcome :=
  let v := s.reg r1 + immediate r2
  branchIf (decide (v.toInt < 0)) disp len (s.setReg r1 v)

/-! ## The instructions -/

/-- BR.GT (R403). -/
def execBrGt (r1 r2 : Reg) (disp : Half) (s : State) : Outcome :=
  branchCompare .gt r1 r2 (sext16 disp) 4 s

/-- BR.GT.L (R403). -/
def execBrGtL (r1 r2 : Reg) (disp : Word) (s : State) : Outcome :=
  branchCompare .gt r1 r2 disp 6 s

/-- BR.EQ (R403). -/
def execBrEq (r1 r2 : Reg) (disp : Half) (s : State) : Outcome :=
  branchCompare .eq r1 r2 (sext16 disp) 4 s

/-- BR.EQ.L (R403). -/
def execBrEqL (r1 r2 : Reg) (disp : Word) (s : State) : Outcome :=
  branchCompare .eq r1 r2 disp 6 s

/-- CALL (R410). -/
def execCall (r1 _r2 : Reg) (disp : Half) (s : State) : Outcome :=
  linkAndGo r1 (branchTarget (sext16 disp) s) 4 s

/-- CALL.L (R410). -/
def execCallL (r1 _r2 : Reg) (disp : Word) (s : State) : Outcome :=
  linkAndGo r1 (branchTarget disp s) 6 s

/-- BRI.GT (R404). -/
def execBriGt (r1 r2 : Reg) (disp : Half) (s : State) : Outcome :=
  branchCompareImmediate .gt r1 r2 (sext16 disp) 4 s

/-- BRI.GT.L (R404). -/
def execBriGtL (r1 r2 : Reg) (disp : Word) (s : State) : Outcome :=
  branchCompareImmediate .gt r1 r2 disp 6 s

/-- BRI.LT (R404). -/
def execBriLt (r1 r2 : Reg) (disp : Half) (s : State) : Outcome :=
  branchCompareImmediate .lt r1 r2 (sext16 disp) 4 s

/-- BRI.LT.L (R404). -/
def execBriLtL (r1 r2 : Reg) (disp : Word) (s : State) : Outcome :=
  branchCompareImmediate .lt r1 r2 disp 6 s

/-- BRI.EQ (R404). -/
def execBriEq (r1 r2 : Reg) (disp : Half) (s : State) : Outcome :=
  branchCompareImmediate .eq r1 r2 (sext16 disp) 4 s

/-- BRI.EQ.L (R404). -/
def execBriEqL (r1 r2 : Reg) (disp : Word) (s : State) : Outcome :=
  branchCompareImmediate .eq r1 r2 disp 6 s

/-- LOOP (R415). -/
def execLoop (r1 r2 : Reg) (disp : Half) (s : State) : Outcome :=
  loopBranch r1 r2 (sext16 disp) 4 s

/-- LOOP.L (R415). -/
def execLoopL (r1 r2 : Reg) (disp : Word) (s : State) : Outcome :=
  loopBranch r1 r2 disp 6 s

/-- BR.LE (R403). -/
def execBrLe (r1 r2 : Reg) (disp : Half) (s : State) : Outcome :=
  branchCompare .le r1 r2 (sext16 disp) 4 s

/-- BR.LE.L (R403). -/
def execBrLeL (r1 r2 : Reg) (disp : Word) (s : State) : Outcome :=
  branchCompare .le r1 r2 disp 6 s

/-- BR.NE (R403). -/
def execBrNe (r1 r2 : Reg) (disp : Half) (s : State) : Outcome :=
  branchCompare .ne r1 r2 (sext16 disp) 4 s

/-- BR.NE.L (R403). -/
def execBrNeL (r1 r2 : Reg) (disp : Word) (s : State) : Outcome :=
  branchCompare .ne r1 r2 disp 6 s

/-- BR (R402). -/
def execBr (_r1 _r2 : Reg) (disp : Half) (s : State) : Outcome :=
  .next (s.setPc (branchTarget (sext16 disp) s))

/-- BR.L (R402). -/
def execBrL (_r1 _r2 : Reg) (disp : Word) (s : State) : Outcome :=
  .next (s.setPc (branchTarget disp s))

/-- BRI.LE (R404). -/
def execBriLe (r1 r2 : Reg) (disp : Half) (s : State) : Outcome :=
  branchCompareImmediate .le r1 r2 (sext16 disp) 4 s

/-- BRI.LE.L (R404). -/
def execBriLeL (r1 r2 : Reg) (disp : Word) (s : State) : Outcome :=
  branchCompareImmediate .le r1 r2 disp 6 s

/-- BRI.GE (R404). -/
def execBriGe (r1 r2 : Reg) (disp : Half) (s : State) : Outcome :=
  branchCompareImmediate .ge r1 r2 (sext16 disp) 4 s

/-- BRI.GE.L (R404). -/
def execBriGeL (r1 r2 : Reg) (disp : Word) (s : State) : Outcome :=
  branchCompareImmediate .ge r1 r2 disp 6 s

/-- BRI.NE (R404). -/
def execBriNe (r1 r2 : Reg) (disp : Half) (s : State) : Outcome :=
  branchCompareImmediate .ne r1 r2 (sext16 disp) 4 s

/-- BRI.NE.L (R404). -/
def execBriNeL (r1 r2 : Reg) (disp : Word) (s : State) : Outcome :=
  branchCompareImmediate .ne r1 r2 disp 6 s

/-- CALLR (R411): relative to the address of the instruction; no prediction bit. -/
def execCallr (r1 r2 : Reg) (s : State) : Outcome :=
  linkAndGo r1 (s.pc + s.reg r2) 2 s

/-- RET (R412): to the address in R2; R1 is always written. -/
def execRet (r1 r2 : Reg) (s : State) : Outcome :=
  linkAndGo r1 (s.reg r2) 2 s

end Sys2Proof.Machine
end

