-- ==== Sys2Proof/Machine/Integer.lean ====
section
/-! DEFINITION. Integer arithmetic, logical and extended precision instructions (spec/41_integer_logical_extended.md). Every
source register is read before a destination is written (R236). -/

namespace Sys2Proof.Machine

/-! ## Shared operations -/

/-- The low 32 bits of an exact result into a register, then the overflow trap if it did not fit (R237, R241). -/
def integerResult (r1 : Reg) (exact : Int) (s : State) : Outcome :=
  overflowEnd (overflows exact) (s.setReg r1 (trunc32 exact))

/-- DIV and REM (R244, R245): a zero divisor and the one overflow leave the register alone. -/
def divideResult (r1 : Reg) (a b : Word) (exact : Int) (s : State) : Outcome :=
  if b = 0 then trapsWordEnd codeD0 s
  else if divOverflows a b then trapsWordEnd codeO s
  else advance 2 (s.setReg r1 (trunc32 exact))

/-- A result without a condition into a register. -/
def plainResult (r1 : Reg) (v : Word) (s : State) : Outcome := advance 2 (s.setReg r1 v)

/-- A 64-bit result without a condition into a register pair. -/
def pairResult (r1 : Reg) (v : Double) (s : State) : Outcome := advance 2 (s.setPair r1 v)

/-- EADD and ESUB: the result into R1, the carry into register 0; with R1 = 0 refused (R260, R261). -/
def carryResult (r1 : Reg) (v carry : Word) (s : State) : Outcome :=
  if r1 = 0 then .refused .carryRegisterConflict else advance 2 ((s.setReg r1 v).setReg 0 carry)

/-! ## Integer arithmetic -/

/-- NEG (R240): -2^31 overflows and leaves R1 alone. -/
def execNeg (r1 r2 : Reg) (s : State) : Outcome :=
  if s.reg r2 = 0x80000000 then trapsWordEnd codeO s
  else plainResult r1 (0 - s.reg r2) s

/-- ADD (R241). -/
def execAdd (r1 r2 : Reg) (s : State) : Outcome :=
  integerResult r1 (exactAdd (s.reg r1) (s.reg r2)) s

/-- SUB (R242). -/
def execSub (r1 r2 : Reg) (s : State) : Outcome :=
  integerResult r1 (exactSub (s.reg r1) (s.reg r2)) s

/-- MPY (R243). -/
def execMpy (r1 r2 : Reg) (s : State) : Outcome :=
  integerResult r1 (exactMpy (s.reg r1) (s.reg r2)) s

/-- DIV (R244). -/
def execDiv (r1 r2 : Reg) (s : State) : Outcome :=
  divideResult r1 (s.reg r1) (s.reg r2) (exactDiv (s.reg r1) (s.reg r2)) s

/-- REM (R245). -/
def execRem (r1 r2 : Reg) (s : State) : Outcome :=
  divideResult r1 (s.reg r1) (s.reg r2) (exactRem (s.reg r1) (s.reg r2)) s

/-! ## Logical -/

/-- MOVE (R250). -/
def execMove (r1 r2 : Reg) (s : State) : Outcome :=
  plainResult r1 (s.reg r2) s

/-- NOT (R251). -/
def execNot (r1 r2 : Reg) (s : State) : Outcome :=
  plainResult r1 (~~~(s.reg r2)) s

/-- AND (R252). -/
def execAnd (r1 r2 : Reg) (s : State) : Outcome :=
  plainResult r1 (s.reg r1 &&& s.reg r2) s

/-- OR (R253). -/
def execOr (r1 r2 : Reg) (s : State) : Outcome :=
  plainResult r1 (s.reg r1 ||| s.reg r2) s

/-- XOR (R254). -/
def execXor (r1 r2 : Reg) (s : State) : Outcome :=
  plainResult r1 (s.reg r1 ^^^ s.reg r2) s

/-! ## Extended precision -/

/-- EADD (R262). -/
def execEadd (r1 r2 : Reg) (s : State) : Outcome :=
  carryResult r1 (s.reg r1 + s.reg r2) (addCarry (s.reg r1) (s.reg r2)) s

/-- ESUB (R263). -/
def execEsub (r1 r2 : Reg) (s : State) : Outcome :=
  carryResult r1 (s.reg r1 - s.reg r2) (subCarry (s.reg r1) (s.reg r2)) s

/-- EMPY (R264): the unsigned product. -/
def execEmpy (r1 r2 : Reg) (s : State) : Outcome :=
  pairResult r1 (BitVec.ofNat 64 ((s.reg r1).toNat * (s.reg r2).toNat)) s

/-- EDIV (R265): unsigned; a zero divisor leaves R1 alone and the other register of the pair undefined; a quotient above 32 bits
leaves the pair alone. -/
def execEdiv (r1 r2 : Reg) (s : State) : Outcome :=
  let n := (s.pair r1).toNat
  let d := (s.reg r2).toNat
  if d = 0 then trapsWordEnd codeD0 (s.scrambleReg (r1 + 1))
  else if 2 ^ 32 ≤ n / d then trapsWordEnd codeO s
  else advance 2 ((s.setReg r1 (BitVec.ofNat 32 (n / d))).setReg (r1 + 1) (BitVec.ofNat 32 (n % d)))

end Sys2Proof.Machine
end

