-- ==== Sys2Proof/Machine/RealNumbers.lean ====
section
/-! DEFINITION. Real and double real numbers (spec/42_real.md rules R280 to R285): the formats, and the record
`REAL_NUMERICS` with the properties P1 to P5 built in. Whatever those properties do not fix is a constant of Config. -/

namespace Sys2Proof.Machine

/-- A real format: exponent and fraction widths (R280, R281). -/
structure RealFormat where
  expBits     : Nat
  fracBits    : Nat
  topReserved : Bool
  deriving DecidableEq, Repr

/-- 32-bit reals: sign, 8-bit exponent in excess 127, 23 fraction bits, in this order from bit 0 (R280). -/
def realFormat : RealFormat := { expBits := 8, fracBits := 23, topReserved := Config.realTopReserved }

/-- Double reals: sign, 11-bit exponent in excess 1023, 52 fraction bits (R281). -/
def doubleFormat : RealFormat := { expBits := 11, fracBits := 52, topReserved := Config.doubleTopReserved }

/-- The excess of the exponent: 127 and 1023. -/
def RealFormat.bias (f : RealFormat) : Nat := 2 ^ (f.expBits - 1) - 1

/-- The number of magnitude bits, all but the sign: 31 and 63. -/
def RealFormat.magBits (f : RealFormat) : Nat := f.expBits + f.fracBits

/-- The magnitude bits of a pattern. -/
def RealFormat.magnitude (f : RealFormat) (b : Nat) : Nat := b % 2 ^ f.magBits

/-- The sign S of a pattern. -/
def RealFormat.negative (f : RealFormat) (b : Nat) : Bool := decide (2 ^ f.magBits ≤ b)

/-- The exponent E of a pattern. -/
def RealFormat.exponent (f : RealFormat) (b : Nat) : Nat := f.magnitude b / 2 ^ f.fracBits

/-- The fraction F of a pattern. -/
def RealFormat.fraction (f : RealFormat) (b : Nat) : Nat := b % 2 ^ f.fracBits

/-- Whether an exponent is that of a number: not the top one where that is reserved (R282, R283). -/
def RealFormat.exponentOk (f : RealFormat) (e : Nat) : Bool :=
  decide (1 ≤ e) && (decide (e < 2 ^ f.expBits - 1) || (decide (e = 2 ^ f.expBits - 1) && !f.topReserved))

/-- Well-formed (R283): zero, which is all bits zero, or an exponent of a number. -/
def RealFormat.wellFormed (f : RealFormat) (b : Nat) : Bool :=
  decide (b = 0) || f.exponentOk (f.exponent b)

/-- `m * 2^e`, exactly. -/
def scaled (m e : Int) : Rat := if 0 ≤ e then mkRat (m * 2 ^ e.toNat) 1 else mkRat m (2 ^ (-e).toNat)

/-- The value of a well-formed pattern: 0, or (-1)^S (1 + F/2^fracBits) 2^(E - bias) (R280, R281). -/
def RealFormat.value (f : RealFormat) (b : Nat) : Rat :=
  if b = 0 then 0
  else
    let m : Int := (2 ^ f.fracBits + f.fraction b : Nat)
    scaled (if f.negative b then -m else m) ((f.exponent b : Int) - f.bias - f.fracBits)

/-- The sign bit in its place. -/
def RealFormat.signBit (f : RealFormat) (negative : Bool) : Nat := if negative then 2 ^ f.magBits else 0

/-- The pattern whose value is a rational, where there is one: "representable in the destination format" (P1). -/
def RealFormat.represent (f : RealFormat) (q : Rat) : Option Nat :=
  if q = 0 then some 0
  else
    let n := q.num.natAbs
    let k := q.den.log2
    let l := n.log2
    let e : Int := (l : Int) - k + f.bias
    if q.den = 2 ^ k ∧ f.exponentOk e.toNat ∧ (2 ^ (l - f.fracBits) ∣ n) then
      some (f.signBit (decide (q < 0)) + e.toNat * 2 ^ f.fracBits + (n * 2 ^ f.fracBits / 2 ^ l - 2 ^ f.fracBits))
    else none

/-- The magnitude bits of the largest number: `REAL_MAX_MAG`, `DREAL_MAX_MAG` (R282). -/
def RealFormat.maxMagnitude (f : RealFormat) : Nat :=
  if f.topReserved then 2 ^ f.magBits - 1 - 2 ^ f.fracBits else 2 ^ f.magBits - 1

/-- "The largest value real number". -/
def RealFormat.largest (f : RealFormat) : Rat := f.value f.maxMagnitude

/-- The smallest non-zero magnitude, E = 1 and F = 0. DESIGN CHOICE, log 54: R282 leaves open whether a pattern with E = 0
and F not 0 is a number; here it is none, so that a result below this one underflows (P4 of R283). -/
def RealFormat.smallest (f : RealFormat) : Rat := f.value (2 ^ f.fracBits)

/-- The condition of a result the manual does not fix. -/
def realCondOf (c : RangeCond) : RealCond :=
  match c with
  | .ok => .ok
  | .overflow => .overflow
  | .underflow => .underflow

/-- A result for an exact value: its pattern if it is representable (P1), the conditions of P4, or else what Config leaves
open. On overflow only the sign of the pattern counts, and it is that of the exact value (R289). -/
def RealFormat.result (f : RealFormat) (q : Rat) (other : Nat × RealCond) : Nat × RealCond :=
  match f.represent q with
  | some b => (b, .ok)
  | none =>
    if f.largest < |q| ∨ f.smallest ≤ |q| ∧ other.2 = .overflow then (f.signBit (decide (q < 0)), .overflow)
    else if |q| < f.smallest then (0, .underflow)
    else other

/-- A two-operand real operation on well-formed operands; a malformed operand leaves the result open (U20 to U22). -/
def RealFormat.binary (f : RealFormat) (op : Rat → Rat → Rat) (a b : Nat) (other : Nat × RealCond) : Nat × RealCond :=
  if f.wellFormed a && f.wellFormed b then f.result (op (f.value a) (f.value b)) other
  else other

/-- A real result as a word. -/
def wordResult (x : Nat × RealCond) : Word × RealCond := (BitVec.ofNat 32 x.1, x.2)

/-- A double real result as a double word. -/
def doubleResult (x : Nat × RealCond) : Double × RealCond := (BitVec.ofNat 64 x.1, x.2)

/-- An open 32-bit result as a number. -/
def openReal (x : Word × RangeCond) : Nat × RealCond := (x.1.toNat, realCondOf x.2)

/-- An open 64-bit result as a number. -/
def openDouble (x : Double × RangeCond) : Nat × RealCond := (x.1.toNat, realCondOf x.2)

/-! ## The functions of REAL_NUMERICS (R283) -/

/-- The exact operation of an arithmetic instruction; negation ignores its first operand. -/
def exactReal (op : RealOp) (x y : Rat) : Rat :=
  match op with
  | .neg => -y
  | .add => x + y
  | .sub => x - y
  | .mpy => x * y

/-- `radd`, `rsub`, `rmpy`. -/
def realArith (op : RealOp) (a b : Word) : Word × RealCond :=
  wordResult (realFormat.binary (exactReal op) a.toNat b.toNat (openReal (Config.otherReal op a b)))

/-- `rdiv`: a divisor of all magnitude bits zero gives DIVZERO (R285). -/
def realDivide (a b : Word) : Word × RealCond :=
  if realFormat.magnitude b.toNat = 0 then (0, .divZero)
  else
    let other := Config.otherQuotient a b
    wordResult (realFormat.binary (fun x y => x / y) a.toNat b.toNat (other.1.toNat, other.2))

/-- `rneg` (R290). -/
def realNegate (b : Word) : Word × RealCond := realArith .neg b b

/-- `dradd`, `drsub`, `drmpy`. -/
def doubleArith (op : RealOp) (a b : Double) : Double × RealCond :=
  doubleResult (doubleFormat.binary (exactReal op) a.toNat b.toNat (openDouble (Config.otherDouble op a b)))

/-- `drdiv` (R285, R304). -/
def doubleDivide (a b : Double) : Double × RealCond :=
  if doubleFormat.magnitude b.toNat = 0 then (0, .divZero)
  else
    let other := Config.otherDoubleQuotient a b
    doubleResult (doubleFormat.binary (fun x y => x / y) a.toNat b.toNat (other.1.toNat, other.2))

/-- `drneg` (R300). -/
def doubleNegate (b : Double) : Double × RealCond := doubleArith .neg b b

/-- `float`: exact where 24 significant bits suffice (R295). -/
def floatWord (a : Word) : Word :=
  match realFormat.represent (mkRat a.toInt 1) with
  | some b => BitVec.ofNat 32 b
  | none => Config.otherFloat a

/-- `dfloat`: exact for every word (R305). -/
def floatDouble (a : Word) : Double := BitVec.ofNat 64 ((doubleFormat.represent (mkRat a.toInt 1)).getD 0)

/-- The integer FIXT makes of a value: truncation toward zero (P2). -/
def truncateRat (q : Rat) : Int := q.num.tdiv q.den

/-- The integer FIXR makes of a value: a nearest one; halfway between two, the greater or the lesser (P2, U23). -/
def roundRat (tieUp : Bool) (q : Rat) : Int :=
  let n := q.num.fdiv q.den
  let d := 2 * (q - mkRat n 1)
  if d < 1 then n else if 1 < d then n + 1 else if tieUp then n + 1 else n

/-- The integer a conversion makes of a value. -/
def fixRat (op : FixOp) (tieUp : Bool) (q : Rat) : Int :=
  match op with
  | .truncate => truncateRat q
  | .round => roundRat tieUp q

/-- `fixt`, `fixr`: a value, and whether it is an integer overflow (P2, P3). -/
def fixWord (op : FixOp) (a : Word) : Word × Bool :=
  if realFormat.wellFormed a.toNat then
    let n := fixRat op (Config.fixrTieUp a) (realFormat.value a.toNat)
    (trunc32 n, overflows n)
  else Config.otherFix op a

/-- `dfixt`, `dfixr` (R306, R307). -/
def fixDouble (op : FixOp) (a : Double) : Word × Bool :=
  if doubleFormat.wellFormed a.toNat then
    let n := fixRat op (Config.dfixrTieUp a) (doubleFormat.value a.toNat)
    (trunc32 n, overflows n)
  else Config.otherDFix op a

/-- `makerd`: exact for every well-formed operand (P5). -/
def makeDouble (a : Word) : Double :=
  if realFormat.wellFormed a.toNat then
    match doubleFormat.represent (realFormat.value a.toNat) with
    | some b => BitVec.ofNat 64 b
    | none => Config.otherMakerd a
  else Config.otherMakerd a

/-- `makedr` (R308). -/
def makeReal (a : Double) : Word × RealCond :=
  let other := openReal (Config.otherMakedr a)
  wordResult
    (if doubleFormat.wellFormed a.toNat then realFormat.result (doubleFormat.value a.toNat) other
     else other)

/-- The key of sign-magnitude comparison (R352). -/
def RealFormat.key (f : RealFormat) (b : Nat) : Int :=
  if f.negative b then -(f.magnitude b : Int) else f.magnitude b

/-- `rcomp` (R352): by the keys for zero and well-formed operands. -/
def compareReal (a b : Word) : Ordering :=
  if realFormat.wellFormed a.toNat && realFormat.wellFormed b.toNat then
    compare (realFormat.key a.toNat) (realFormat.key b.toNat)
  else Config.otherRcomp a b

/-- `drcomp` (R353). -/
def compareDouble (a b : Double) : Ordering :=
  if doubleFormat.wellFormed a.toNat && doubleFormat.wellFormed b.toNat then
    compare (doubleFormat.key a.toNat) (doubleFormat.key b.toNat)
  else Config.otherDRcomp a b

/-! ## Ends of the real instructions (R284, R289, R299) -/

/-- "The largest value real number, with the appropriate sign bit" as a word (R289). -/
def largestReal (v : Word) : Word :=
  BitVec.ofNat 32 (realFormat.signBit (v.getLsbD 31) + realFormat.maxMagnitude)

/-- The same as a double word (R299). -/
def largestDouble (v : Double) : Double :=
  BitVec.ofNat 64 (doubleFormat.signBit (v.getLsbD 63) + doubleFormat.maxMagnitude)

/-- R289: the destination set as the condition says, then the trap if it is enabled. -/
def realEnd (r1 : Reg) (x : Word × RealCond) (s : State) : Outcome :=
  match x.2 with
  | .ok => advance 2 (s.setReg r1 x.1)
  | .overflow => trapsWordEnd codeRO (s.setReg r1 (largestReal x.1))
  | .underflow => trapsWordEnd codeRU (s.setReg r1 0)
  | .divZero => trapsWordEnd codeRD0 (s.scrambleReg r1)

/-- R299: the same for a pair. -/
def doubleEnd (r1 : Reg) (x : Double × RealCond) (s : State) : Outcome :=
  match x.2 with
  | .ok => advance 2 (s.setPair r1 x.1)
  | .overflow => trapsWordEnd codeRO (s.setPair r1 (largestDouble x.1))
  | .underflow => trapsWordEnd codeRU (s.setPair r1 0)
  | .divZero => trapsWordEnd codeRD0 (s.scramblePair r1)

/-- R308: as R289, but a double real outside the range of reals leaves any value (U24, log 55). -/
def makeRealEnd (r1 : Reg) (x : Word × RealCond) (s : State) : Outcome :=
  match x.2 with
  | .ok => advance 2 (s.setReg r1 x.1)
  | .overflow => trapsWordEnd codeRO (s.scrambleReg r1)
  | .underflow => trapsWordEnd codeRU (s.scrambleReg r1)
  | .divZero => trapsWordEnd codeRD0 (s.scrambleReg r1)

/-- R296, R306: the integer, or on overflow nothing but the trap if it is enabled. -/
def fixEnd (r1 : Reg) (x : Word × Bool) (s : State) : Outcome :=
  if x.2 then trapsWordEnd codeO s else advance 2 (s.setReg r1 x.1)

end Sys2Proof.Machine
end

