-- ==== Sys2Proof/Machine/Immediate.lean ====
section
/-! DEFINITION. Immediate, bit, trap, test and compare instructions (spec/43_immediate_bit_trap_test_compare.md). -/

namespace Sys2Proof.Machine

/-! ## Shared operations -/

/-- A bit instruction on the bit number in a register: numbers above 63 are refused (R329). -/
def withBitNumber (n : Word) (k : Nat → State → Outcome) (s : State) : Outcome :=
  if n.toNat ≤ 63 then k n.toNat s else .refused .bitNumberOutOfRange

/-- The double word with only bit n set, bit 0 the most significant (R329). -/
def bitMask (n : Nat) : Double := 1#64 <<< (63 - n)

/-- 0 or 1 into R1 by a relation (R346, R347). -/
def testResult (rop : Relation) (r1 : Reg) (b : Word) (s : State) : Outcome :=
  plainResult r1 (wordOfBool (rop.holds (s.reg r1) b)) s

/-- -1, 0 or 1 into R1 (R350 to R353). -/
def compareResult (r1 : Reg) (o : Ordering) (s : State) : Outcome := plainResult r1 (wordOfOrdering o) s

/-- The check trap if the condition holds (R335, R336). -/
def checkEnd (fails : Bool) (r1 r2 : Reg) (s : State) : Outcome :=
  if fails then raise (.check r1 r2) s else advance 2 s

/-! ## Immediate -/

/-- MOVEI (R320). -/
def execMovei (r1 r2 : Reg) (s : State) : Outcome :=
  plainResult r1 (immediate r2) s

/-- NOTI (R321). -/
def execNoti (r1 r2 : Reg) (s : State) : Outcome :=
  plainResult r1 (~~~(immediate r2)) s

/-- ADDI (R322). -/
def execAddi (r1 r2 : Reg) (s : State) : Outcome :=
  integerResult r1 (exactAdd (s.reg r1) (immediate r2)) s

/-- SUBI (R323). -/
def execSubi (r1 r2 : Reg) (s : State) : Outcome :=
  integerResult r1 (exactSub (s.reg r1) (immediate r2)) s

/-- ANDI (R324). -/
def execAndi (r1 r2 : Reg) (s : State) : Outcome :=
  plainResult r1 (s.reg r1 &&& immediate r2) s

/-- MPYI (R325). -/
def execMpyi (r1 r2 : Reg) (s : State) : Outcome :=
  integerResult r1 (exactMpy (s.reg r1) (immediate r2)) s

/-! ## Bits -/

/-- TBIT (R330): the bit tested replaces R1. -/
def execTbit (r1 r2 : Reg) (s : State) : Outcome :=
  withBitNumber (s.reg r2) (fun n => plainResult r1 (wordOfBool ((s.pair r1).getMsbD n))) s

/-- SBIT (R331): the bit is set to one (C8). -/
def execSbit (r1 r2 : Reg) (s : State) : Outcome :=
  withBitNumber (s.reg r2) (fun n => pairResult r1 (s.pair r1 ||| bitMask n)) s

/-- CBIT (R332): the bit is set to zero (C8). -/
def execCbit (r1 r2 : Reg) (s : State) : Outcome :=
  withBitNumber (s.reg r2) (fun n => pairResult r1 (s.pair r1 &&& ~~~(bitMask n))) s

/-! ## Traps -/

/-- CHK (R335), signed (D26). -/
def execChk (r1 r2 : Reg) (s : State) : Outcome :=
  checkEnd (decide ((s.reg r2).toInt < (s.reg r1).toInt)) r1 r2 s

/-- CHKI (R336). -/
def execChki (r1 r2 : Reg) (s : State) : Outcome :=
  checkEnd (decide (¬(0 ≤ (s.reg r1).toInt ∧ (s.reg r1).toInt ≤ (immediate r2).toInt))) r1 r2 s

/-- TRAP (R337): the trap numbered by the R2 field, if its bit of the traps word is on. -/
def execTrap (_r1 r2 : Reg) (s : State) : Outcome :=
  trapsWordEnd r2.toNat s

/-- KCALL (R338): from user mode to entry n of the CCB, with SR15 after the instruction; in kernel mode a kernel violation. -/
def execKcall (n : BitVec 8) (s : State) : Outcome :=
  match s.mode with
  | .user => takeException (.kcall n) (s.nextPc 2) s
  | .kernel => raise (.kernelViolation 0x5B (n.extractLsb' 4 4) (n.extractLsb' 0 4)) s

/-! ## Tests -/

/-- TEST.GT (R346). -/
def execTestGt (r1 r2 : Reg) (s : State) : Outcome :=
  testResult .gt r1 (s.reg r2) s

/-- TEST.LT (R346). -/
def execTestLt (r1 r2 : Reg) (s : State) : Outcome :=
  testResult .lt r1 (s.reg r2) s

/-- TEST.EQ (R346). -/
def execTestEq (r1 r2 : Reg) (s : State) : Outcome :=
  testResult .eq r1 (s.reg r2) s

/-- TEST.LE (R346). -/
def execTestLe (r1 r2 : Reg) (s : State) : Outcome :=
  testResult .le r1 (s.reg r2) s

/-- TEST.GE (R346). -/
def execTestGe (r1 r2 : Reg) (s : State) : Outcome :=
  testResult .ge r1 (s.reg r2) s

/-- TEST.NE (R346). -/
def execTestNe (r1 r2 : Reg) (s : State) : Outcome :=
  testResult .ne r1 (s.reg r2) s

/-- TESTI.GT (R347). -/
def execTestiGt (r1 r2 : Reg) (s : State) : Outcome :=
  testResult .gt r1 (immediate r2) s

/-- TESTI.LT (R347). -/
def execTestiLt (r1 r2 : Reg) (s : State) : Outcome :=
  testResult .lt r1 (immediate r2) s

/-- TESTI.EQ (R347). -/
def execTestiEq (r1 r2 : Reg) (s : State) : Outcome :=
  testResult .eq r1 (immediate r2) s

/-- TESTI.LE (R347). -/
def execTestiLe (r1 r2 : Reg) (s : State) : Outcome :=
  testResult .le r1 (immediate r2) s

/-- TESTI.GE (R347). -/
def execTestiGe (r1 r2 : Reg) (s : State) : Outcome :=
  testResult .ge r1 (immediate r2) s

/-- TESTI.NE (R347). -/
def execTestiNe (r1 r2 : Reg) (s : State) : Outcome :=
  testResult .ne r1 (immediate r2) s

/-! ## Compares -/

/-- DCOMP (R350), signed 64-bit; only R1 is written. -/
def execDcomp (r1 r2 : Reg) (s : State) : Outcome :=
  compareResult r1 (compare (s.pair r1).toInt (s.pair r2).toInt) s

/-- LCOMP (R351), unsigned. -/
def execLcomp (r1 r2 : Reg) (s : State) : Outcome :=
  compareResult r1 (compare (s.reg r1).toNat (s.reg r2).toNat) s

/-- RCOMP (R352). -/
def execRcomp (r1 r2 : Reg) (s : State) : Outcome :=
  compareResult r1 (compareReal (s.reg r1) (s.reg r2)) s

/-- DRCOMP (R353); only R1 is written. -/
def execDrcomp (r1 r2 : Reg) (s : State) : Outcome :=
  compareResult r1 (compareDouble (s.pair r1) (s.pair r2)) s

end Sys2Proof.Machine
end

