-- ==== Sys2Proof/Machine/Kernel.lean ====
section
/-! DEFINITION. Kernel state switching and special register moves (spec/46_kernel_state_switching.md). -/

namespace Sys2Proof.Machine

/-! ## The Process Control Block (R430, R431) -/

/-- `PCB_REG(i)`. -/
def pcbRegOffset (r : Reg) : Word := Config.pcbLayout.regs[r.toNat]'r.isLt

/-- SUS, LUS and LDREGS do nothing with SR14 = 1 and are refused with a misaligned SR14 (R431, R432). -/
def withProcess (k : State → Outcome) (s : State) : Outcome :=
  if s.spec 14 = 1 then advance 2 s
  else if (s.spec 14).toNat % 4 = 0 then k s
  else .refused .pcbMisaligned

/-- Registers stored into the PCB, first to last (R432). -/
def saveRegisters : List Reg → State → Access Unit
  | [], s => .ok () s
  | r :: rs, s => (busWrite32 (s.pcbAddress (pcbRegOffset r)) (s.reg r) s).bind fun _ s1 => saveRegisters rs s1

/-- Registers loaded from the PCB, first to last (R434, R436). -/
def loadRegisters : List Reg → State → Access Unit
  | [], s => .ok () s
  | r :: rs, s =>
    (busRead32 (s.pcbAddress (pcbRegOffset r)) s).bind fun v s1 => loadRegisters rs (s1.setReg r v)

/-- A special register loaded from a PCB member (R434). -/
def loadSpecial (k : Reg) (offset : Word) (s : State) : Access Unit :=
  (busRead32 (s.pcbAddress offset) s).bind fun v s1 => .ok () (s1.setSpec k v)

/-- The user program counter, the segment numbers and the traps word from the PCB (R434). -/
def loadProcess (s : State) : Access Unit :=
  (loadSpecial 15 Config.pcbLayout.pc s).bind fun _ s1 =>
  (loadSpecial 8 Config.pcbLayout.cs s1).bind fun _ s2 =>
  (loadSpecial 9 Config.pcbLayout.ds s2).bind fun _ s3 =>
  loadSpecial 10 Config.pcbLayout.tw s3

/-! ## The instructions -/

/-- SUS (R432): SR15 and the registers into the PCB; the process clock stays as the ticks left it (D42). -/
def execSus (r1 r2 : Reg) (s : State) : Outcome :=
  kernelOnly 0x40 r1 r2
    (withProcess fun s =>
      ((busWrite32 (s.pcbAddress Config.pcbLayout.pc) (s.spec 15) s).bind fun _ s1 =>
        saveRegisters (registerRange r1 r2) s1).finish fun _ s2 => advance 2 s2) s

/-- LUS (R434): the inverse of SUS, with TMT and cache flushed. -/
def execLus (r1 r2 : Reg) (s : State) : Outcome :=
  kernelOnly 0x41 r1 r2
    (withProcess fun s =>
      ((loadProcess s).bind fun _ s1 => loadRegisters (registerRange r1 r2) s1).finish fun _ s2 =>
        advance 2 s2.flushTmt.flushFetch) s

/-- LDREGS (R436). -/
def execLdregs (r1 r2 : Reg) (s : State) : Outcome :=
  kernelOnly 0x43 r1 r2
    (withProcess fun s => (loadRegisters (registerRange r1 r2) s).finish fun _ s1 => advance 2 s1) s

/-- RUM (R440): to user mode at SR15, or with SR14 = 1 into the pause, with the pc after the RUM (R441, D39). -/
def execRum (r1 r2 : Reg) (s : State) : Outcome :=
  kernelOnly 0x42 r1 r2
    (fun s => if s.spec 14 = 1 then advance 2 { s with paused := true } else .next s.resumeUser) s

/-- MOVESR (R442): special register R1 from general register R2 (D27). -/
def execMovesr (r1 r2 : Reg) (s : State) : Outcome :=
  kernelOnly 0x46 r1 r2 (fun s => advance 2 (s.setSpec r1 (s.reg r2))) s

/-- MOVERS (R443): general register R1 from special register R2. -/
def execMovers (r1 r2 : Reg) (s : State) : Outcome :=
  kernelOnly 0x47 r1 r2 (fun s => advance 2 (s.setReg r1 (s.spec r2))) s

end Sys2Proof.Machine
end

