-- ==== Sys2Proof/Machine/Maintenance.lean ====
section
/-! DEFINITION. Maintenance, virtual memory support and input/output instructions (spec/47_maintenance_vm_io.md). -/

namespace Sys2Proof.Machine

/-! ## The error logging RAM (R452 to R455) -/

/-- A bit of the RAM. -/
def elogRead (ram : List Nat) (a : Nat) : Bool := ram.contains a

/-- An address put into a rising list. -/
def elogInsert : List Nat → Nat → List Nat
  | [], a => [a]
  | k :: l, a => if a < k then a :: k :: l else if a = k then k :: l else k :: elogInsert l a

/-- The RAM with a bit written. -/
def elogWrite (ram : List Nat) (a : Nat) (bit : Bool) : List Nat :=
  if bit then elogInsert ram a else ram.filter (fun k => k ≠ a)

/-- A word with bit k, bit 0 the most significant, replaced. -/
def setBit (w : Word) (k : Nat) (b : Bool) : Word :=
  if b then w ||| (1#32 <<< (31 - k)) else w &&& ~~~(1#32 <<< (31 - k))

/-- The status word of ELOGR (R452): bits 16, 27, 30 and 31 as described, the other 28 any value. -/
def statusWord (input : Word) (s : State) : Word :=
  let external := if s.pending.external.isEmpty then !Config.externalStatus else Config.externalStatus
  setBit (setBit (setBit (setBit s.freeWord 16 (elogRead s.elog (Config.elogAddr input))) 27 external)
    30 s.bootDeviceSwitch) 31 s.loadEnableSwitch

/-! ## Devices (R473 to R475) -/

/-- The number of a device: the most significant byte of an address word or an IOIR word (R84, R475). -/
def deviceOf (w : Word) : BitVec 8 := w.extractLsb' 24 8

/-- A status word with its bits T and N set as given, the others as in a free word (R473). -/
def ioStatus (free : Word) (t n : Bool) : Word :=
  let tMask := 1#32 <<< Config.ioStatusLayout.t.toNat
  let nMask := 1#32 <<< Config.ioStatusLayout.n.toNat
  let w := if t then free ||| tMask else free &&& ~~~tMask
  if n then w ||| nMask else w &&& ~~~nMask

/-- A transaction: it enters the history, and the addressed device replies, or nothing does where there is none. -/
def ioTransaction (x : IoTransaction) (address : Word) (s : State) : DeviceReply × State :=
  let s1 := { s with ioTrace := x :: s.ioTrace }
  (if Config.devicePresent (deviceOf address) then Config.deviceReply s1.ioTrace else .timedOut, s1)

/-- The status and the data word of a reply (R473): on T or N the data is any value (U37). Two free words and a free bit
are drawn. -/
def replyWords (reply : DeviceReply) (s : State) : Word × Word :=
  let free := Config.freeWord s.draws
  let freeData := Config.freeWord (s.draws + 1)
  match reply with
  | .accepted data => (ioStatus free false false, data)
  | .notReady => (ioStatus free false true, freeData)
  | .timedOut => (ioStatus free true (Config.freeBit (s.draws + 2)), freeData)

/-- The state after the free values of a reply have been drawn. -/
def State.drawn3 (s : State) : State := { s with draws := s.draws + 3 }

/-- The IOIR word of a requesting device taken (R475): which device answers is a free choice (U38); whether it withdraws
its request is the device's. `none` where no device requests. -/
def takeIoir (s : State) : Option (Word × State) :=
  (chooseFrom s.draws s.pending.external).map fun w =>
    let trace := .ioir w :: s.ioTrace
    let left := if Config.deviceWithdraws trace then s.pending.external.filter (fun x => deviceOf x ≠ deviceOf w)
      else s.pending.external
    (w, { s with ioTrace := trace, pending := { s.pending with external := left }, draws := s.draws + 1 })

/-- TRANS and DIRT: the search of the VRT itself, without the TMT; -1 where no entry matches (R127, R465, R466; log 13 for
segment numbers wider than SEG_BITS). -/
def translateExplicit (update : Double → Double) (r1 r2 : Reg) (s : State) : Outcome :=
  let va := s.reg (r2 + 1)
  (vrtSearch (s.reg r2) va s).finish fun found s1 =>
    match found with
    | some (ea, e) =>
      s1.between.finish fun _ s2 => advance 2 ((s2.markEntry ea update).setReg r1 (realAddress (vrtRealPage e) va))
    | none => advance 2 (s1.setReg r1 0xFFFFFFFF)

/-! ## The instructions -/

/-- ELOGR (R452). -/
def execElogr (r1 : Reg) (s : State) : Outcome :=
  kernelOrPrivileged 0x4C r1 0
    (fun s => advance 2 (s.setReg r1 (statusWord (s.reg r1) s)).drawn) s

/-- ELOGW (R454). -/
def execElogw (r1 : Reg) (s : State) : Outcome :=
  kernelOrPrivileged 0x4C r1 1
    (fun s => advance 2 { s with elog := elogWrite s.elog (Config.elogAddr (s.reg r1)) (Config.elogData (s.reg r1)) }) s

/-- FLUSH (R460). -/
def execFlush (r1 : Reg) (s : State) : Outcome :=
  kernelOrPrivileged 0x4C r1 6 (fun s => advance 2 s.flushTmt.flushCacheOnly) s

/-- TRAPEXIT (R462). -/
def execTrapexit (r1 : Reg) (s : State) : Outcome :=
  kernelOnly 0x4C r1 7 (fun s => .next s.resumeKernel) s

/-- ITEST (R464): external interrupts only (D43, U31). -/
def execItest (r1 : Reg) (s : State) : Outcome :=
  kernelOnly 0x4C r1 8
    (fun s =>
      match takeIoir s with
      | some (w, s1) => advance 2 ((s1.setReg r1 0).setReg (r1 + 1) w)
      | none => advance 2 (s.setReg r1 1)) s

/-- TRANS (R465). -/
def execTrans (r1 r2 : Reg) (s : State) : Outcome :=
  kernelOnly 0x44 r1 r2 (translateExplicit vrtSetR r1 r2) s

/-- DIRT (R466). -/
def execDirt (r1 r2 : Reg) (s : State) : Outcome :=
  kernelOnly 0x45 r1 r2 (translateExplicit (fun e => vrtSetM (vrtSetR e)) r1 r2) s

/-- READ (R470). -/
def execRead (r1 r2 : Reg) (s : State) : Outcome :=
  kernelOrPrivileged 0x4E r1 r2
    (fun s =>
      let a := s.reg r2
      let (reply, s1) := ioTransaction (.read a) a s
      let (status, data) := replyWords reply s1
      advance 2 ((s1.drawn3.setReg r1 status).setReg (r1 + 1) data)) s

/-- WRITE (R472): the data word in R1 is replaced by the status. -/
def execWrite (r1 r2 : Reg) (s : State) : Outcome :=
  kernelOrPrivileged 0x4F r1 r2
    (fun s =>
      let a := s.reg r2
      let (reply, s1) := ioTransaction (.write a (s.reg r1)) a s
      advance 2 (s1.drawn3.setReg r1 (replyWords reply s1).1)) s

end Sys2Proof.Machine
end

