-- ==== Sys2Proof/Machine/MemoryReference.lean ====
section
/-! DEFINITION. Memory reference instructions (spec/40_memory_reference.md rules R200 to R230). -/

namespace Sys2Proof.Machine

/-! ## Shared operations -/

/-- What a load leaves in its destination when it raises an exception: after a parity error any value (R526, U35), else
the old value (R205). -/
def abortLoad (scramble : State → State) (e : Exception) (s : State) : Outcome :=
  match e with
  | .parityExecute _ => raise e (scramble s)
  | _ => raise e s

/-- A load of `n` bytes, zero-extended, into a register (R210 to R212). -/
def loadTo (seg : Segment) (n : Nat) (r : Reg) (ea : Word) (len : Nat) (s : State) : Outcome :=
  match memRead seg ea n s with
  | .ok v s1 => advance len (s1.setReg r (BitVec.ofNat 32 v))
  | .trap e s1 => abortLoad (fun t => t.scrambleReg r) e s1
  | .fault f => .fault f
  | .refused f => .refused f

/-- A load of a double word into a register pair (R213). -/
def loadPairTo (seg : Segment) (r : Reg) (ea : Word) (len : Nat) (s : State) : Outcome :=
  match memRead seg ea 8 s with
  | .ok v s1 => advance len (s1.setPair r (BitVec.ofNat 64 v))
  | .trap e s1 => abortLoad (fun t => t.scramblePair r) e s1
  | .fault f => .fault f
  | .refused f => .refused f

/-- A store of the low `n` bytes of a value (R220 to R223). -/
def storeFrom (n v : Nat) (ea : Word) (len : Nat) (s : State) : Outcome :=
  (memWrite ea n v s).finish fun _ s1 => advance len s1

/-- The effective address itself into a register (R230). -/
def loadAddress (r : Reg) (ea : Word) (len : Nat) (s : State) : Outcome := advance len (s.setReg r ea)

/-! ## Loads (R210 to R214) -/

/-- LOADB (R210). -/
def execLoadb (r _rx : Reg) (disp : Half) (s : State) : Outcome :=
  loadTo .data 1 r (eaData (sext16 disp) s) 4 s

/-- LOADB.X (R210). -/
def execLoadbX (r rx : Reg) (disp : Half) (s : State) : Outcome :=
  loadTo .data 1 r (eaDataX rx (sext16 disp) s) 4 s

/-- LOADB.L (R210). -/
def execLoadbL (r _rx : Reg) (disp : Word) (s : State) : Outcome :=
  loadTo .data 1 r (eaData disp s) 6 s

/-- LOADB.LX (R210). -/
def execLoadbLX (r rx : Reg) (disp : Word) (s : State) : Outcome :=
  loadTo .data 1 r (eaDataX rx disp s) 6 s

/-- LOADH (R211). -/
def execLoadh (r _rx : Reg) (disp : Half) (s : State) : Outcome :=
  loadTo .data 2 r (eaData (sext16 disp) s) 4 s

/-- LOADH.X (R211). -/
def execLoadhX (r rx : Reg) (disp : Half) (s : State) : Outcome :=
  loadTo .data 2 r (eaDataX rx (sext16 disp) s) 4 s

/-- LOADH.L (R211). -/
def execLoadhL (r _rx : Reg) (disp : Word) (s : State) : Outcome :=
  loadTo .data 2 r (eaData disp s) 6 s

/-- LOADH.LX (R211). -/
def execLoadhLX (r rx : Reg) (disp : Word) (s : State) : Outcome :=
  loadTo .data 2 r (eaDataX rx disp s) 6 s

/-- LOAD (R212). -/
def execLoad (r _rx : Reg) (disp : Half) (s : State) : Outcome :=
  loadTo .data 4 r (eaData (sext16 disp) s) 4 s

/-- LOAD.X (R212). -/
def execLoadX (r rx : Reg) (disp : Half) (s : State) : Outcome :=
  loadTo .data 4 r (eaDataX rx (sext16 disp) s) 4 s

/-- LOAD.L (R212). -/
def execLoadL (r _rx : Reg) (disp : Word) (s : State) : Outcome :=
  loadTo .data 4 r (eaData disp s) 6 s

/-- LOAD.LX (R212). -/
def execLoadLX (r rx : Reg) (disp : Word) (s : State) : Outcome :=
  loadTo .data 4 r (eaDataX rx disp s) 6 s

/-- LOADD (R213). -/
def execLoadd (r _rx : Reg) (disp : Half) (s : State) : Outcome :=
  loadPairTo .data r (eaData (sext16 disp) s) 4 s

/-- LOADD.X (R213). -/
def execLoaddX (r rx : Reg) (disp : Half) (s : State) : Outcome :=
  loadPairTo .data r (eaDataX rx (sext16 disp) s) 4 s

/-- LOADD.L (R213). -/
def execLoaddL (r _rx : Reg) (disp : Word) (s : State) : Outcome :=
  loadPairTo .data r (eaData disp s) 6 s

/-- LOADD.LX (R213). -/
def execLoaddLX (r rx : Reg) (disp : Word) (s : State) : Outcome :=
  loadPairTo .data r (eaDataX rx disp s) 6 s

/-- LOADB.C (R210). -/
def execLoadbC (r _rx : Reg) (disp : Half) (s : State) : Outcome :=
  loadTo .code 1 r (eaCode (sext16 disp) s) 4 s

/-- LOADB.CX (R210). -/
def execLoadbCX (r rx : Reg) (disp : Half) (s : State) : Outcome :=
  loadTo .code 1 r (eaCodeX rx (sext16 disp) s) 4 s

/-- LOADB.CL (R210). -/
def execLoadbCL (r _rx : Reg) (disp : Word) (s : State) : Outcome :=
  loadTo .code 1 r (eaCode disp s) 6 s

/-- LOADB.CLX (R210). -/
def execLoadbCLX (r rx : Reg) (disp : Word) (s : State) : Outcome :=
  loadTo .code 1 r (eaCodeX rx disp s) 6 s

/-- LOADH.C (R211). -/
def execLoadhC (r _rx : Reg) (disp : Half) (s : State) : Outcome :=
  loadTo .code 2 r (eaCode (sext16 disp) s) 4 s

/-- LOADH.CX (R211). -/
def execLoadhCX (r rx : Reg) (disp : Half) (s : State) : Outcome :=
  loadTo .code 2 r (eaCodeX rx (sext16 disp) s) 4 s

/-- LOADH.CL (R211). -/
def execLoadhCL (r _rx : Reg) (disp : Word) (s : State) : Outcome :=
  loadTo .code 2 r (eaCode disp s) 6 s

/-- LOADH.CLX (R211). -/
def execLoadhCLX (r rx : Reg) (disp : Word) (s : State) : Outcome :=
  loadTo .code 2 r (eaCodeX rx disp s) 6 s

/-- LOAD.C (R212). -/
def execLoadC (r _rx : Reg) (disp : Half) (s : State) : Outcome :=
  loadTo .code 4 r (eaCode (sext16 disp) s) 4 s

/-- LOAD.CX (R212). -/
def execLoadCX (r rx : Reg) (disp : Half) (s : State) : Outcome :=
  loadTo .code 4 r (eaCodeX rx (sext16 disp) s) 4 s

/-- LOAD.CL (R212). -/
def execLoadCL (r _rx : Reg) (disp : Word) (s : State) : Outcome :=
  loadTo .code 4 r (eaCode disp s) 6 s

/-- LOAD.CLX (R212). -/
def execLoadCLX (r rx : Reg) (disp : Word) (s : State) : Outcome :=
  loadTo .code 4 r (eaCodeX rx disp s) 6 s

/-- LOADD.C (R213). -/
def execLoaddC (r _rx : Reg) (disp : Half) (s : State) : Outcome :=
  loadPairTo .code r (eaCode (sext16 disp) s) 4 s

/-- LOADD.CX (R213). -/
def execLoaddCX (r rx : Reg) (disp : Half) (s : State) : Outcome :=
  loadPairTo .code r (eaCodeX rx (sext16 disp) s) 4 s

/-- LOADD.CL (R213). -/
def execLoaddCL (r _rx : Reg) (disp : Word) (s : State) : Outcome :=
  loadPairTo .code r (eaCode disp s) 6 s

/-- LOADD.CLX (R213). -/
def execLoaddCLX (r rx : Reg) (disp : Word) (s : State) : Outcome :=
  loadPairTo .code r (eaCodeX rx disp s) 6 s

/-! ## Stores (R220 to R224) -/

/-- STOREB (R220). -/
def execStoreb (r _rx : Reg) (disp : Half) (s : State) : Outcome :=
  storeFrom 1 (s.reg r).toNat (eaData (sext16 disp) s) 4 s

/-- STOREB.X (R220). -/
def execStorebX (r rx : Reg) (disp : Half) (s : State) : Outcome :=
  storeFrom 1 (s.reg r).toNat (eaDataX rx (sext16 disp) s) 4 s

/-- STOREB.L (R220). -/
def execStorebL (r _rx : Reg) (disp : Word) (s : State) : Outcome :=
  storeFrom 1 (s.reg r).toNat (eaData disp s) 6 s

/-- STOREB.LX (R220). -/
def execStorebLX (r rx : Reg) (disp : Word) (s : State) : Outcome :=
  storeFrom 1 (s.reg r).toNat (eaDataX rx disp s) 6 s

/-- STOREH (R221). -/
def execStoreh (r _rx : Reg) (disp : Half) (s : State) : Outcome :=
  storeFrom 2 (s.reg r).toNat (eaData (sext16 disp) s) 4 s

/-- STOREH.X (R221). -/
def execStorehX (r rx : Reg) (disp : Half) (s : State) : Outcome :=
  storeFrom 2 (s.reg r).toNat (eaDataX rx (sext16 disp) s) 4 s

/-- STOREH.L (R221). -/
def execStorehL (r _rx : Reg) (disp : Word) (s : State) : Outcome :=
  storeFrom 2 (s.reg r).toNat (eaData disp s) 6 s

/-- STOREH.LX (R221). -/
def execStorehLX (r rx : Reg) (disp : Word) (s : State) : Outcome :=
  storeFrom 2 (s.reg r).toNat (eaDataX rx disp s) 6 s

/-- STORE (R222). -/
def execStore (r _rx : Reg) (disp : Half) (s : State) : Outcome :=
  storeFrom 4 (s.reg r).toNat (eaData (sext16 disp) s) 4 s

/-- STORE.X (R222). -/
def execStoreX (r rx : Reg) (disp : Half) (s : State) : Outcome :=
  storeFrom 4 (s.reg r).toNat (eaDataX rx (sext16 disp) s) 4 s

/-- STORE.L (R222). -/
def execStoreL (r _rx : Reg) (disp : Word) (s : State) : Outcome :=
  storeFrom 4 (s.reg r).toNat (eaData disp s) 6 s

/-- STORE.LX (R222). -/
def execStoreLX (r rx : Reg) (disp : Word) (s : State) : Outcome :=
  storeFrom 4 (s.reg r).toNat (eaDataX rx disp s) 6 s

/-- STORED (R223). -/
def execStored (r _rx : Reg) (disp : Half) (s : State) : Outcome :=
  storeFrom 8 (s.pair r).toNat (eaData (sext16 disp) s) 4 s

/-- STORED.X (R223). -/
def execStoredX (r rx : Reg) (disp : Half) (s : State) : Outcome :=
  storeFrom 8 (s.pair r).toNat (eaDataX rx (sext16 disp) s) 4 s

/-- STORED.L (R223). -/
def execStoredL (r _rx : Reg) (disp : Word) (s : State) : Outcome :=
  storeFrom 8 (s.pair r).toNat (eaData disp s) 6 s

/-- STORED.LX (R223). -/
def execStoredLX (r rx : Reg) (disp : Word) (s : State) : Outcome :=
  storeFrom 8 (s.pair r).toNat (eaDataX rx disp s) 6 s

/-! ## Load address (R230) -/

/-- LADDR (R230). -/
def execLaddr (r _rx : Reg) (disp : Half) (s : State) : Outcome :=
  loadAddress r (eaData (sext16 disp) s) 4 s

/-- LADDR.X (R230). -/
def execLaddrX (r rx : Reg) (disp : Half) (s : State) : Outcome :=
  loadAddress r (eaDataX rx (sext16 disp) s) 4 s

/-- LADDR.L (R230). -/
def execLaddrL (r _rx : Reg) (disp : Word) (s : State) : Outcome :=
  loadAddress r (eaData disp s) 6 s

/-- LADDR.LX (R230). -/
def execLaddrLX (r rx : Reg) (disp : Word) (s : State) : Outcome :=
  loadAddress r (eaDataX rx disp s) 6 s

/-- LADDR.C (R230). -/
def execLaddrC (r _rx : Reg) (disp : Half) (s : State) : Outcome :=
  loadAddress r (eaCode (sext16 disp) s) 4 s

/-- LADDR.CX (R230). -/
def execLaddrCX (r rx : Reg) (disp : Half) (s : State) : Outcome :=
  loadAddress r (eaCodeX rx (sext16 disp) s) 4 s

/-- LADDR.CL (R230). -/
def execLaddrCL (r _rx : Reg) (disp : Word) (s : State) : Outcome :=
  loadAddress r (eaCode disp s) 6 s

/-- LADDR.CLX (R230). -/
def execLaddrCLX (r rx : Reg) (disp : Word) (s : State) : Outcome :=
  loadAddress r (eaCodeX rx disp s) 6 s

end Sys2Proof.Machine
end

