-- ==== Sys2Proof/Machine/Real.lean ====
section
/-! DEFINITION. Real and double real instructions (spec/42_real.md rules R289 to R308). -/

namespace Sys2Proof.Machine

/-! ## 32-bit reals -/

/-- RNEG (R290). -/
def execRneg (r1 r2 : Reg) (s : State) : Outcome :=
  realEnd r1 (realNegate (s.reg r2)) s

/-- RADD (R291). -/
def execRadd (r1 r2 : Reg) (s : State) : Outcome :=
  realEnd r1 (realArith .add (s.reg r1) (s.reg r2)) s

/-- RSUB (R292). -/
def execRsub (r1 r2 : Reg) (s : State) : Outcome :=
  realEnd r1 (realArith .sub (s.reg r1) (s.reg r2)) s

/-- RMPY (R293). -/
def execRmpy (r1 r2 : Reg) (s : State) : Outcome :=
  realEnd r1 (realArith .mpy (s.reg r1) (s.reg r2)) s

/-- RDIV (R294). -/
def execRdiv (r1 r2 : Reg) (s : State) : Outcome :=
  realEnd r1 (realDivide (s.reg r1) (s.reg r2)) s

/-- FLOAT (R295). -/
def execFloat (r1 r2 : Reg) (s : State) : Outcome :=
  plainResult r1 (floatWord (s.reg r2)) s

/-- FIXT (R296). -/
def execFixt (r1 r2 : Reg) (s : State) : Outcome :=
  fixEnd r1 (fixWord .truncate (s.reg r2)) s

/-- FIXR (R297). -/
def execFixr (r1 r2 : Reg) (s : State) : Outcome :=
  fixEnd r1 (fixWord .round (s.reg r2)) s

/-- MAKERD (R298). -/
def execMakerd (r1 r2 : Reg) (s : State) : Outcome :=
  pairResult r1 (makeDouble (s.reg r2)) s

/-! ## Double reals -/

/-- DRNEG (R300). -/
def execDrneg (r1 r2 : Reg) (s : State) : Outcome :=
  doubleEnd r1 (doubleNegate (s.pair r2)) s

/-- DRADD (R301). -/
def execDradd (r1 r2 : Reg) (s : State) : Outcome :=
  doubleEnd r1 (doubleArith .add (s.pair r1) (s.pair r2)) s

/-- DRSUB (R302). -/
def execDrsub (r1 r2 : Reg) (s : State) : Outcome :=
  doubleEnd r1 (doubleArith .sub (s.pair r1) (s.pair r2)) s

/-- DRMPY (R303). -/
def execDrmpy (r1 r2 : Reg) (s : State) : Outcome :=
  doubleEnd r1 (doubleArith .mpy (s.pair r1) (s.pair r2)) s

/-- DRDIV (R304). -/
def execDrdiv (r1 r2 : Reg) (s : State) : Outcome :=
  doubleEnd r1 (doubleDivide (s.pair r1) (s.pair r2)) s

/-- DFLOAT (R305). -/
def execDfloat (r1 r2 : Reg) (s : State) : Outcome :=
  pairResult r1 (floatDouble (s.reg r2)) s

/-- DFIXT (R306). -/
def execDfixt (r1 r2 : Reg) (s : State) : Outcome :=
  fixEnd r1 (fixDouble .truncate (s.pair r2)) s

/-- DFIXR (R307). -/
def execDfixr (r1 r2 : Reg) (s : State) : Outcome :=
  fixEnd r1 (fixDouble .round (s.pair r2)) s

/-- MAKEDR (R308). -/
def execMakedr (r1 r2 : Reg) (s : State) : Outcome :=
  makeRealEnd r1 (makeReal (s.pair r2)) s

end Sys2Proof.Machine
end

