-- ==== Sys2Proof/Machine/Shift.lean ====
section
/-! DEFINITION. Shift, sign extend and no-operation instructions (spec/44_shift_signextend_nop.md). -/

namespace Sys2Proof.Machine

/-- ASL and ASLI (R376): the shifted value is written, then the overflow trap if it is due (D10). -/
def arithmeticLeft (r1 : Reg) (n : Nat) (s : State) : Outcome :=
  overflowEnd (shiftOverflows (s.reg r1) n) (s.setReg r1 (shiftArithmeticLeft (s.reg r1) n))

/-- CSL (R370). -/
def execCsl (r1 r2 : Reg) (s : State) : Outcome :=
  plainResult r1 ((s.reg r1).rotateLeft (countSingle (s.reg r2))) s

/-- CSLI (R371). -/
def execCsli (r1 r2 : Reg) (s : State) : Outcome :=
  plainResult r1 ((s.reg r1).rotateLeft (countImmediate r2)) s

/-- LSL (R372). -/
def execLsl (r1 r2 : Reg) (s : State) : Outcome :=
  plainResult r1 (s.reg r1 <<< (countSingle (s.reg r2))) s

/-- LSLI (R373). -/
def execLsli (r1 r2 : Reg) (s : State) : Outcome :=
  plainResult r1 (s.reg r1 <<< (countImmediate r2)) s

/-- LSR (R374). -/
def execLsr (r1 r2 : Reg) (s : State) : Outcome :=
  plainResult r1 (s.reg r1 >>> (countSingle (s.reg r2))) s

/-- LSRI (R375). -/
def execLsri (r1 r2 : Reg) (s : State) : Outcome :=
  plainResult r1 (s.reg r1 >>> (countImmediate r2)) s

/-- ASL (R376). -/
def execAsl (r1 r2 : Reg) (s : State) : Outcome :=
  arithmeticLeft r1 (countSingle (s.reg r2)) s

/-- ASLI (R377). -/
def execAsli (r1 r2 : Reg) (s : State) : Outcome :=
  arithmeticLeft r1 (countImmediate r2) s

/-- ASR (R378). -/
def execAsr (r1 r2 : Reg) (s : State) : Outcome :=
  plainResult r1 ((s.reg r1).sshiftRight (countSingle (s.reg r2))) s

/-- ASRI (R379). -/
def execAsri (r1 r2 : Reg) (s : State) : Outcome :=
  plainResult r1 ((s.reg r1).sshiftRight (countImmediate r2)) s

/-- DLSL (R380). -/
def execDlsl (r1 r2 : Reg) (s : State) : Outcome :=
  pairResult r1 (s.pair r1 <<< (countDouble (s.reg r2))) s

/-- DLSLI (R381). -/
def execDlsli (r1 r2 : Reg) (s : State) : Outcome :=
  pairResult r1 (s.pair r1 <<< (countImmediate r2)) s

/-- DLSR (R382). -/
def execDlsr (r1 r2 : Reg) (s : State) : Outcome :=
  pairResult r1 (s.pair r1 >>> (countDouble (s.reg r2))) s

/-- DLSRI (R383). -/
def execDlsri (r1 r2 : Reg) (s : State) : Outcome :=
  pairResult r1 (s.pair r1 >>> (countImmediate r2)) s

/-- SEB (R385). -/
def execSeb (r1 r2 : Reg) (s : State) : Outcome :=
  plainResult r1 (((s.reg r2).extractLsb' 0 8).signExtend 32) s

/-- SEH (R386). -/
def execSeh (r1 r2 : Reg) (s : State) : Outcome :=
  plainResult r1 (((s.reg r2).extractLsb' 0 16).signExtend 32) s

/-- NOP (R390). -/
def execNop (_r1 _r2 : Reg) (s : State) : Outcome :=
  advance 2 s

end Sys2Proof.Machine
end

