-- ==== Sys2Proof/Syntax.lean ====
section
/-! DEFINITION. The instructions: one constructor per row of spec/opcode_table.json, named after its mnemonic (the suffixes
L, X, C of R170 kept). Every field of the encoding is an argument, the unused ones too (R167): a kernel violation reports
them. `r1`, `r2` are the R1 and R2 fields; where an instruction is an immediate one, `r2` is the immediate (R154). In the
memory reference forms `r` is the register, `rx` the index register (R155). -/

namespace Sys2Proof

/-- An instruction (R163, R164). -/
inductive Instr
  -- Integer, logical, bit and check (row 0 of the opcode map)
  /-- MOVE, OP 01 (R250). -/
  | move (r1 r2 : Reg)
  /-- NEG, OP 02 (R240). -/
  | neg (r1 r2 : Reg)
  /-- ADD, OP 03 (R241). -/
  | add (r1 r2 : Reg)
  /-- SUB, OP 04 (R242). -/
  | sub (r1 r2 : Reg)
  /-- MPY, OP 05 (R243). -/
  | mpy (r1 r2 : Reg)
  /-- DIV, OP 06 (R244). -/
  | div (r1 r2 : Reg)
  /-- REM, OP 07 (R245). -/
  | rem (r1 r2 : Reg)
  /-- NOT, OP 08 (R251). -/
  | not (r1 r2 : Reg)
  /-- OR, OP 09 (R253). -/
  | or (r1 r2 : Reg)
  /-- XOR, OP 0A (R254). -/
  | xor (r1 r2 : Reg)
  /-- AND, OP 0B (R252). -/
  | and (r1 r2 : Reg)
  /-- CBIT, OP 0C (R332). -/
  | cbit (r1 r2 : Reg)
  /-- SBIT, OP 0D (R331). -/
  | sbit (r1 r2 : Reg)
  /-- TBIT, OP 0E (R330). -/
  | tbit (r1 r2 : Reg)
  /-- CHK, OP 0F (R335). -/
  | chk (r1 r2 : Reg)
  -- NOP and immediate (row 1)
  /-- NOP, OP 10 (R390). -/
  | nop (r1 r2 : Reg)
  /-- MOVEI, OP 11 (R320). -/
  | movei (r1 r2 : Reg)
  /-- ADDI, OP 13 (R322). -/
  | addi (r1 r2 : Reg)
  /-- SUBI, OP 14 (R323). -/
  | subi (r1 r2 : Reg)
  /-- MPYI, OP 15 (R325). -/
  | mpyi (r1 r2 : Reg)
  /-- NOTI, OP 18 (R321). -/
  | noti (r1 r2 : Reg)
  /-- ANDI, OP 1B (R324). -/
  | andi (r1 r2 : Reg)
  /-- CHKI, OP 1F (R336). -/
  | chki (r1 r2 : Reg)
  -- Real, LCOMP, RCOMP, extended precision (row 2)
  /-- FIXT, OP 20 (R296). -/
  | fixt (r1 r2 : Reg)
  /-- FIXR, OP 21 (R297). -/
  | fixr (r1 r2 : Reg)
  /-- RNEG, OP 22 (R290). -/
  | rneg (r1 r2 : Reg)
  /-- RADD, OP 23 (R291). -/
  | radd (r1 r2 : Reg)
  /-- RSUB, OP 24 (R292). -/
  | rsub (r1 r2 : Reg)
  /-- RMPY, OP 25 (R293). -/
  | rmpy (r1 r2 : Reg)
  /-- RDIV, OP 26 (R294). -/
  | rdiv (r1 r2 : Reg)
  /-- MAKERD, OP 27 (R298). -/
  | makerd (r1 r2 : Reg)
  /-- LCOMP, OP 28 (R351). -/
  | lcomp (r1 r2 : Reg)
  /-- FLOAT, OP 29 (R295). -/
  | float (r1 r2 : Reg)
  /-- RCOMP, OP 2A (R352). -/
  | rcomp (r1 r2 : Reg)
  /-- EADD, OP 2C (R262). -/
  | eadd (r1 r2 : Reg)
  /-- ESUB, OP 2D (R263). -/
  | esub (r1 r2 : Reg)
  /-- EMPY, OP 2E (R264). -/
  | empy (r1 r2 : Reg)
  /-- EDIV, OP 2F (R265). -/
  | ediv (r1 r2 : Reg)
  -- Double real, DCOMP, DRCOMP, TRAP (row 3)
  /-- DFIXT, OP 30 (R306). -/
  | dfixt (r1 r2 : Reg)
  /-- DFIXR, OP 31 (R307). -/
  | dfixr (r1 r2 : Reg)
  /-- DRNEG, OP 32 (R300). -/
  | drneg (r1 r2 : Reg)
  /-- DRADD, OP 33 (R301). -/
  | dradd (r1 r2 : Reg)
  /-- DRSUB, OP 34 (R302). -/
  | drsub (r1 r2 : Reg)
  /-- DRMPY, OP 35 (R303). -/
  | drmpy (r1 r2 : Reg)
  /-- DRDIV, OP 36 (R304). -/
  | drdiv (r1 r2 : Reg)
  /-- MAKEDR, OP 37 (R308). -/
  | makedr (r1 r2 : Reg)
  /-- DCOMP, OP 38 (R350). -/
  | dcomp (r1 r2 : Reg)
  /-- DFLOAT, OP 39 (R305). -/
  | dfloat (r1 r2 : Reg)
  /-- DRCOMP, OP 3A (R353). -/
  | drcomp (r1 r2 : Reg)
  /-- TRAP, OP 3B (R337). -/
  | trap (r1 r2 : Reg)
  -- Kernel mode, maintenance, input and output (row 4)
  /-- SUS, OP 40 (R432). -/
  | sus (r1 r2 : Reg)
  /-- LUS, OP 41 (R434). -/
  | lus (r1 r2 : Reg)
  /-- RUM, OP 42 (R440). -/
  | rum (r1 r2 : Reg)
  /-- LDREGS, OP 43 (R436). -/
  | ldregs (r1 r2 : Reg)
  /-- TRANS, OP 44 (R465). -/
  | trans (r1 r2 : Reg)
  /-- DIRT, OP 45 (R466). -/
  | dirt (r1 r2 : Reg)
  /-- MOVESR, OP 46 (R442). -/
  | movesr (r1 r2 : Reg)
  /-- MOVERS, OP 47 (R443). -/
  | movers (r1 r2 : Reg)
  /-- ELOGR, OP 4C/0 (R452). -/
  | elogr (r1 : Reg)
  /-- ELOGW, OP 4C/1 (R454). -/
  | elogw (r1 : Reg)
  /-- FLUSH, OP 4C/6 (R460). -/
  | flush (r1 : Reg)
  /-- TRAPEXIT, OP 4C/7 (R462). -/
  | trapexit (r1 : Reg)
  /-- ITEST, OP 4C/8 (R464). -/
  | itest (r1 : Reg)
  /-- READ, OP 4E (R470). -/
  | read (r1 r2 : Reg)
  /-- WRITE, OP 4F (R472). -/
  | write (r1 r2 : Reg)
  -- TEST, TESTI, CALLR, RET, KCALL (row 5)
  /-- TEST.GT, OP 50 (R346). -/
  | testGt (r1 r2 : Reg)
  /-- TEST.LT, OP 51 (R346). -/
  | testLt (r1 r2 : Reg)
  /-- TEST.EQ, OP 52 (R346). -/
  | testEq (r1 r2 : Reg)
  /-- CALLR, OP 53 (R411). -/
  | callr (r1 r2 : Reg)
  /-- TESTI.GT, OP 54 (R347). -/
  | testiGt (r1 r2 : Reg)
  /-- TESTI.LT, OP 55 (R347). -/
  | testiLt (r1 r2 : Reg)
  /-- TESTI.EQ, OP 56 (R347). -/
  | testiEq (r1 r2 : Reg)
  /-- RET, OP 57 (R412). -/
  | ret (r1 r2 : Reg)
  /-- TEST.LE, OP 58 (R346). -/
  | testLe (r1 r2 : Reg)
  /-- TEST.GE, OP 59 (R346). -/
  | testGe (r1 r2 : Reg)
  /-- TEST.NE, OP 5A (R346). -/
  | testNe (r1 r2 : Reg)
  /-- KCALL, OP 5B (R338). -/
  | kcall (n : BitVec 8)
  /-- TESTI.LE, OP 5C (R347). -/
  | testiLe (r1 r2 : Reg)
  /-- TESTI.GE, OP 5D (R347). -/
  | testiGe (r1 r2 : Reg)
  /-- TESTI.NE, OP 5E (R347). -/
  | testiNe (r1 r2 : Reg)
  -- Shifts by register, SEB (row 6)
  /-- LSL, OP 60 (R372). -/
  | lsl (r1 r2 : Reg)
  /-- LSR, OP 61 (R374). -/
  | lsr (r1 r2 : Reg)
  /-- ASL, OP 62 (R376). -/
  | asl (r1 r2 : Reg)
  /-- ASR, OP 63 (R378). -/
  | asr (r1 r2 : Reg)
  /-- DLSL, OP 64 (R380). -/
  | dlsl (r1 r2 : Reg)
  /-- DLSR, OP 65 (R382). -/
  | dlsr (r1 r2 : Reg)
  /-- CSL, OP 68 (R370). -/
  | csl (r1 r2 : Reg)
  /-- SEB, OP 6A (R385). -/
  | seb (r1 r2 : Reg)
  -- Shifts by immediate, SEH (row 7)
  /-- LSLI, OP 70 (R373). -/
  | lsli (r1 r2 : Reg)
  /-- LSRI, OP 71 (R375). -/
  | lsri (r1 r2 : Reg)
  /-- ASLI, OP 72 (R377). -/
  | asli (r1 r2 : Reg)
  /-- ASRI, OP 73 (R379). -/
  | asri (r1 r2 : Reg)
  /-- DLSLI, OP 74 (R381). -/
  | dlsli (r1 r2 : Reg)
  /-- DLSRI, OP 75 (R383). -/
  | dlsri (r1 r2 : Reg)
  /-- CSLI, OP 78 (R371). -/
  | csli (r1 r2 : Reg)
  /-- SEH, OP 7A (R386). -/
  | seh (r1 r2 : Reg)
  -- Branches, CALL, LOOP (rows 8 and 9)
  /-- BR.GT, OP 80 (R403). -/
  | brGt (r1 r2 : Reg) (disp : Half)
  /-- BR.GT.L, OP 90 (R403). -/
  | brGtL (r1 r2 : Reg) (disp : Word)
  /-- BR.EQ, OP 82 (R403). -/
  | brEq (r1 r2 : Reg) (disp : Half)
  /-- BR.EQ.L, OP 92 (R403). -/
  | brEqL (r1 r2 : Reg) (disp : Word)
  /-- CALL, OP 83 (R410). -/
  | call (r1 r2 : Reg) (disp : Half)
  /-- CALL.L, OP 93 (R410). -/
  | callL (r1 r2 : Reg) (disp : Word)
  /-- BRI.GT, OP 84 (R404). -/
  | briGt (r1 r2 : Reg) (disp : Half)
  /-- BRI.GT.L, OP 94 (R404). -/
  | briGtL (r1 r2 : Reg) (disp : Word)
  /-- BRI.LT, OP 85 (R404). -/
  | briLt (r1 r2 : Reg) (disp : Half)
  /-- BRI.LT.L, OP 95 (R404). -/
  | briLtL (r1 r2 : Reg) (disp : Word)
  /-- BRI.EQ, OP 86 (R404). -/
  | briEq (r1 r2 : Reg) (disp : Half)
  /-- BRI.EQ.L, OP 96 (R404). -/
  | briEqL (r1 r2 : Reg) (disp : Word)
  /-- LOOP, OP 87 (R415). -/
  | loop (r1 r2 : Reg) (disp : Half)
  /-- LOOP.L, OP 97 (R415). -/
  | loopL (r1 r2 : Reg) (disp : Word)
  /-- BR.LE, OP 88 (R403). -/
  | brLe (r1 r2 : Reg) (disp : Half)
  /-- BR.LE.L, OP 98 (R403). -/
  | brLeL (r1 r2 : Reg) (disp : Word)
  /-- BR.NE, OP 8A (R403). -/
  | brNe (r1 r2 : Reg) (disp : Half)
  /-- BR.NE.L, OP 9A (R403). -/
  | brNeL (r1 r2 : Reg) (disp : Word)
  /-- BR, OP 8B (R402). -/
  | br (r1 r2 : Reg) (disp : Half)
  /-- BR.L, OP 9B (R402). -/
  | brL (r1 r2 : Reg) (disp : Word)
  /-- BRI.LE, OP 8C (R404). -/
  | briLe (r1 r2 : Reg) (disp : Half)
  /-- BRI.LE.L, OP 9C (R404). -/
  | briLeL (r1 r2 : Reg) (disp : Word)
  /-- BRI.GE, OP 8D (R404). -/
  | briGe (r1 r2 : Reg) (disp : Half)
  /-- BRI.GE.L, OP 9D (R404). -/
  | briGeL (r1 r2 : Reg) (disp : Word)
  /-- BRI.NE, OP 8E (R404). -/
  | briNe (r1 r2 : Reg) (disp : Half)
  /-- BRI.NE.L, OP 9E (R404). -/
  | briNeL (r1 r2 : Reg) (disp : Word)
  -- Stores (rows A and B)
  /-- STOREB, OP A0 (R220). -/
  | storeb (r rx : Reg) (disp : Half)
  /-- STOREB.X, OP A1 (R220). -/
  | storebX (r rx : Reg) (disp : Half)
  /-- STOREB.L, OP B0 (R220). -/
  | storebL (r rx : Reg) (disp : Word)
  /-- STOREB.LX, OP B1 (R220). -/
  | storebLX (r rx : Reg) (disp : Word)
  /-- STOREH, OP A2 (R221). -/
  | storeh (r rx : Reg) (disp : Half)
  /-- STOREH.X, OP A3 (R221). -/
  | storehX (r rx : Reg) (disp : Half)
  /-- STOREH.L, OP B2 (R221). -/
  | storehL (r rx : Reg) (disp : Word)
  /-- STOREH.LX, OP B3 (R221). -/
  | storehLX (r rx : Reg) (disp : Word)
  /-- STORE, OP A6 (R222). -/
  | store (r rx : Reg) (disp : Half)
  /-- STORE.X, OP A7 (R222). -/
  | storeX (r rx : Reg) (disp : Half)
  /-- STORE.L, OP B6 (R222). -/
  | storeL (r rx : Reg) (disp : Word)
  /-- STORE.LX, OP B7 (R222). -/
  | storeLX (r rx : Reg) (disp : Word)
  /-- STORED, OP A8 (R223). -/
  | stored (r rx : Reg) (disp : Half)
  /-- STORED.X, OP A9 (R223). -/
  | storedX (r rx : Reg) (disp : Half)
  /-- STORED.L, OP B8 (R223). -/
  | storedL (r rx : Reg) (disp : Word)
  /-- STORED.LX, OP B9 (R223). -/
  | storedLX (r rx : Reg) (disp : Word)
  -- Data segment loads and LADDR (rows C and D)
  /-- LOADB, OP C0 (R210). -/
  | loadb (r rx : Reg) (disp : Half)
  /-- LOADB.X, OP C1 (R210). -/
  | loadbX (r rx : Reg) (disp : Half)
  /-- LOADB.L, OP D0 (R210). -/
  | loadbL (r rx : Reg) (disp : Word)
  /-- LOADB.LX, OP D1 (R210). -/
  | loadbLX (r rx : Reg) (disp : Word)
  /-- LOADH, OP C2 (R211). -/
  | loadh (r rx : Reg) (disp : Half)
  /-- LOADH.X, OP C3 (R211). -/
  | loadhX (r rx : Reg) (disp : Half)
  /-- LOADH.L, OP D2 (R211). -/
  | loadhL (r rx : Reg) (disp : Word)
  /-- LOADH.LX, OP D3 (R211). -/
  | loadhLX (r rx : Reg) (disp : Word)
  /-- LOAD, OP C6 (R212). -/
  | load (r rx : Reg) (disp : Half)
  /-- LOAD.X, OP C7 (R212). -/
  | loadX (r rx : Reg) (disp : Half)
  /-- LOAD.L, OP D6 (R212). -/
  | loadL (r rx : Reg) (disp : Word)
  /-- LOAD.LX, OP D7 (R212). -/
  | loadLX (r rx : Reg) (disp : Word)
  /-- LOADD, OP C8 (R213). -/
  | loadd (r rx : Reg) (disp : Half)
  /-- LOADD.X, OP C9 (R213). -/
  | loaddX (r rx : Reg) (disp : Half)
  /-- LOADD.L, OP D8 (R213). -/
  | loaddL (r rx : Reg) (disp : Word)
  /-- LOADD.LX, OP D9 (R213). -/
  | loaddLX (r rx : Reg) (disp : Word)
  /-- LADDR, OP CE (R230). -/
  | laddr (r rx : Reg) (disp : Half)
  /-- LADDR.X, OP CF (R230). -/
  | laddrX (r rx : Reg) (disp : Half)
  /-- LADDR.L, OP DE (R230). -/
  | laddrL (r rx : Reg) (disp : Word)
  /-- LADDR.LX, OP DF (R230). -/
  | laddrLX (r rx : Reg) (disp : Word)
  -- Code segment loads and LADDR (rows E and F)
  /-- LOADB.C, OP E0 (R210). -/
  | loadbC (r rx : Reg) (disp : Half)
  /-- LOADB.CX, OP E1 (R210). -/
  | loadbCX (r rx : Reg) (disp : Half)
  /-- LOADB.CL, OP F0 (R210). -/
  | loadbCL (r rx : Reg) (disp : Word)
  /-- LOADB.CLX, OP F1 (R210). -/
  | loadbCLX (r rx : Reg) (disp : Word)
  /-- LOADH.C, OP E2 (R211). -/
  | loadhC (r rx : Reg) (disp : Half)
  /-- LOADH.CX, OP E3 (R211). -/
  | loadhCX (r rx : Reg) (disp : Half)
  /-- LOADH.CL, OP F2 (R211). -/
  | loadhCL (r rx : Reg) (disp : Word)
  /-- LOADH.CLX, OP F3 (R211). -/
  | loadhCLX (r rx : Reg) (disp : Word)
  /-- LOAD.C, OP E6 (R212). -/
  | loadC (r rx : Reg) (disp : Half)
  /-- LOAD.CX, OP E7 (R212). -/
  | loadCX (r rx : Reg) (disp : Half)
  /-- LOAD.CL, OP F6 (R212). -/
  | loadCL (r rx : Reg) (disp : Word)
  /-- LOAD.CLX, OP F7 (R212). -/
  | loadCLX (r rx : Reg) (disp : Word)
  /-- LOADD.C, OP E8 (R213). -/
  | loaddC (r rx : Reg) (disp : Half)
  /-- LOADD.CX, OP E9 (R213). -/
  | loaddCX (r rx : Reg) (disp : Half)
  /-- LOADD.CL, OP F8 (R213). -/
  | loaddCL (r rx : Reg) (disp : Word)
  /-- LOADD.CLX, OP F9 (R213). -/
  | loaddCLX (r rx : Reg) (disp : Word)
  /-- LADDR.C, OP EE (R230). -/
  | laddrC (r rx : Reg) (disp : Half)
  /-- LADDR.CX, OP EF (R230). -/
  | laddrCX (r rx : Reg) (disp : Half)
  /-- LADDR.CL, OP FE (R230). -/
  | laddrCL (r rx : Reg) (disp : Word)
  /-- LADDR.CLX, OP FF (R230). -/
  | laddrCLX (r rx : Reg) (disp : Word)
  deriving DecidableEq, Repr

end Sys2Proof
end

