-- ==== Sys2Proof/Machine/Dispatch.lean ====
section
/-! DEFINITION. The meaning of each instruction: one arm per constructor of Instr. -/

namespace Sys2Proof.Machine

/-- What an instruction does to the state whose pc is its own address. -/
def exec (i : Instr) (s : State) : Host.Outcome State Fault Refusal :=
  match i with
  | .move r1 r2 => Sys2Proof.Machine.execMove r1 r2 s
  | .neg r1 r2 => Sys2Proof.Machine.execNeg r1 r2 s
  | .add r1 r2 => Sys2Proof.Machine.execAdd r1 r2 s
  | .sub r1 r2 => Sys2Proof.Machine.execSub r1 r2 s
  | .mpy r1 r2 => Sys2Proof.Machine.execMpy r1 r2 s
  | .div r1 r2 => Sys2Proof.Machine.execDiv r1 r2 s
  | .rem r1 r2 => Sys2Proof.Machine.execRem r1 r2 s
  | .not r1 r2 => Sys2Proof.Machine.execNot r1 r2 s
  | .or r1 r2 => Sys2Proof.Machine.execOr r1 r2 s
  | .xor r1 r2 => Sys2Proof.Machine.execXor r1 r2 s
  | .and r1 r2 => Sys2Proof.Machine.execAnd r1 r2 s
  | .cbit r1 r2 => Sys2Proof.Machine.execCbit r1 r2 s
  | .sbit r1 r2 => Sys2Proof.Machine.execSbit r1 r2 s
  | .tbit r1 r2 => Sys2Proof.Machine.execTbit r1 r2 s
  | .chk r1 r2 => Sys2Proof.Machine.execChk r1 r2 s
  | .nop r1 r2 => Sys2Proof.Machine.execNop r1 r2 s
  | .movei r1 r2 => Sys2Proof.Machine.execMovei r1 r2 s
  | .addi r1 r2 => Sys2Proof.Machine.execAddi r1 r2 s
  | .subi r1 r2 => Sys2Proof.Machine.execSubi r1 r2 s
  | .mpyi r1 r2 => Sys2Proof.Machine.execMpyi r1 r2 s
  | .noti r1 r2 => Sys2Proof.Machine.execNoti r1 r2 s
  | .andi r1 r2 => Sys2Proof.Machine.execAndi r1 r2 s
  | .chki r1 r2 => Sys2Proof.Machine.execChki r1 r2 s
  | .fixt r1 r2 => Sys2Proof.Machine.execFixt r1 r2 s
  | .fixr r1 r2 => Sys2Proof.Machine.execFixr r1 r2 s
  | .rneg r1 r2 => Sys2Proof.Machine.execRneg r1 r2 s
  | .radd r1 r2 => Sys2Proof.Machine.execRadd r1 r2 s
  | .rsub r1 r2 => Sys2Proof.Machine.execRsub r1 r2 s
  | .rmpy r1 r2 => Sys2Proof.Machine.execRmpy r1 r2 s
  | .rdiv r1 r2 => Sys2Proof.Machine.execRdiv r1 r2 s
  | .makerd r1 r2 => Sys2Proof.Machine.execMakerd r1 r2 s
  | .lcomp r1 r2 => Sys2Proof.Machine.execLcomp r1 r2 s
  | .float r1 r2 => Sys2Proof.Machine.execFloat r1 r2 s
  | .rcomp r1 r2 => Sys2Proof.Machine.execRcomp r1 r2 s
  | .eadd r1 r2 => Sys2Proof.Machine.execEadd r1 r2 s
  | .esub r1 r2 => Sys2Proof.Machine.execEsub r1 r2 s
  | .empy r1 r2 => Sys2Proof.Machine.execEmpy r1 r2 s
  | .ediv r1 r2 => Sys2Proof.Machine.execEdiv r1 r2 s
  | .dfixt r1 r2 => Sys2Proof.Machine.execDfixt r1 r2 s
  | .dfixr r1 r2 => Sys2Proof.Machine.execDfixr r1 r2 s
  | .drneg r1 r2 => Sys2Proof.Machine.execDrneg r1 r2 s
  | .dradd r1 r2 => Sys2Proof.Machine.execDradd r1 r2 s
  | .drsub r1 r2 => Sys2Proof.Machine.execDrsub r1 r2 s
  | .drmpy r1 r2 => Sys2Proof.Machine.execDrmpy r1 r2 s
  | .drdiv r1 r2 => Sys2Proof.Machine.execDrdiv r1 r2 s
  | .makedr r1 r2 => Sys2Proof.Machine.execMakedr r1 r2 s
  | .dcomp r1 r2 => Sys2Proof.Machine.execDcomp r1 r2 s
  | .dfloat r1 r2 => Sys2Proof.Machine.execDfloat r1 r2 s
  | .drcomp r1 r2 => Sys2Proof.Machine.execDrcomp r1 r2 s
  | .trap r1 r2 => Sys2Proof.Machine.execTrap r1 r2 s
  | .sus r1 r2 => Sys2Proof.Machine.execSus r1 r2 s
  | .lus r1 r2 => Sys2Proof.Machine.execLus r1 r2 s
  | .rum r1 r2 => Sys2Proof.Machine.execRum r1 r2 s
  | .ldregs r1 r2 => Sys2Proof.Machine.execLdregs r1 r2 s
  | .trans r1 r2 => Sys2Proof.Machine.execTrans r1 r2 s
  | .dirt r1 r2 => Sys2Proof.Machine.execDirt r1 r2 s
  | .movesr r1 r2 => Sys2Proof.Machine.execMovesr r1 r2 s
  | .movers r1 r2 => Sys2Proof.Machine.execMovers r1 r2 s
  | .elogr r1 => Sys2Proof.Machine.execElogr r1 s
  | .elogw r1 => Sys2Proof.Machine.execElogw r1 s
  | .flush r1 => Sys2Proof.Machine.execFlush r1 s
  | .trapexit r1 => Sys2Proof.Machine.execTrapexit r1 s
  | .itest r1 => Sys2Proof.Machine.execItest r1 s
  | .read r1 r2 => Sys2Proof.Machine.execRead r1 r2 s
  | .write r1 r2 => Sys2Proof.Machine.execWrite r1 r2 s
  | .testGt r1 r2 => Sys2Proof.Machine.execTestGt r1 r2 s
  | .testLt r1 r2 => Sys2Proof.Machine.execTestLt r1 r2 s
  | .testEq r1 r2 => Sys2Proof.Machine.execTestEq r1 r2 s
  | .callr r1 r2 => Sys2Proof.Machine.execCallr r1 r2 s
  | .testiGt r1 r2 => Sys2Proof.Machine.execTestiGt r1 r2 s
  | .testiLt r1 r2 => Sys2Proof.Machine.execTestiLt r1 r2 s
  | .testiEq r1 r2 => Sys2Proof.Machine.execTestiEq r1 r2 s
  | .ret r1 r2 => Sys2Proof.Machine.execRet r1 r2 s
  | .testLe r1 r2 => Sys2Proof.Machine.execTestLe r1 r2 s
  | .testGe r1 r2 => Sys2Proof.Machine.execTestGe r1 r2 s
  | .testNe r1 r2 => Sys2Proof.Machine.execTestNe r1 r2 s
  | .kcall n => Sys2Proof.Machine.execKcall n s
  | .testiLe r1 r2 => Sys2Proof.Machine.execTestiLe r1 r2 s
  | .testiGe r1 r2 => Sys2Proof.Machine.execTestiGe r1 r2 s
  | .testiNe r1 r2 => Sys2Proof.Machine.execTestiNe r1 r2 s
  | .lsl r1 r2 => Sys2Proof.Machine.execLsl r1 r2 s
  | .lsr r1 r2 => Sys2Proof.Machine.execLsr r1 r2 s
  | .asl r1 r2 => Sys2Proof.Machine.execAsl r1 r2 s
  | .asr r1 r2 => Sys2Proof.Machine.execAsr r1 r2 s
  | .dlsl r1 r2 => Sys2Proof.Machine.execDlsl r1 r2 s
  | .dlsr r1 r2 => Sys2Proof.Machine.execDlsr r1 r2 s
  | .csl r1 r2 => Sys2Proof.Machine.execCsl r1 r2 s
  | .seb r1 r2 => Sys2Proof.Machine.execSeb r1 r2 s
  | .lsli r1 r2 => Sys2Proof.Machine.execLsli r1 r2 s
  | .lsri r1 r2 => Sys2Proof.Machine.execLsri r1 r2 s
  | .asli r1 r2 => Sys2Proof.Machine.execAsli r1 r2 s
  | .asri r1 r2 => Sys2Proof.Machine.execAsri r1 r2 s
  | .dlsli r1 r2 => Sys2Proof.Machine.execDlsli r1 r2 s
  | .dlsri r1 r2 => Sys2Proof.Machine.execDlsri r1 r2 s
  | .csli r1 r2 => Sys2Proof.Machine.execCsli r1 r2 s
  | .seh r1 r2 => Sys2Proof.Machine.execSeh r1 r2 s
  | .brGt r1 r2 disp => Sys2Proof.Machine.execBrGt r1 r2 disp s
  | .brGtL r1 r2 disp => Sys2Proof.Machine.execBrGtL r1 r2 disp s
  | .brEq r1 r2 disp => Sys2Proof.Machine.execBrEq r1 r2 disp s
  | .brEqL r1 r2 disp => Sys2Proof.Machine.execBrEqL r1 r2 disp s
  | .call r1 r2 disp => Sys2Proof.Machine.execCall r1 r2 disp s
  | .callL r1 r2 disp => Sys2Proof.Machine.execCallL r1 r2 disp s
  | .briGt r1 r2 disp => Sys2Proof.Machine.execBriGt r1 r2 disp s
  | .briGtL r1 r2 disp => Sys2Proof.Machine.execBriGtL r1 r2 disp s
  | .briLt r1 r2 disp => Sys2Proof.Machine.execBriLt r1 r2 disp s
  | .briLtL r1 r2 disp => Sys2Proof.Machine.execBriLtL r1 r2 disp s
  | .briEq r1 r2 disp => Sys2Proof.Machine.execBriEq r1 r2 disp s
  | .briEqL r1 r2 disp => Sys2Proof.Machine.execBriEqL r1 r2 disp s
  | .loop r1 r2 disp => Sys2Proof.Machine.execLoop r1 r2 disp s
  | .loopL r1 r2 disp => Sys2Proof.Machine.execLoopL r1 r2 disp s
  | .brLe r1 r2 disp => Sys2Proof.Machine.execBrLe r1 r2 disp s
  | .brLeL r1 r2 disp => Sys2Proof.Machine.execBrLeL r1 r2 disp s
  | .brNe r1 r2 disp => Sys2Proof.Machine.execBrNe r1 r2 disp s
  | .brNeL r1 r2 disp => Sys2Proof.Machine.execBrNeL r1 r2 disp s
  | .br r1 r2 disp => Sys2Proof.Machine.execBr r1 r2 disp s
  | .brL r1 r2 disp => Sys2Proof.Machine.execBrL r1 r2 disp s
  | .briLe r1 r2 disp => Sys2Proof.Machine.execBriLe r1 r2 disp s
  | .briLeL r1 r2 disp => Sys2Proof.Machine.execBriLeL r1 r2 disp s
  | .briGe r1 r2 disp => Sys2Proof.Machine.execBriGe r1 r2 disp s
  | .briGeL r1 r2 disp => Sys2Proof.Machine.execBriGeL r1 r2 disp s
  | .briNe r1 r2 disp => Sys2Proof.Machine.execBriNe r1 r2 disp s
  | .briNeL r1 r2 disp => Sys2Proof.Machine.execBriNeL r1 r2 disp s
  | .storeb r rx disp => Sys2Proof.Machine.execStoreb r rx disp s
  | .storebX r rx disp => Sys2Proof.Machine.execStorebX r rx disp s
  | .storebL r rx disp => Sys2Proof.Machine.execStorebL r rx disp s
  | .storebLX r rx disp => Sys2Proof.Machine.execStorebLX r rx disp s
  | .storeh r rx disp => Sys2Proof.Machine.execStoreh r rx disp s
  | .storehX r rx disp => Sys2Proof.Machine.execStorehX r rx disp s
  | .storehL r rx disp => Sys2Proof.Machine.execStorehL r rx disp s
  | .storehLX r rx disp => Sys2Proof.Machine.execStorehLX r rx disp s
  | .store r rx disp => Sys2Proof.Machine.execStore r rx disp s
  | .storeX r rx disp => Sys2Proof.Machine.execStoreX r rx disp s
  | .storeL r rx disp => Sys2Proof.Machine.execStoreL r rx disp s
  | .storeLX r rx disp => Sys2Proof.Machine.execStoreLX r rx disp s
  | .stored r rx disp => Sys2Proof.Machine.execStored r rx disp s
  | .storedX r rx disp => Sys2Proof.Machine.execStoredX r rx disp s
  | .storedL r rx disp => Sys2Proof.Machine.execStoredL r rx disp s
  | .storedLX r rx disp => Sys2Proof.Machine.execStoredLX r rx disp s
  | .loadb r rx disp => Sys2Proof.Machine.execLoadb r rx disp s
  | .loadbX r rx disp => Sys2Proof.Machine.execLoadbX r rx disp s
  | .loadbL r rx disp => Sys2Proof.Machine.execLoadbL r rx disp s
  | .loadbLX r rx disp => Sys2Proof.Machine.execLoadbLX r rx disp s
  | .loadh r rx disp => Sys2Proof.Machine.execLoadh r rx disp s
  | .loadhX r rx disp => Sys2Proof.Machine.execLoadhX r rx disp s
  | .loadhL r rx disp => Sys2Proof.Machine.execLoadhL r rx disp s
  | .loadhLX r rx disp => Sys2Proof.Machine.execLoadhLX r rx disp s
  | .load r rx disp => Sys2Proof.Machine.execLoad r rx disp s
  | .loadX r rx disp => Sys2Proof.Machine.execLoadX r rx disp s
  | .loadL r rx disp => Sys2Proof.Machine.execLoadL r rx disp s
  | .loadLX r rx disp => Sys2Proof.Machine.execLoadLX r rx disp s
  | .loadd r rx disp => Sys2Proof.Machine.execLoadd r rx disp s
  | .loaddX r rx disp => Sys2Proof.Machine.execLoaddX r rx disp s
  | .loaddL r rx disp => Sys2Proof.Machine.execLoaddL r rx disp s
  | .loaddLX r rx disp => Sys2Proof.Machine.execLoaddLX r rx disp s
  | .laddr r rx disp => Sys2Proof.Machine.execLaddr r rx disp s
  | .laddrX r rx disp => Sys2Proof.Machine.execLaddrX r rx disp s
  | .laddrL r rx disp => Sys2Proof.Machine.execLaddrL r rx disp s
  | .laddrLX r rx disp => Sys2Proof.Machine.execLaddrLX r rx disp s
  | .loadbC r rx disp => Sys2Proof.Machine.execLoadbC r rx disp s
  | .loadbCX r rx disp => Sys2Proof.Machine.execLoadbCX r rx disp s
  | .loadbCL r rx disp => Sys2Proof.Machine.execLoadbCL r rx disp s
  | .loadbCLX r rx disp => Sys2Proof.Machine.execLoadbCLX r rx disp s
  | .loadhC r rx disp => Sys2Proof.Machine.execLoadhC r rx disp s
  | .loadhCX r rx disp => Sys2Proof.Machine.execLoadhCX r rx disp s
  | .loadhCL r rx disp => Sys2Proof.Machine.execLoadhCL r rx disp s
  | .loadhCLX r rx disp => Sys2Proof.Machine.execLoadhCLX r rx disp s
  | .loadC r rx disp => Sys2Proof.Machine.execLoadC r rx disp s
  | .loadCX r rx disp => Sys2Proof.Machine.execLoadCX r rx disp s
  | .loadCL r rx disp => Sys2Proof.Machine.execLoadCL r rx disp s
  | .loadCLX r rx disp => Sys2Proof.Machine.execLoadCLX r rx disp s
  | .loaddC r rx disp => Sys2Proof.Machine.execLoaddC r rx disp s
  | .loaddCX r rx disp => Sys2Proof.Machine.execLoaddCX r rx disp s
  | .loaddCL r rx disp => Sys2Proof.Machine.execLoaddCL r rx disp s
  | .loaddCLX r rx disp => Sys2Proof.Machine.execLoaddCLX r rx disp s
  | .laddrC r rx disp => Sys2Proof.Machine.execLaddrC r rx disp s
  | .laddrCX r rx disp => Sys2Proof.Machine.execLaddrCX r rx disp s
  | .laddrCL r rx disp => Sys2Proof.Machine.execLaddrCL r rx disp s
  | .laddrCLX r rx disp => Sys2Proof.Machine.execLaddrCLX r rx disp s

end Sys2Proof.Machine
end

