-- ==== Sys2Proof/Decode.lean ====
section
/-! DEFINITION. Decoding and encoding (spec/30_encoding.md). The tables are the opcode map of R163 and R164; the decoder
looks an opcode up in them, the encoder names the opcode of each instruction itself. -/

namespace Sys2Proof

/-- What the bytes at an address stand for. -/
inductive Decoded
  /-- An assigned instruction. -/
  | instr (i : Instr)
  /-- An unassigned opcode (R165), with its R1 and R2 fields: the illegal instruction trap. -/
  | illegal (op : Byte) (r1 r2 : Reg)
  /-- OP 0x4C with a subop the manual does not list (R166). -/
  | unassignedSubop (subop : Reg)
  /-- Fewer bytes than the opcode's length asks for. -/
  | incomplete
  deriving DecidableEq, Repr

/-- The length in bytes, decided by the opcode alone (R152). -/
def lengthOf (op : Byte) : Nat :=
  if op.getMsbD 0 = false then 2 else if op.getMsbD 3 = false then 4 else 6

/-- The R1 field of the second byte: instruction bits 8..11 (R151). -/
def fieldR1 (b : Byte) : Reg := b.extractLsb' 4 4

/-- The R2 field of the second byte: instruction bits 12..15 (R151). -/
def fieldR2 (b : Byte) : Reg := b.extractLsb' 0 4

/-- Register format opcodes (R163), but for KCALL and the maintenance opcode. -/
def registerRows : List (Byte × (Reg → Reg → Instr)) :=
  [(0x01, .move), (0x02, .neg), (0x03, .add), (0x04, .sub), (0x05, .mpy),
   (0x06, .div), (0x07, .rem), (0x08, .not), (0x09, .or), (0x0A, .xor),
   (0x0B, .and), (0x0C, .cbit), (0x0D, .sbit), (0x0E, .tbit), (0x0F, .chk),
   (0x10, .nop), (0x11, .movei), (0x13, .addi), (0x14, .subi), (0x15, .mpyi),
   (0x18, .noti), (0x1B, .andi), (0x1F, .chki), (0x20, .fixt)] ++
  [(0x21, .fixr), (0x22, .rneg), (0x23, .radd), (0x24, .rsub), (0x25, .rmpy),
   (0x26, .rdiv), (0x27, .makerd), (0x28, .lcomp), (0x29, .float), (0x2A, .rcomp),
   (0x2C, .eadd), (0x2D, .esub), (0x2E, .empy), (0x2F, .ediv), (0x30, .dfixt),
   (0x31, .dfixr), (0x32, .drneg), (0x33, .dradd), (0x34, .drsub), (0x35, .drmpy),
   (0x36, .drdiv), (0x37, .makedr), (0x38, .dcomp), (0x39, .dfloat)] ++
  [(0x3A, .drcomp), (0x3B, .trap), (0x40, .sus), (0x41, .lus), (0x42, .rum),
   (0x43, .ldregs), (0x44, .trans), (0x45, .dirt), (0x46, .movesr), (0x47, .movers),
   (0x4E, .read), (0x4F, .write), (0x50, .testGt), (0x51, .testLt), (0x52, .testEq),
   (0x53, .callr), (0x54, .testiGt), (0x55, .testiLt), (0x56, .testiEq), (0x57, .ret),
   (0x58, .testLe), (0x59, .testGe), (0x5A, .testNe), (0x5C, .testiLe)] ++
  [(0x5D, .testiGe), (0x5E, .testiNe), (0x60, .lsl), (0x61, .lsr), (0x62, .asl),
   (0x63, .asr), (0x64, .dlsl), (0x65, .dlsr), (0x68, .csl), (0x6A, .seb),
   (0x70, .lsli), (0x71, .lsri), (0x72, .asli), (0x73, .asri), (0x74, .dlsli),
   (0x75, .dlsri), (0x78, .csli), (0x7A, .seh)]

/-- Maintenance subops of OP 0x4C (R158). -/
def maintenanceRows : List (Reg × (Reg → Instr)) :=
  [(0, .elogr), (1, .elogw), (6, .flush), (7, .trapexit), (8, .itest)]

/-- Opcodes with a 16-bit displacement (R164): rows 8, A, C, E. -/
def shortRows : List (Byte × (Reg → Reg → Half → Instr)) :=
  [(0x80, .brGt), (0x82, .brEq), (0x83, .call), (0x84, .briGt), (0x85, .briLt),
   (0x86, .briEq), (0x87, .loop), (0x88, .brLe), (0x8A, .brNe), (0x8B, .br),
   (0x8C, .briLe), (0x8D, .briGe), (0x8E, .briNe), (0xA0, .storeb), (0xA1, .storebX),
   (0xA2, .storeh), (0xA3, .storehX), (0xA6, .store), (0xA7, .storeX), (0xA8, .stored),
   (0xA9, .storedX), (0xC0, .loadb), (0xC1, .loadbX), (0xC2, .loadh)] ++
  [(0xC3, .loadhX), (0xC6, .load), (0xC7, .loadX), (0xC8, .loadd), (0xC9, .loaddX),
   (0xCE, .laddr), (0xCF, .laddrX), (0xE0, .loadbC), (0xE1, .loadbCX), (0xE2, .loadhC),
   (0xE3, .loadhCX), (0xE6, .loadC), (0xE7, .loadCX), (0xE8, .loaddC), (0xE9, .loaddCX),
   (0xEE, .laddrC), (0xEF, .laddrCX)]

/-- Opcodes with a 32-bit displacement (R164): rows 9, B, D, F. -/
def longRows : List (Byte × (Reg → Reg → Word → Instr)) :=
  [(0x90, .brGtL), (0x92, .brEqL), (0x93, .callL), (0x94, .briGtL), (0x95, .briLtL),
   (0x96, .briEqL), (0x97, .loopL), (0x98, .brLeL), (0x9A, .brNeL), (0x9B, .brL),
   (0x9C, .briLeL), (0x9D, .briGeL), (0x9E, .briNeL), (0xB0, .storebL), (0xB1, .storebLX),
   (0xB2, .storehL), (0xB3, .storehLX), (0xB6, .storeL), (0xB7, .storeLX), (0xB8, .storedL),
   (0xB9, .storedLX), (0xD0, .loadbL), (0xD1, .loadbLX), (0xD2, .loadhL)] ++
  [(0xD3, .loadhLX), (0xD6, .loadL), (0xD7, .loadLX), (0xD8, .loaddL), (0xD9, .loaddLX),
   (0xDE, .laddrL), (0xDF, .laddrLX), (0xF0, .loadbCL), (0xF1, .loadbCLX), (0xF2, .loadhCL),
   (0xF3, .loadhCLX), (0xF6, .loadCL), (0xF7, .loadCLX), (0xF8, .loaddCL), (0xF9, .loaddCLX),
   (0xFE, .laddrCL), (0xFF, .laddrCLX)]

/-- A 2-byte instruction (R151, R158, R159). -/
def decodeRegister (op fields : Byte) : Decoded :=
  if op = 0x5B then .instr (.kcall fields)
  else if op = 0x4C then
    match maintenanceRows.lookup (fieldR2 fields) with
    | some mk => .instr (mk (fieldR1 fields))
    | none => .unassignedSubop (fieldR2 fields)
  else
    match registerRows.lookup op with
    | some mk => .instr (mk (fieldR1 fields) (fieldR2 fields))
    | none => .illegal op (fieldR1 fields) (fieldR2 fields)

/-- A 4-byte instruction (R155, R157). -/
def decodeShort (op fields : Byte) (disp : Half) : Decoded :=
  match shortRows.lookup op with
  | some mk => .instr (mk (fieldR1 fields) (fieldR2 fields) disp)
  | none => .illegal op (fieldR1 fields) (fieldR2 fields)

/-- A 6-byte instruction (R155, R157). -/
def decodeLong (op fields : Byte) (disp : Word) : Decoded :=
  match longRows.lookup op with
  | some mk => .instr (mk (fieldR1 fields) (fieldR2 fields) disp)
  | none => .illegal op (fieldR1 fields) (fieldR2 fields)

/-- The instruction at the head of a list of bytes in memory order; bytes past its length are not read. -/
def decode : List Byte → Decoded
  | op :: fields :: rest =>
    if lengthOf op = 2 then decodeRegister op fields
    else if lengthOf op = 4 then
      match rest with
      | d0 :: d1 :: _ => decodeShort op fields (halfOfBytes d0 d1)
      | _ => .incomplete
    else
      match rest with
      | d0 :: d1 :: d2 :: d3 :: _ => decodeLong op fields (wordOfBytes d0 d1 d2 d3)
      | _ => .incomplete
  | _ => .incomplete

/-! ## The encoder -/

/-- The second byte: R1 in bits 8..11, R2 in bits 12..15 (R151). -/
def fieldsByte (r1 r2 : Reg) : Byte := r1 ++ r2

/-- The bytes of a register format instruction (R151). -/
def encodeRegister (op : Byte) (r1 r2 : Reg) : List Byte := [op, fieldsByte r1 r2]

/-- The bytes of a 32-bit format instruction (R155). -/
def encodeShort (op : Byte) (r1 r2 : Reg) (disp : Half) : List Byte := op :: fieldsByte r1 r2 :: bytesOfHalf disp

/-- The bytes of a 48-bit format instruction (R155). -/
def encodeLong (op : Byte) (r1 r2 : Reg) (disp : Word) : List Byte := op :: fieldsByte r1 r2 :: bytesOfWord disp

/-- The bytes of an instruction in memory order (R163, R164). -/
def encode : Instr → List Byte
  | .move r1 r2 => encodeRegister 0x01 r1 r2
  | .neg r1 r2 => encodeRegister 0x02 r1 r2
  | .add r1 r2 => encodeRegister 0x03 r1 r2
  | .sub r1 r2 => encodeRegister 0x04 r1 r2
  | .mpy r1 r2 => encodeRegister 0x05 r1 r2
  | .div r1 r2 => encodeRegister 0x06 r1 r2
  | .rem r1 r2 => encodeRegister 0x07 r1 r2
  | .not r1 r2 => encodeRegister 0x08 r1 r2
  | .or r1 r2 => encodeRegister 0x09 r1 r2
  | .xor r1 r2 => encodeRegister 0x0A r1 r2
  | .and r1 r2 => encodeRegister 0x0B r1 r2
  | .cbit r1 r2 => encodeRegister 0x0C r1 r2
  | .sbit r1 r2 => encodeRegister 0x0D r1 r2
  | .tbit r1 r2 => encodeRegister 0x0E r1 r2
  | .chk r1 r2 => encodeRegister 0x0F r1 r2
  | .nop r1 r2 => encodeRegister 0x10 r1 r2
  | .movei r1 r2 => encodeRegister 0x11 r1 r2
  | .addi r1 r2 => encodeRegister 0x13 r1 r2
  | .subi r1 r2 => encodeRegister 0x14 r1 r2
  | .mpyi r1 r2 => encodeRegister 0x15 r1 r2
  | .noti r1 r2 => encodeRegister 0x18 r1 r2
  | .andi r1 r2 => encodeRegister 0x1B r1 r2
  | .chki r1 r2 => encodeRegister 0x1F r1 r2
  | .fixt r1 r2 => encodeRegister 0x20 r1 r2
  | .fixr r1 r2 => encodeRegister 0x21 r1 r2
  | .rneg r1 r2 => encodeRegister 0x22 r1 r2
  | .radd r1 r2 => encodeRegister 0x23 r1 r2
  | .rsub r1 r2 => encodeRegister 0x24 r1 r2
  | .rmpy r1 r2 => encodeRegister 0x25 r1 r2
  | .rdiv r1 r2 => encodeRegister 0x26 r1 r2
  | .makerd r1 r2 => encodeRegister 0x27 r1 r2
  | .lcomp r1 r2 => encodeRegister 0x28 r1 r2
  | .float r1 r2 => encodeRegister 0x29 r1 r2
  | .rcomp r1 r2 => encodeRegister 0x2A r1 r2
  | .eadd r1 r2 => encodeRegister 0x2C r1 r2
  | .esub r1 r2 => encodeRegister 0x2D r1 r2
  | .empy r1 r2 => encodeRegister 0x2E r1 r2
  | .ediv r1 r2 => encodeRegister 0x2F r1 r2
  | .dfixt r1 r2 => encodeRegister 0x30 r1 r2
  | .dfixr r1 r2 => encodeRegister 0x31 r1 r2
  | .drneg r1 r2 => encodeRegister 0x32 r1 r2
  | .dradd r1 r2 => encodeRegister 0x33 r1 r2
  | .drsub r1 r2 => encodeRegister 0x34 r1 r2
  | .drmpy r1 r2 => encodeRegister 0x35 r1 r2
  | .drdiv r1 r2 => encodeRegister 0x36 r1 r2
  | .makedr r1 r2 => encodeRegister 0x37 r1 r2
  | .dcomp r1 r2 => encodeRegister 0x38 r1 r2
  | .dfloat r1 r2 => encodeRegister 0x39 r1 r2
  | .drcomp r1 r2 => encodeRegister 0x3A r1 r2
  | .trap r1 r2 => encodeRegister 0x3B r1 r2
  | .sus r1 r2 => encodeRegister 0x40 r1 r2
  | .lus r1 r2 => encodeRegister 0x41 r1 r2
  | .rum r1 r2 => encodeRegister 0x42 r1 r2
  | .ldregs r1 r2 => encodeRegister 0x43 r1 r2
  | .trans r1 r2 => encodeRegister 0x44 r1 r2
  | .dirt r1 r2 => encodeRegister 0x45 r1 r2
  | .movesr r1 r2 => encodeRegister 0x46 r1 r2
  | .movers r1 r2 => encodeRegister 0x47 r1 r2
  | .elogr r1 => encodeRegister 0x4C r1 0
  | .elogw r1 => encodeRegister 0x4C r1 1
  | .flush r1 => encodeRegister 0x4C r1 6
  | .trapexit r1 => encodeRegister 0x4C r1 7
  | .itest r1 => encodeRegister 0x4C r1 8
  | .read r1 r2 => encodeRegister 0x4E r1 r2
  | .write r1 r2 => encodeRegister 0x4F r1 r2
  | .testGt r1 r2 => encodeRegister 0x50 r1 r2
  | .testLt r1 r2 => encodeRegister 0x51 r1 r2
  | .testEq r1 r2 => encodeRegister 0x52 r1 r2
  | .callr r1 r2 => encodeRegister 0x53 r1 r2
  | .testiGt r1 r2 => encodeRegister 0x54 r1 r2
  | .testiLt r1 r2 => encodeRegister 0x55 r1 r2
  | .testiEq r1 r2 => encodeRegister 0x56 r1 r2
  | .ret r1 r2 => encodeRegister 0x57 r1 r2
  | .testLe r1 r2 => encodeRegister 0x58 r1 r2
  | .testGe r1 r2 => encodeRegister 0x59 r1 r2
  | .testNe r1 r2 => encodeRegister 0x5A r1 r2
  | .kcall n => [0x5B, n]
  | .testiLe r1 r2 => encodeRegister 0x5C r1 r2
  | .testiGe r1 r2 => encodeRegister 0x5D r1 r2
  | .testiNe r1 r2 => encodeRegister 0x5E r1 r2
  | .lsl r1 r2 => encodeRegister 0x60 r1 r2
  | .lsr r1 r2 => encodeRegister 0x61 r1 r2
  | .asl r1 r2 => encodeRegister 0x62 r1 r2
  | .asr r1 r2 => encodeRegister 0x63 r1 r2
  | .dlsl r1 r2 => encodeRegister 0x64 r1 r2
  | .dlsr r1 r2 => encodeRegister 0x65 r1 r2
  | .csl r1 r2 => encodeRegister 0x68 r1 r2
  | .seb r1 r2 => encodeRegister 0x6A r1 r2
  | .lsli r1 r2 => encodeRegister 0x70 r1 r2
  | .lsri r1 r2 => encodeRegister 0x71 r1 r2
  | .asli r1 r2 => encodeRegister 0x72 r1 r2
  | .asri r1 r2 => encodeRegister 0x73 r1 r2
  | .dlsli r1 r2 => encodeRegister 0x74 r1 r2
  | .dlsri r1 r2 => encodeRegister 0x75 r1 r2
  | .csli r1 r2 => encodeRegister 0x78 r1 r2
  | .seh r1 r2 => encodeRegister 0x7A r1 r2
  | .brGt r1 r2 disp => encodeShort 0x80 r1 r2 disp
  | .brGtL r1 r2 disp => encodeLong 0x90 r1 r2 disp
  | .brEq r1 r2 disp => encodeShort 0x82 r1 r2 disp
  | .brEqL r1 r2 disp => encodeLong 0x92 r1 r2 disp
  | .call r1 r2 disp => encodeShort 0x83 r1 r2 disp
  | .callL r1 r2 disp => encodeLong 0x93 r1 r2 disp
  | .briGt r1 r2 disp => encodeShort 0x84 r1 r2 disp
  | .briGtL r1 r2 disp => encodeLong 0x94 r1 r2 disp
  | .briLt r1 r2 disp => encodeShort 0x85 r1 r2 disp
  | .briLtL r1 r2 disp => encodeLong 0x95 r1 r2 disp
  | .briEq r1 r2 disp => encodeShort 0x86 r1 r2 disp
  | .briEqL r1 r2 disp => encodeLong 0x96 r1 r2 disp
  | .loop r1 r2 disp => encodeShort 0x87 r1 r2 disp
  | .loopL r1 r2 disp => encodeLong 0x97 r1 r2 disp
  | .brLe r1 r2 disp => encodeShort 0x88 r1 r2 disp
  | .brLeL r1 r2 disp => encodeLong 0x98 r1 r2 disp
  | .brNe r1 r2 disp => encodeShort 0x8A r1 r2 disp
  | .brNeL r1 r2 disp => encodeLong 0x9A r1 r2 disp
  | .br r1 r2 disp => encodeShort 0x8B r1 r2 disp
  | .brL r1 r2 disp => encodeLong 0x9B r1 r2 disp
  | .briLe r1 r2 disp => encodeShort 0x8C r1 r2 disp
  | .briLeL r1 r2 disp => encodeLong 0x9C r1 r2 disp
  | .briGe r1 r2 disp => encodeShort 0x8D r1 r2 disp
  | .briGeL r1 r2 disp => encodeLong 0x9D r1 r2 disp
  | .briNe r1 r2 disp => encodeShort 0x8E r1 r2 disp
  | .briNeL r1 r2 disp => encodeLong 0x9E r1 r2 disp
  | .storeb r rx disp => encodeShort 0xA0 r rx disp
  | .storebX r rx disp => encodeShort 0xA1 r rx disp
  | .storebL r rx disp => encodeLong 0xB0 r rx disp
  | .storebLX r rx disp => encodeLong 0xB1 r rx disp
  | .storeh r rx disp => encodeShort 0xA2 r rx disp
  | .storehX r rx disp => encodeShort 0xA3 r rx disp
  | .storehL r rx disp => encodeLong 0xB2 r rx disp
  | .storehLX r rx disp => encodeLong 0xB3 r rx disp
  | .store r rx disp => encodeShort 0xA6 r rx disp
  | .storeX r rx disp => encodeShort 0xA7 r rx disp
  | .storeL r rx disp => encodeLong 0xB6 r rx disp
  | .storeLX r rx disp => encodeLong 0xB7 r rx disp
  | .stored r rx disp => encodeShort 0xA8 r rx disp
  | .storedX r rx disp => encodeShort 0xA9 r rx disp
  | .storedL r rx disp => encodeLong 0xB8 r rx disp
  | .storedLX r rx disp => encodeLong 0xB9 r rx disp
  | .loadb r rx disp => encodeShort 0xC0 r rx disp
  | .loadbX r rx disp => encodeShort 0xC1 r rx disp
  | .loadbL r rx disp => encodeLong 0xD0 r rx disp
  | .loadbLX r rx disp => encodeLong 0xD1 r rx disp
  | .loadh r rx disp => encodeShort 0xC2 r rx disp
  | .loadhX r rx disp => encodeShort 0xC3 r rx disp
  | .loadhL r rx disp => encodeLong 0xD2 r rx disp
  | .loadhLX r rx disp => encodeLong 0xD3 r rx disp
  | .load r rx disp => encodeShort 0xC6 r rx disp
  | .loadX r rx disp => encodeShort 0xC7 r rx disp
  | .loadL r rx disp => encodeLong 0xD6 r rx disp
  | .loadLX r rx disp => encodeLong 0xD7 r rx disp
  | .loadd r rx disp => encodeShort 0xC8 r rx disp
  | .loaddX r rx disp => encodeShort 0xC9 r rx disp
  | .loaddL r rx disp => encodeLong 0xD8 r rx disp
  | .loaddLX r rx disp => encodeLong 0xD9 r rx disp
  | .laddr r rx disp => encodeShort 0xCE r rx disp
  | .laddrX r rx disp => encodeShort 0xCF r rx disp
  | .laddrL r rx disp => encodeLong 0xDE r rx disp
  | .laddrLX r rx disp => encodeLong 0xDF r rx disp
  | .loadbC r rx disp => encodeShort 0xE0 r rx disp
  | .loadbCX r rx disp => encodeShort 0xE1 r rx disp
  | .loadbCL r rx disp => encodeLong 0xF0 r rx disp
  | .loadbCLX r rx disp => encodeLong 0xF1 r rx disp
  | .loadhC r rx disp => encodeShort 0xE2 r rx disp
  | .loadhCX r rx disp => encodeShort 0xE3 r rx disp
  | .loadhCL r rx disp => encodeLong 0xF2 r rx disp
  | .loadhCLX r rx disp => encodeLong 0xF3 r rx disp
  | .loadC r rx disp => encodeShort 0xE6 r rx disp
  | .loadCX r rx disp => encodeShort 0xE7 r rx disp
  | .loadCL r rx disp => encodeLong 0xF6 r rx disp
  | .loadCLX r rx disp => encodeLong 0xF7 r rx disp
  | .loaddC r rx disp => encodeShort 0xE8 r rx disp
  | .loaddCX r rx disp => encodeShort 0xE9 r rx disp
  | .loaddCL r rx disp => encodeLong 0xF8 r rx disp
  | .loaddCLX r rx disp => encodeLong 0xF9 r rx disp
  | .laddrC r rx disp => encodeShort 0xEE r rx disp
  | .laddrCX r rx disp => encodeShort 0xEF r rx disp
  | .laddrCL r rx disp => encodeLong 0xFE r rx disp
  | .laddrCLX r rx disp => encodeLong 0xFF r rx disp

/-! ## Words of the opcode table -/

/-- The six bytes at an instruction's address when its `nbits` bits are the number `w`, numbered as
spec/opcode_table.json numbers them: the match and mask of a row are one number over the whole instruction, whose most
significant byte is the opcode, the byte at the lowest address (R87). Everything past `nbits` is 0. -/
def tableBytes (nbits w : Nat) : List Byte :=
  (List.range 6).map (fun k =>
    if k < nbits / 8 then BitVec.ofNat 8 (w / 256 ^ (nbits / 8 - 1 - k)) else 0)

/-- The instruction the decoder reads from a word of the opcode table. -/
def decodeTableWord (nbits w : Nat) : Option Instr :=
  match decode (tableBytes nbits w) with
  | .instr i => some i
  | _ => none

end Sys2Proof
end

