-- ==== Sys2Proof/Machine/Fetch.lean ====
section
/-! DEFINITION. Fetching an instruction: from memory, or as the instruction cache and the fetch-ahead unit may still hold it
(spec/10_state.md rules R36 to R39, spec/20_memory.md rules R90, R119, R124, R140, R141, spec/60_exceptions.md rules R525, R550,
spec/70_reset_and_hazards.md rule R612). -/

namespace Sys2Proof.Machine

/-- The bytes a list of old bytes gives for an address. -/
def oldBytes (l : List Host.Cell) (a : Nat) : List Byte := (l.filter (fun c => c.1 = a)).map (fun c => c.2)

/-- The old bytes a fetch may return for a real address (R140, R141): those replaced since the last flush, and those that the
instruction being fetched may still show if it was buffered at the last FLUSH. -/
def FetchState.old (f : FetchState) (a : Nat) : List Byte := oldBytes f.stale a ++ oldBytes (f.ahead.headD []) a

/-! ## The cache and the two address spaces (R612, U32) -/

/-- Where the pc's addresses lie: in real memory (none), or in the code segment of a number. -/
def State.space (s : State) : Option Word :=
  match s.mode with
  | .kernel => none
  | .user => some (s.spec 8)

/-- Whether an address lies in a cache line of a stretch that was fetched. -/
def SeenFetch.covers (f : SeenFetch) (va : Word) : Bool :=
  let line := va.toNat / 2 ^ Config.cacheLineBits
  decide (f.address.toNat / 2 ^ Config.cacheLineBits ≤ line) &&
    decide (line ≤ (f.address.toNat + f.length - 1) / 2 ^ Config.cacheLineBits)

/-- Whether the cache may hold, under an address, bytes fetched since the last flush from another space (U32). -/
def FetchState.mixed (f : FetchState) (space : Option Word) (va : Word) : Bool :=
  f.seen.any (fun x => decide (x.space ≠ space) && x.covers va)

/-! ## The bytes of an instruction -/

/-- One byte of an instruction: the byte in memory, or a free choice between it and the old bytes (R140); any value where
the cache may hold another space's bytes under the address (U32). -/
def fetchByte (mixed : Bool) (a : Nat) (s : State) : Access Byte :=
  if s.installedAt a then
    if mixed then .ok (s.freeWord.extractLsb' 0 8) s.drawn
    else
      match s.fetch.old a with
      | [] => .ok (s.mem.read a) s
      | b :: l => .ok ((chooseFrom s.draws (s.mem.read a :: b :: l)).getD (s.mem.read a)) s.drawn
  else .fault (.outsideRealMemory a)

/-- The address of a parity error, if it is one of the two of a halfword (R525). -/
def errorIn (err : Option Word) (va : Word) : Option Word := err.filter (fun a => a = va ∨ a = va + 1)

/-- The two bytes of an instruction at a real address, `va` before translation. -/
def fetchPair (va ra : Word) (s : State) : Access (Byte × Byte) :=
  (fetchByte (s.fetch.mixed s.space va) ra.toNat s).bind fun b0 s1 =>
  (fetchByte (s1.fetch.mixed s1.space (va + 1)) (ra.toNat + 1) s1).bind fun b1 s2 => .ok (b0, b1) s2

/-- Two bytes of an instruction at an even address, fetched at once; in user mode the address is translated in the code
segment. A parity error in them comes after a page fault on them (R93, R525, R550), and before it matters whether memory is
there (R94): DESIGN CHOICE, log 33. -/
def fetchHalf (err : Option Word) (va : Word) (s : State) : Access (Byte × Byte) :=
  (resolve .code va false s).bind fun ra s1 =>
    match errorIn err va with
    | some a => .trap (.parityCodeFetch a) s1
    | none => s1.between.bind fun _ s2 => fetchPair va ra s2

/-- The addresses among the `len` from the pc that lie in the page of `va`. -/
def missingBytes (pc : Word) (len : Nat) (va : Word) : List Word :=
  ((List.range len).map (fun k => pc + BitVec.ofNat 32 k)).filter (fun a => pageOf a = pageOf va)

/-- Which address a page fault of an instruction fetch reports: one of the instruction's bytes in the missing page (R124,
U14). Where the instruction cannot straddle two pages it is the pc. -/
def faultAddress (pc : Word) (len : Nat) (va : Word) (n : Nat) : Word :=
  if pageOf pc = pageOf (pc + 5) then pc else (chooseFrom n (missingBytes pc len va)).getD va

/-- A fetched halfword, with the reported address of a page fault chosen. A fault of the first halfword, where the opcode and
so the length is not known, takes the six bytes from the pc for the instruction's: DESIGN CHOICE, log 39 (R124, U14). -/
def fetchHalfOf (len : Nat) (err : Option Word) (va : Word) (s : State) : Access (Byte × Byte) :=
  match fetchHalf err va s with
  | .trap (.pageFault seg _) s1 => .trap (.pageFault seg (faultAddress s.pc len va s1.draws)) s1.drawn
  | x => x

/-- The further halfwords of an instruction, `k` of them from an address. -/
def fetchTail (len : Nat) (err : Option Word) : Nat → Word → State → Access (List Byte)
  | 0, _, s => .ok [] s
  | k + 1, va, s =>
    (fetchHalfOf len err va s).bind fun h s1 =>
    (fetchTail len err k (va + 2) s1).bind fun rest s2 => .ok (h.1 :: h.2 :: rest) s2

/-- A stretch noted as fetched. -/
def FetchState.note (f : FetchState) (x : SeenFetch) : FetchState :=
  if f.seen.contains x then f else { f with seen := x :: f.seen }

/-- The fetch of an instruction of `len` bytes noted, whether or not all of it succeeds: the cache may hold the instruction and
the two after it, twelve bytes at most (R140, R612). -/
def State.noteFetch (len : Nat) (s : State) : State :=
  { s with fetch := s.fetch.note { space := s.space, address := s.pc, length := len + 12 } }

/-- What ends the fetch of an instruction: a parity error the fetch-ahead unit met beyond its bytes, or the bytes (R525,
R550). -/
def endFetch (err : Option Word) (bytes : List Byte) (s : State) : Access (List Byte) :=
  match err with
  | some a => .trap (.parityCodeFetch a) s
  | none => .ok bytes s

/-- The bytes of the instruction at the pc, as many as its opcode asks for, in address order (R90, R152, R550). For a page
fault of the first halfword the length is taken as six (DESIGN CHOICE, log 39). -/
def fetchBytes (err : Option Word) (s : State) : Access (List Byte) :=
  (fetchHalfOf 6 err s.pc s).bind fun h s1 =>
    let len := lengthOf h.1
    if 2 ^ 32 < s.pc.toNat + len then .refused .pastLastAddress
    else
      (fetchTail len err (len / 2 - 1) (s.pc + 2) (s1.noteFetch len)).bind fun rest s2 =>
        endFetch err (h.1 :: h.2 :: rest) s2

/-! ## Fetch-ahead -/

/-- The fetch-ahead buffer before a fetch: it is of no use at another address (R141). It is told by the address alone: an
address of another mode or segment with the same number counts as buffered too (DESIGN CHOICE, log 38). -/
def State.dropAhead (s : State) : State :=
  if s.fetch.aheadPc = s.pc then s else { s with fetch := { s.fetch with ahead := [] } }

/-- After an instruction of `len` bytes has been fetched: the next one buffered follows it (R140). -/
def State.afterFetch (len : Nat) (s : State) : State :=
  { s with fetch := { s.fetch with ahead := s.fetch.ahead.tail, aheadPc := s.nextPc len } }

/-- The end of a fetch. -/
inductive Fetched
  /-- An assigned instruction, and the state after the fetch. -/
  | run (i : Instr) (s : State)
  /-- An exception of the fetch, or the end of the run. -/
  | closed (o : Outcome)

/-- What the bytes fetched lead to: an unassigned opcode raises the illegal instruction trap, with the R2 field for a
register format opcode only (R524, D12, U15); an unassigned maintenance subop is refused (R166, D13). -/
def dispatchBytes (bytes : List Byte) (s : State) : Fetched :=
  match decode bytes with
  | .instr i => .run i s
  | .illegal op r1 r2 =>
    .closed (raise (.illegalInstruction op r1 (if op.getMsbD 0 then none else some r2)) s)
  | .unassignedSubop subop => .closed (.refused (.unassignedSubop subop))
  | .incomplete => .closed (.refused .pastLastAddress)

/-- The instruction at the pc; `err` is the address of a parity error the fetch-ahead unit meets meanwhile. -/
def fetchInstruction (err : Option Word) (s : State) : Fetched :=
  match fetchBytes err s.dropAhead with
  | .ok bytes s1 => dispatchBytes bytes (s1.afterFetch bytes.length)
  | .trap e s1 => .closed (raise e s1)
  | .fault f => .closed (.fault f)
  | .refused r => .closed (.refused r)

end Sys2Proof.Machine
end

