-- ==== Sys2Proof/Machine/World.lean ====
section
/-! DEFINITION. What happens at an instruction boundary: the outside's events, the acceptance of an interrupt, the pause
(spec/60_exceptions.md rules R507, R525, R535 to R546). -/

namespace Sys2Proof.Machine

/-! ## The outside's events (R16) -/

/-- A request of a device: it has one IOIR word at a time (R475, R539). Any device number can request, one for which
`Config.devicePresent` answers READ and WRITE with a timeout too (DESIGN CHOICE, log 43; R474 does not tie the two). -/
def State.request (s : State) (ioir : Word) : State :=
  { s with pending := { s.pending with
      external := ioir :: s.pending.external.filter (fun w => deviceOf w ≠ deviceOf ioir) } }

/-- A device's request withdrawn. -/
def State.withdraw (s : State) (device : BitVec 8) : State :=
  { s with pending := { s.pending with external := s.pending.external.filter (fun w => deviceOf w ≠ device) } }

/-- One event of the outside. -/
def applyEvent (e : WorldEvent) (s : State) : Access Unit :=
  match e with
  | .tick => tick s
  | .deviceRequest ioir => .ok () (s.request ioir)
  | .deviceWithdraw device => .ok () (s.withdraw device)
  | .switch0 => .ok () { s with pending := { s.pending with switch0 := true } }
  | .powerFail => .ok () { s with pending := { s.pending with powerFail := true } }
  | .endGlitch => .ok () { s with pending := { s.pending with endGlitch := true } }
  | .memory e => applyMemoryEvent e s
  | .elogWrite a bit => .ok () { s with elog := elogWrite s.elog a bit }
  | .setBootDevice on => .ok () { s with bootDeviceSwitch := on }
  | .setLoadEnable on => .ok () { s with loadEnableSwitch := on }
  | .parityData => .ok () { s with parityData := true }
  | .parityEntry => .ok () { s with parityEntry := true }

/-- The events of a boundary, in order. -/
def applyEvents : List WorldEvent → State → Access Unit
  | [], s => .ok () s
  | e :: es, s => (applyEvent e s).bind fun _ s1 => applyEvents es s1

/-! ## Interrupts (R507, R535 to R543) -/

/-- The exception of a source that is pending, with the pending state it leaves; `none` where it is not pending. -/
def takeSource (src : Source) (s : State) : Option (Exception × State) :=
  match src with
  | .external => (takeIoir s).map fun x => (.external x.1, x.2)
  | .switch0 =>
    if s.pending.switch0 then some (.switch0, { s with pending := { s.pending with switch0 := false } }) else none
  | .powerFail =>
    if s.pending.powerFail then some (.powerFail, { s with pending := { s.pending with powerFail := false } }) else none
  | .endGlitch =>
    if s.pending.endGlitch then some (.endGlitch, { s with pending := { s.pending with endGlitch := false } }) else none
  | .timer1 =>
    if s.pending.timer1 then some (.timer1, { s with pending := { s.pending with timer1 := false } }) else none
  | .timer2 =>
    if s.pending.timer2 then some (.timer2, { s with pending := { s.pending with timer2 := false } }) else none

/-- Whether interrupts are enabled: in user mode and in the pause (R507, R539). -/
def State.interruptible (s : State) : Bool := s.paused || decide (s.mode = .user)

/-- The interrupt taken at a boundary that accepts this source, if interrupts are enabled and it is pending. -/
def acceptSource (src : Option Source) (s : State) : Option (Exception × State) :=
  match src with
  | none => none
  | some x => if s.interruptible then takeSource x s else none

/-! ## The boundary -/

/-- How a boundary ends: with an outcome of its own, or with the instruction at the pc, and the address of a parity error
that the fetch-ahead unit meets while it is fetched. -/
inductive Opening
  | closed (o : Outcome)
  | instruction (err : Option Word) (s : State)

/-- Whether an address is none of the six from the pc, the most an instruction has. -/
def State.farAhead (s : State) (a : Word) : Bool := decide (6 ≤ (a - s.pc).toNat)

/-- After the events: an interrupt, the pause going on, a parity error of the fetch-ahead unit elsewhere than at the
instruction (R525), or an instruction, whose fetch meets an error at its own bytes in address order (R550). The saved address
is the pc: in the pause it is that of the instruction after the RUM (R441, D39). -/
def closeBoundary (b : Boundary) (s : State) : Opening :=
  match acceptSource b.accept s with
  | some (e, s1) => .closed (takeException e s1.pc s1)
  | none =>
    if s.paused then .closed (.next s)
    else
      match b.parityFetch.filter s.farAhead with
      | some a => .closed (raise (.parityCodeFetch a) s)
      | none => .instruction b.parityFetch s

/-- The next boundary of the outside list, with what it brings between the accesses that follow it; past the list's end
nothing happens. -/
def nextBoundary (s : State) : Boundary × State :=
  match s.world with
  | [] => (.quiet, { s with within := [] })
  | b :: rest => (b, { s with world := rest, within := b.within })

/-- The instruction boundary before an instruction: the outside's events, then what they lead to. At an odd pc no step is
defined (R38, D7). -/
def openBoundary (s : State) : Opening :=
  if s.pc.toNat % 2 ≠ 0 then .closed (.refused .oddPc)
  else
    let (b, s0) := nextBoundary s
    match applyEvents b.events s0 with
    | .ok _ s1 => closeBoundary b s1
    | .trap e s1 => .closed (raise e s1)
    | .fault f => .closed (.fault f)
    | .refused r => .closed (.refused r)

end Sys2Proof.Machine
end

