-- ==== Sys2Proof/Machine/Step.lean ====
section
/-! DEFINITION. One step: an instruction boundary, then one instruction, exception entry or moment of the pause. -/

namespace Sys2Proof.Machine

/-- The instruction at the pc, fetched and executed. -/
def runInstruction (err : Option Word) (s : State) : Outcome :=
  match fetchInstruction err s with
  | .run i s1 => exec i s1
  | .closed o => o

/-- One step. -/
def step (s : State) : Outcome :=
  match openBoundary s with
  | .closed o => o
  | .instruction err s1 => runInstruction err s1

/-- Where `withFetchWord` puts an instruction: at the pc, or at 0 where no instruction can start there. -/
def State.fetchPlace (s : State) : Word :=
  if s.pc.toNat % 2 = 0 ∧ s.pc.toNat + 6 ≤ 2 ^ 32 then s.pc else 0

/-- The state with an instruction's table bits stored where the next step fetches, at the same real address in both modes,
and with nothing else that would happen first or meanwhile: no event of the outside, no pause, no old bytes (log 8). -/
def State.withFetchWord (s : State) (nbits w : Nat) : State :=
  let a := s.fetchPlace
  let same (p : Page) : TmtEntry := { page := p, realPage := p, modified := false }
  { s with
    pc := a
    paused := false
    mem := s.mem.storeBytes a.toNat (tableBytes nbits w)
    installed := if s.backed a.toNat 6 then s.installed else { base := a.toNat, size := 6 } :: s.installed
    codeTmt := if s.mode = .user then [same (pageOf a), same (pageOf (a + 5))] else s.codeTmt
    fetch := .empty
    parityData := false
    within := []
    world := [] }

end Sys2Proof.Machine
end

