-- ==== Sys2Proof/Safety.lean ====
section
/-! DEFINITION. The terms claims are stated in: the invariant of the state, what a safe run is, and how one state differs
from another after an instruction (frames). -/

namespace Sys2Proof.Machine

/-! ## The invariant -/

/-- What every step keeps. -/
structure State.Inv (s : State) : Prop where
  /-- Memory is in canonical form. -/
  memory : Memory.wf s.mem
  /-- Every listed byte is at an address that has memory (R94). -/
  backed : ∀ c ∈ s.mem, s.installedAt c.1 = true
  /-- At most sixteen entries for code, one a page (R110). -/
  codeTmt : s.codeTmt.length ≤ 16 ∧ (s.codeTmt.map TmtEntry.page).Nodup
  /-- At most sixteen entries for data, one a page (R110). -/
  dataTmt : s.dataTmt.length ≤ 16 ∧ (s.dataTmt.map TmtEntry.page).Nodup
  /-- The error logging RAM is listed in rising order. -/
  elog : s.elog.Pairwise (fun a b => a < b)
  /-- A device requests with one word at a time (R539). -/
  requests : (s.pending.external.map deviceOf).Nodup
  /-- The pause is a state of kernel mode (R441). -/
  pause : s.paused = true → s.mode = .kernel
  /-- At most two instructions are buffered ahead (R140). -/
  ahead : s.fetch.ahead.length ≤ 2

/-! ## Safe runs -/

/-- A run of `n` steps that neither faults nor is refused. -/
def runsSafely (n : Nat) (s : State) : Prop := ∃ t, Host.Core.run Sys2Proof.core n s = .next t

/-! ## Data in memory, most significant byte first (R88) -/

/-- The halfword at an address. -/
def State.halfAt (s : State) (a : Nat) : Half := s.mem.read a ++ s.mem.read (a + 1)

/-- The word at an address. -/
def State.wordAt (s : State) (a : Nat) : Word := s.halfAt a ++ s.halfAt (a + 2)

/-- The double word at an address. -/
def State.doubleAt (s : State) (a : Nat) : Double := s.wordAt a ++ s.wordAt (a + 4)

/-! ## Entries of the VRT, two words at addresses modulo 2^32 (R10, R118) -/

/-- The entry at an address. -/
def State.entryAt (s : State) (ea : Word) : Double := s.wordAt ea.toNat ++ s.wordAt (ea + 4).toNat

/-- Both words of the entry at an address have memory. -/
def State.entryBacked (s : State) (ea : Word) : Prop := s.backed ea.toNat 4 = true ∧ s.backed (ea + 4).toNat 4 = true

/-- An address is of no byte of the word at another. -/
def OutsideWord (a : Word) (x : Nat) : Prop := x < a.toNat ∨ a.toNat + 4 ≤ x

/-- An address is of no byte of the entry at another. -/
def OutsideEntry (ea : Word) (x : Nat) : Prop := OutsideWord ea x ∧ OutsideWord (ea + 4) x

/-! ## Frames -/

/-- Nothing but the registers of a list and the pc differs: no other register, no special register, no byte of memory,
nothing else of the state. -/
def OnlyRegs (rs : List Reg) (s t : State) : Prop :=
  (∀ r, r ∉ rs → t.reg r = s.reg r) ∧ (∀ k, t.spec k = s.spec k) ∧ (∀ a, t.mem.read a = s.mem.read a) ∧
    t = { s with regs := t.regs, pc := t.pc }

/-- The same, with free values drawn. -/
def OnlyRegsDrawing (rs : List Reg) (s t : State) : Prop :=
  (∀ r, r ∉ rs → t.reg r = s.reg r) ∧ (∀ k, t.spec k = s.spec k) ∧ (∀ a, t.mem.read a = s.mem.read a) ∧
    t = { s with regs := t.regs, pc := t.pc, draws := t.draws }

/-- Nothing but the `n` bytes from address `a`, the pc, and what a fetch of those bytes may show, differs. -/
def OnlyBytes (a n : Nat) (s t : State) : Prop :=
  (∀ r, t.reg r = s.reg r) ∧ (∀ k, t.spec k = s.spec k) ∧
    (∀ x, x < a ∨ a + n ≤ x → t.mem.read x = s.mem.read x) ∧
    (∀ x, x < a ∨ a + n ≤ x → t.fetch.old x = s.fetch.old x) ∧
    t = { s with pc := t.pc, mem := t.mem, fetch := t.fetch }

/-- The instruction, of `len` bytes, gives a next state: register `r` holds `v`, the pc is past it, nothing else
differs. -/
def Writes (i : Instr) (len : Nat) (r : Reg) (v : Word) (s : State) : Prop :=
  ∃ t, exec i s = .next t ∧ t.reg r = v ∧ t.pc = s.pc + BitVec.ofNat 32 len ∧ OnlyRegs [r] s t

/-- The same for a register pair. -/
def WritesPair (i : Instr) (len : Nat) (r : Reg) (v : Double) (s : State) : Prop :=
  ∃ t, exec i s = .next t ∧ t.reg r = v.extractLsb' 32 32 ∧ t.reg (r + 1) = v.extractLsb' 0 32 ∧
    t.pc = s.pc + BitVec.ofNat 32 len ∧ OnlyRegs [r, r + 1] s t

/-- The instruction gives a next state in which nothing but the pc differs. -/
def Goes (i : Instr) (target : Word) (s : State) : Prop :=
  ∃ t, exec i s = .next t ∧ t.pc = target ∧ OnlyRegs [] s t

/-- The instruction links the address `link` into register `r` and goes to a target, and nothing else differs. -/
def Links (i : Instr) (r : Reg) (link target : Word) (s : State) : Prop :=
  ∃ t, exec i s = .next t ∧ t.reg r = link ∧ t.pc = target ∧ OnlyRegs [r] s t

/-- The instruction, of `len` bytes, stores the `n` bytes of `v` at address `a`, most significant first, and nothing else
differs. -/
def Stores (i : Instr) (len a n v : Nat) (s : State) : Prop :=
  ∃ t, exec i s = .next t ∧ t.pc = s.pc + BitVec.ofNat 32 len ∧
    (∀ k < n, t.mem.read (a + k) = BitVec.ofNat 8 (v / 256 ^ (n - 1 - k))) ∧ OnlyBytes a n s t

/-! ## Exception entry -/

/-- No other agent acts between the memory accesses of the instruction in progress (R131). -/
def Alone (s : State) : Prop := s.within = []

/-- The exception at an offset of the CCB can be taken: the entry is usable, and no other agent changes memory before it is
read. -/
def CanEnter (off : Nat) (s : State) : Prop := s.ccbUsable off = true ∧ Alone s

/-- The state after the entry of an exception (R510, R511, R521) from `s` with the return address `ret`: where the
exception gives SR1, SR2 or SR3 a value they have it, and nothing else differs than the entry says. -/
def Entered (e : Exception) (ret : Word) (s t : State) : Prop :=
  t.mode = .kernel ∧ t.paused = false ∧ t.pc = s.wordAt (s.spec 11 + BitVec.ofNat 32 e.ccbOffset).toNat ∧
    (s.mode = .user → t.spec 15 = ret ∧ t.spec 0 = 1) ∧
    (s.mode = .kernel → t.spec 0 = ret ∧ t.spec 15 = s.spec 15) ∧
    (∀ v, e.info1 = some v → t.spec 1 = v) ∧ (∀ v, e.info2 = some v → t.spec 2 = v) ∧
    (∀ v, e.info3 = some v → t.spec 3 = v) ∧
    (∀ k : Reg, 4 ≤ k.toNat → k.toNat ≤ 14 → t.spec k = s.spec k) ∧
    (∀ r, t.reg r = s.reg r) ∧ (∀ a, t.mem.read a = s.mem.read a) ∧
    t = { s with pc := t.pc, sr := t.sr, mode := .kernel, paused := false, draws := t.draws }

/-- The next access of the millisecond tick reads the word at an address and does nothing else; what it has read, and from
where, is kept in the stage of the tick. -/
def TickReads (a : Word) (stage : Word → TickStage) (s : State) : Prop :=
  s.backed a.toNat 4 = true →
    applyMemoryEvent .tickAccess s = .ok () { s with tickStage := stage (s.wordAt a.toNat) }

/-- The next access of the millisecond tick writes the word `v` at an address, and but for that word, and what a fetch of it may
show, leaves `u`. -/
def TickWrites (a v : Word) (s u : State) : Prop :=
  s.backed a.toNat 4 = true →
    ∃ t, applyMemoryEvent .tickAccess s = .ok () t ∧ t.wordAt a.toNat = v ∧
      (∀ x, x < a.toNat ∨ a.toNat + 4 ≤ x → t.mem.read x = s.mem.read x ∧ t.fetch.old x = s.fetch.old x) ∧
      t = { u with mem := t.mem, fetch := t.fetch }

/-- The instruction raises an exception with its own address saved, and has no other effect. -/
def Raises (i : Instr) (e : Exception) (s : State) : Prop :=
  ∃ t, exec i s = .next t ∧ Entered e s.pc s t

/-- The instruction writes register `r` and then raises an exception with its own address saved. -/
def WritesAndRaises (i : Instr) (r : Reg) (v : Word) (e : Exception) (s : State) : Prop :=
  ∃ t, exec i s = .next t ∧ Entered e s.pc (s.setReg r v) t

/-- The same for a register pair. -/
def WritesPairAndRaises (i : Instr) (r : Reg) (v : Double) (e : Exception) (s : State) : Prop :=
  ∃ t, exec i s = .next t ∧ Entered e s.pc (s.setPair r v) t

/-! ## Shapes of instructions -/

/-- Whether bit k of the traps word, bit 0 the most significant, is on (R50). -/
def TrapOn (k : Nat) (s : State) : Prop := (s.spec 10).getMsbD k = true

/-- An exact result fits a signed word. -/
def Fits (n : Int) : Prop := -(2 ^ 31) ≤ n ∧ n < 2 ^ 31

/-- An instruction of 2 bytes whose result is the exact integer `n`, modulo 2^32, with an overflow trap that comes after
the register is written (R237, R238). -/
def ArithmeticResult (i : Instr) (r : Reg) (n : Int) (s : State) : Prop :=
  (s.pc.toNat + 2 < 2 ^ 32 → Fits n ∨ ¬TrapOn 16 s → Writes i 2 r (BitVec.ofInt 32 n) s) ∧
    (¬Fits n → TrapOn 16 s → CanEnter 0x41C s →
      WritesAndRaises i r (BitVec.ofInt 32 n) (.trapsWord 16) s)

/-- An instruction of 2 bytes that meets the condition with this code and changes no register: on to the next
instruction, or the trap if it is enabled. -/
def UnchangedEnd (i : Instr) (code : Nat) (s : State) : Prop :=
  (s.pc.toNat + 2 < 2 ^ 32 → ¬TrapOn code s → Goes i (s.pc + 2) s) ∧
    (TrapOn code s → CanEnter 0x41C s → Raises i (.trapsWord code) s)

/-- An instruction of 2 bytes that meets the condition with this code and writes a register before the trap. -/
def WrittenEnd (i : Instr) (r : Reg) (v : Word) (code : Nat) (s : State) : Prop :=
  (s.pc.toNat + 2 < 2 ^ 32 → ¬TrapOn code s → Writes i 2 r v s) ∧
    (TrapOn code s → CanEnter 0x41C s → WritesAndRaises i r v (.trapsWord code) s)

/-- The same for a register pair. -/
def WrittenPairEnd (i : Instr) (r : Reg) (v : Double) (code : Nat) (s : State) : Prop :=
  (s.pc.toNat + 2 < 2 ^ 32 → ¬TrapOn code s → WritesPair i 2 r v s) ∧
    (TrapOn code s → CanEnter 0x41C s → WritesPairAndRaises i r v (.trapsWord code) s)

/-- An instruction of 2 bytes that meets the condition with this code and leaves any value in the registers of a list. -/
def ScrambledEnd (i : Instr) (rs : List Reg) (code : Nat) (s : State) : Prop :=
  (s.pc.toNat + 2 < 2 ^ 32 → ¬TrapOn code s →
      ∃ t, exec i s = .next t ∧ t.pc = s.pc + 2 ∧ OnlyRegsDrawing rs s t) ∧
    (TrapOn code s → CanEnter 0x41C s →
      ∃ s1 t, OnlyRegsDrawing rs s s1 ∧ exec i s = .next t ∧ Entered (.trapsWord code) s.pc s1 t)

/-- A conditional branch: to the target if the condition holds, else past the instruction. -/
def Branches (i : Instr) (len : Nat) (c : Prop) (target : Word) (s : State) : Prop :=
  (c → Goes i target s) ∧ (¬c → s.pc.toNat + len < 2 ^ 32 → Goes i (s.pc + BitVec.ofNat 32 len) s)

/-- The target of a branch: the displacement without its low bit, added to the address of the branch (R401). -/
def targetOf (pc : Word) (disp : Int) : Word := BitVec.ofInt 32 (pc.toInt + 2 * (disp / 2))

/-- The effective addresses of the four data segment forms of an instruction, with the forms' lengths (R201). -/
def dataForms (short shortX : Reg → Reg → Half → Instr) (long longX : Reg → Reg → Word → Instr) (r rx : Reg)
    (d : Half) (w : Word) (s : State) : List (Instr × Nat × Word) :=
  [(short r rx d, 4, BitVec.ofInt 32 d.toInt), (shortX r rx d, 4, s.reg rx + BitVec.ofInt 32 d.toInt),
    (long r rx w, 6, w), (longX r rx w, 6, s.reg rx + w)]

/-- The effective addresses of the four code segment forms of an instruction, with the forms' lengths (R202). -/
def codeForms (short shortX : Reg → Reg → Half → Instr) (long longX : Reg → Reg → Word → Instr) (r rx : Reg)
    (d : Half) (w : Word) (s : State) : List (Instr × Nat × Word) :=
  [(short r rx d, 4, s.pc + BitVec.ofInt 32 d.toInt), (shortX r rx d, 4, s.pc + s.reg rx + BitVec.ofInt 32 d.toInt),
    (long r rx w, 6, s.pc + w), (longX r rx w, 6, s.pc + s.reg rx + w)]

/-- The loads of `n` bytes in all eight forms, each with its segment (R210 to R214). -/
def loadForms (n : Nat) (r rx : Reg) (d : Half) (w : Word) (s : State) : List (Segment × Instr × Nat × Word) :=
  let data (l : List (Instr × Nat × Word)) := l.map (fun x => (Segment.data, x))
  let code (l : List (Instr × Nat × Word)) := l.map (fun x => (Segment.code, x))
  match n with
  | 1 => data (dataForms .loadb .loadbX .loadbL .loadbLX r rx d w s) ++
      code (codeForms .loadbC .loadbCX .loadbCL .loadbCLX r rx d w s)
  | 2 => data (dataForms .loadh .loadhX .loadhL .loadhLX r rx d w s) ++
      code (codeForms .loadhC .loadhCX .loadhCL .loadhCLX r rx d w s)
  | 4 => data (dataForms .load .loadX .loadL .loadLX r rx d w s) ++
      code (codeForms .loadC .loadCX .loadCL .loadCLX r rx d w s)
  | _ => data (dataForms .loadd .loaddX .loaddL .loaddLX r rx d w s) ++
      code (codeForms .loaddC .loaddCX .loaddCL .loaddCLX r rx d w s)

/-- The stores of `n` bytes in all four forms (R220 to R224). -/
def storeForms (n : Nat) (r rx : Reg) (d : Half) (w : Word) (s : State) : List (Instr × Nat × Word) :=
  match n with
  | 1 => dataForms .storeb .storebX .storebL .storebLX r rx d w s
  | 2 => dataForms .storeh .storehX .storehL .storehLX r rx d w s
  | 4 => dataForms .store .storeX .storeL .storeLX r rx d w s
  | _ => dataForms .stored .storedX .storedL .storedLX r rx d w s

/-- What a load of `n` bytes at a real address puts into the registers from `r`: one word zero-extended, or two (R210 to
R213). -/
def Loaded (n a : Nat) (r : Reg) (s t : State) : Prop :=
  match n with
  | 1 => t.reg r = (s.mem.read a).zeroExtend 32
  | 2 => t.reg r = (s.halfAt a).zeroExtend 32
  | 4 => t.reg r = s.wordAt a
  | _ => t.reg r = s.wordAt a ∧ t.reg (r + 1) = s.wordAt (a + 4)

/-- The registers a load of `n` bytes writes. -/
def loadedRegs (n : Nat) (r : Reg) : List Reg := if n = 8 then [r, r + 1] else [r]

/-- What a store of `n` bytes stores: the low bytes of a register, or a pair (R220 to R223). -/
def storedValue (n : Nat) (r : Reg) (s : State) : Nat :=
  if n = 8 then (s.reg r).toNat * 2 ^ 32 + (s.reg (r + 1)).toNat else (s.reg r).toNat

/-! ## Translation and fetch -/

/-- A search of the VRT in memory as it stands answers an entry with its address, or none. -/
def Finds (segment va : Word) (found : Option (Word × Double)) (s : State) : Prop :=
  vrtSearchWith noPause segment va s = .ok found s

/-- The access of user mode to a page is noted, and no other (R123). -/
def Noted (segment : Word) (page : Page) (stored : Bool) (s t : State) : Prop :=
  ∀ x, x ∈ t.accessed ↔ x ∈ s.accessed ∨ x = { segment := segment, page := page, stored := stored }

/-- User mode translates a page of a segment to the real page `rp`, which leaves the state `s1`: the TMT maps it and nothing
changes; or the VRT does, and then only the R bit of the entry in memory is set, and the mapping is loaded into that half of
the TMT (R119). -/
def Maps (seg : Segment) (segment va : Word) (rp : Page) (s s1 : State) : Prop :=
  (∃ entry, tmtFind (s.tmt seg) (pageOf va) = some entry ∧ rp = entry.realPage ∧ s1 = s) ∨
    (∃ ea e, tmtFind (s.tmt seg) (pageOf va) = none ∧ Finds segment va (some (ea, e)) s ∧ rp = vrtRealPage e ∧
      s1 = ((s.markEntry ea vrtSetR).setTmt seg
        (tmtLoad s.draws (s.tmt seg) { page := pageOf va, realPage := rp, modified := vrtM e })).drawn)

/-- The bytes from an address. -/
def State.bytesAt (s : State) (a n : Nat) : List Byte := (List.range n).map (fun k => s.mem.read (a + k))

/-- Nothing happens at the next instruction boundary nor within the instruction, and the processor does not pause. -/
def Quiet (s : State) : Prop := s.world = [] ∧ s.paused = false ∧ Alone s

/-- No fetch of the `n` bytes from a real address may show an old byte (R140). -/
def Fresh (a n : Nat) (s : State) : Prop := ∀ k < n, s.fetch.old (a + k) = []

/-- No fetch of the `n` bytes from the pc may show bytes that the cache holds from another space (U32). -/
def Unmixed (n : Nat) (s : State) : Prop := ∀ k < n, s.fetch.mixed s.space (s.pc + BitVec.ofNat 32 k) = false

/-- The `n` bytes from a real address are there, and every fetch of them shows these (R94, R140). -/
def Shows (a n : Nat) (bytes : List Byte) (s : State) : Prop :=
  s.backed a n = true ∧ Fresh a n s ∧ bytes = s.bytesAt a n

/-- The `n` bytes from a virtual address of the code segment lie in one page, which user mode translates, and are these: by the
TMT or, leaving the state `s1`, by the VRT (R119). -/
def PageShows (va : Word) (n : Nat) (bytes : List Byte) (s s1 : State) : Prop :=
  pageOf va = pageOf (va + BitVec.ofNat 32 (n - 1)) ∧
    ∃ rp, Maps .code (s.spec 8) va rp s s1 ∧ Shows (realAddress rp va).toNat n bytes s1

/-- The `n` bytes from the pc are these, and fetching them leaves `s1` but for what it notes: in kernel mode at the pc itself; in
user mode in the one or two pages they lie in, each mapped by the TMT or the VRT (R36, R90, R117, R119). -/
def CodeBytes (n : Nat) (bytes : List Byte) (s s1 : State) : Prop :=
  s.pc.toNat + n ≤ 2 ^ 32 ∧
    ((s.mode = .kernel ∧ s1 = s ∧ Shows s.pc.toNat n bytes s) ∨ (s.mode = .user ∧ PageShows s.pc n bytes s s1) ∨
      (s.mode = .user ∧ ∃ (k : Nat) (first rest : List Byte) (s0 : State), 0 < k ∧ k < n ∧
        pageOf (s.pc + BitVec.ofNat 32 k) ≠ pageOf s.pc ∧ PageShows s.pc k first s s0 ∧
        PageShows (s.pc + BitVec.ofNat 32 k) (n - k) rest s0 s1 ∧ bytes = first ++ rest))

/-- Fetching the `n` bytes from the pc notes the access to each of their pages, and no other; in kernel mode none (R123). -/
def CodeNoted (n : Nat) (s t : State) : Prop :=
  ∀ x, x ∈ t.accessed ↔ x ∈ s.accessed ∨
    s.mode = .user ∧ ∃ k < n,
      x = { segment := s.spec 8, page := pageOf (s.pc + BitVec.ofNat 32 k), stored := false }

/-- In user mode an instruction of `n` bytes straddles two pages: its first `k` bytes are in a page that is mapped, which leaves
`s1`, and neither the TMT nor the VRT maps the page of the others (R90, R124). -/
def TailMissing (k n : Nat) (s s1 : State) : Prop :=
  s.mode = .user ∧ 0 < k ∧ k < n ∧ s.pc.toNat + n ≤ 2 ^ 32 ∧ pageOf (s.pc + BitVec.ofNat 32 k) ≠ pageOf s.pc ∧
    (∃ bytes, PageShows s.pc k bytes s s1 ∧ n = lengthOf (bytes.headD 0)) ∧ Unmixed k s ∧
    tmtFind s1.codeTmt (pageOf (s.pc + BitVec.ofNat 32 k)) = none ∧
    Finds (s.spec 8) (s.pc + BitVec.ofNat 32 k) none s1

/-- The page fault of such an instruction: SR3 holds the address of one of its bytes in the missing page (U14), SR15 its own;
nothing else changes than the mapping of the first page, the note of the access to it, and what fetching notes. -/
def TailFaulted (k n : Nat) (s s1 t : State) : Prop :=
  ∃ (j : Nat) (s2 : State), k ≤ j ∧ j < n ∧ s2 = { s1 with fetch := s2.fetch, accessed := s2.accessed } ∧
    CodeNoted k s s2 ∧ { space := s.space, address := s.pc, length := n + 12 } ∈ s2.fetch.seen ∧
    Entered (.pageFault (s.spec 8) (s.pc + BitVec.ofNat 32 j)) s.pc s2 t

/-- What a fetch of an instruction of `n` bytes leaves of the cache and the fetch-ahead: the same old bytes, the buffer one
instruction on, and the stretch noted (R140, R141, R612). -/
def FetchNoted (n : Nat) (s t : State) : Prop :=
  t.fetch.stale = s.fetch.stale ∧ t.fetch.aheadPc = s.pc + BitVec.ofNat 32 n ∧
    t.fetch.ahead = (if s.fetch.aheadPc = s.pc then s.fetch.ahead.tail else []) ∧
    ∀ x, x ∈ t.fetch.seen ↔ x ∈ s.fetch.seen ∨ x = { space := s.space, address := s.pc, length := n + 12 }

/-- The real address of a member of the Process Control Block (R431). -/
def pcbAt (offset : Word) (s : State) : Nat := (s.spec 14 + offset).toNat

/-- Whether a register is in the range of SUS, LUS and LDREGS (R433). -/
def InRange (r1 r2 k : Reg) : Prop := k = r1 ∨ (r1.toNat ≤ k.toNat ∧ k.toNat ≤ r2.toNat)

end Sys2Proof.Machine
end

