-- ==== Sys2Proof/Certificates/Slice0/Obligations.lean ====
section
/-! DEFINITION. The statements for the provers. Each docstring names the rules of spec/ it formalises, and the log entry
where it rests on a choice of the model. The frames are in the terms of Sys2Proof/Safety.lean. -/

open Sys2Proof Sys2Proof.Machine

/-! ## Encoding -/

/-- R150 to R164: the decoder gives back every instruction from its encoding, whatever bytes follow it. -/
def Obligations.EncodeThenDecode : Prop :=
  ∀ (i : Instr) (rest : List Byte), decode (encode i ++ rest) = .instr i

/-- The other direction: bytes that decode to an instruction begin with its encoding, so no bit of them is dropped. -/
def Obligations.DecodeThenEncode : Prop :=
  ∀ (bytes : List Byte) (i : Instr), decode bytes = .instr i → ∃ rest, bytes = encode i ++ rest

/-- R155, R222: words of the examples of spec/40 to spec/47 decode to the instructions they stand for. In the words of LOAD and
STORE the places of R and RX are the model's choice (log 44, PRESUMED). -/
def Obligations.DecodeSampleWords : Prop :=
  decode [0x03, 0x12] = .instr (.add 1 2) ∧ decode [0xC6, 0x30, 0x03, 0x00] = .instr (.load 3 0 0x0300) ∧
    decode [0xA7, 0x25, 0x00, 0x08] = .instr (.storeX 2 5 8) ∧
    decode [0x93, 0xB0, 0x00, 0x00, 0x01, 0x00] = .instr (.callL 11 0 0x100) ∧
    decode [0x5B, 0x12] = .instr (.kcall 0x12) ∧ decode [0x4C, 0x48] = .instr (.itest 4) ∧
    decode [0x46, 0xB2] = .instr (.movesr 11 2)

/-- R165: an opcode of the rule's table decodes to no instruction, with its R1 and R2 fields, whatever bytes follow (four
of them are enough for every length). -/
def Obligations.UnassignedOpcodesAreIllegal : Prop :=
  ∀ (op : Byte) (r1 r2 : Reg) (b2 b3 b4 b5 : Byte) (rest : List Byte),
    op ∈ ([0x00, 0x12, 0x16, 0x17, 0x19, 0x1A, 0x1C, 0x1D, 0x1E, 0x2B, 0x3C, 0x3D, 0x3E, 0x3F, 0x48, 0x49, 0x4A, 0x4B,
        0x4D, 0x5F, 0x66, 0x67, 0x69, 0x6B, 0x6C, 0x6D, 0x6E, 0x6F, 0x76, 0x77, 0x79, 0x7B, 0x7C, 0x7D, 0x7E, 0x7F] ++
      [0x81, 0x89, 0x8F, 0x91, 0x99, 0x9F, 0xA4, 0xA5, 0xAA, 0xAB, 0xAC, 0xAD, 0xAE, 0xAF, 0xB4, 0xB5, 0xBA, 0xBB, 0xBC,
        0xBD, 0xBE, 0xBF, 0xC4, 0xC5, 0xCA, 0xCB, 0xCC, 0xCD, 0xD4, 0xD5, 0xDA, 0xDB, 0xDC, 0xDD, 0xE4, 0xE5, 0xEA, 0xEB,
        0xEC, 0xED, 0xF4, 0xF5, 0xFA, 0xFB, 0xFC, 0xFD] : List Byte) →
      decode (op :: (r1 ++ r2) :: b2 :: b3 :: b4 :: b5 :: rest) = .illegal op r1 r2

/-! ## Steps and fetching -/

/-- A step in kernel mode runs the instruction the bytes at the pc decode to, in the state itself but for what fetching notes
(R36, R141, R612): nothing happens at the boundary or between the accesses, the bytes are in memory, and no older ones and
none of another address space can be fetched. The length of the stretch noted and what counts as an address space are log 56
(DESIGN CHOICE), that the buffer goes on only in sequence is log 38 (DEDUCED). -/
def Obligations.StepRunsDecodedInstruction : Prop :=
  ∀ (s : State) (i : Instr) (n : Nat), Quiet s → s.mode = .kernel → s.pc.toNat % 2 = 0 →
    n = (encode i).length → s.pc.toNat + n ≤ 2 ^ 32 → s.backed s.pc.toNat n = true → Fresh s.pc.toNat n s →
    Unmixed n s → decode (s.bytesAt s.pc.toNat n) = .instr i →
      ∃ t, step s = exec i t ∧ t = { s with fetch := t.fetch } ∧ FetchNoted n s t

/-- A step in user mode does the same with the bytes of the one or two pages the instruction lies in, each mapped by the TMT or by
the VRT (R90, R117, R119); besides, the accesses to those pages are noted (R123), and memory is as the translations leave it.
The notes of accesses are log 15 (DESIGN CHOICE), the stretch noted log 56 (DESIGN CHOICE), the buffer log 38 (DEDUCED). -/
def Obligations.StepRunsTranslatedInstruction : Prop :=
  ∀ (s s1 : State) (i : Instr) (n : Nat) (bytes : List Byte), Quiet s → s.mode = .user → s.pc.toNat % 2 = 0 →
    n = (encode i).length → CodeBytes n bytes s s1 → Unmixed n s → decode bytes = .instr i →
      ∃ t, step s = exec i t ∧ (∀ x, t.mem.read x = s1.mem.read x) ∧
        t = { s1 with fetch := t.fetch, accessed := t.accessed } ∧ FetchNoted n s1 t ∧ CodeNoted n s t

/-- R165, R524: in both modes a fetched unassigned opcode raises the illegal instruction trap with the opcode in SR1, the R1
field in SR2 and, for a register format opcode, the R2 field in SR3; the saved address is its own. In user mode the code lies in
one or two pages that the TMT or the VRT maps. That every unassigned opcode does so, in both modes, is log 34 (DEDUCED, D12);
what fetching notes are logs 15 and 56 (DESIGN CHOICE). -/
def Obligations.IllegalInstructionTraps : Prop :=
  ∀ (s s1 : State) (op : Byte) (r1 r2 : Reg) (n : Nat) (bytes : List Byte), Quiet s → s.pc.toNat % 2 = 0 →
    CodeBytes n bytes s s1 → n = lengthOf op → Unmixed n s → decode bytes = .illegal op r1 r2 → CanEnter 0x404 s →
      ∃ s2 t, step s = .next t ∧ s2 = { s1 with fetch := s2.fetch, accessed := s2.accessed } ∧ CodeNoted n s s2 ∧
        Entered (.illegalInstruction op r1 (if op.toNat < 128 then some r2 else none)) s.pc s2 t ∧
        t.spec 1 = op.zeroExtend 32 ∧ t.spec 2 = r1.zeroExtend 32 ∧ (op.toNat < 128 → t.spec 3 = r2.zeroExtend 32)

/-- R38, R39, R94, R166: no step is defined at an odd pc, whatever else happens or waits (before the boundary: log 2, DEDUCED);
nor for a maintenance subop the manual does not list (DESIGN CHOICE, log 35: R166 also names the trap); nor for an instruction
whose bytes, or whose next address, lie past the last address (log 3, DEDUCED). A fetch where no memory is stops with the fault
(which addresses have memory is log 6, DESIGN CHOICE). -/
def Obligations.RefusedFetches : Prop :=
  (∀ s : State, s.pc.toNat % 2 = 1 → step s = .refused .oddPc) ∧
    (∀ (s s1 : State) (r1 r2 : Reg), Quiet s → s.pc.toNat % 2 = 0 → CodeBytes 2 [0x4C, r1 ++ r2] s s1 → Unmixed 2 s →
      r2 ∉ ([0, 1, 6, 7, 8] : List Reg) →
        step s = .refused (.unassignedSubop r2)) ∧
    (∀ (s s1 : State) (op b : Byte), Quiet s → s.pc.toNat % 2 = 0 → CodeBytes 2 [op, b] s s1 → Unmixed 2 s →
      2 ^ 32 < s.pc.toNat + lengthOf op → step s = .refused .pastLastAddress) ∧
    (∀ (s : State) (r1 r2 : Reg) (d : Half) (w : Word),
      ∀ i ∈ [Instr.move r1 r2, .not r1 r2, .and r1 r2, .or r1 r2, .xor r1 r2, .dcomp r1 r2, .lcomp r1 r2, .testEq r1 r2,
          .lsl r1 r2, .seb r1 r2, .nop r1 r2, .laddr r1 r2 d, .laddrL r1 r2 w],
        2 ^ 32 ≤ s.pc.toNat + (encode i).length → exec i s = .refused .pastLastAddress) ∧
    (∀ (s : State), Quiet s → s.pc.toNat % 2 = 0 → s.mode = .kernel → s.installedAt s.pc.toNat = false →
      step s = .fault (.outsideRealMemory s.pc.toNat)) ∧
    (∀ (s s1 : State) (rp : Page), Quiet s → s.pc.toNat % 2 = 0 → s.mode = .user → Maps .code (s.spec 8) s.pc rp s s1 →
      s.installedAt (realAddress rp s.pc).toNat = false →
        step s = .fault (.outsideRealMemory (realAddress rp s.pc).toNat))

/-- R124, R527, U14: where no entry of the TMT or the VRT maps the page of the pc, the step takes a page fault with the code
segment number in SR2 and SR15 at the instruction, and changes no register or memory. SR3 is the pc, or near the end of the
page one of the addresses there that an instruction of six bytes has (log 39, DEDUCED and DESIGN CHOICE); the dropped fetch-ahead
is log 38 (DEDUCED). Where an instruction straddles two pages and only the second is missing, SR3 is one of its addresses
there; the fetch of its first bytes is noted (logs 15 and 56, DESIGN CHOICE). -/
def Obligations.FetchPageFault : Prop :=
  (∀ s : State, Quiet s → s.mode = .user → s.pc.toNat % 2 = 0 → tmtFind s.codeTmt (pageOf s.pc) = none →
    Finds (s.spec 8) s.pc none s → CanEnter 0x410 s →
      ∃ (j : Nat) (a : Word) (t : State), j < 6 ∧ a = s.pc + BitVec.ofNat 32 j ∧ pageOf a = pageOf s.pc ∧
        (pageOf s.pc = pageOf (s.pc + 5) → a = s.pc) ∧ step s = .next t ∧
        Entered (.pageFault (s.spec 8) a) s.pc s.dropAhead t ∧ t.spec 2 = s.spec 8 ∧ t.spec 3 = a ∧ t.spec 15 = s.pc) ∧
    (∀ (s s1 : State) (k n : Nat), Quiet s → s.pc.toNat % 2 = 0 → TailMissing k n s s1 → CanEnter 0x410 s →
      ∃ t, step s = .next t ∧ TailFaulted k n s s1 t ∧ t.spec 2 = s.spec 8 ∧ t.spec 15 = s.pc)

/-- R140, R612: where the cache cannot hold another space's bytes, a fetched byte is the byte in memory or one it replaced
since the last flush; a byte never replaced, and every byte after a flush, is the one in memory; a replaced byte stays
fetchable (the record of replaced bytes is log 38, DEDUCED). Where it can, the byte may be any (U32); it cannot after a flush,
or if nothing was fetched in another space. What counts as a space, and when the cache can hold its bytes, is log 56 (DESIGN
CHOICE). -/
def Obligations.FetchOldOrNew : Prop :=
  (∀ (a : Nat) (s t : State) (b : Byte), fetchByte false a s = .ok b t →
      (b = s.mem.read a ∨ b ∈ s.fetch.old a) ∧ (s.fetch.old a = [] → b = s.mem.read a) ∧
        t = { s with draws := t.draws }) ∧
    (∀ (a : Nat) (s : State), s.installedAt a = true → ∃ b, fetchByte true a s = .ok b s.drawn) ∧
    (∀ (s : State) (a : Nat) (space : Option Word) (va : Word),
      s.flushFetch.fetch.old a = [] ∧ s.flushFetch.fetch.mixed space va = false) ∧
    (∀ (f : FetchState) (space : Option Word) (va : Word), (∀ x ∈ f.seen, x.space = space) → f.mixed space va = false) ∧
    (∀ (s t : State) (a n v x : Nat), realWrite a n v s = .ok () t → t.mem.read x ≠ s.mem.read x →
      s.mem.read x ∈ t.fetch.old x)

/-! ## Exceptions, interrupts, timers -/

/-- R510, R511, R512, R558: what taking an exception does, after what other agents do before the CCB is read (log 58, DESIGN
CHOICE), which changes memory, the TMT, the stage of the tick and the timer interrupts only; and that it is refused where SR11 is
no multiple of 4, the CCB reaches outside real memory (log 45, DEDUCED), or its word meets a parity error (log 57, DESIGN
CHOICE). The sums are modulo 2^32 (R10). The byte order of the CCB word is log 1 (DEDUCED). -/
def Obligations.ExceptionEntry : Prop :=
  ∀ (e : Exception) (ret : Word) (s : State),
    (∀ s0, s.between = .ok () s0 →
      (s0.ccbUsable e.ccbOffset = true → ∃ t, takeException e ret s = .next t ∧ Entered e ret s0 t) ∧
      ((s.spec 11).toNat % 4 ≠ 0 ∨ s.installedAt (s.spec 11 + 0x44F).toNat = false ∨ s.parityEntry = true →
        takeException e ret s = .refused .ccbUnusable) ∧
      s0 = { s with
        mem := s0.mem, fetch := { s.fetch with stale := s0.fetch.stale }, codeTmt := s0.codeTmt, dataTmt := s0.dataTmt,
        within := s0.within, tickStage := s0.tickStage,
        pending := { s.pending with timer1 := s0.pending.timer1, timer2 := s0.pending.timer2 } }) ∧
    (Alone s → s.between = .ok () s)

/-- R520, R521, R523, R524: the offset of every exception in the CCB, and the values of SR1, SR2, SR3 that its table gives. That
the check trap is at 0x418 and that a traps word code goes to SR3 are readings of the table (logs 18 and 17, DEDUCED); that
KCALL n puts n into SR1 is log 53 (DEDUCED); the blank SR2 of a kernel-mode alignment trap is log 30 (DESIGN CHOICE), the blank
SR3 of an illegal instruction of rows 8 to F log 34 (DEDUCED). -/
def Obligations.ExceptionTable : Prop :=
  (∀ n, (Exception.kcall n).ccbOffset = 4 * n.toNat ∧ (Exception.kcall n).info1 = some (n.zeroExtend 32)) ∧
    (∀ seg a, (Exception.dataAlignment (some seg) a).ccbOffset = 0x400 ∧
      (Exception.dataAlignment (some seg) a).info2 = some seg ∧ (Exception.dataAlignment (some seg) a).info3 = some a) ∧
    (∀ a, (Exception.dataAlignment none a).ccbOffset = 0x400 ∧ (Exception.dataAlignment none a).info2 = none ∧
      (Exception.dataAlignment none a).info3 = some a) ∧
    (∀ op r1 r2, (Exception.illegalInstruction op r1 r2).ccbOffset = 0x404 ∧
      (Exception.illegalInstruction op r1 r2).info1 = some (op.zeroExtend 32) ∧
      (Exception.illegalInstruction op r1 r2).info2 = some (r1.zeroExtend 32)) ∧
    (∀ op r1 r2, (Exception.illegalInstruction op r1 (some r2)).info3 = some (r2.zeroExtend 32) ∧
      (Exception.illegalInstruction op r1 none).info3 = none) ∧
    (∀ a, (Exception.parityCodeFetch a).ccbOffset = 0x408 ∧ (Exception.parityCodeFetch a).info3 = some a) ∧
    (∀ a, (Exception.parityExecute a).ccbOffset = 0x40C ∧ (Exception.parityExecute a).info3 = some a) ∧
    (∀ seg a, (Exception.pageFault seg a).ccbOffset = 0x410 ∧ (Exception.pageFault seg a).info2 = some seg ∧
      (Exception.pageFault seg a).info3 = some a) ∧
    (∀ op r1 r2, (Exception.kernelViolation op r1 r2).ccbOffset = 0x414 ∧
      (Exception.kernelViolation op r1 r2).info1 = some (op.zeroExtend 32) ∧
      (Exception.kernelViolation op r1 r2).info2 = some (r1.zeroExtend 32) ∧
      (Exception.kernelViolation op r1 r2).info3 = some (r2.zeroExtend 32)) ∧
    (∀ r1 r2, (Exception.check r1 r2).ccbOffset = 0x418 ∧ (Exception.check r1 r2).info2 = some (r1.zeroExtend 32) ∧
      (Exception.check r1 r2).info3 = some (r2.zeroExtend 32)) ∧
    (∀ code, (Exception.trapsWord code).ccbOffset = 0x41C ∧
      (Exception.trapsWord code).info3 = some (BitVec.ofNat 32 code)) ∧
    (∀ w, (Exception.external w).ccbOffset = 0x420 ∧ (Exception.external w).info1 = some w) ∧
    Exception.switch0.ccbOffset = 0x424 ∧ Exception.powerFail.ccbOffset = 0x428 ∧
    Exception.endGlitch.ccbOffset = 0x42C ∧ Exception.timer1.ccbOffset = 0x430 ∧ Exception.timer2.ccbOffset = 0x434

/-- R507, R535 to R538, R543: in user mode and in the pause, a boundary that accepts a pending source takes its interrupt
with the pc as the saved address; the source is pending no longer, except that a device may go on requesting (R475). The
external interrupt puts the word of a requesting device into SR1, and every other device's request stays pending. Which source is
accepted, and when, is log 10 (DESIGN CHOICE), which device answers and whether it withdraws log 43 (DEDUCED); the pc saved in
the pause is log 40 (DEDUCED). -/
def Obligations.InterruptTaken : Prop :=
  ∀ (s : State) (src : Source) (rest : List Boundary),
    s.world = { events := [], accept := some src, parityFetch := none, within := [] } :: rest → s.pc.toNat % 2 = 0 →
    s.paused = true ∨ s.mode = .user →
    (src = .switch0 → s.pending.switch0 = true → s.ccbUsable 0x424 = true →
      ∃ t, step s = .next t ∧
        Entered .switch0 s.pc
          { s with world := rest, within := [], pending := { s.pending with switch0 := false } } t) ∧
    (src = .powerFail → s.pending.powerFail = true → s.ccbUsable 0x428 = true →
      ∃ t, step s = .next t ∧
        Entered .powerFail s.pc
          { s with world := rest, within := [], pending := { s.pending with powerFail := false } } t) ∧
    (src = .endGlitch → s.pending.endGlitch = true → s.ccbUsable 0x42C = true →
      ∃ t, step s = .next t ∧
        Entered .endGlitch s.pc
          { s with world := rest, within := [], pending := { s.pending with endGlitch := false } } t) ∧
    (src = .timer1 → s.pending.timer1 = true → s.ccbUsable 0x430 = true →
      ∃ t, step s = .next t ∧
        Entered .timer1 s.pc
          { s with world := rest, within := [], pending := { s.pending with timer1 := false } } t) ∧
    (src = .timer2 → s.pending.timer2 = true → s.ccbUsable 0x434 = true →
      ∃ t, step s = .next t ∧
        Entered .timer2 s.pc
          { s with world := rest, within := [], pending := { s.pending with timer2 := false } } t) ∧
    (src = .external → s.pending.external ≠ [] → s.ccbUsable 0x420 = true →
      ∃ t w left, step s = .next t ∧ w ∈ s.pending.external ∧ (∀ x ∈ left, x ∈ s.pending.external) ∧
        (∀ x ∈ s.pending.external, deviceOf x ≠ deviceOf w → x ∈ left) ∧
        Entered (.external w) s.pc
          { s with
            world := rest, within := [], pending := { s.pending with external := left }, ioTrace := .ioir w :: s.ioTrace }
          t ∧
        t.spec 1 = w)

/-- R507, R539, R441: in kernel mode no source is accepted, the instruction runs as at a quiet boundary; and the pause goes
on as long as no interrupt ends it. -/
def Obligations.InterruptsHeldOff : Prop :=
  (∀ (s : State) (accept : Option Source) (within : List (List MemoryEvent)) (rest : List Boundary),
      s.world = { events := [], accept := accept, parityFetch := none, within := within } :: rest →
      s.pc.toNat % 2 = 0 → s.mode = .kernel → s.paused = false →
        step s = runInstruction none { s with world := rest, within := within }) ∧
    (∀ s : State, Quiet { s with paused := false } → s.pc.toNat % 2 = 0 → s.paused = true → step s = .next s)

/-- R10, R541, R546: the millisecond tick. The word it counts in is the process clock of the PCB, or with SR14 = 1 the clock tick while
paused count; both timer counts go down by one, the time of day up by a million, and a negative count makes its interrupt
pending. Stated for a whole tick where the clock word is none of the other words. With SR11 no multiple of 4, the CCB
outside real memory, or SR14 neither 1 nor a multiple of 4, its first access is refused (U41, U42). R96, R131: it is ten accesses of one word each, which may fall anywhere; a word is written from what was read of
it, whatever was stored there since. That it may fall apart is log 11 (DEDUCED), the order of the two words of the time of day
and the address kept between the read and the write of a word too (DESIGN CHOICE), the byte order log 1 (DEDUCED). -/
def Obligations.MillisecondTick : Prop :=
  (∀ (s : State) (ccb clock : Word), s.tickStage = .idle →
    ccb = s.spec 11 → ccb.toNat % 4 = 0 →
    (∀ w ∈ [ccb + 0x440, ccb + 0x444, ccb + 0x448, ccb + 0x44C, clock], s.backed w.toNat 4 = true) →
    clock ∉ [ccb + 0x440, ccb + 0x444, ccb + 0x448, ccb + 0x44C] →
    (s.spec 14 = 1 → clock = ccb + 0x43C) →
    (s.spec 14 ≠ 1 → (s.spec 14).toNat % 4 = 0 ∧ clock = s.spec 14 + Config.pcbLayout.clock) →
      ∃ t, applyEvent .tick s = .ok () t ∧ t.wordAt clock.toNat = s.wordAt clock.toNat + 1 ∧
        t.wordAt (ccb + 0x448).toNat ++ t.wordAt (ccb + 0x44C).toNat =
          (s.wordAt (ccb + 0x448).toNat ++ s.wordAt (ccb + 0x44C).toNat : Double) + 1000000 ∧
        t.wordAt (ccb + 0x440).toNat = s.wordAt (ccb + 0x440).toNat - 1 ∧
        t.wordAt (ccb + 0x444).toNat = s.wordAt (ccb + 0x444).toNat - 1 ∧
        (t.pending.timer1 = true ↔ s.pending.timer1 = true ∨ (t.wordAt (ccb + 0x440).toNat).toInt < 0) ∧
        (t.pending.timer2 = true ↔ s.pending.timer2 = true ∨ (t.wordAt (ccb + 0x444).toNat).toInt < 0) ∧
        (∀ x, (∀ w ∈ [ccb + 0x440, ccb + 0x444, ccb + 0x448, ccb + 0x44C, clock], OutsideWord w x) →
          t.mem.read x = s.mem.read x) ∧
        t = { s with
          mem := t.mem, fetch := t.fetch,
          pending := { s.pending with timer1 := t.pending.timer1, timer2 := t.pending.timer2 } }) ∧
    (∀ s : State, s.tickStage = .idle →
      ((s.spec 11).toNat % 4 ≠ 0 ∨ s.installedAt (s.spec 11 + 0x44F).toNat = false →
        applyEvent .tick s = .refused .ccbUnusable ∧ applyMemoryEvent .tickAccess s = .refused .ccbUnusable) ∧
      ((s.spec 11).toNat % 4 = 0 → s.installedAt (s.spec 11 + 0x44F).toNat = true → s.spec 14 ≠ 1 →
        (s.spec 14).toNat % 4 ≠ 0 →
          applyEvent .tick s = .refused .pcbMisaligned ∧ applyMemoryEvent .tickAccess s = .refused .pcbMisaligned)) ∧
    (∀ (s : State) (ccb : Word), ccb = s.spec 11 → ccb.toNat % 4 = 0 → s.installedAt (ccb + 0x44F).toNat = true →
      (s.tickStage = .idle → s.spec 14 = 1 → TickReads (ccb + 0x43C) (.clockRead (ccb + 0x43C)) s) ∧
      (∀ w, s.tickStage = .idle → s.spec 14 ≠ 1 → (s.spec 14).toNat % 4 = 0 → w = s.spec 14 + Config.pcbLayout.clock →
        TickReads w (.clockRead w) s) ∧
      (s.tickStage = .clockCounted → TickReads (ccb + 0x448) (.highRead (ccb + 0x448)) s) ∧
      (s.tickStage = .timeCounted → TickReads (ccb + 0x440) (.timer1Read (ccb + 0x440)) s) ∧
      (∀ t1, s.tickStage = .timer1Counted t1 → TickReads (ccb + 0x444) (.timer2Read t1 (ccb + 0x444)) s)) ∧
    (∀ (s : State) (a v v1 : Word) (d : Double),
      (s.tickStage = .clockRead a v → TickWrites a (v + 1) s { s with tickStage := .clockCounted }) ∧
      (s.tickStage = .highRead a v → TickReads (a + 4) (fun low => .timeRead a (v ++ low)) s) ∧
      (s.tickStage = .timeRead a d →
        TickWrites a ((d + 1000000).extractLsb' 32 32) s
          { s with tickStage := .highWritten a ((d + 1000000).extractLsb' 0 32) }) ∧
      (s.tickStage = .highWritten a v → TickWrites (a + 4) v s { s with tickStage := .timeCounted }) ∧
      (s.tickStage = .timer1Read a v → TickWrites a (v - 1) s { s with tickStage := .timer1Counted (v - 1) }) ∧
      (s.tickStage = .timer2Read v1 a v →
        TickWrites a (v - 1) s { s with
          tickStage := .idle,
          pending := { s.pending with
            timer1 := s.pending.timer1 || decide (v1.toInt < 0),
            timer2 := s.pending.timer2 || decide ((v - 1).toInt < 0) } }))

/-- R10, R206, R525, R526, R550: parity errors. One the fetch-ahead unit meets at an address that is none of the six from the pc is
taken before the instruction, with the address in SR3; one among them when the fetch comes to it, in address order with a page
fault of the instruction's bytes. One that a load or a store meets is taken by it, in both modes, with the effective address in
SR3; the load's destination may then hold anything, the store stores nothing. When such an error is met is log 30 (DESIGN
CHOICE), that a store meets one log 50 (DEDUCED), the order of the checks, and that an error is met also where no memory is, log
33 (DEDUCED, and DESIGN CHOICE), the pc of the code forms log 4 and the wrap of address sums log 29 (both DEDUCED), what fetching
notes logs 15 and 56 (DESIGN CHOICE). -/
def Obligations.ParityErrors : Prop :=
  (∀ (s u : State) (a : Word) (rest : List Boundary),
    s.world = { events := [], accept := none, parityFetch := some a, within := [] } :: rest → s.pc.toNat % 2 = 0 →
    s.paused = false → u = { s with world := rest, within := [] } →
      (6 ≤ (a - s.pc).toNat → s.ccbUsable 0x408 = true →
        ∃ t, step s = .next t ∧ Entered (.parityCodeFetch a) s.pc u t ∧ t.spec 3 = a) ∧
      ((a - s.pc).toNat < 6 → s.mode = .kernel → s.pc.toNat + 6 ≤ 2 ^ 32 → s.backed s.pc.toNat 6 = true →
        s.ccbUsable 0x408 = true →
          ∃ u1 t, u1 = { u with fetch := u1.fetch, draws := u1.draws } ∧ step s = .next t ∧
            Entered (.parityCodeFetch a) s.pc u1 t ∧ t.spec 3 = a) ∧
      (∀ (rp : Page) (u1 : State), (a - s.pc).toNat < 6 → s.mode = .user → s.pc.toNat + 6 ≤ 2 ^ 32 →
        pageOf a = pageOf s.pc → Maps .code (s.spec 8) s.pc rp u u1 →
        s.backed (realAddress rp s.pc).toNat (a - s.pc).toNat = true → s.ccbUsable 0x408 = true →
          ∃ u2 t, u2 = { u1 with fetch := u2.fetch, accessed := u2.accessed, draws := u2.draws } ∧ step s = .next t ∧
            Entered (.parityCodeFetch a) s.pc u2 t ∧ t.spec 3 = a ∧ t.spec 15 = s.pc) ∧
      ((a - s.pc).toNat < 6 → s.mode = .user → tmtFind s.codeTmt (pageOf s.pc) = none → Finds (s.spec 8) s.pc none u →
        s.ccbUsable 0x410 = true →
          ∃ f t, step s = .next t ∧ Entered (.pageFault (s.spec 8) f) s.pc u.dropAhead t) ∧
      (∀ (k n : Nat) (u1 : State), k ≤ (a - s.pc).toNat → (a - s.pc).toNat < 6 → TailMissing k n u u1 →
        s.ccbUsable 0x410 = true → ∃ t, step s = .next t ∧ TailFaulted k n u u1 t)) ∧
    (∀ (s : State) (r rx : Reg) (d : Half) (w : Word), s.mode = .kernel → s.parityData = true → CanEnter 0x40C s →
      ∀ n ∈ [1, 2, 4, 8],
      (∀ f ∈ loadForms n r rx d w s, f.2.2.2.toNat % n = 0 →
        ∃ s1 t, OnlyRegsDrawing (loadedRegs n r) { s with parityData := false } s1 ∧ exec f.2.1 s = .next t ∧
          Entered (.parityExecute f.2.2.2) s.pc s1 t ∧ t.spec 3 = f.2.2.2) ∧
      (∀ f ∈ storeForms n r rx d w s, f.2.2.toNat % n = 0 →
        ∃ t, exec f.1 s = .next t ∧ Entered (.parityExecute f.2.2) s.pc { s with parityData := false } t ∧
          t.spec 3 = f.2.2)) ∧
    (∀ (s : State) (r rx : Reg) (d : Half) (w : Word), s.mode = .user → s.parityData = true → CanEnter 0x40C s →
      ∀ n ∈ [1, 2, 4, 8],
      (∀ f ∈ loadForms n r rx d w s, ∀ (rp : Page) (s1 : State), f.2.2.2.toNat % n = 0 →
        Maps f.1 (if f.1 = .code then s.spec 8 else s.spec 9) f.2.2.2 rp s s1 →
          ∃ s2 s3 t, s2 = { s1 with parityData := false, accessed := s2.accessed } ∧
            OnlyRegsDrawing (loadedRegs n r) s2 s3 ∧ exec f.2.1 s = .next t ∧
            Entered (.parityExecute f.2.2.2) s.pc s3 t ∧ t.spec 3 = f.2.2.2 ∧ t.spec 15 = s.pc) ∧
      (∀ f ∈ storeForms n r rx d w s, ∀ (rp : Page) (s1 : State), f.2.2.toNat % n = 0 →
        Maps .data (s.spec 9) f.2.2 rp s s1 →
          ∃ s2 t, s2 = { s1 with parityData := false, accessed := s2.accessed } ∧ exec f.1 s = .next t ∧
            Entered (.parityExecute f.2.2) s.pc s2 t ∧ t.spec 3 = f.2.2 ∧ t.spec 15 = s.pc))

/-! ## Reset and invariants -/

/-- The model's own choices (logs 5, 6, 7): after reset the mode is kernel, nothing pauses, every register is 0, nothing is
pending, no tick is under way, no translation or old byte is held and no byte of memory is listed. The spec gives no reset value
(R62). -/
def Obligations.ResetValues : Prop :=
  State.reset.mode = .kernel ∧ State.reset.paused = false ∧ State.reset.pc = 0 ∧ (∀ r, State.reset.reg r = 0) ∧
    (∀ k, State.reset.spec k = 0) ∧ State.reset.mem = [] ∧ State.reset.codeTmt = [] ∧ State.reset.dataTmt = [] ∧
    State.reset.accessed = [] ∧ State.reset.pending = .none ∧ State.reset.fetch = .empty ∧ State.reset.tickStage = .idle ∧
    (∀ a < 2 ^ 32, State.reset.installedAt a = true)

/-- The state after reset meets the invariant that every step keeps. -/
def Obligations.ResetHasInvariant : Prop := State.reset.Inv

/-- Every step from a state that meets the invariant gives one that meets it, if it gives a next state: memory stays
canonical and within real memory, the TMT within sixteen entries a half with one a page (R110), the error log in order, one
request a device, the pause in kernel mode (R441), at most two instructions ahead (R140). How the TMT is kept is log
12 (DESIGN CHOICE). -/
def Obligations.StepKeepsInvariant : Prop := ∀ s t : State, s.Inv → step s = .next t → t.Inv

/-- R41, R502: no instruction that stays in user mode changes a special register, privileged or not; nor the pending
interrupts, but for the timers of a tick that ends within it (R131), or which memory is installed. -/
def Obligations.UserModeKeepsSpecialRegisters : Prop :=
  ∀ (i : Instr) (s t : State), s.mode = .user → exec i s = .next t → t.mode = .user →
    (∀ k, t.spec k = s.spec k) ∧ (Alone s → t.pending = s.pending) ∧
      t.pending = { s.pending with timer1 := t.pending.timer1, timer2 := t.pending.timer2 } ∧ t.installed = s.installed ∧
      t.paused = s.paused

/-- R501: RUM with SR14 not 1 is the only instruction that goes from kernel mode to user mode, and it goes to SR15. -/
def Obligations.OnlyRumEntersUserMode : Prop :=
  ∀ (i : Instr) (s t : State), s.mode = .kernel → exec i s = .next t → t.mode = .user →
    (∃ r1 r2, i = .rum r1 r2) ∧ s.spec 14 ≠ 1 ∧ t.pc = s.spec 15

/-! ## Integer, logical and extended instructions -/

/-- R250 to R254, R320, R321, R324: the logical instructions and moves. -/
def Obligations.LogicalInstructions : Prop :=
  ∀ (s : State) (r1 r2 : Reg), s.pc.toNat + 2 < 2 ^ 32 →
    Writes (.move r1 r2) 2 r1 (s.reg r2) s ∧ Writes (.not r1 r2) 2 r1 (~~~(s.reg r2)) s ∧
    Writes (.and r1 r2) 2 r1 (s.reg r1 &&& s.reg r2) s ∧ Writes (.or r1 r2) 2 r1 (s.reg r1 ||| s.reg r2) s ∧
    Writes (.xor r1 r2) 2 r1 (s.reg r1 ^^^ s.reg r2) s ∧ Writes (.movei r1 r2) 2 r1 (BitVec.ofNat 32 r2.toNat) s ∧
    Writes (.noti r1 r2) 2 r1 (BitVec.ofInt 32 (-(r2.toNat : Int) - 1)) s ∧
    Writes (.andi r1 r2) 2 r1 (s.reg r1 &&& BitVec.ofNat 32 r2.toNat) s

/-- R237, R238, R241 to R243, R322, R323, R325, R529: the exact result, modulo 2^32, is written whether or not it overflows; the
overflow trap follows if it is enabled. The bit and the code 16 are log 17 (DEDUCED), the same result with the trap off log 32
(DEDUCED). -/
def Obligations.AddSubtractMultiply : Prop :=
  ∀ (s : State) (r1 r2 : Reg),
    ArithmeticResult (.add r1 r2) r1 ((s.reg r1).toInt + (s.reg r2).toInt) s ∧
    ArithmeticResult (.sub r1 r2) r1 ((s.reg r1).toInt - (s.reg r2).toInt) s ∧
    ArithmeticResult (.mpy r1 r2) r1 ((s.reg r1).toInt * (s.reg r2).toInt) s ∧
    ArithmeticResult (.addi r1 r2) r1 ((s.reg r1).toInt + r2.toNat) s ∧
    ArithmeticResult (.subi r1 r2) r1 ((s.reg r1).toInt - r2.toNat) s ∧
    ArithmeticResult (.mpyi r1 r2) r1 ((s.reg r1).toInt * r2.toNat) s

/-- R240: NEG, and that the one value with no negative leaves the register as it was. The bit and the code 16 are log 17
(DEDUCED). -/
def Obligations.Negate : Prop :=
  ∀ (s : State) (r1 r2 : Reg),
    (s.pc.toNat + 2 < 2 ^ 32 → s.reg r2 ≠ 0x80000000 → Writes (.neg r1 r2) 2 r1 (0 - s.reg r2) s) ∧
    (s.reg r2 = 0x80000000 → UnchangedEnd (.neg r1 r2) 16 s)

/-- R244, R245: quotient and remainder by their defining equation, the remainder smaller than the divisor and of the sign of
the dividend; the two cases that leave the register as it was. The bits and codes 16 and 17 are log 17 (DEDUCED). -/
def Obligations.DivideRemainder : Prop :=
  ∀ (s : State) (r1 r2 : Reg),
    ((s.reg r2).toInt ≠ 0 → ¬((s.reg r1).toInt = -(2 ^ 31) ∧ (s.reg r2).toInt = -1) → s.pc.toNat + 2 < 2 ^ 32 →
      ∃ q m : Int, (s.reg r1).toInt = q * (s.reg r2).toInt + m ∧ |m| < |(s.reg r2).toInt| ∧
        (0 ≤ (s.reg r1).toInt → 0 ≤ m) ∧ ((s.reg r1).toInt ≤ 0 → m ≤ 0) ∧ Fits q ∧
        Writes (.div r1 r2) 2 r1 (BitVec.ofInt 32 q) s ∧ Writes (.rem r1 r2) 2 r1 (BitVec.ofInt 32 m) s) ∧
    ((s.reg r2).toInt = 0 → UnchangedEnd (.div r1 r2) 17 s ∧ UnchangedEnd (.rem r1 r2) 17 s) ∧
    ((s.reg r1).toInt = -(2 ^ 31) → (s.reg r2).toInt = -1 →
      UnchangedEnd (.div r1 r2) 16 s ∧ UnchangedEnd (.rem r1 r2) 16 s)

/-- R260 to R263: EADD and ESUB with the carry in register 0; ESUB's carry is one of the two candidates (log 25); with
R1 = 0 both are refused. -/
def Obligations.ExtendedAddSubtract : Prop :=
  (∀ (s : State) (r1 r2 : Reg), r1 ≠ 0 → s.pc.toNat + 2 < 2 ^ 32 →
      (∃ t, exec (.eadd r1 r2) s = .next t ∧ t.reg r1 = s.reg r1 + s.reg r2 ∧
        t.reg 0 = (if 2 ^ 32 ≤ (s.reg r1).toNat + (s.reg r2).toNat then 1 else 0) ∧ t.pc = s.pc + 2 ∧
        OnlyRegs [r1, 0] s t) ∧
      (∃ t, exec (.esub r1 r2) s = .next t ∧ t.reg r1 = s.reg r1 - s.reg r2 ∧
        t.reg 0 = (if Config.esubCarryIsBorrow then (if (s.reg r1).toNat < (s.reg r2).toNat then 1 else 0)
          else (if (s.reg r2).toNat ≤ (s.reg r1).toNat then 1 else 0)) ∧
        t.pc = s.pc + 2 ∧ OnlyRegs [r1, 0] s t)) ∧
    (∀ (s : State) (r2 : Reg), exec (.eadd 0 r2) s = .refused .carryRegisterConflict ∧
      exec (.esub 0 r2) s = .refused .carryRegisterConflict)

/-- R264, R265: the 64-bit product; quotient and remainder of the 64-bit dividend, the quotient that does not fit, and the
zero divisor, after which the second register of the pair may hold anything (U26). The bits and codes 16 and 17 are log 17,
that overlapping operands are read first is log 31 (both DEDUCED). -/
def Obligations.ExtendedMultiplyDivide : Prop :=
  ∀ (s : State) (r1 r2 : Reg) (n d : Nat), n = (s.reg r1).toNat * 2 ^ 32 + (s.reg (r1 + 1)).toNat → d = (s.reg r2).toNat →
    (s.pc.toNat + 2 < 2 ^ 32 →
      WritesPair (.empy r1 r2) 2 r1 (BitVec.ofNat 64 ((s.reg r1).toNat * (s.reg r2).toNat)) s) ∧
    (s.pc.toNat + 2 < 2 ^ 32 → d ≠ 0 → n / d < 2 ^ 32 →
      WritesPair (.ediv r1 r2) 2 r1 (BitVec.ofNat 32 (n / d) ++ BitVec.ofNat 32 (n % d)) s) ∧
    (d ≠ 0 → 2 ^ 32 ≤ n / d → UnchangedEnd (.ediv r1 r2) 16 s) ∧
    (d = 0 → ScrambledEnd (.ediv r1 r2) [r1 + 1] 17 s)

/-! ## Real numbers -/

/-- R283 P1, R289 to R294: where the operands are well-formed and a well-formed pattern has the exact result as its value,
the instruction gives that pattern; RNEG has R2 as its one operand, and the negation of zero is all bits zero (log 24,
DEDUCED). The places of a format's fields are log 22 (PRESUMED, R280). -/
def Obligations.RealArithmeticExact : Prop :=
  ∀ (s : State) (r1 r2 : Reg) (v : Word) (x y z : Rat), s.pc.toNat + 2 < 2 ^ 32 →
    realFormat.wellFormed (s.reg r2).toNat = true → realFormat.wellFormed v.toNat = true →
    x = realFormat.value (s.reg r1).toNat → y = realFormat.value (s.reg r2).toNat → z = realFormat.value v.toNat →
      (realFormat.wellFormed (s.reg r1).toNat = true →
        (z = x + y → Writes (.radd r1 r2) 2 r1 v s) ∧ (z = x - y → Writes (.rsub r1 r2) 2 r1 v s) ∧
        (z = x * y → Writes (.rmpy r1 r2) 2 r1 v s) ∧ (y ≠ 0 → z = x / y → Writes (.rdiv r1 r2) 2 r1 v s)) ∧
      (z = -y → Writes (.rneg r1 r2) 2 r1 v s)

/-- R283 P1, R299 to R304: the same for double reals in register pairs. The negation of zero is log 24 (DEDUCED), the places of
the fields are log 22 (PRESUMED, R281). -/
def Obligations.DoubleRealArithmeticExact : Prop :=
  ∀ (s : State) (r1 r2 : Reg) (v : Double) (x y z : Rat), s.pc.toNat + 2 < 2 ^ 32 →
    doubleFormat.wellFormed (s.pair r2).toNat = true → doubleFormat.wellFormed v.toNat = true →
    x = doubleFormat.value (s.pair r1).toNat → y = doubleFormat.value (s.pair r2).toNat →
    z = doubleFormat.value v.toNat →
      (doubleFormat.wellFormed (s.pair r1).toNat = true →
        (z = x + y → WritesPair (.dradd r1 r2) 2 r1 v s) ∧ (z = x - y → WritesPair (.drsub r1 r2) 2 r1 v s) ∧
        (z = x * y → WritesPair (.drmpy r1 r2) 2 r1 v s) ∧ (y ≠ 0 → z = x / y → WritesPair (.drdiv r1 r2) 2 r1 v s)) ∧
      (z = -y → WritesPair (.drneg r1 r2) 2 r1 v s)

/-- R283 P1 and P5, R295, R298, R305, R308: the conversions give the pattern whose value is the operand's, where there is
one. The places of the fields are log 22 (PRESUMED, R280, R281). -/
def Obligations.RealConversionsExact : Prop :=
  ∀ (s : State) (r1 r2 : Reg) (v : Word) (w : Double), s.pc.toNat + 2 < 2 ^ 32 →
    realFormat.wellFormed v.toNat = true → doubleFormat.wellFormed w.toNat = true →
      (realFormat.value v.toNat = ((s.reg r2).toInt : Rat) → Writes (.float r1 r2) 2 r1 v s) ∧
      (doubleFormat.value w.toNat = ((s.reg r2).toInt : Rat) → WritesPair (.dfloat r1 r2) 2 r1 w s) ∧
      (realFormat.wellFormed (s.reg r2).toNat = true →
        doubleFormat.value w.toNat = realFormat.value (s.reg r2).toNat → WritesPair (.makerd r1 r2) 2 r1 w s) ∧
      (doubleFormat.wellFormed (s.pair r2).toNat = true →
        realFormat.value v.toNat = doubleFormat.value (s.pair r2).toNat → Writes (.makedr r1 r2) 2 r1 v s)

/-- R283 P2 and P3, R296, R297, R306, R307: FIXT and DFIXT truncate toward zero, FIXR and DFIXR give a nearest integer; an
integer that does not fit leaves the register as it was. The places of the fields are log 22 (PRESUMED, R280, R281), the bit and
the code 16 log 17 (DEDUCED). -/
def Obligations.FixConversions : Prop :=
  ∀ (s : State) (r1 r2 : Reg),
    (realFormat.wellFormed (s.reg r2).toNat = true →
      (∃ n : Int, |realFormat.value (s.reg r2).toNat - n| < 1 ∧ |(n : Rat)| ≤ |realFormat.value (s.reg r2).toNat| ∧
        (Fits n → s.pc.toNat + 2 < 2 ^ 32 → Writes (.fixt r1 r2) 2 r1 (BitVec.ofInt 32 n) s) ∧
        (¬Fits n → UnchangedEnd (.fixt r1 r2) 16 s)) ∧
      (∃ n : Int, 2 * |realFormat.value (s.reg r2).toNat - n| ≤ 1 ∧
        (Fits n → s.pc.toNat + 2 < 2 ^ 32 → Writes (.fixr r1 r2) 2 r1 (BitVec.ofInt 32 n) s) ∧
        (¬Fits n → UnchangedEnd (.fixr r1 r2) 16 s))) ∧
    (doubleFormat.wellFormed (s.pair r2).toNat = true →
      (∃ n : Int, |doubleFormat.value (s.pair r2).toNat - n| < 1 ∧ |(n : Rat)| ≤ |doubleFormat.value (s.pair r2).toNat| ∧
        (Fits n → s.pc.toNat + 2 < 2 ^ 32 → Writes (.dfixt r1 r2) 2 r1 (BitVec.ofInt 32 n) s) ∧
        (¬Fits n → UnchangedEnd (.dfixt r1 r2) 16 s)) ∧
      (∃ n : Int, 2 * |doubleFormat.value (s.pair r2).toNat - n| ≤ 1 ∧
        (Fits n → s.pc.toNat + 2 < 2 ^ 32 → Writes (.dfixr r1 r2) 2 r1 (BitVec.ofInt 32 n) s) ∧
        (¬Fits n → UnchangedEnd (.dfixr r1 r2) 16 s)))

/-- R283 P4, R285, R289, R308: an exact result above the largest real gives that real with the sign of the result and the
overflow trap if enabled; one below the smallest gives zero and the underflow trap; a zero divisor leaves any value and the
divide by zero trap. MAKEDR of a double real outside that range takes the same traps and leaves any value (U24, log 55). The
largest real is one of two patterns (R282, log 23), the smallest is log 54 (DESIGN CHOICE), the places of the fields are log 22
(PRESUMED), the bits and codes 18 to 20 log 17 and the same results with the trap off log 32 (DEDUCED). -/
def Obligations.RealRangeEnds : Prop :=
  ∀ (s : State) (r1 r2 : Reg) (big : Word), big = (if Config.realTopReserved then 0x7F7FFFFF else 0x7FFFFFFF) →
    (∀ x y : Rat, realFormat.wellFormed (s.reg r1).toNat = true → realFormat.wellFormed (s.reg r2).toNat = true →
      x = realFormat.value (s.reg r1).toNat → y = realFormat.value (s.reg r2).toNat →
      (∀ (i : Instr) (z : Rat), (i, z) ∈ [(.radd r1 r2, x + y), (.rsub r1 r2, x - y), (.rmpy r1 r2, x * y)] ∨
          (y ≠ 0 ∧ (i, z) = (.rdiv r1 r2, x / y)) →
        (realFormat.value big.toNat < |z| → WrittenEnd i r1 (if z < 0 then big ||| 0x80000000 else big) 18 s) ∧
        (z ≠ 0 → |z| < realFormat.value 0x00800000 → WrittenEnd i r1 0 19 s)) ∧
      (y = 0 → ScrambledEnd (.rdiv r1 r2) [r1] 20 s)) ∧
    (∀ z : Rat, doubleFormat.wellFormed (s.pair r2).toNat = true → z = doubleFormat.value (s.pair r2).toNat →
      (realFormat.value big.toNat < |z| → ScrambledEnd (.makedr r1 r2) [r1] 18 s) ∧
      (z ≠ 0 → |z| < realFormat.value 0x00800000 → ScrambledEnd (.makedr r1 r2) [r1] 19 s))

/-- R283 P4, R285, R299: the same for double reals. The largest is log 23, the smallest log 54 (DESIGN CHOICE), the places of the
fields are log 22 (PRESUMED), the bits and codes 18 to 20 log 17 and the same results with the trap off log 32 (DEDUCED). -/
def Obligations.DoubleRealRangeEnds : Prop :=
  ∀ (s : State) (r1 r2 : Reg) (x y : Rat) (big : Double),
    big = (if Config.doubleTopReserved then 0x7FEFFFFFFFFFFFFF else 0x7FFFFFFFFFFFFFFF) →
    doubleFormat.wellFormed (s.pair r1).toNat = true → doubleFormat.wellFormed (s.pair r2).toNat = true →
    x = doubleFormat.value (s.pair r1).toNat → y = doubleFormat.value (s.pair r2).toNat →
    (∀ (i : Instr) (z : Rat), (i, z) ∈ [(.dradd r1 r2, x + y), (.drsub r1 r2, x - y), (.drmpy r1 r2, x * y)] ∨
        (y ≠ 0 ∧ (i, z) = (.drdiv r1 r2, x / y)) →
      (doubleFormat.value big.toNat < |z| →
        WrittenPairEnd i r1 (if z < 0 then big ||| 0x8000000000000000 else big) 18 s) ∧
      (z ≠ 0 → |z| < doubleFormat.value 0x0010000000000000 → WrittenPairEnd i r1 0 19 s)) ∧
    (y = 0 → ScrambledEnd (.drdiv r1 r2) [r1, r1 + 1] 20 s)

/-- R237, R284 (log 32): with the traps of the traps word disabled every real instruction goes on to the next one whatever its
operands are, and changes no register but its destination. -/
def Obligations.RealInstructionsComplete : Prop :=
  ∀ (s : State) (r1 r2 : Reg), s.pc.toNat + 2 < 2 ^ 32 → ¬TrapOn 16 s → ¬TrapOn 18 s → ¬TrapOn 19 s → ¬TrapOn 20 s →
    (∀ i ∈ [Instr.rneg r1 r2, .radd r1 r2, .rsub r1 r2, .rmpy r1 r2, .rdiv r1 r2, .float r1 r2, .fixt r1 r2, .fixr r1 r2,
        .dfixt r1 r2, .dfixr r1 r2, .makedr r1 r2, .rcomp r1 r2, .drcomp r1 r2],
      ∃ t, exec i s = .next t ∧ t.pc = s.pc + 2 ∧ OnlyRegsDrawing [r1] s t) ∧
    (∀ i ∈ [Instr.drneg r1 r2, .dradd r1 r2, .drsub r1 r2, .drmpy r1 r2, .drdiv r1 r2, .dfloat r1 r2, .makerd r1 r2],
      ∃ t, exec i s = .next t ∧ t.pc = s.pc + 2 ∧ OnlyRegsDrawing [r1, r1 + 1] s t)

/-! ## Bits, checks, traps, tests, compares -/

/-- R329 to R332: bit n of a pair, counted from the most significant, is tested, set, cleared; a number above 63 is
refused. -/
def Obligations.BitInstructions : Prop :=
  ∀ (s : State) (r1 r2 : Reg) (n : Nat), n = (s.reg r2).toNat →
    (n ≤ 63 → s.pc.toNat + 2 < 2 ^ 32 →
      Writes (.tbit r1 r2) 2 r1 (if (s.pair r1).getMsbD n then 1 else 0) s ∧
      (∃ t, exec (.sbit r1 r2) s = .next t ∧ t.pc = s.pc + 2 ∧ OnlyRegs [r1, r1 + 1] s t ∧
        ∀ k < 64, (t.pair r1).getMsbD k = if k = n then true else (s.pair r1).getMsbD k) ∧
      (∃ t, exec (.cbit r1 r2) s = .next t ∧ t.pc = s.pc + 2 ∧ OnlyRegs [r1, r1 + 1] s t ∧
        ∀ k < 64, (t.pair r1).getMsbD k = if k = n then false else (s.pair r1).getMsbD k)) ∧
    (63 < n → ∀ i ∈ [Instr.tbit r1 r2, .sbit r1 r2, .cbit r1 r2], exec i s = .refused .bitNumberOutOfRange)

/-- R335, R336, R528: CHK and CHKI do nothing within the range; outside it they trap with the fields in SR2 and SR3.
That CHK compares signed is log 27, that the check trap is at 0x418 log 18 (both DEDUCED). -/
def Obligations.CheckInstructions : Prop :=
  ∀ (s : State) (r1 r2 : Reg),
    ((s.reg r1).toInt ≤ (s.reg r2).toInt → s.pc.toNat + 2 < 2 ^ 32 → Goes (.chk r1 r2) (s.pc + 2) s) ∧
    ((s.reg r2).toInt < (s.reg r1).toInt → CanEnter 0x418 s → Raises (.chk r1 r2) (.check r1 r2) s) ∧
    (0 ≤ (s.reg r1).toInt → (s.reg r1).toInt ≤ r2.toNat → s.pc.toNat + 2 < 2 ^ 32 → Goes (.chki r1 r2) (s.pc + 2) s) ∧
    ((s.reg r1).toInt < 0 ∨ (r2.toNat : Int) < (s.reg r1).toInt → CanEnter 0x418 s →
      Raises (.chki r1 r2) (.check r1 r2) s)

/-- R337: TRAP does nothing with its bit of the traps word off, and else traps with its R2 field as the code. -/
def Obligations.TrapInstruction : Prop := ∀ (s : State) (r1 r2 : Reg), UnchangedEnd (.trap r1 r2) r2.toNat s

/-- R338, R531: KCALL from user mode goes to entry n of the CCB with SR15 past the instruction, SR0 = 1 and SR1 = n; in
kernel mode it is a kernel violation. That SR1 = n is log 53 (DEDUCED, R522). -/
def Obligations.KernelCall : Prop :=
  ∀ (s : State) (n : BitVec 8),
    (s.mode = .user → CanEnter (4 * n.toNat) s →
      ∃ t, exec (.kcall n) s = .next t ∧ Entered (.kcall n) (s.pc + 2) s t ∧ t.spec 15 = s.pc + 2 ∧ t.spec 0 = 1 ∧
        t.spec 1 = BitVec.ofNat 32 n.toNat ∧ t.pc = s.wordAt ((s.spec 11).toNat + 4 * n.toNat)) ∧
    (s.mode = .kernel → CanEnter 0x414 s →
      Raises (.kcall n) (.kernelViolation 0x5B (n.extractLsb' 4 4) (n.extractLsb' 0 4)) s)

/-- R345 to R347: TEST and TESTI put the truth of a signed relation into R1. -/
def Obligations.TestInstructions : Prop :=
  ∀ (s : State) (r1 r2 : Reg) (a b m : Int), s.pc.toNat + 2 < 2 ^ 32 → a = (s.reg r1).toInt → b = (s.reg r2).toInt →
    m = r2.toNat →
    Writes (.testGt r1 r2) 2 r1 (if b < a then 1 else 0) s ∧ Writes (.testLt r1 r2) 2 r1 (if a < b then 1 else 0) s ∧
    Writes (.testEq r1 r2) 2 r1 (if a = b then 1 else 0) s ∧ Writes (.testLe r1 r2) 2 r1 (if a ≤ b then 1 else 0) s ∧
    Writes (.testGe r1 r2) 2 r1 (if b ≤ a then 1 else 0) s ∧ Writes (.testNe r1 r2) 2 r1 (if a = b then 0 else 1) s ∧
    Writes (.testiGt r1 r2) 2 r1 (if m < a then 1 else 0) s ∧ Writes (.testiLt r1 r2) 2 r1 (if a < m then 1 else 0) s ∧
    Writes (.testiEq r1 r2) 2 r1 (if a = m then 1 else 0) s ∧ Writes (.testiLe r1 r2) 2 r1 (if a ≤ m then 1 else 0) s ∧
    Writes (.testiGe r1 r2) 2 r1 (if m ≤ a then 1 else 0) s ∧ Writes (.testiNe r1 r2) 2 r1 (if a = m then 0 else 1) s

/-- R350 to R353: the compare instructions put -1, 0 or 1 into R1: signed 64-bit, unsigned 32-bit, and for well-formed reals
by their values. The places of the real formats' fields are log 22 (PRESUMED, R280, R281). -/
def Obligations.CompareInstructions : Prop :=
  ∀ (s : State) (r1 r2 : Reg), s.pc.toNat + 2 < 2 ^ 32 →
    Writes (.dcomp r1 r2) 2 r1 (if (s.pair r1).toInt < (s.pair r2).toInt then 0xFFFFFFFF
      else if (s.pair r1).toInt = (s.pair r2).toInt then 0 else 1) s ∧
    Writes (.lcomp r1 r2) 2 r1 (if (s.reg r1).toNat < (s.reg r2).toNat then 0xFFFFFFFF
      else if (s.reg r1).toNat = (s.reg r2).toNat then 0 else 1) s ∧
    (realFormat.wellFormed (s.reg r1).toNat = true → realFormat.wellFormed (s.reg r2).toNat = true →
      Writes (.rcomp r1 r2) 2 r1 (if realFormat.value (s.reg r1).toNat < realFormat.value (s.reg r2).toNat then 0xFFFFFFFF
        else if realFormat.value (s.reg r1).toNat = realFormat.value (s.reg r2).toNat then 0 else 1) s) ∧
    (doubleFormat.wellFormed (s.pair r1).toNat = true → doubleFormat.wellFormed (s.pair r2).toNat = true →
      Writes (.drcomp r1 r2) 2 r1
        (if doubleFormat.value (s.pair r1).toNat < doubleFormat.value (s.pair r2).toNat then 0xFFFFFFFF
        else if doubleFormat.value (s.pair r1).toNat = doubleFormat.value (s.pair r2).toNat then 0 else 1) s)

/-! ## Shifts, sign extension, NOP -/

/-- R360, R370 to R375, R380 to R383: the circular and logical shifts, by the low 5 or 6 bits of a register or by the R2
field. -/
def Obligations.LogicalShifts : Prop :=
  ∀ (s : State) (r1 r2 : Reg) (c5 c6 m a p : Nat), s.pc.toNat + 2 < 2 ^ 32 → c5 = (s.reg r2).toNat % 32 →
    c6 = (s.reg r2).toNat % 64 → m = r2.toNat → a = (s.reg r1).toNat →
    p = (s.reg r1).toNat * 2 ^ 32 + (s.reg (r1 + 1)).toNat →
    Writes (.lsl r1 r2) 2 r1 (BitVec.ofNat 32 (a * 2 ^ c5)) s ∧ Writes (.lsli r1 r2) 2 r1 (BitVec.ofNat 32 (a * 2 ^ m)) s ∧
    Writes (.lsr r1 r2) 2 r1 (BitVec.ofNat 32 (a / 2 ^ c5)) s ∧ Writes (.lsri r1 r2) 2 r1 (BitVec.ofNat 32 (a / 2 ^ m)) s ∧
    Writes (.csl r1 r2) 2 r1 (BitVec.ofNat 32 (a * 2 ^ c5 + a / 2 ^ (32 - c5))) s ∧
    Writes (.csli r1 r2) 2 r1 (BitVec.ofNat 32 (a * 2 ^ m + a / 2 ^ (32 - m))) s ∧
    WritesPair (.dlsl r1 r2) 2 r1 (BitVec.ofNat 64 (p * 2 ^ c6)) s ∧
    WritesPair (.dlsli r1 r2) 2 r1 (BitVec.ofNat 64 (p * 2 ^ m)) s ∧
    WritesPair (.dlsr r1 r2) 2 r1 (BitVec.ofNat 64 (p / 2 ^ c6)) s ∧
    WritesPair (.dlsri r1 r2) 2 r1 (BitVec.ofNat 64 (p / 2 ^ m)) s

/-- R376 to R379: ASR divides by a power of two toward minus infinity. ASL multiplies by one where the product fits; else
it keeps the sign and shifts the 31 bits below it, with the overflow trap if it is enabled. The value written on overflow is
log 32, the bit and the code 16 are log 17 (both DEDUCED). -/
def Obligations.ArithmeticShifts : Prop :=
  ∀ (s : State) (r1 r2 : Reg) (n : Nat) (left right : Instr) (v : Word),
    (n = (s.reg r2).toNat % 32 ∧ left = .asl r1 r2 ∧ right = .asr r1 r2) ∨
      (n = r2.toNat ∧ left = .asli r1 r2 ∧ right = .asri r1 r2) →
    v.msb = (s.reg r1).msb → v.toNat % 2 ^ 31 = (s.reg r1).toNat * 2 ^ n % 2 ^ 31 →
    (s.pc.toNat + 2 < 2 ^ 32 → Writes right 2 r1 (BitVec.ofInt 32 ((s.reg r1).toInt / 2 ^ n)) s) ∧
    (s.pc.toNat + 2 < 2 ^ 32 → Fits ((s.reg r1).toInt * 2 ^ n) →
      Writes left 2 r1 (BitVec.ofInt 32 ((s.reg r1).toInt * 2 ^ n)) s) ∧
    (¬Fits ((s.reg r1).toInt * 2 ^ n) → WrittenEnd left r1 v 16 s)

/-- R385, R386, R390: the sign extensions, and NOP, whose fields are ignored (log 36, DEDUCED). -/
def Obligations.SignExtensionAndNop : Prop :=
  ∀ (s : State) (r1 r2 : Reg), s.pc.toNat + 2 < 2 ^ 32 →
    Writes (.seb r1 r2) 2 r1 (BitVec.ofInt 32 (((s.reg r2).toInt + 128) % 256 - 128)) s ∧
    Writes (.seh r1 r2) 2 r1 (BitVec.ofInt 32 (((s.reg r2).toInt + 32768) % 65536 - 32768)) s ∧
    Goes (.nop r1 r2) (s.pc + 2) s

/-! ## Branches -/

/-- R401, R403, R404: the compare and branch instructions in their short and long forms. That the displacement's low bit takes
no part in the target is log 41, that the target wraps log 29 (both DEDUCED). -/
def Obligations.ConditionalBranches : Prop :=
  ∀ (s : State) (r1 r2 : Reg) (d : Half) (w : Word) (a b m : Int) (short long : Word), a = (s.reg r1).toInt →
    b = (s.reg r2).toInt → m = r2.toNat → short = targetOf s.pc d.toInt → long = targetOf s.pc w.toInt →
    Branches (.brGt r1 r2 d) 4 (b < a) short s ∧ Branches (.brGtL r1 r2 w) 6 (b < a) long s ∧
    Branches (.brEq r1 r2 d) 4 (a = b) short s ∧ Branches (.brEqL r1 r2 w) 6 (a = b) long s ∧
    Branches (.brLe r1 r2 d) 4 (a ≤ b) short s ∧ Branches (.brLeL r1 r2 w) 6 (a ≤ b) long s ∧
    Branches (.brNe r1 r2 d) 4 (a ≠ b) short s ∧ Branches (.brNeL r1 r2 w) 6 (a ≠ b) long s ∧
    Branches (.briGt r1 r2 d) 4 (m < a) short s ∧ Branches (.briGtL r1 r2 w) 6 (m < a) long s ∧
    Branches (.briLt r1 r2 d) 4 (a < m) short s ∧ Branches (.briLtL r1 r2 w) 6 (a < m) long s ∧
    Branches (.briEq r1 r2 d) 4 (a = m) short s ∧ Branches (.briEqL r1 r2 w) 6 (a = m) long s ∧
    Branches (.briLe r1 r2 d) 4 (a ≤ m) short s ∧ Branches (.briLeL r1 r2 w) 6 (a ≤ m) long s ∧
    Branches (.briGe r1 r2 d) 4 (m ≤ a) short s ∧ Branches (.briGeL r1 r2 w) 6 (m ≤ a) long s ∧
    Branches (.briNe r1 r2 d) 4 (a ≠ m) short s ∧ Branches (.briNeL r1 r2 w) 6 (a ≠ m) long s

/-- R401, R402, R410 to R412, R415: unconditional branch, call, register call, return, and loop. That the old register values
are the operands is log 31, the target's low bit log 41, its wrap and that of LOOP's sum log 29 (all DEDUCED). -/
def Obligations.BranchesCallsAndLoops : Prop :=
  ∀ (s : State) (r1 r2 : Reg) (d : Half) (w : Word) (v short long : Word), v = s.reg r1 + BitVec.ofNat 32 r2.toNat →
    short = targetOf s.pc d.toInt → long = targetOf s.pc w.toInt →
    Goes (.br r1 r2 d) short s ∧ Goes (.brL r1 r2 w) long s ∧
    Links (.call r1 r2 d) r1 (s.pc + 4) short s ∧ Links (.callL r1 r2 w) r1 (s.pc + 6) long s ∧
    Links (.callr r1 r2) r1 (s.pc + 2) (s.pc + s.reg r2) s ∧ Links (.ret r1 r2) r1 (s.pc + 2) (s.reg r2) s ∧
    (v.toInt < 0 → Links (.loop r1 r2 d) r1 v short s ∧ Links (.loopL r1 r2 w) r1 v long s) ∧
    (0 ≤ v.toInt → s.pc.toNat + 4 < 2 ^ 32 → Links (.loop r1 r2 d) r1 v (s.pc + 4) s) ∧
    (0 ≤ v.toInt → s.pc.toNat + 6 < 2 ^ 32 → Links (.loopL r1 r2 w) r1 v (s.pc + 6) s)

/-! ## Memory reference -/

/-- R88, R96, R201 to R205, R210 to R214: every load in kernel mode, in its eight forms, from an aligned address with memory:
the bytes, most significant first, go into the register zero-extended, or into the pair. The pc in a code segment address is
log 4, the wrap of address sums log 29, the byte order log 1 (all DEDUCED). R96, R131: LOADD reads its two words one after the
other, each after what other agents do before it, one event after the other; a byte that a device writes there is read, and an
access of the millisecond tick may fall there (MillisecondTick says what it does): the order of the two words is log 58 (DESIGN
CHOICE). An access outside real memory stops with the fault (R94). -/
def Obligations.LoadsInKernelMode : Prop :=
  ∀ (s : State) (r rx : Reg) (d : Half) (w : Word), s.mode = .kernel → s.parityData = false →
    (Alone s → ∀ n ∈ [1, 2, 4, 8], ∀ f ∈ loadForms n r rx d w s, s.pc.toNat + f.2.2.1 < 2 ^ 32 →
      f.2.2.2.toNat % n = 0 → s.backed f.2.2.2.toNat n = true →
        ∃ t, exec f.2.1 s = .next t ∧ t.pc = s.pc + BitVec.ofNat 32 f.2.2.1 ∧ Loaded n f.2.2.2.toNat r s t ∧
          OnlyRegs (loadedRegs n r) s t) ∧
    (Alone s → ∀ n ∈ [1, 2, 4, 8], ∀ f ∈ loadForms n r rx d w s, f.2.2.2.toNat % n = 0 →
      s.backed f.2.2.2.toNat n = false → ∃ x, exec f.2.1 s = .fault (.outsideRealMemory x)) ∧
    (∀ f ∈ loadForms 8 r rx d w s, s.pc.toNat + f.2.2.1 < 2 ^ 32 → f.2.2.2.toNat % 8 = 0 →
      s.backed f.2.2.2.toNat 8 = true → ∀ s1 s2, s.between = .ok () s1 → s1.between = .ok () s2 →
        ∃ t, exec f.2.1 s = .next t ∧ t.pc = s.pc + BitVec.ofNat 32 f.2.2.1 ∧ t.reg r = s1.wordAt f.2.2.2.toNat ∧
          t.reg (r + 1) = s2.wordAt (f.2.2.2.toNat + 4) ∧ OnlyRegs [r, r + 1] s2 t) ∧
    (∀ (x : Word) (b : Byte) (rest : List (List MemoryEvent)), s.within = [.dmaWrite x b] :: rest →
      s.installedAt x.toNat = true →
        ∃ s1, s.between = .ok () s1 ∧ (∀ y, s1.mem.read y = if y = x.toNat then b else s.mem.read y) ∧
          s1 = { s with mem := s1.mem, fetch := s1.fetch, within := rest }) ∧
    (∀ (e : MemoryEvent) (es : List MemoryEvent) (rest : List (List MemoryEvent)), s.within = (e :: es) :: rest →
      (es = [] → s.between = applyMemoryEvent e { s with within := rest }) ∧
      (∀ s1, applyMemoryEvent e { s with within := es :: rest } = .ok () s1 → s.between = s1.between))

/-- R88, R201, R220 to R224: every store in kernel mode, in its four forms, at an aligned address with memory: the low bytes of
the register, or the pair, are stored most significant first, and no other byte changes. The wrap of address sums is log
29, the byte order log 1 (both DEDUCED). An access outside real memory stops with the fault (R94). -/
def Obligations.StoresInKernelMode : Prop :=
  ∀ (s : State) (r rx : Reg) (d : Half) (w : Word), s.mode = .kernel → s.parityData = false → Alone s →
    ∀ n ∈ [1, 2, 4, 8], ∀ f ∈ storeForms n r rx d w s, f.2.2.toNat % n = 0 →
      (s.pc.toNat + f.2.1 < 2 ^ 32 → s.backed f.2.2.toNat n = true →
        Stores f.1 f.2.1 f.2.2.toNat n (storedValue n r s) s) ∧
      (s.backed f.2.2.toNat n = false → ∃ x, exec f.1 s = .fault (.outsideRealMemory x))

/-- R201 to R203, R230: LADDR in its eight forms puts the effective address into the register, in both modes, aligned or not.
The pc in a code segment address is log 4, the wrap of address sums log 29 (both DEDUCED). -/
def Obligations.LoadAddress : Prop :=
  ∀ (s : State) (r rx : Reg) (d : Half) (w : Word),
    ∀ f ∈ dataForms .laddr .laddrX .laddrL .laddrLX r rx d w s ++ codeForms .laddrC .laddrCX .laddrCL .laddrCLX r rx d w s,
      s.pc.toNat + f.2.1 < 2 ^ 32 → Writes f.1 f.2.1 r f.2.2 s

/-- R89, R93, R206, R523: a misaligned effective address raises the data alignment trap in both modes, before translation,
with the address in SR3 and, in user mode, the number of the segment in SR2; nothing else changes. That the check comes
before translation is log 33, the pc of the code forms log 4, the wrap of address sums log 29 (all DEDUCED). -/
def Obligations.MisalignedAccessTraps : Prop :=
  ∀ (s : State) (r rx : Reg) (d : Half) (w : Word), CanEnter 0x400 s → ∀ n ∈ [2, 4, 8],
    (∀ f ∈ loadForms n r rx d w s, f.2.2.2.toNat % n ≠ 0 →
      Raises f.2.1 (.dataAlignment (if s.mode = .user then some (if f.1 = .code then s.spec 8 else s.spec 9) else none)
        f.2.2.2) s) ∧
    (∀ f ∈ storeForms n r rx d w s, f.2.2.toNat % n ≠ 0 →
      Raises f.1 (.dataAlignment (if s.mode = .user then some (s.spec 9) else none) f.2.2) s)

/-- R124, R206, R527: in user mode an aligned access to a page that neither the TMT nor the VRT maps raises the page fault
with the segment number and the address; nothing else changes. The pc of the code forms is log 4, the wrap of address sums log
29 (both DEDUCED). -/
def Obligations.DataPageFault : Prop :=
  ∀ (s : State) (r rx : Reg) (d : Half) (w : Word), s.mode = .user → CanEnter 0x410 s → ∀ n ∈ [1, 2, 4, 8],
    (∀ f ∈ loadForms n r rx d w s, f.2.2.2.toNat % n = 0 →
      tmtFind (if f.1 = .code then s.codeTmt else s.dataTmt) (pageOf f.2.2.2) = none →
      Finds (if f.1 = .code then s.spec 8 else s.spec 9) f.2.2.2 none s →
        Raises f.2.1 (.pageFault (if f.1 = .code then s.spec 8 else s.spec 9) f.2.2.2) s) ∧
    (∀ f ∈ storeForms n r rx d w s, f.2.2.toNat % n = 0 → tmtFind s.dataTmt (pageOf f.2.2) = none →
      Finds (s.spec 9) f.2.2 none s → Raises f.1 (.pageFault (s.spec 9) f.2.2) s)

/-- R82, R91, R92, R110, R119, R123: in user mode an aligned access to a page the TMT maps goes to the real page with the same
offset and changes no other byte; one to a page only the VRT maps does the same after it sets the R bit of the page's entry in
memory and loads the mapping into the TMT. Both note the access; after it the hardware may set R, and after a store M, of the
page's entry at any moment of user mode, and nothing else of it, and never without such an access (log 15, DESIGN CHOICE).
The pc of the code forms is log 4, the wrap of address sums log 29, the byte order log 1, the place of an entry's second word log
14 (all DEDUCED). -/
def Obligations.AccessThroughTmt : Prop :=
  (∀ (s : State) (r rx : Reg) (d : Half) (w : Word), s.mode = .user → s.parityData = false → Alone s →
    ∀ n ∈ [1, 2, 4, 8],
    (∀ f ∈ loadForms n r rx d w s, ∀ (seg : Word) (ra : Nat) (rp : Page) (s1 : State),
      seg = (if f.1 = .code then s.spec 8 else s.spec 9) → s.pc.toNat + f.2.2.1 < 2 ^ 32 → f.2.2.2.toNat % n = 0 →
      Maps f.1 seg f.2.2.2 rp s s1 → ra = (rp ++ f.2.2.2.extractLsb' 0 12 : Word).toNat → s.backed ra n = true →
        ∃ t, exec f.2.1 s = .next t ∧ t.pc = s.pc + BitVec.ofNat 32 f.2.2.1 ∧ Loaded n ra r s1 t ∧
          Noted seg (pageOf f.2.2.2) false s t ∧ (∀ i, i ∉ loadedRegs n r → t.reg i = s.reg i) ∧
          (∀ k, t.spec k = s.spec k) ∧ (∀ x, t.mem.read x = s1.mem.read x) ∧
          (∀ ea e, tmtFind (s.tmt f.1) (pageOf f.2.2.2) = none → Finds seg f.2.2.2 (some (ea, e)) s →
            t.entryAt ea = vrtSetR e ∧ (∀ x, OutsideEntry ea x → t.mem.read x = s.mem.read x) ∧
            tmtFind (t.tmt f.1) (pageOf f.2.2.2) =
              some { page := pageOf f.2.2.2, realPage := rp, modified := vrtM e }) ∧
          t = { s1 with regs := t.regs, pc := t.pc, accessed := t.accessed }) ∧
    (∀ f ∈ storeForms n r rx d w s, ∀ (ra : Nat) (rp : Page) (s1 : State), s.pc.toNat + f.2.1 < 2 ^ 32 →
      f.2.2.toNat % n = 0 → Maps .data (s.spec 9) f.2.2 rp s s1 → ra = (rp ++ f.2.2.extractLsb' 0 12 : Word).toNat →
      s.backed ra n = true →
        ∃ t, exec f.1 s = .next t ∧ t.pc = s.pc + BitVec.ofNat 32 f.2.1 ∧
          (∀ k < n, t.mem.read (ra + k) = BitVec.ofNat 8 (storedValue n r s / 256 ^ (n - 1 - k))) ∧
          Noted (s.spec 9) (pageOf f.2.2) true s t ∧ (∀ i, t.reg i = s.reg i) ∧ (∀ k, t.spec k = s.spec k) ∧
          (∀ x, x < ra ∨ ra + n ≤ x → t.mem.read x = s1.mem.read x) ∧
          (∀ ea e, tmtFind s.dataTmt (pageOf f.2.2) = none → Finds (s.spec 9) f.2.2 (some (ea, e)) s →
            ((∀ k < n, OutsideEntry ea (ra + k)) → t.entryAt ea = vrtSetR e) ∧
            (∀ x, x < ra ∨ ra + n ≤ x → OutsideEntry ea x → t.mem.read x = s.mem.read x) ∧
            tmtFind t.dataTmt (pageOf f.2.2) = some { page := pageOf f.2.2, realPage := rp, modified := vrtM e }) ∧
          t = { s1 with pc := t.pc, mem := t.mem, fetch := t.fetch, accessed := t.accessed })) ∧
  (∀ (s : State) (segment : Word) (page : Page) (modified : Bool), ∃ t,
    applyMemoryEvent (.vrtMark segment page modified) s = .ok () t ∧
    (s.mode = .user → s.mayMark segment page modified = true → ∀ ea e,
      Finds segment (page ++ 0#12) (some (ea, e)) s →
        t.entryAt ea = (if modified then vrtSetM e else vrtSetR e) ∧
        (∀ x, OutsideEntry ea x → t.mem.read x = s.mem.read x) ∧
        t = { s with mem := t.mem, fetch := t.fetch }) ∧
    (s.mode = .kernel ∨ s.mayMark segment page modified = false → t = s))

/-! ## The VRT -/

/-- R46, R116, R119 to R122: the search. With a valid mask it begins at SR12 plus eight times the masked sum of segment number
and page number; an entry with the low SEG_BITS bits of the segment number and the tag, and VVV = 111, is found; one with
another VVV is refused; at one without them the link, if it is not 0, leads to the next at SR12 plus the link, and 0 ends the
search. With an SR13 that is no mask (R116), an entry at an address that is no multiple of 4 (D14; that 4 is enough is log 14,
DEDUCED), or a chain that leads back to its entry (R122, D16), it is refused. That the fields of an entry are runs of bits, and that TRANS and DIRT compare the low
SEG_BITS bits too, is log 13 (DEDUCED); the byte order is log 1, that an entry's second word is 4 on modulo 2^32 log 14 (both
DEDUCED). -/
def Obligations.VrtSearchOrder : Prop :=
  (∀ (s : State) (segment va head : Word) (k seg : Nat), Alone s → 4 ≤ k → k ≤ 32 → (s.spec 13).toNat = 2 ^ k - 1 →
    seg = segment.toNat % 2 ^ Config.vrtLayout.segBits →
    head = s.spec 12 + BitVec.ofNat 32 (((segment.toNat + va.toNat / 4096) % 2 ^ k) * 8) →
    (head.toNat % 4 ≠ 0 → vrtSearch segment va s = .refused .vrtEntryMisaligned) ∧
    (head.toNat % 4 = 0 → s.entryBacked head → ∀ e, e = s.entryAt head →
      (vrtSeg e = seg → vrtTag e = va.extractLsb' 16 16 →
        vrtSearch segment va s = if vrtVvv e = 7 then .ok (some (head, e)) s else .refused .vrtMatchInvalid) ∧
      (¬(vrtSeg e = seg ∧ vrtTag e = va.extractLsb' 16 16) → vrtLink e = 0 →
        vrtSearch segment va s = .ok none s) ∧
      (¬(vrtSeg e = seg ∧ vrtTag e = va.extractLsb' 16 16) → vrtLink e ≠ 0 →
        ∀ next e', next = s.spec 12 + (vrtLink e).zeroExtend 32 → next.toNat % 4 = 0 → s.entryBacked next →
          e' = s.entryAt next →
          (next = head → vrtSearch segment va s = .refused .vrtChainEndless) ∧
          (vrtSeg e' = seg → vrtTag e' = va.extractLsb' 16 16 → vrtVvv e' = 7 →
            vrtSearch segment va s = .ok (some (next, e')) s) ∧
          (¬(vrtSeg e' = seg ∧ vrtTag e' = va.extractLsb' 16 16) → vrtLink e' = 0 →
            vrtSearch segment va s = .ok none s)))) ∧
  (∀ (s : State) (segment va : Word), (∀ k, 4 ≤ k → k ≤ 32 → (s.spec 13).toNat ≠ 2 ^ k - 1) →
    vrtSearch segment va s = .refused .vrtMaskInvalid)

/-- R118, R119, R123: a translation that misses in the TMT and finds an entry gives its real page with the offset of the
address, sets the R bit of the entry in memory and no other bit, loads the mapping into that half of the TMT, and changes no
other byte. That the fields of an entry are runs of bits is log 13, its byte order log 1, the place of its second word log 14 (all
DEDUCED). -/
def Obligations.TranslationLoadsTmt : Prop :=
  (∀ (s : State) (seg : Segment) (va ea : Word) (e : Double), s.mode = .user → Alone s →
    tmtFind (s.tmt seg) (pageOf va) = none → Finds (s.segNumber seg) va (some (ea, e)) s →
      ∃ t, lookupPage seg va s = .ok (vrtRealPage e) t ∧
        tmtFind (t.tmt seg) (pageOf va) = some { page := pageOf va, realPage := vrtRealPage e, modified := vrtM e } ∧
        t.entryAt ea = vrtSetR e ∧ (∀ x, OutsideEntry ea x → t.mem.read x = s.mem.read x) ∧
        (∀ r, t.reg r = s.reg r) ∧ (∀ k, t.spec k = s.spec k) ∧
        (∀ x ∈ t.tmt seg, x ∈ s.tmt seg ∨ x.page = pageOf va)) ∧
  (∀ (e : Double) (k : Nat), k < 64 →
    (vrtSetR e).getLsbD k = (decide (k = Config.vrtLayout.rAt) || e.getLsbD k) ∧
    (vrtSetM e).getLsbD k = (decide (k = Config.vrtLayout.mAt) || e.getLsbD k))

/-- R127, R465, R466: TRANS and DIRT in kernel mode give the real address of a page the VRT maps and mark its entry, R for both and
M for DIRT, with no other byte changed; where no entry matches they give -1 and change nothing else. A segment number counts by its
low SEG_BITS bits (D15; log 13, DEDUCED, against R465's clause on wider ones). The place of an entry's second word is log 14
(DEDUCED). With an SR13 that is no mask both are refused
(R116). -/
def Obligations.TransAndDirt : Prop :=
  ∀ (s : State) (r1 r2 : Reg) (va : Word), s.mode = .kernel → Alone s → s.pc.toNat + 2 < 2 ^ 32 →
    va = s.reg (r2 + 1) →
    (∀ ea e, Finds (s.reg r2) va (some (ea, e)) s →
      ∀ x ∈ [(Instr.trans r1 r2, vrtSetR e), (.dirt r1 r2, vrtSetM (vrtSetR e))],
      ∃ t, exec x.1 s = .next t ∧ t.pc = s.pc + 2 ∧ t.reg r1 = (vrtRealPage e ++ va.extractLsb' 0 12 : Word) ∧
        (∀ r, r ≠ r1 → t.reg r = s.reg r) ∧ t.entryAt ea = x.2 ∧
        (∀ a, OutsideEntry ea a → t.mem.read a = s.mem.read a) ∧
        t = { s with regs := t.regs, pc := t.pc, mem := t.mem, fetch := t.fetch }) ∧
    (Finds (s.reg r2) va none s →
      Writes (.trans r1 r2) 2 r1 0xFFFFFFFF s ∧ Writes (.dirt r1 r2) 2 r1 0xFFFFFFFF s) ∧
    ((∀ k, 4 ≤ k → k ≤ 32 → (s.spec 13).toNat ≠ 2 ^ k - 1) →
      exec (.trans r1 r2) s = .refused .vrtMaskInvalid ∧ exec (.dirt r1 r2) s = .refused .vrtMaskInvalid)

/-! ## Kernel instructions -/

/-- R425, R450, R503, R530: in user mode a kernel-only instruction, and with the privileged bit off a kernel-or-privileged one,
raises the kernel violation with opcode, R1 field and R2 field (the subop for the maintenance instructions), and does nothing
else. -/
def Obligations.KernelViolations : Prop :=
  ∀ (s : State) (r1 r2 : Reg), s.mode = .user → CanEnter 0x414 s →
    (∀ x ∈ [(Instr.sus r1 r2, (0x40 : Byte)), (.lus r1 r2, 0x41), (.rum r1 r2, 0x42), (.ldregs r1 r2, 0x43),
        (.trans r1 r2, 0x44), (.dirt r1 r2, 0x45), (.movesr r1 r2, 0x46), (.movers r1 r2, 0x47)],
      Raises x.1 (.kernelViolation x.2 r1 r2) s) ∧
    Raises (.trapexit r1) (.kernelViolation 0x4C r1 7) s ∧ Raises (.itest r1) (.kernelViolation 0x4C r1 8) s ∧
    (¬TrapOn 31 s → Raises (.elogr r1) (.kernelViolation 0x4C r1 0) s ∧ Raises (.elogw r1) (.kernelViolation 0x4C r1 1) s ∧
      Raises (.flush r1) (.kernelViolation 0x4C r1 6) s ∧ Raises (.read r1 r2) (.kernelViolation 0x4E r1 r2) s ∧
      Raises (.write r1 r2) (.kernelViolation 0x4F r1 r2) s)

/-- R430 to R433: SUS in kernel mode stores the user pc and the registers of its range into the PCB, for every layout, and no
other byte changes; with SR14 = 1 it does nothing, and with a misaligned SR14 it is refused. That the process
clock word stays as it is is log 42 (DEDUCED); the layout is log 16, the byte order log 1 (DEDUCED). -/
def Obligations.SaveUserState : Prop :=
  ∀ (s : State) (r1 r2 : Reg), s.mode = .kernel →
    (Alone s → s.pc.toNat + 2 < 2 ^ 32 → (s.spec 14).toNat % 4 = 0 →
      (∀ o ∈ Config.pcbLayout.offsets, s.backed (pcbAt o s) 4 = true) →
      ∃ t, exec (.sus r1 r2) s = .next t ∧ t.pc = s.pc + 2 ∧ t.wordAt (pcbAt Config.pcbLayout.pc s) = s.spec 15 ∧
        (∀ k, InRange r1 r2 k → t.wordAt (pcbAt (pcbRegOffset k) s) = s.reg k) ∧
        (∀ x, (x < pcbAt Config.pcbLayout.pc s ∨ pcbAt Config.pcbLayout.pc s + 4 ≤ x) →
          (∀ k, InRange r1 r2 k → x < pcbAt (pcbRegOffset k) s ∨ pcbAt (pcbRegOffset k) s + 4 ≤ x) →
            t.mem.read x = s.mem.read x) ∧
        (∀ r, t.reg r = s.reg r) ∧ (∀ k, t.spec k = s.spec k) ∧ t = { s with pc := t.pc, mem := t.mem, fetch := t.fetch }) ∧
    (s.pc.toNat + 2 < 2 ^ 32 → s.spec 14 = 1 →
      Goes (.sus r1 r2) (s.pc + 2) s ∧ Goes (.lus r1 r2) (s.pc + 2) s ∧ Goes (.ldregs r1 r2) (s.pc + 2) s) ∧
    (s.spec 14 ≠ 1 → (s.spec 14).toNat % 4 ≠ 0 →
      ∀ i ∈ [Instr.sus r1 r2, .lus r1 r2, .ldregs r1 r2], exec i s = .refused .pcbMisaligned)

/-- R433, R434, R436: LUS in kernel mode loads SR15, SR8, SR9, SR10 and the registers of its range from the PCB and flushes
TMT and cache; LDREGS loads the registers only and flushes nothing. That LUS discards the two buffered instructions too is the
spec's assumption (R141, D8; log 38, DEDUCED); the layout is log 16, the byte order log 1 (DEDUCED). -/
def Obligations.LoadUserState : Prop :=
  ∀ (s : State) (r1 r2 : Reg), s.mode = .kernel → Alone s → s.pc.toNat + 2 < 2 ^ 32 → (s.spec 14).toNat % 4 = 0 →
    (∀ o ∈ Config.pcbLayout.offsets, s.backed (pcbAt o s) 4 = true) →
    (∃ t, exec (.lus r1 r2) s = .next t ∧ t.pc = s.pc + 2 ∧ t.spec 15 = s.wordAt (pcbAt Config.pcbLayout.pc s) ∧
      t.spec 8 = s.wordAt (pcbAt Config.pcbLayout.cs s) ∧ t.spec 9 = s.wordAt (pcbAt Config.pcbLayout.ds s) ∧
      t.spec 10 = s.wordAt (pcbAt Config.pcbLayout.tw s) ∧ (∀ k ∉ ([8, 9, 10, 15] : List Reg), t.spec k = s.spec k) ∧
      (∀ k, InRange r1 r2 k → t.reg k = s.wordAt (pcbAt (pcbRegOffset k) s)) ∧
      (∀ k, ¬InRange r1 r2 k → t.reg k = s.reg k) ∧ (∀ a, t.mem.read a = s.mem.read a) ∧
      t = { s with regs := t.regs, pc := t.pc, sr := t.sr, codeTmt := [], dataTmt := [], fetch := .empty }) ∧
    (∃ t, exec (.ldregs r1 r2) s = .next t ∧ t.pc = s.pc + 2 ∧
      (∀ k, InRange r1 r2 k → t.reg k = s.wordAt (pcbAt (pcbRegOffset k) s)) ∧
      (∀ k, ¬InRange r1 r2 k → t.reg k = s.reg k) ∧ (∀ k, t.spec k = s.spec k) ∧ (∀ a, t.mem.read a = s.mem.read a) ∧
      t = { s with regs := t.regs, pc := t.pc })

/-- R440 to R443: RUM goes to user mode at SR15 and changes nothing else, or with SR14 = 1 begins the pause past itself; MOVESR
and MOVERS move between a special and a general register. Which of 0x46 and 0x47 writes the special one is log 28
(DEDUCED), that the pause begins past the RUM log 40 (DEDUCED). -/
def Obligations.ResumeAndSpecialMoves : Prop :=
  ∀ (s : State) (r1 r2 : Reg), s.mode = .kernel →
    (s.spec 14 ≠ 1 → exec (.rum r1 r2) s = .next { s with mode := .user, pc := s.spec 15 }) ∧
    (s.spec 14 = 1 → s.pc.toNat + 2 < 2 ^ 32 → exec (.rum r1 r2) s = .next { s with paused := true, pc := s.pc + 2 }) ∧
    (s.pc.toNat + 2 < 2 ^ 32 →
      (∃ t, exec (.movesr r1 r2) s = .next t ∧ t.pc = s.pc + 2 ∧ t.spec r1 = s.reg r2 ∧
        (∀ k, k ≠ r1 → t.spec k = s.spec k) ∧ (∀ r, t.reg r = s.reg r) ∧ (∀ a, t.mem.read a = s.mem.read a) ∧
        t = { s with pc := t.pc, sr := t.sr }) ∧
      Writes (.movers r1 r2) 2 r1 (s.spec r2) s)

/-- R141, R452, R454, R460, R462. In kernel mode, or in user mode with the privileged bit on: ELOGR returns the addressed bit
and the status bits 27, 30 and 31 in R1, the other bits of R1 are free; ELOGW writes the addressed bit of the RAM and nothing
else; FLUSH empties the TMT and the cache, but that the two instructions after it may each still show the old bytes it could
have shown before, and no other (R140, R141; log 38, DEDUCED). In kernel mode TRAPEXIT empties both and goes on at SR0. None but
ELOGR changes a register, and none changes memory. The layout of the error logging RAM is log 20, the switches are log 52 (both
DESIGN CHOICE). -/
def Obligations.MaintenanceInstructions : Prop :=
  ∀ (s : State) (r1 : Reg),
    (s.mode = .kernel ∨ TrapOn 31 s → s.pc.toNat + 2 < 2 ^ 32 →
      (∃ t, exec (.elogr r1) s = .next t ∧ t.pc = s.pc + 2 ∧
        (t.reg r1).getMsbD 16 = elogRead s.elog (Config.elogAddr (s.reg r1)) ∧
        (t.reg r1).getMsbD 27 = (if s.pending.external = [] then !Config.externalStatus else Config.externalStatus) ∧
        (t.reg r1).getMsbD 30 = s.bootDeviceSwitch ∧ (t.reg r1).getMsbD 31 = s.loadEnableSwitch ∧
        OnlyRegsDrawing [r1] s t) ∧
      (∃ t, exec (.elogw r1) s = .next t ∧ t.pc = s.pc + 2 ∧
        (∀ x, elogRead t.elog x =
          if x = Config.elogAddr (s.reg r1) then Config.elogData (s.reg r1) else elogRead s.elog x) ∧
        (∀ r, t.reg r = s.reg r) ∧ (∀ k, t.spec k = s.spec k) ∧ (∀ a, t.mem.read a = s.mem.read a) ∧
        t = { s with pc := t.pc, elog := t.elog }) ∧
      (∃ t, exec (.flush r1) s = .next t ∧ t.pc = s.pc + 2 ∧
        t.fetch = {
          stale := [],
          ahead := [(if s.fetch.aheadPc = s.pc + 2 then s.fetch.ahead.headD [] else []) ++ s.fetch.stale, s.fetch.stale],
          aheadPc := s.pc + 2, seen := [] } ∧
        (∀ r, t.reg r = s.reg r) ∧
        (∀ k, t.spec k = s.spec k) ∧ (∀ a, t.mem.read a = s.mem.read a) ∧
        t = { s with pc := t.pc, codeTmt := [], dataTmt := [], fetch := t.fetch })) ∧
    (s.mode = .kernel →
      exec (.trapexit r1) s = .next { s with pc := s.spec 0, codeTmt := [], dataTmt := [], fetch := .empty })

/-- R464, R470 to R475: ITEST reports a requesting device or none, and every other device's request stays pending; READ and
WRITE send their words to the device and set R1 to a status whose T and N tell what became of it, READ with the data of an
accepted command in the second register. That ITEST reports external interrupts only is log 49 (DEDUCED), which device answers it
and whether it withdraws log 43 (DEDUCED); that a reply is a function of the history of transactions, and where T and N stand,
is log 19 (DESIGN CHOICE). -/
def Obligations.DeviceInstructions : Prop :=
  ∀ (s : State) (r1 r2 : Reg), s.pc.toNat + 2 < 2 ^ 32 →
    (s.mode = .kernel → s.pending.external = [] → Writes (.itest r1) 2 r1 1 s) ∧
    (s.mode = .kernel → s.pending.external ≠ [] →
      ∃ t, exec (.itest r1) s = .next t ∧ t.pc = s.pc + 2 ∧ t.reg r1 = 0 ∧ t.reg (r1 + 1) ∈ s.pending.external ∧
        (∀ r, r ∉ [r1, r1 + 1] → t.reg r = s.reg r) ∧ (∀ k, t.spec k = s.spec k) ∧
        (∀ a, t.mem.read a = s.mem.read a) ∧ (∀ x ∈ t.pending.external, x ∈ s.pending.external) ∧
        (∀ x ∈ s.pending.external, deviceOf x ≠ deviceOf (t.reg (r1 + 1)) → x ∈ t.pending.external) ∧
        t = { s with
          regs := t.regs, pc := t.pc, draws := t.draws, ioTrace := .ioir (t.reg (r1 + 1)) :: s.ioTrace,
          pending := { s.pending with external := t.pending.external } }) ∧
    (s.mode = .kernel ∨ TrapOn 31 s → ∀ x ∈ [(Instr.read r1 r2, IoTransaction.read (s.reg r2), [r1, r1 + 1]),
        (.write r1 r2, .write (s.reg r2) (s.reg r1), [r1])],
      ∃ t, exec x.1 s = .next t ∧ t.pc = s.pc + 2 ∧ (∀ r, r ∉ x.2.2 → t.reg r = s.reg r) ∧
        (∀ k, t.spec k = s.spec k) ∧ (∀ a, t.mem.read a = s.mem.read a) ∧
        t = { s with regs := t.regs, pc := t.pc, draws := t.draws, ioTrace := x.2.1 :: s.ioTrace } ∧
        (Config.devicePresent ((s.reg r2).extractLsb' 24 8) = false →
          (t.reg r1).getLsbD Config.ioStatusLayout.t.toNat = true) ∧
        (Config.devicePresent ((s.reg r2).extractLsb' 24 8) = true →
          (∀ data, Config.deviceReply t.ioTrace = .accepted data →
            (t.reg r1).getLsbD Config.ioStatusLayout.t.toNat = false ∧
            (t.reg r1).getLsbD Config.ioStatusLayout.n.toNat = false ∧
            (x.1 = .read r1 r2 → t.reg (r1 + 1) = data)) ∧
          (Config.deviceReply t.ioTrace = .notReady → (t.reg r1).getLsbD Config.ioStatusLayout.n.toNat = true) ∧
          (Config.deviceReply t.ioTrace = .timedOut → (t.reg r1).getLsbD Config.ioStatusLayout.t.toNat = true)))
end

