-- ==== Sys2Proof/Laws/Memory.lean ====
section
/-! SUPPORT. The laws of memory: a read after a write, and that every operation keeps the canonical form. -/

namespace Sys2Proof.Machine

/-! ### Reading -/

@[simp] theorem Memory.read_nil (a : Nat) : Memory.read [] a = 0 := rfl

/-- A list whose addresses all exceed an address reads there as unlisted. -/
theorem Memory.read_of_lt (m : Memory) (a : Nat) (h : ∀ c ∈ m, a < c.1) : m.read a = Memory.unlisted := by
  induction m with
  | nil => rfl
  | cons c m ih =>
    have h1 := h c (by simp)
    have h2 : c.1 ≠ a := by omega
    simp only [Memory.read, h2, if_false]
    exact ih fun d hd => h d (by simp [hd])

@[simp] theorem Memory.read_erase_same (m : Memory) (a : Nat) : (m.erase a).read a = Memory.unlisted := by
  induction m with
  | nil => rfl
  | cons c m ih =>
    by_cases h : c.1 = a
    · simpa [Memory.erase, h] using ih
    · simpa [Memory.erase, h, Memory.read] using ih

theorem Memory.read_erase_other (m : Memory) (a x : Nat) (hx : x ≠ a) : (m.erase a).read x = m.read x := by
  induction m with
  | nil => rfl
  | cons c m ih =>
    by_cases h : c.1 = a
    · have h' : a ≠ x := fun e => hx e.symm
      simpa [Memory.erase, h, Memory.read, h'] using ih
    · simp only [Memory.erase, ne_eq, decide_not] at ih
      simp [Memory.erase, h, Memory.read, ih]

@[simp] theorem Memory.read_insert_same (m : Memory) (a : Nat) (b : Byte) : (m.insert a b).read a = b := by
  induction m with
  | nil => simp [Memory.insert, Memory.read]
  | cons c m ih =>
    obtain ⟨k, c⟩ := c
    simp only [Memory.insert]
    split
    · simp [Memory.read]
    · split
      · simp [Memory.read]
      · rename_i h
        have : k ≠ a := fun e => h e.symm
        simpa [Memory.read, this] using ih

theorem Memory.read_insert_other (m : Memory) (a x : Nat) (b : Byte) (hx : x ≠ a) :
    (m.insert a b).read x = m.read x := by
  have hx' : a ≠ x := fun e => hx e.symm
  induction m with
  | nil => simp [Memory.insert, Memory.read, hx']
  | cons c m ih =>
    obtain ⟨k, c⟩ := c
    simp only [Memory.insert]
    split
    · simp [Memory.read, hx']
    · split
      · rename_i h
        simp [Memory.read, hx', ← h]
      · simp [Memory.read, ih]

/-- A byte read where it was written is the byte written. -/
@[simp] theorem Memory.read_write_same (m : Memory) (a : Nat) (b : Byte) : (m.write a b).read a = b := by
  simp only [Memory.write]
  split
  · rename_i h; rw [Memory.read_erase_same, h]
  · simp

/-- A write leaves every other byte alone. -/
theorem Memory.read_write_other (m : Memory) (a x : Nat) (b : Byte) (hx : x ≠ a) : (m.write a b).read x = m.read x := by
  simp only [Memory.write]
  split
  · exact Memory.read_erase_other m a x hx
  · exact Memory.read_insert_other m a x b hx

theorem Memory.read_write (m : Memory) (a x : Nat) (b : Byte) :
    (m.write a b).read x = if x = a then b else m.read x := by
  by_cases h : x = a
  · subst h; simp
  · simp [h, Memory.read_write_other]

/-- A store leaves every byte outside the stored ones alone. -/
theorem Memory.read_store_other (m : Memory) (a n v x : Nat) (h : x < a ∨ a + n ≤ x) :
    (m.store a n v).read x = m.read x := by
  induction n generalizing a with
  | zero => rfl
  | succ n ih => rw [Memory.store, Memory.read_write_other _ _ _ _ (by omega), ih (a + 1) (by omega)]

/-- The stored bytes: the k-th is the k-th most significant of the n (R88). -/
theorem Memory.read_store (m : Memory) (a n v k : Nat) (hk : k < n) :
    (m.store a n v).read (a + k) = BitVec.ofNat 8 (v / 256 ^ (n - 1 - k)) := by
  induction n generalizing a k with
  | zero => omega
  | succ n ih =>
    cases k with
    | zero => simp [Memory.store]
    | succ k =>
      rw [Memory.store, Memory.read_write_other _ _ _ _ (by omega), show a + (k + 1) = a + 1 + k by omega,
        ih (a + 1) k (by omega), show n + 1 - 1 - (k + 1) = n - 1 - k by omega]

/-- What a load gives depends on the bytes read only. -/
theorem Memory.load_congr (m m' : Memory) (a n : Nat) (h : ∀ k < n, m'.read (a + k) = m.read (a + k)) :
    m'.load a n = m.load a n := by
  induction n generalizing a with
  | zero => rfl
  | succ n ih =>
    have h0 := h 0 (by omega)
    simp only [Nat.add_zero] at h0
    rw [Memory.load, Memory.load, h0, ih (a + 1)]
    intro k hk
    have := h (k + 1) (by omega)
    rwa [show a + (k + 1) = a + 1 + k by omega] at this

/-- A load from bytes outside a store is as before. -/
theorem Memory.load_store_other (m : Memory) (a n v x k : Nat) (h : x + k ≤ a ∨ a + n ≤ x) :
    (m.store a n v).load x k = m.load x k :=
  Memory.load_congr _ _ _ _ fun _ _ => Memory.read_store_other _ _ _ _ _ (by omega)

/-- A load where a value was stored gives the low bytes of that value. -/
@[simp] theorem Memory.load_store_same (m : Memory) (a n v : Nat) : (m.store a n v).load a n = v % 256 ^ n := by
  induction n generalizing a with
  | zero => simp [Memory.load, Nat.mod_one]
  | succ n ih =>
    have h1 : ((m.store (a + 1) n v).write a (BitVec.ofNat 8 (v / 256 ^ n))).load (a + 1) n = v % 256 ^ n := by
      rw [← ih (a + 1)]
      exact Memory.load_congr _ _ _ _ fun k _ => Memory.read_write_other _ _ _ _ (by omega)
    have h2 : v % 256 ^ (n + 1) = v % 256 ^ n + 256 ^ n * (v / 256 ^ n % 256) := Nat.mod_mul
    rw [Memory.store, Memory.load, Memory.read_write_same, h1, BitVec.toNat_ofNat, h2,
      Nat.mul_comm, Nat.add_comm]

/-- A load is below the power of its size. -/
theorem Memory.load_lt (m : Memory) (a n : Nat) : m.load a n < 256 ^ n := by
  induction n generalizing a with
  | zero => simp [Memory.load]
  | succ n ih =>
    have h1 := ih (a + 1)
    have h2 := (m.read a).isLt
    rw [Memory.load, Nat.pow_succ]
    calc (m.read a).toNat * 256 ^ n + m.load (a + 1) n
        < (m.read a).toNat * 256 ^ n + 256 ^ n := by omega
      _ = ((m.read a).toNat + 1) * 256 ^ n := by ring
      _ ≤ 256 * 256 ^ n := Nat.mul_le_mul_right _ (by omega)
      _ = 256 ^ n * 256 := by ring

/-! ### Bytes stored one after the other -/

theorem Memory.read_storeBytes_other (m : Memory) (a x : Nat) (bs : List Byte) (h : x < a ∨ a + bs.length ≤ x) :
    (m.storeBytes a bs).read x = m.read x := by
  induction bs generalizing a with
  | nil => rfl
  | cons b bs ih =>
    simp only [List.length_cons] at h
    rw [Memory.storeBytes, Memory.read_write_other _ _ _ _ (by omega), ih (a + 1) (by omega)]

theorem Memory.read_storeBytes (m : Memory) (a k : Nat) (bs : List Byte) (h : k < bs.length) :
    (m.storeBytes a bs).read (a + k) = bs[k] := by
  induction bs generalizing a k with
  | nil => simp at h
  | cons b bs ih =>
    cases k with
    | zero => simp [Memory.storeBytes]
    | succ k =>
      simp only [List.length_cons] at h
      rw [Memory.storeBytes, Memory.read_write_other _ _ _ _ (by omega), show a + (k + 1) = a + 1 + k by omega,
        ih (a + 1) k (by omega)]
      rfl

/-! ### The canonical form -/

theorem Memory.wf_nil : Memory.wf [] := by simp [Memory.wf]

/-- What is listed after an insertion was listed before, or is the new entry. -/
theorem Memory.mem_insert (m : Memory) (a : Nat) (b : Byte) (c : Host.Cell) (h : c ∈ m.insert a b) :
    c = (a, b) ∨ c ∈ m := by
  induction m with
  | nil => simpa [Memory.insert] using h
  | cons d m ih =>
    obtain ⟨k, d⟩ := d
    simp only [Memory.insert] at h
    split at h
    · simpa using h
    · split at h
      · simp only [List.mem_cons] at h ⊢; tauto
      · simp only [List.mem_cons] at h ⊢
        rcases h with h | h
        · tauto
        · have := ih h; tauto

theorem Memory.wf_erase (m : Memory) (a : Nat) (h : m.wf) : (m.erase a).wf :=
  ⟨h.1.filter _, fun c hc => h.2 c (List.mem_of_mem_filter hc)⟩

theorem Memory.wf_insert (m : Memory) (a : Nat) (b : Byte) (hb : b ≠ Memory.unlisted) (h : m.wf) :
    (m.insert a b).wf := by
  refine ⟨?_, fun c hc => ?_⟩
  · obtain ⟨h1, -⟩ := h
    induction m with
    | nil => simp [Memory.insert]
    | cons d m ih =>
      obtain ⟨k, d⟩ := d
      rw [List.pairwise_cons] at h1
      simp only [Memory.insert]
      split
      · rename_i hk
        simp only [List.pairwise_cons, List.mem_cons]
        refine ⟨?_, h1⟩
        rintro c (rfl | hc)
        · exact hk
        · exact lt_trans hk (h1.1 c hc)
      · split
        · rename_i hk
          subst hk
          exact List.pairwise_cons.2 h1
        · rename_i hk1 hk2
          refine List.pairwise_cons.2 ⟨fun c hc => ?_, ih h1.2⟩
          rcases Memory.mem_insert _ _ _ _ hc with rfl | hc
          · simp only; omega
          · exact h1.1 c hc
  · rcases Memory.mem_insert _ _ _ _ hc with rfl | hc
    · exact hb
    · exact h.2 c hc

theorem Memory.wf_write (m : Memory) (a : Nat) (b : Byte) (h : m.wf) : (m.write a b).wf := by
  simp only [Memory.write]
  split
  · exact Memory.wf_erase m a h
  · rename_i hb; exact Memory.wf_insert m a b hb h

theorem Memory.wf_store (m : Memory) (a n v : Nat) (h : m.wf) : (m.store a n v).wf := by
  induction n generalizing a with
  | zero => exact h
  | succ n ih => exact Memory.wf_write _ _ _ (ih (a + 1))

theorem Memory.wf_storeBytes (m : Memory) (a : Nat) (bs : List Byte) (h : m.wf) : (m.storeBytes a bs).wf := by
  induction bs generalizing a with
  | nil => exact h
  | cons b bs ih => exact Memory.wf_write _ _ _ (ih (a + 1))

/-- What is listed after a write was listed before, or is at the address written. -/
theorem Memory.mem_write (m : Memory) (a : Nat) (b : Byte) (c : Host.Cell) (h : c ∈ m.write a b) :
    c.1 = a ∨ c ∈ m := by
  simp only [Memory.write] at h
  split at h
  · exact Or.inr (List.mem_of_mem_filter h)
  · rcases Memory.mem_insert _ _ _ _ h with rfl | h
    · exact Or.inl rfl
    · exact Or.inr h

/-- What is listed after a store was listed before, or is among the bytes stored. -/
theorem Memory.mem_store (m : Memory) (a n v : Nat) (c : Host.Cell) (h : c ∈ m.store a n v) :
    (a ≤ c.1 ∧ c.1 < a + n) ∨ c ∈ m := by
  induction n generalizing a with
  | zero => exact Or.inr h
  | succ n ih =>
    rcases Memory.mem_write _ _ _ _ h with h | h
    · exact Or.inl (by omega)
    · rcases ih (a + 1) h with h | h
      · exact Or.inl (by omega)
      · exact Or.inr h

end Sys2Proof.Machine
end

