-- ==== Sys2Proof/Laws/State.lean ====
section
/-! SUPPORT. What each update of the state does to each field: one lemma per field per update. Later proofs cite these
and unfold no update. -/

namespace Sys2Proof.Machine

/-! ### setReg -/

@[simp] theorem State.setReg_regs (s : State) (r : Reg) (v : Word) : (s.setReg r v).regs = s.regs.set r.toNat v r.isLt := rfl
@[simp] theorem State.setReg_pc (s : State) (r : Reg) (v : Word) : (s.setReg r v).pc = s.pc := rfl
@[simp] theorem State.setReg_sr (s : State) (r : Reg) (v : Word) : (s.setReg r v).sr = s.sr := rfl
@[simp] theorem State.setReg_mode (s : State) (r : Reg) (v : Word) : (s.setReg r v).mode = s.mode := rfl
@[simp] theorem State.setReg_paused (s : State) (r : Reg) (v : Word) : (s.setReg r v).paused = s.paused := rfl
@[simp] theorem State.setReg_mem (s : State) (r : Reg) (v : Word) : (s.setReg r v).mem = s.mem := rfl
@[simp] theorem State.setReg_installed (s : State) (r : Reg) (v : Word) : (s.setReg r v).installed = s.installed := rfl
@[simp] theorem State.setReg_codeTmt (s : State) (r : Reg) (v : Word) : (s.setReg r v).codeTmt = s.codeTmt := rfl
@[simp] theorem State.setReg_dataTmt (s : State) (r : Reg) (v : Word) : (s.setReg r v).dataTmt = s.dataTmt := rfl
@[simp] theorem State.setReg_accessed (s : State) (r : Reg) (v : Word) : (s.setReg r v).accessed = s.accessed := rfl
@[simp] theorem State.setReg_fetch (s : State) (r : Reg) (v : Word) : (s.setReg r v).fetch = s.fetch := rfl
@[simp] theorem State.setReg_pending (s : State) (r : Reg) (v : Word) : (s.setReg r v).pending = s.pending := rfl
@[simp] theorem State.setReg_elog (s : State) (r : Reg) (v : Word) : (s.setReg r v).elog = s.elog := rfl
@[simp] theorem State.setReg_tickStage (s : State) (r : Reg) (v : Word) : (s.setReg r v).tickStage = s.tickStage := rfl
@[simp] theorem State.setReg_bootDeviceSwitch (s : State) (r : Reg) (v : Word) : (s.setReg r v).bootDeviceSwitch = s.bootDeviceSwitch := rfl
@[simp] theorem State.setReg_loadEnableSwitch (s : State) (r : Reg) (v : Word) : (s.setReg r v).loadEnableSwitch = s.loadEnableSwitch := rfl
@[simp] theorem State.setReg_ioTrace (s : State) (r : Reg) (v : Word) : (s.setReg r v).ioTrace = s.ioTrace := rfl
@[simp] theorem State.setReg_parityData (s : State) (r : Reg) (v : Word) : (s.setReg r v).parityData = s.parityData := rfl
@[simp] theorem State.setReg_parityEntry (s : State) (r : Reg) (v : Word) : (s.setReg r v).parityEntry = s.parityEntry := rfl
@[simp] theorem State.setReg_within (s : State) (r : Reg) (v : Word) : (s.setReg r v).within = s.within := rfl
@[simp] theorem State.setReg_world (s : State) (r : Reg) (v : Word) : (s.setReg r v).world = s.world := rfl
@[simp] theorem State.setReg_draws (s : State) (r : Reg) (v : Word) : (s.setReg r v).draws = s.draws := rfl
@[simp] theorem State.setReg_spec (s : State) (r : Reg) (v : Word) (i : Reg) : (s.setReg r v).spec i = s.spec i := rfl

/-! ### setPair -/

@[simp] theorem State.setPair_pc (s : State) (r : Reg) (v : Double) : (s.setPair r v).pc = s.pc := rfl
@[simp] theorem State.setPair_sr (s : State) (r : Reg) (v : Double) : (s.setPair r v).sr = s.sr := rfl
@[simp] theorem State.setPair_mode (s : State) (r : Reg) (v : Double) : (s.setPair r v).mode = s.mode := rfl
@[simp] theorem State.setPair_paused (s : State) (r : Reg) (v : Double) : (s.setPair r v).paused = s.paused := rfl
@[simp] theorem State.setPair_mem (s : State) (r : Reg) (v : Double) : (s.setPair r v).mem = s.mem := rfl
@[simp] theorem State.setPair_installed (s : State) (r : Reg) (v : Double) : (s.setPair r v).installed = s.installed := rfl
@[simp] theorem State.setPair_codeTmt (s : State) (r : Reg) (v : Double) : (s.setPair r v).codeTmt = s.codeTmt := rfl
@[simp] theorem State.setPair_dataTmt (s : State) (r : Reg) (v : Double) : (s.setPair r v).dataTmt = s.dataTmt := rfl
@[simp] theorem State.setPair_accessed (s : State) (r : Reg) (v : Double) : (s.setPair r v).accessed = s.accessed := rfl
@[simp] theorem State.setPair_fetch (s : State) (r : Reg) (v : Double) : (s.setPair r v).fetch = s.fetch := rfl
@[simp] theorem State.setPair_pending (s : State) (r : Reg) (v : Double) : (s.setPair r v).pending = s.pending := rfl
@[simp] theorem State.setPair_elog (s : State) (r : Reg) (v : Double) : (s.setPair r v).elog = s.elog := rfl
@[simp] theorem State.setPair_tickStage (s : State) (r : Reg) (v : Double) : (s.setPair r v).tickStage = s.tickStage := rfl
@[simp] theorem State.setPair_bootDeviceSwitch (s : State) (r : Reg) (v : Double) : (s.setPair r v).bootDeviceSwitch = s.bootDeviceSwitch := rfl
@[simp] theorem State.setPair_loadEnableSwitch (s : State) (r : Reg) (v : Double) : (s.setPair r v).loadEnableSwitch = s.loadEnableSwitch := rfl
@[simp] theorem State.setPair_ioTrace (s : State) (r : Reg) (v : Double) : (s.setPair r v).ioTrace = s.ioTrace := rfl
@[simp] theorem State.setPair_parityData (s : State) (r : Reg) (v : Double) : (s.setPair r v).parityData = s.parityData := rfl
@[simp] theorem State.setPair_parityEntry (s : State) (r : Reg) (v : Double) : (s.setPair r v).parityEntry = s.parityEntry := rfl
@[simp] theorem State.setPair_within (s : State) (r : Reg) (v : Double) : (s.setPair r v).within = s.within := rfl
@[simp] theorem State.setPair_world (s : State) (r : Reg) (v : Double) : (s.setPair r v).world = s.world := rfl
@[simp] theorem State.setPair_draws (s : State) (r : Reg) (v : Double) : (s.setPair r v).draws = s.draws := rfl
@[simp] theorem State.setPair_spec (s : State) (r : Reg) (v : Double) (i : Reg) : (s.setPair r v).spec i = s.spec i := rfl

/-! ### setSpec -/

@[simp] theorem State.setSpec_regs (s : State) (k : Reg) (v : Word) : (s.setSpec k v).regs = s.regs := rfl
@[simp] theorem State.setSpec_pc (s : State) (k : Reg) (v : Word) : (s.setSpec k v).pc = s.pc := rfl
@[simp] theorem State.setSpec_sr (s : State) (k : Reg) (v : Word) : (s.setSpec k v).sr = s.sr.set k.toNat v k.isLt := rfl
@[simp] theorem State.setSpec_mode (s : State) (k : Reg) (v : Word) : (s.setSpec k v).mode = s.mode := rfl
@[simp] theorem State.setSpec_paused (s : State) (k : Reg) (v : Word) : (s.setSpec k v).paused = s.paused := rfl
@[simp] theorem State.setSpec_mem (s : State) (k : Reg) (v : Word) : (s.setSpec k v).mem = s.mem := rfl
@[simp] theorem State.setSpec_installed (s : State) (k : Reg) (v : Word) : (s.setSpec k v).installed = s.installed := rfl
@[simp] theorem State.setSpec_codeTmt (s : State) (k : Reg) (v : Word) : (s.setSpec k v).codeTmt = s.codeTmt := rfl
@[simp] theorem State.setSpec_dataTmt (s : State) (k : Reg) (v : Word) : (s.setSpec k v).dataTmt = s.dataTmt := rfl
@[simp] theorem State.setSpec_accessed (s : State) (k : Reg) (v : Word) : (s.setSpec k v).accessed = s.accessed := rfl
@[simp] theorem State.setSpec_fetch (s : State) (k : Reg) (v : Word) : (s.setSpec k v).fetch = s.fetch := rfl
@[simp] theorem State.setSpec_pending (s : State) (k : Reg) (v : Word) : (s.setSpec k v).pending = s.pending := rfl
@[simp] theorem State.setSpec_elog (s : State) (k : Reg) (v : Word) : (s.setSpec k v).elog = s.elog := rfl
@[simp] theorem State.setSpec_tickStage (s : State) (k : Reg) (v : Word) : (s.setSpec k v).tickStage = s.tickStage := rfl
@[simp] theorem State.setSpec_bootDeviceSwitch (s : State) (k : Reg) (v : Word) : (s.setSpec k v).bootDeviceSwitch = s.bootDeviceSwitch := rfl
@[simp] theorem State.setSpec_loadEnableSwitch (s : State) (k : Reg) (v : Word) : (s.setSpec k v).loadEnableSwitch = s.loadEnableSwitch := rfl
@[simp] theorem State.setSpec_ioTrace (s : State) (k : Reg) (v : Word) : (s.setSpec k v).ioTrace = s.ioTrace := rfl
@[simp] theorem State.setSpec_parityData (s : State) (k : Reg) (v : Word) : (s.setSpec k v).parityData = s.parityData := rfl
@[simp] theorem State.setSpec_parityEntry (s : State) (k : Reg) (v : Word) : (s.setSpec k v).parityEntry = s.parityEntry := rfl
@[simp] theorem State.setSpec_within (s : State) (k : Reg) (v : Word) : (s.setSpec k v).within = s.within := rfl
@[simp] theorem State.setSpec_world (s : State) (k : Reg) (v : Word) : (s.setSpec k v).world = s.world := rfl
@[simp] theorem State.setSpec_draws (s : State) (k : Reg) (v : Word) : (s.setSpec k v).draws = s.draws := rfl
@[simp] theorem State.setSpec_reg (s : State) (k : Reg) (v : Word) (i : Reg) : (s.setSpec k v).reg i = s.reg i := rfl
@[simp] theorem State.setSpec_pair (s : State) (k : Reg) (v : Word) (i : Reg) : (s.setSpec k v).pair i = s.pair i := rfl

/-! ### setPc -/

@[simp] theorem State.setPc_regs (s : State) (t : Word) : (s.setPc t).regs = s.regs := rfl
@[simp] theorem State.setPc_pc (s : State) (t : Word) : (s.setPc t).pc = t := rfl
@[simp] theorem State.setPc_sr (s : State) (t : Word) : (s.setPc t).sr = s.sr := rfl
@[simp] theorem State.setPc_mode (s : State) (t : Word) : (s.setPc t).mode = s.mode := rfl
@[simp] theorem State.setPc_paused (s : State) (t : Word) : (s.setPc t).paused = s.paused := rfl
@[simp] theorem State.setPc_mem (s : State) (t : Word) : (s.setPc t).mem = s.mem := rfl
@[simp] theorem State.setPc_installed (s : State) (t : Word) : (s.setPc t).installed = s.installed := rfl
@[simp] theorem State.setPc_codeTmt (s : State) (t : Word) : (s.setPc t).codeTmt = s.codeTmt := rfl
@[simp] theorem State.setPc_dataTmt (s : State) (t : Word) : (s.setPc t).dataTmt = s.dataTmt := rfl
@[simp] theorem State.setPc_accessed (s : State) (t : Word) : (s.setPc t).accessed = s.accessed := rfl
@[simp] theorem State.setPc_fetch (s : State) (t : Word) : (s.setPc t).fetch = s.fetch := rfl
@[simp] theorem State.setPc_pending (s : State) (t : Word) : (s.setPc t).pending = s.pending := rfl
@[simp] theorem State.setPc_elog (s : State) (t : Word) : (s.setPc t).elog = s.elog := rfl
@[simp] theorem State.setPc_tickStage (s : State) (t : Word) : (s.setPc t).tickStage = s.tickStage := rfl
@[simp] theorem State.setPc_bootDeviceSwitch (s : State) (t : Word) : (s.setPc t).bootDeviceSwitch = s.bootDeviceSwitch := rfl
@[simp] theorem State.setPc_loadEnableSwitch (s : State) (t : Word) : (s.setPc t).loadEnableSwitch = s.loadEnableSwitch := rfl
@[simp] theorem State.setPc_ioTrace (s : State) (t : Word) : (s.setPc t).ioTrace = s.ioTrace := rfl
@[simp] theorem State.setPc_parityData (s : State) (t : Word) : (s.setPc t).parityData = s.parityData := rfl
@[simp] theorem State.setPc_parityEntry (s : State) (t : Word) : (s.setPc t).parityEntry = s.parityEntry := rfl
@[simp] theorem State.setPc_within (s : State) (t : Word) : (s.setPc t).within = s.within := rfl
@[simp] theorem State.setPc_world (s : State) (t : Word) : (s.setPc t).world = s.world := rfl
@[simp] theorem State.setPc_draws (s : State) (t : Word) : (s.setPc t).draws = s.draws := rfl
@[simp] theorem State.setPc_reg (s : State) (t : Word) (i : Reg) : (s.setPc t).reg i = s.reg i := rfl
@[simp] theorem State.setPc_pair (s : State) (t : Word) (i : Reg) : (s.setPc t).pair i = s.pair i := rfl
@[simp] theorem State.setPc_spec (s : State) (t : Word) (i : Reg) : (s.setPc t).spec i = s.spec i := rfl

/-! ### drawn -/

@[simp] theorem State.drawn_regs (s : State) : s.drawn.regs = s.regs := rfl
@[simp] theorem State.drawn_pc (s : State) : s.drawn.pc = s.pc := rfl
@[simp] theorem State.drawn_sr (s : State) : s.drawn.sr = s.sr := rfl
@[simp] theorem State.drawn_mode (s : State) : s.drawn.mode = s.mode := rfl
@[simp] theorem State.drawn_paused (s : State) : s.drawn.paused = s.paused := rfl
@[simp] theorem State.drawn_mem (s : State) : s.drawn.mem = s.mem := rfl
@[simp] theorem State.drawn_installed (s : State) : s.drawn.installed = s.installed := rfl
@[simp] theorem State.drawn_codeTmt (s : State) : s.drawn.codeTmt = s.codeTmt := rfl
@[simp] theorem State.drawn_dataTmt (s : State) : s.drawn.dataTmt = s.dataTmt := rfl
@[simp] theorem State.drawn_accessed (s : State) : s.drawn.accessed = s.accessed := rfl
@[simp] theorem State.drawn_fetch (s : State) : s.drawn.fetch = s.fetch := rfl
@[simp] theorem State.drawn_pending (s : State) : s.drawn.pending = s.pending := rfl
@[simp] theorem State.drawn_elog (s : State) : s.drawn.elog = s.elog := rfl
@[simp] theorem State.drawn_tickStage (s : State) : s.drawn.tickStage = s.tickStage := rfl
@[simp] theorem State.drawn_bootDeviceSwitch (s : State) : s.drawn.bootDeviceSwitch = s.bootDeviceSwitch := rfl
@[simp] theorem State.drawn_loadEnableSwitch (s : State) : s.drawn.loadEnableSwitch = s.loadEnableSwitch := rfl
@[simp] theorem State.drawn_ioTrace (s : State) : s.drawn.ioTrace = s.ioTrace := rfl
@[simp] theorem State.drawn_parityData (s : State) : s.drawn.parityData = s.parityData := rfl
@[simp] theorem State.drawn_parityEntry (s : State) : s.drawn.parityEntry = s.parityEntry := rfl
@[simp] theorem State.drawn_within (s : State) : s.drawn.within = s.within := rfl
@[simp] theorem State.drawn_world (s : State) : s.drawn.world = s.world := rfl
@[simp] theorem State.drawn_draws (s : State) : s.drawn.draws = s.draws + 1 := rfl
@[simp] theorem State.drawn_reg (s : State) (i : Reg) : s.drawn.reg i = s.reg i := rfl
@[simp] theorem State.drawn_pair (s : State) (i : Reg) : s.drawn.pair i = s.pair i := rfl
@[simp] theorem State.drawn_spec (s : State) (i : Reg) : s.drawn.spec i = s.spec i := rfl

/-! ### drawn3 -/

@[simp] theorem State.drawn3_regs (s : State) : s.drawn3.regs = s.regs := rfl
@[simp] theorem State.drawn3_pc (s : State) : s.drawn3.pc = s.pc := rfl
@[simp] theorem State.drawn3_sr (s : State) : s.drawn3.sr = s.sr := rfl
@[simp] theorem State.drawn3_mode (s : State) : s.drawn3.mode = s.mode := rfl
@[simp] theorem State.drawn3_paused (s : State) : s.drawn3.paused = s.paused := rfl
@[simp] theorem State.drawn3_mem (s : State) : s.drawn3.mem = s.mem := rfl
@[simp] theorem State.drawn3_installed (s : State) : s.drawn3.installed = s.installed := rfl
@[simp] theorem State.drawn3_codeTmt (s : State) : s.drawn3.codeTmt = s.codeTmt := rfl
@[simp] theorem State.drawn3_dataTmt (s : State) : s.drawn3.dataTmt = s.dataTmt := rfl
@[simp] theorem State.drawn3_accessed (s : State) : s.drawn3.accessed = s.accessed := rfl
@[simp] theorem State.drawn3_fetch (s : State) : s.drawn3.fetch = s.fetch := rfl
@[simp] theorem State.drawn3_pending (s : State) : s.drawn3.pending = s.pending := rfl
@[simp] theorem State.drawn3_elog (s : State) : s.drawn3.elog = s.elog := rfl
@[simp] theorem State.drawn3_tickStage (s : State) : s.drawn3.tickStage = s.tickStage := rfl
@[simp] theorem State.drawn3_bootDeviceSwitch (s : State) : s.drawn3.bootDeviceSwitch = s.bootDeviceSwitch := rfl
@[simp] theorem State.drawn3_loadEnableSwitch (s : State) : s.drawn3.loadEnableSwitch = s.loadEnableSwitch := rfl
@[simp] theorem State.drawn3_ioTrace (s : State) : s.drawn3.ioTrace = s.ioTrace := rfl
@[simp] theorem State.drawn3_parityData (s : State) : s.drawn3.parityData = s.parityData := rfl
@[simp] theorem State.drawn3_parityEntry (s : State) : s.drawn3.parityEntry = s.parityEntry := rfl
@[simp] theorem State.drawn3_within (s : State) : s.drawn3.within = s.within := rfl
@[simp] theorem State.drawn3_world (s : State) : s.drawn3.world = s.world := rfl
@[simp] theorem State.drawn3_draws (s : State) : s.drawn3.draws = s.draws + 3 := rfl
@[simp] theorem State.drawn3_reg (s : State) (i : Reg) : s.drawn3.reg i = s.reg i := rfl
@[simp] theorem State.drawn3_pair (s : State) (i : Reg) : s.drawn3.pair i = s.pair i := rfl
@[simp] theorem State.drawn3_spec (s : State) (i : Reg) : s.drawn3.spec i = s.spec i := rfl

/-! ### scrambleReg -/

@[simp] theorem State.scrambleReg_pc (s : State) (r : Reg) : (s.scrambleReg r).pc = s.pc := rfl
@[simp] theorem State.scrambleReg_sr (s : State) (r : Reg) : (s.scrambleReg r).sr = s.sr := rfl
@[simp] theorem State.scrambleReg_mode (s : State) (r : Reg) : (s.scrambleReg r).mode = s.mode := rfl
@[simp] theorem State.scrambleReg_paused (s : State) (r : Reg) : (s.scrambleReg r).paused = s.paused := rfl
@[simp] theorem State.scrambleReg_mem (s : State) (r : Reg) : (s.scrambleReg r).mem = s.mem := rfl
@[simp] theorem State.scrambleReg_installed (s : State) (r : Reg) : (s.scrambleReg r).installed = s.installed := rfl
@[simp] theorem State.scrambleReg_codeTmt (s : State) (r : Reg) : (s.scrambleReg r).codeTmt = s.codeTmt := rfl
@[simp] theorem State.scrambleReg_dataTmt (s : State) (r : Reg) : (s.scrambleReg r).dataTmt = s.dataTmt := rfl
@[simp] theorem State.scrambleReg_accessed (s : State) (r : Reg) : (s.scrambleReg r).accessed = s.accessed := rfl
@[simp] theorem State.scrambleReg_fetch (s : State) (r : Reg) : (s.scrambleReg r).fetch = s.fetch := rfl
@[simp] theorem State.scrambleReg_pending (s : State) (r : Reg) : (s.scrambleReg r).pending = s.pending := rfl
@[simp] theorem State.scrambleReg_elog (s : State) (r : Reg) : (s.scrambleReg r).elog = s.elog := rfl
@[simp] theorem State.scrambleReg_tickStage (s : State) (r : Reg) : (s.scrambleReg r).tickStage = s.tickStage := rfl
@[simp] theorem State.scrambleReg_bootDeviceSwitch (s : State) (r : Reg) : (s.scrambleReg r).bootDeviceSwitch = s.bootDeviceSwitch := rfl
@[simp] theorem State.scrambleReg_loadEnableSwitch (s : State) (r : Reg) : (s.scrambleReg r).loadEnableSwitch = s.loadEnableSwitch := rfl
@[simp] theorem State.scrambleReg_ioTrace (s : State) (r : Reg) : (s.scrambleReg r).ioTrace = s.ioTrace := rfl
@[simp] theorem State.scrambleReg_parityData (s : State) (r : Reg) : (s.scrambleReg r).parityData = s.parityData := rfl
@[simp] theorem State.scrambleReg_parityEntry (s : State) (r : Reg) : (s.scrambleReg r).parityEntry = s.parityEntry := rfl
@[simp] theorem State.scrambleReg_within (s : State) (r : Reg) : (s.scrambleReg r).within = s.within := rfl
@[simp] theorem State.scrambleReg_world (s : State) (r : Reg) : (s.scrambleReg r).world = s.world := rfl
@[simp] theorem State.scrambleReg_draws (s : State) (r : Reg) : (s.scrambleReg r).draws = s.draws + 1 := rfl
@[simp] theorem State.scrambleReg_spec (s : State) (r : Reg) (i : Reg) : (s.scrambleReg r).spec i = s.spec i := rfl

/-! ### scramblePair -/

@[simp] theorem State.scramblePair_pc (s : State) (r : Reg) : (s.scramblePair r).pc = s.pc := rfl
@[simp] theorem State.scramblePair_sr (s : State) (r : Reg) : (s.scramblePair r).sr = s.sr := rfl
@[simp] theorem State.scramblePair_mode (s : State) (r : Reg) : (s.scramblePair r).mode = s.mode := rfl
@[simp] theorem State.scramblePair_paused (s : State) (r : Reg) : (s.scramblePair r).paused = s.paused := rfl
@[simp] theorem State.scramblePair_mem (s : State) (r : Reg) : (s.scramblePair r).mem = s.mem := rfl
@[simp] theorem State.scramblePair_installed (s : State) (r : Reg) : (s.scramblePair r).installed = s.installed := rfl
@[simp] theorem State.scramblePair_codeTmt (s : State) (r : Reg) : (s.scramblePair r).codeTmt = s.codeTmt := rfl
@[simp] theorem State.scramblePair_dataTmt (s : State) (r : Reg) : (s.scramblePair r).dataTmt = s.dataTmt := rfl
@[simp] theorem State.scramblePair_accessed (s : State) (r : Reg) : (s.scramblePair r).accessed = s.accessed := rfl
@[simp] theorem State.scramblePair_fetch (s : State) (r : Reg) : (s.scramblePair r).fetch = s.fetch := rfl
@[simp] theorem State.scramblePair_pending (s : State) (r : Reg) : (s.scramblePair r).pending = s.pending := rfl
@[simp] theorem State.scramblePair_elog (s : State) (r : Reg) : (s.scramblePair r).elog = s.elog := rfl
@[simp] theorem State.scramblePair_tickStage (s : State) (r : Reg) : (s.scramblePair r).tickStage = s.tickStage := rfl
@[simp] theorem State.scramblePair_bootDeviceSwitch (s : State) (r : Reg) : (s.scramblePair r).bootDeviceSwitch = s.bootDeviceSwitch := rfl
@[simp] theorem State.scramblePair_loadEnableSwitch (s : State) (r : Reg) : (s.scramblePair r).loadEnableSwitch = s.loadEnableSwitch := rfl
@[simp] theorem State.scramblePair_ioTrace (s : State) (r : Reg) : (s.scramblePair r).ioTrace = s.ioTrace := rfl
@[simp] theorem State.scramblePair_parityData (s : State) (r : Reg) : (s.scramblePair r).parityData = s.parityData := rfl
@[simp] theorem State.scramblePair_parityEntry (s : State) (r : Reg) : (s.scramblePair r).parityEntry = s.parityEntry := rfl
@[simp] theorem State.scramblePair_within (s : State) (r : Reg) : (s.scramblePair r).within = s.within := rfl
@[simp] theorem State.scramblePair_world (s : State) (r : Reg) : (s.scramblePair r).world = s.world := rfl
@[simp] theorem State.scramblePair_draws (s : State) (r : Reg) : (s.scramblePair r).draws = s.draws + 2 := rfl
@[simp] theorem State.scramblePair_spec (s : State) (r : Reg) (i : Reg) : (s.scramblePair r).spec i = s.spec i := rfl

/-! ### setMem -/

@[simp] theorem State.setMem_regs (s : State) (m : Memory) (a n : Nat) : (s.setMem m a n).regs = s.regs := rfl
@[simp] theorem State.setMem_pc (s : State) (m : Memory) (a n : Nat) : (s.setMem m a n).pc = s.pc := rfl
@[simp] theorem State.setMem_sr (s : State) (m : Memory) (a n : Nat) : (s.setMem m a n).sr = s.sr := rfl
@[simp] theorem State.setMem_mode (s : State) (m : Memory) (a n : Nat) : (s.setMem m a n).mode = s.mode := rfl
@[simp] theorem State.setMem_paused (s : State) (m : Memory) (a n : Nat) : (s.setMem m a n).paused = s.paused := rfl
@[simp] theorem State.setMem_mem (s : State) (m : Memory) (a n : Nat) : (s.setMem m a n).mem = m := rfl
@[simp] theorem State.setMem_installed (s : State) (m : Memory) (a n : Nat) : (s.setMem m a n).installed = s.installed := rfl
@[simp] theorem State.setMem_codeTmt (s : State) (m : Memory) (a n : Nat) : (s.setMem m a n).codeTmt = s.codeTmt := rfl
@[simp] theorem State.setMem_dataTmt (s : State) (m : Memory) (a n : Nat) : (s.setMem m a n).dataTmt = s.dataTmt := rfl
@[simp] theorem State.setMem_accessed (s : State) (m : Memory) (a n : Nat) : (s.setMem m a n).accessed = s.accessed := rfl
@[simp] theorem State.setMem_pending (s : State) (m : Memory) (a n : Nat) : (s.setMem m a n).pending = s.pending := rfl
@[simp] theorem State.setMem_elog (s : State) (m : Memory) (a n : Nat) : (s.setMem m a n).elog = s.elog := rfl
@[simp] theorem State.setMem_tickStage (s : State) (m : Memory) (a n : Nat) : (s.setMem m a n).tickStage = s.tickStage := rfl
@[simp] theorem State.setMem_bootDeviceSwitch (s : State) (m : Memory) (a n : Nat) : (s.setMem m a n).bootDeviceSwitch = s.bootDeviceSwitch := rfl
@[simp] theorem State.setMem_loadEnableSwitch (s : State) (m : Memory) (a n : Nat) : (s.setMem m a n).loadEnableSwitch = s.loadEnableSwitch := rfl
@[simp] theorem State.setMem_ioTrace (s : State) (m : Memory) (a n : Nat) : (s.setMem m a n).ioTrace = s.ioTrace := rfl
@[simp] theorem State.setMem_parityData (s : State) (m : Memory) (a n : Nat) : (s.setMem m a n).parityData = s.parityData := rfl
@[simp] theorem State.setMem_parityEntry (s : State) (m : Memory) (a n : Nat) : (s.setMem m a n).parityEntry = s.parityEntry := rfl
@[simp] theorem State.setMem_within (s : State) (m : Memory) (a n : Nat) : (s.setMem m a n).within = s.within := rfl
@[simp] theorem State.setMem_world (s : State) (m : Memory) (a n : Nat) : (s.setMem m a n).world = s.world := rfl
@[simp] theorem State.setMem_draws (s : State) (m : Memory) (a n : Nat) : (s.setMem m a n).draws = s.draws := rfl
@[simp] theorem State.setMem_reg (s : State) (m : Memory) (a n : Nat) (i : Reg) : (s.setMem m a n).reg i = s.reg i := rfl
@[simp] theorem State.setMem_pair (s : State) (m : Memory) (a n : Nat) (i : Reg) : (s.setMem m a n).pair i = s.pair i := rfl
@[simp] theorem State.setMem_spec (s : State) (m : Memory) (a n : Nat) (i : Reg) : (s.setMem m a n).spec i = s.spec i := rfl

/-! ### markEntry -/

@[simp] theorem State.markEntry_regs (s : State) (ea : Word) (u : Double → Double) : (s.markEntry ea u).regs = s.regs := rfl
@[simp] theorem State.markEntry_pc (s : State) (ea : Word) (u : Double → Double) : (s.markEntry ea u).pc = s.pc := rfl
@[simp] theorem State.markEntry_sr (s : State) (ea : Word) (u : Double → Double) : (s.markEntry ea u).sr = s.sr := rfl
@[simp] theorem State.markEntry_mode (s : State) (ea : Word) (u : Double → Double) : (s.markEntry ea u).mode = s.mode := rfl
@[simp] theorem State.markEntry_paused (s : State) (ea : Word) (u : Double → Double) : (s.markEntry ea u).paused = s.paused := rfl
@[simp] theorem State.markEntry_mem (s : State) (ea : Word) (u : Double → Double) : (s.markEntry ea u).mem =
    (s.mem.store ea.toNat 4 ((u (vrtWords (s.mem.load ea.toNat 4) (s.mem.load (ea + 4).toNat 4))).extractLsb' 32 32).toNat).store
      (ea + 4).toNat 4 ((u (vrtWords (s.mem.load ea.toNat 4) (s.mem.load (ea + 4).toNat 4))).extractLsb' 0 32).toNat := rfl
@[simp] theorem State.markEntry_installed (s : State) (ea : Word) (u : Double → Double) : (s.markEntry ea u).installed = s.installed := rfl
@[simp] theorem State.markEntry_codeTmt (s : State) (ea : Word) (u : Double → Double) : (s.markEntry ea u).codeTmt = s.codeTmt := rfl
@[simp] theorem State.markEntry_dataTmt (s : State) (ea : Word) (u : Double → Double) : (s.markEntry ea u).dataTmt = s.dataTmt := rfl
@[simp] theorem State.markEntry_accessed (s : State) (ea : Word) (u : Double → Double) : (s.markEntry ea u).accessed = s.accessed := rfl
@[simp] theorem State.markEntry_pending (s : State) (ea : Word) (u : Double → Double) : (s.markEntry ea u).pending = s.pending := rfl
@[simp] theorem State.markEntry_elog (s : State) (ea : Word) (u : Double → Double) : (s.markEntry ea u).elog = s.elog := rfl
@[simp] theorem State.markEntry_tickStage (s : State) (ea : Word) (u : Double → Double) : (s.markEntry ea u).tickStage = s.tickStage := rfl
@[simp] theorem State.markEntry_bootDeviceSwitch (s : State) (ea : Word) (u : Double → Double) : (s.markEntry ea u).bootDeviceSwitch = s.bootDeviceSwitch := rfl
@[simp] theorem State.markEntry_loadEnableSwitch (s : State) (ea : Word) (u : Double → Double) : (s.markEntry ea u).loadEnableSwitch = s.loadEnableSwitch := rfl
@[simp] theorem State.markEntry_ioTrace (s : State) (ea : Word) (u : Double → Double) : (s.markEntry ea u).ioTrace = s.ioTrace := rfl
@[simp] theorem State.markEntry_parityData (s : State) (ea : Word) (u : Double → Double) : (s.markEntry ea u).parityData = s.parityData := rfl
@[simp] theorem State.markEntry_parityEntry (s : State) (ea : Word) (u : Double → Double) : (s.markEntry ea u).parityEntry = s.parityEntry := rfl
@[simp] theorem State.markEntry_within (s : State) (ea : Word) (u : Double → Double) : (s.markEntry ea u).within = s.within := rfl
@[simp] theorem State.markEntry_world (s : State) (ea : Word) (u : Double → Double) : (s.markEntry ea u).world = s.world := rfl
@[simp] theorem State.markEntry_draws (s : State) (ea : Word) (u : Double → Double) : (s.markEntry ea u).draws = s.draws := rfl
@[simp] theorem State.markEntry_reg (s : State) (ea : Word) (u : Double → Double) (i : Reg) : (s.markEntry ea u).reg i = s.reg i := rfl
@[simp] theorem State.markEntry_pair (s : State) (ea : Word) (u : Double → Double) (i : Reg) : (s.markEntry ea u).pair i = s.pair i := rfl
@[simp] theorem State.markEntry_spec (s : State) (ea : Word) (u : Double → Double) (i : Reg) : (s.markEntry ea u).spec i = s.spec i := rfl

/-! ### flushTmt -/

@[simp] theorem State.flushTmt_regs (s : State) : s.flushTmt.regs = s.regs := rfl
@[simp] theorem State.flushTmt_pc (s : State) : s.flushTmt.pc = s.pc := rfl
@[simp] theorem State.flushTmt_sr (s : State) : s.flushTmt.sr = s.sr := rfl
@[simp] theorem State.flushTmt_mode (s : State) : s.flushTmt.mode = s.mode := rfl
@[simp] theorem State.flushTmt_paused (s : State) : s.flushTmt.paused = s.paused := rfl
@[simp] theorem State.flushTmt_mem (s : State) : s.flushTmt.mem = s.mem := rfl
@[simp] theorem State.flushTmt_installed (s : State) : s.flushTmt.installed = s.installed := rfl
@[simp] theorem State.flushTmt_codeTmt (s : State) : s.flushTmt.codeTmt = [] := rfl
@[simp] theorem State.flushTmt_dataTmt (s : State) : s.flushTmt.dataTmt = [] := rfl
@[simp] theorem State.flushTmt_accessed (s : State) : s.flushTmt.accessed = s.accessed := rfl
@[simp] theorem State.flushTmt_fetch (s : State) : s.flushTmt.fetch = s.fetch := rfl
@[simp] theorem State.flushTmt_pending (s : State) : s.flushTmt.pending = s.pending := rfl
@[simp] theorem State.flushTmt_elog (s : State) : s.flushTmt.elog = s.elog := rfl
@[simp] theorem State.flushTmt_tickStage (s : State) : s.flushTmt.tickStage = s.tickStage := rfl
@[simp] theorem State.flushTmt_bootDeviceSwitch (s : State) : s.flushTmt.bootDeviceSwitch = s.bootDeviceSwitch := rfl
@[simp] theorem State.flushTmt_loadEnableSwitch (s : State) : s.flushTmt.loadEnableSwitch = s.loadEnableSwitch := rfl
@[simp] theorem State.flushTmt_ioTrace (s : State) : s.flushTmt.ioTrace = s.ioTrace := rfl
@[simp] theorem State.flushTmt_parityData (s : State) : s.flushTmt.parityData = s.parityData := rfl
@[simp] theorem State.flushTmt_parityEntry (s : State) : s.flushTmt.parityEntry = s.parityEntry := rfl
@[simp] theorem State.flushTmt_within (s : State) : s.flushTmt.within = s.within := rfl
@[simp] theorem State.flushTmt_world (s : State) : s.flushTmt.world = s.world := rfl
@[simp] theorem State.flushTmt_draws (s : State) : s.flushTmt.draws = s.draws := rfl
@[simp] theorem State.flushTmt_reg (s : State) (i : Reg) : s.flushTmt.reg i = s.reg i := rfl
@[simp] theorem State.flushTmt_pair (s : State) (i : Reg) : s.flushTmt.pair i = s.pair i := rfl
@[simp] theorem State.flushTmt_spec (s : State) (i : Reg) : s.flushTmt.spec i = s.spec i := rfl

/-! ### flushFetch -/

@[simp] theorem State.flushFetch_regs (s : State) : s.flushFetch.regs = s.regs := rfl
@[simp] theorem State.flushFetch_pc (s : State) : s.flushFetch.pc = s.pc := rfl
@[simp] theorem State.flushFetch_sr (s : State) : s.flushFetch.sr = s.sr := rfl
@[simp] theorem State.flushFetch_mode (s : State) : s.flushFetch.mode = s.mode := rfl
@[simp] theorem State.flushFetch_paused (s : State) : s.flushFetch.paused = s.paused := rfl
@[simp] theorem State.flushFetch_mem (s : State) : s.flushFetch.mem = s.mem := rfl
@[simp] theorem State.flushFetch_installed (s : State) : s.flushFetch.installed = s.installed := rfl
@[simp] theorem State.flushFetch_codeTmt (s : State) : s.flushFetch.codeTmt = s.codeTmt := rfl
@[simp] theorem State.flushFetch_dataTmt (s : State) : s.flushFetch.dataTmt = s.dataTmt := rfl
@[simp] theorem State.flushFetch_accessed (s : State) : s.flushFetch.accessed = s.accessed := rfl
@[simp] theorem State.flushFetch_fetch (s : State) : s.flushFetch.fetch = .empty := rfl
@[simp] theorem State.flushFetch_pending (s : State) : s.flushFetch.pending = s.pending := rfl
@[simp] theorem State.flushFetch_elog (s : State) : s.flushFetch.elog = s.elog := rfl
@[simp] theorem State.flushFetch_tickStage (s : State) : s.flushFetch.tickStage = s.tickStage := rfl
@[simp] theorem State.flushFetch_bootDeviceSwitch (s : State) : s.flushFetch.bootDeviceSwitch = s.bootDeviceSwitch := rfl
@[simp] theorem State.flushFetch_loadEnableSwitch (s : State) : s.flushFetch.loadEnableSwitch = s.loadEnableSwitch := rfl
@[simp] theorem State.flushFetch_ioTrace (s : State) : s.flushFetch.ioTrace = s.ioTrace := rfl
@[simp] theorem State.flushFetch_parityData (s : State) : s.flushFetch.parityData = s.parityData := rfl
@[simp] theorem State.flushFetch_parityEntry (s : State) : s.flushFetch.parityEntry = s.parityEntry := rfl
@[simp] theorem State.flushFetch_within (s : State) : s.flushFetch.within = s.within := rfl
@[simp] theorem State.flushFetch_world (s : State) : s.flushFetch.world = s.world := rfl
@[simp] theorem State.flushFetch_draws (s : State) : s.flushFetch.draws = s.draws := rfl
@[simp] theorem State.flushFetch_reg (s : State) (i : Reg) : s.flushFetch.reg i = s.reg i := rfl
@[simp] theorem State.flushFetch_pair (s : State) (i : Reg) : s.flushFetch.pair i = s.pair i := rfl
@[simp] theorem State.flushFetch_spec (s : State) (i : Reg) : s.flushFetch.spec i = s.spec i := rfl

/-! ### flushCacheOnly -/

@[simp] theorem State.flushCacheOnly_regs (s : State) : s.flushCacheOnly.regs = s.regs := rfl
@[simp] theorem State.flushCacheOnly_pc (s : State) : s.flushCacheOnly.pc = s.pc := rfl
@[simp] theorem State.flushCacheOnly_sr (s : State) : s.flushCacheOnly.sr = s.sr := rfl
@[simp] theorem State.flushCacheOnly_mode (s : State) : s.flushCacheOnly.mode = s.mode := rfl
@[simp] theorem State.flushCacheOnly_paused (s : State) : s.flushCacheOnly.paused = s.paused := rfl
@[simp] theorem State.flushCacheOnly_mem (s : State) : s.flushCacheOnly.mem = s.mem := rfl
@[simp] theorem State.flushCacheOnly_installed (s : State) : s.flushCacheOnly.installed = s.installed := rfl
@[simp] theorem State.flushCacheOnly_codeTmt (s : State) : s.flushCacheOnly.codeTmt = s.codeTmt := rfl
@[simp] theorem State.flushCacheOnly_dataTmt (s : State) : s.flushCacheOnly.dataTmt = s.dataTmt := rfl
@[simp] theorem State.flushCacheOnly_accessed (s : State) : s.flushCacheOnly.accessed = s.accessed := rfl
@[simp] theorem State.flushCacheOnly_pending (s : State) : s.flushCacheOnly.pending = s.pending := rfl
@[simp] theorem State.flushCacheOnly_elog (s : State) : s.flushCacheOnly.elog = s.elog := rfl
@[simp] theorem State.flushCacheOnly_tickStage (s : State) : s.flushCacheOnly.tickStage = s.tickStage := rfl
@[simp] theorem State.flushCacheOnly_bootDeviceSwitch (s : State) : s.flushCacheOnly.bootDeviceSwitch = s.bootDeviceSwitch := rfl
@[simp] theorem State.flushCacheOnly_loadEnableSwitch (s : State) : s.flushCacheOnly.loadEnableSwitch = s.loadEnableSwitch := rfl
@[simp] theorem State.flushCacheOnly_ioTrace (s : State) : s.flushCacheOnly.ioTrace = s.ioTrace := rfl
@[simp] theorem State.flushCacheOnly_parityData (s : State) : s.flushCacheOnly.parityData = s.parityData := rfl
@[simp] theorem State.flushCacheOnly_parityEntry (s : State) : s.flushCacheOnly.parityEntry = s.parityEntry := rfl
@[simp] theorem State.flushCacheOnly_within (s : State) : s.flushCacheOnly.within = s.within := rfl
@[simp] theorem State.flushCacheOnly_world (s : State) : s.flushCacheOnly.world = s.world := rfl
@[simp] theorem State.flushCacheOnly_draws (s : State) : s.flushCacheOnly.draws = s.draws := rfl
@[simp] theorem State.flushCacheOnly_reg (s : State) (i : Reg) : s.flushCacheOnly.reg i = s.reg i := rfl
@[simp] theorem State.flushCacheOnly_pair (s : State) (i : Reg) : s.flushCacheOnly.pair i = s.pair i := rfl
@[simp] theorem State.flushCacheOnly_spec (s : State) (i : Reg) : s.flushCacheOnly.spec i = s.spec i := rfl

/-! ### resumeUser -/

@[simp] theorem State.resumeUser_regs (s : State) : s.resumeUser.regs = s.regs := rfl
@[simp] theorem State.resumeUser_pc (s : State) : s.resumeUser.pc = s.spec 15 := rfl
@[simp] theorem State.resumeUser_sr (s : State) : s.resumeUser.sr = s.sr := rfl
@[simp] theorem State.resumeUser_mode (s : State) : s.resumeUser.mode = .user := rfl
@[simp] theorem State.resumeUser_paused (s : State) : s.resumeUser.paused = s.paused := rfl
@[simp] theorem State.resumeUser_mem (s : State) : s.resumeUser.mem = s.mem := rfl
@[simp] theorem State.resumeUser_installed (s : State) : s.resumeUser.installed = s.installed := rfl
@[simp] theorem State.resumeUser_codeTmt (s : State) : s.resumeUser.codeTmt = s.codeTmt := rfl
@[simp] theorem State.resumeUser_dataTmt (s : State) : s.resumeUser.dataTmt = s.dataTmt := rfl
@[simp] theorem State.resumeUser_accessed (s : State) : s.resumeUser.accessed = s.accessed := rfl
@[simp] theorem State.resumeUser_fetch (s : State) : s.resumeUser.fetch = s.fetch := rfl
@[simp] theorem State.resumeUser_pending (s : State) : s.resumeUser.pending = s.pending := rfl
@[simp] theorem State.resumeUser_elog (s : State) : s.resumeUser.elog = s.elog := rfl
@[simp] theorem State.resumeUser_tickStage (s : State) : s.resumeUser.tickStage = s.tickStage := rfl
@[simp] theorem State.resumeUser_bootDeviceSwitch (s : State) : s.resumeUser.bootDeviceSwitch = s.bootDeviceSwitch := rfl
@[simp] theorem State.resumeUser_loadEnableSwitch (s : State) : s.resumeUser.loadEnableSwitch = s.loadEnableSwitch := rfl
@[simp] theorem State.resumeUser_ioTrace (s : State) : s.resumeUser.ioTrace = s.ioTrace := rfl
@[simp] theorem State.resumeUser_parityData (s : State) : s.resumeUser.parityData = s.parityData := rfl
@[simp] theorem State.resumeUser_parityEntry (s : State) : s.resumeUser.parityEntry = s.parityEntry := rfl
@[simp] theorem State.resumeUser_within (s : State) : s.resumeUser.within = s.within := rfl
@[simp] theorem State.resumeUser_world (s : State) : s.resumeUser.world = s.world := rfl
@[simp] theorem State.resumeUser_draws (s : State) : s.resumeUser.draws = s.draws := rfl
@[simp] theorem State.resumeUser_reg (s : State) (i : Reg) : s.resumeUser.reg i = s.reg i := rfl
@[simp] theorem State.resumeUser_pair (s : State) (i : Reg) : s.resumeUser.pair i = s.pair i := rfl
@[simp] theorem State.resumeUser_spec (s : State) (i : Reg) : s.resumeUser.spec i = s.spec i := rfl

/-! ### resumeKernel -/

@[simp] theorem State.resumeKernel_regs (s : State) : s.resumeKernel.regs = s.regs := rfl
@[simp] theorem State.resumeKernel_pc (s : State) : s.resumeKernel.pc = s.spec 0 := rfl
@[simp] theorem State.resumeKernel_sr (s : State) : s.resumeKernel.sr = s.sr := rfl
@[simp] theorem State.resumeKernel_mode (s : State) : s.resumeKernel.mode = s.mode := rfl
@[simp] theorem State.resumeKernel_paused (s : State) : s.resumeKernel.paused = s.paused := rfl
@[simp] theorem State.resumeKernel_mem (s : State) : s.resumeKernel.mem = s.mem := rfl
@[simp] theorem State.resumeKernel_installed (s : State) : s.resumeKernel.installed = s.installed := rfl
@[simp] theorem State.resumeKernel_codeTmt (s : State) : s.resumeKernel.codeTmt = [] := rfl
@[simp] theorem State.resumeKernel_dataTmt (s : State) : s.resumeKernel.dataTmt = [] := rfl
@[simp] theorem State.resumeKernel_accessed (s : State) : s.resumeKernel.accessed = s.accessed := rfl
@[simp] theorem State.resumeKernel_fetch (s : State) : s.resumeKernel.fetch = .empty := rfl
@[simp] theorem State.resumeKernel_pending (s : State) : s.resumeKernel.pending = s.pending := rfl
@[simp] theorem State.resumeKernel_elog (s : State) : s.resumeKernel.elog = s.elog := rfl
@[simp] theorem State.resumeKernel_tickStage (s : State) : s.resumeKernel.tickStage = s.tickStage := rfl
@[simp] theorem State.resumeKernel_bootDeviceSwitch (s : State) : s.resumeKernel.bootDeviceSwitch = s.bootDeviceSwitch := rfl
@[simp] theorem State.resumeKernel_loadEnableSwitch (s : State) : s.resumeKernel.loadEnableSwitch = s.loadEnableSwitch := rfl
@[simp] theorem State.resumeKernel_ioTrace (s : State) : s.resumeKernel.ioTrace = s.ioTrace := rfl
@[simp] theorem State.resumeKernel_parityData (s : State) : s.resumeKernel.parityData = s.parityData := rfl
@[simp] theorem State.resumeKernel_parityEntry (s : State) : s.resumeKernel.parityEntry = s.parityEntry := rfl
@[simp] theorem State.resumeKernel_within (s : State) : s.resumeKernel.within = s.within := rfl
@[simp] theorem State.resumeKernel_world (s : State) : s.resumeKernel.world = s.world := rfl
@[simp] theorem State.resumeKernel_draws (s : State) : s.resumeKernel.draws = s.draws := rfl
@[simp] theorem State.resumeKernel_reg (s : State) (i : Reg) : s.resumeKernel.reg i = s.reg i := rfl
@[simp] theorem State.resumeKernel_pair (s : State) (i : Reg) : s.resumeKernel.pair i = s.pair i := rfl
@[simp] theorem State.resumeKernel_spec (s : State) (i : Reg) : s.resumeKernel.spec i = s.spec i := rfl

/-! ### recordAccess -/

@[simp] theorem State.recordAccess_regs (s : State) (seg : Word) (p : Page) (w : Bool) : (s.recordAccess seg p w).regs = s.regs := rfl
@[simp] theorem State.recordAccess_pc (s : State) (seg : Word) (p : Page) (w : Bool) : (s.recordAccess seg p w).pc = s.pc := rfl
@[simp] theorem State.recordAccess_sr (s : State) (seg : Word) (p : Page) (w : Bool) : (s.recordAccess seg p w).sr = s.sr := rfl
@[simp] theorem State.recordAccess_mode (s : State) (seg : Word) (p : Page) (w : Bool) : (s.recordAccess seg p w).mode = s.mode := rfl
@[simp] theorem State.recordAccess_paused (s : State) (seg : Word) (p : Page) (w : Bool) : (s.recordAccess seg p w).paused = s.paused := rfl
@[simp] theorem State.recordAccess_mem (s : State) (seg : Word) (p : Page) (w : Bool) : (s.recordAccess seg p w).mem = s.mem := rfl
@[simp] theorem State.recordAccess_installed (s : State) (seg : Word) (p : Page) (w : Bool) : (s.recordAccess seg p w).installed = s.installed := rfl
@[simp] theorem State.recordAccess_codeTmt (s : State) (seg : Word) (p : Page) (w : Bool) : (s.recordAccess seg p w).codeTmt = s.codeTmt := rfl
@[simp] theorem State.recordAccess_dataTmt (s : State) (seg : Word) (p : Page) (w : Bool) : (s.recordAccess seg p w).dataTmt = s.dataTmt := rfl
@[simp] theorem State.recordAccess_fetch (s : State) (seg : Word) (p : Page) (w : Bool) : (s.recordAccess seg p w).fetch = s.fetch := rfl
@[simp] theorem State.recordAccess_pending (s : State) (seg : Word) (p : Page) (w : Bool) : (s.recordAccess seg p w).pending = s.pending := rfl
@[simp] theorem State.recordAccess_elog (s : State) (seg : Word) (p : Page) (w : Bool) : (s.recordAccess seg p w).elog = s.elog := rfl
@[simp] theorem State.recordAccess_tickStage (s : State) (seg : Word) (p : Page) (w : Bool) : (s.recordAccess seg p w).tickStage = s.tickStage := rfl
@[simp] theorem State.recordAccess_bootDeviceSwitch (s : State) (seg : Word) (p : Page) (w : Bool) : (s.recordAccess seg p w).bootDeviceSwitch = s.bootDeviceSwitch := rfl
@[simp] theorem State.recordAccess_loadEnableSwitch (s : State) (seg : Word) (p : Page) (w : Bool) : (s.recordAccess seg p w).loadEnableSwitch = s.loadEnableSwitch := rfl
@[simp] theorem State.recordAccess_ioTrace (s : State) (seg : Word) (p : Page) (w : Bool) : (s.recordAccess seg p w).ioTrace = s.ioTrace := rfl
@[simp] theorem State.recordAccess_parityData (s : State) (seg : Word) (p : Page) (w : Bool) : (s.recordAccess seg p w).parityData = s.parityData := rfl
@[simp] theorem State.recordAccess_parityEntry (s : State) (seg : Word) (p : Page) (w : Bool) : (s.recordAccess seg p w).parityEntry = s.parityEntry := rfl
@[simp] theorem State.recordAccess_within (s : State) (seg : Word) (p : Page) (w : Bool) : (s.recordAccess seg p w).within = s.within := rfl
@[simp] theorem State.recordAccess_world (s : State) (seg : Word) (p : Page) (w : Bool) : (s.recordAccess seg p w).world = s.world := rfl
@[simp] theorem State.recordAccess_draws (s : State) (seg : Word) (p : Page) (w : Bool) : (s.recordAccess seg p w).draws = s.draws := rfl
@[simp] theorem State.recordAccess_reg (s : State) (seg : Word) (p : Page) (w : Bool) (i : Reg) : (s.recordAccess seg p w).reg i = s.reg i := rfl
@[simp] theorem State.recordAccess_pair (s : State) (seg : Word) (p : Page) (w : Bool) (i : Reg) : (s.recordAccess seg p w).pair i = s.pair i := rfl
@[simp] theorem State.recordAccess_spec (s : State) (seg : Word) (p : Page) (w : Bool) (i : Reg) : (s.recordAccess seg p w).spec i = s.spec i := rfl

/-! ### noteFetch -/

@[simp] theorem State.noteFetch_regs (s : State) (n : Nat) : (s.noteFetch n).regs = s.regs := rfl
@[simp] theorem State.noteFetch_pc (s : State) (n : Nat) : (s.noteFetch n).pc = s.pc := rfl
@[simp] theorem State.noteFetch_sr (s : State) (n : Nat) : (s.noteFetch n).sr = s.sr := rfl
@[simp] theorem State.noteFetch_mode (s : State) (n : Nat) : (s.noteFetch n).mode = s.mode := rfl
@[simp] theorem State.noteFetch_paused (s : State) (n : Nat) : (s.noteFetch n).paused = s.paused := rfl
@[simp] theorem State.noteFetch_mem (s : State) (n : Nat) : (s.noteFetch n).mem = s.mem := rfl
@[simp] theorem State.noteFetch_installed (s : State) (n : Nat) : (s.noteFetch n).installed = s.installed := rfl
@[simp] theorem State.noteFetch_codeTmt (s : State) (n : Nat) : (s.noteFetch n).codeTmt = s.codeTmt := rfl
@[simp] theorem State.noteFetch_dataTmt (s : State) (n : Nat) : (s.noteFetch n).dataTmt = s.dataTmt := rfl
@[simp] theorem State.noteFetch_accessed (s : State) (n : Nat) : (s.noteFetch n).accessed = s.accessed := rfl
@[simp] theorem State.noteFetch_pending (s : State) (n : Nat) : (s.noteFetch n).pending = s.pending := rfl
@[simp] theorem State.noteFetch_elog (s : State) (n : Nat) : (s.noteFetch n).elog = s.elog := rfl
@[simp] theorem State.noteFetch_tickStage (s : State) (n : Nat) : (s.noteFetch n).tickStage = s.tickStage := rfl
@[simp] theorem State.noteFetch_bootDeviceSwitch (s : State) (n : Nat) : (s.noteFetch n).bootDeviceSwitch = s.bootDeviceSwitch := rfl
@[simp] theorem State.noteFetch_loadEnableSwitch (s : State) (n : Nat) : (s.noteFetch n).loadEnableSwitch = s.loadEnableSwitch := rfl
@[simp] theorem State.noteFetch_ioTrace (s : State) (n : Nat) : (s.noteFetch n).ioTrace = s.ioTrace := rfl
@[simp] theorem State.noteFetch_parityData (s : State) (n : Nat) : (s.noteFetch n).parityData = s.parityData := rfl
@[simp] theorem State.noteFetch_parityEntry (s : State) (n : Nat) : (s.noteFetch n).parityEntry = s.parityEntry := rfl
@[simp] theorem State.noteFetch_within (s : State) (n : Nat) : (s.noteFetch n).within = s.within := rfl
@[simp] theorem State.noteFetch_world (s : State) (n : Nat) : (s.noteFetch n).world = s.world := rfl
@[simp] theorem State.noteFetch_draws (s : State) (n : Nat) : (s.noteFetch n).draws = s.draws := rfl
@[simp] theorem State.noteFetch_reg (s : State) (n : Nat) (i : Reg) : (s.noteFetch n).reg i = s.reg i := rfl
@[simp] theorem State.noteFetch_pair (s : State) (n : Nat) (i : Reg) : (s.noteFetch n).pair i = s.pair i := rfl
@[simp] theorem State.noteFetch_spec (s : State) (n : Nat) (i : Reg) : (s.noteFetch n).spec i = s.spec i := rfl

/-! ### afterFetch -/

@[simp] theorem State.afterFetch_regs (s : State) (n : Nat) : (s.afterFetch n).regs = s.regs := rfl
@[simp] theorem State.afterFetch_pc (s : State) (n : Nat) : (s.afterFetch n).pc = s.pc := rfl
@[simp] theorem State.afterFetch_sr (s : State) (n : Nat) : (s.afterFetch n).sr = s.sr := rfl
@[simp] theorem State.afterFetch_mode (s : State) (n : Nat) : (s.afterFetch n).mode = s.mode := rfl
@[simp] theorem State.afterFetch_paused (s : State) (n : Nat) : (s.afterFetch n).paused = s.paused := rfl
@[simp] theorem State.afterFetch_mem (s : State) (n : Nat) : (s.afterFetch n).mem = s.mem := rfl
@[simp] theorem State.afterFetch_installed (s : State) (n : Nat) : (s.afterFetch n).installed = s.installed := rfl
@[simp] theorem State.afterFetch_codeTmt (s : State) (n : Nat) : (s.afterFetch n).codeTmt = s.codeTmt := rfl
@[simp] theorem State.afterFetch_dataTmt (s : State) (n : Nat) : (s.afterFetch n).dataTmt = s.dataTmt := rfl
@[simp] theorem State.afterFetch_accessed (s : State) (n : Nat) : (s.afterFetch n).accessed = s.accessed := rfl
@[simp] theorem State.afterFetch_pending (s : State) (n : Nat) : (s.afterFetch n).pending = s.pending := rfl
@[simp] theorem State.afterFetch_elog (s : State) (n : Nat) : (s.afterFetch n).elog = s.elog := rfl
@[simp] theorem State.afterFetch_tickStage (s : State) (n : Nat) : (s.afterFetch n).tickStage = s.tickStage := rfl
@[simp] theorem State.afterFetch_bootDeviceSwitch (s : State) (n : Nat) : (s.afterFetch n).bootDeviceSwitch = s.bootDeviceSwitch := rfl
@[simp] theorem State.afterFetch_loadEnableSwitch (s : State) (n : Nat) : (s.afterFetch n).loadEnableSwitch = s.loadEnableSwitch := rfl
@[simp] theorem State.afterFetch_ioTrace (s : State) (n : Nat) : (s.afterFetch n).ioTrace = s.ioTrace := rfl
@[simp] theorem State.afterFetch_parityData (s : State) (n : Nat) : (s.afterFetch n).parityData = s.parityData := rfl
@[simp] theorem State.afterFetch_parityEntry (s : State) (n : Nat) : (s.afterFetch n).parityEntry = s.parityEntry := rfl
@[simp] theorem State.afterFetch_within (s : State) (n : Nat) : (s.afterFetch n).within = s.within := rfl
@[simp] theorem State.afterFetch_world (s : State) (n : Nat) : (s.afterFetch n).world = s.world := rfl
@[simp] theorem State.afterFetch_draws (s : State) (n : Nat) : (s.afterFetch n).draws = s.draws := rfl
@[simp] theorem State.afterFetch_reg (s : State) (n : Nat) (i : Reg) : (s.afterFetch n).reg i = s.reg i := rfl
@[simp] theorem State.afterFetch_pair (s : State) (n : Nat) (i : Reg) : (s.afterFetch n).pair i = s.pair i := rfl
@[simp] theorem State.afterFetch_spec (s : State) (n : Nat) (i : Reg) : (s.afterFetch n).spec i = s.spec i := rfl

/-! ### request -/

@[simp] theorem State.request_regs (s : State) (w : Word) : (s.request w).regs = s.regs := rfl
@[simp] theorem State.request_pc (s : State) (w : Word) : (s.request w).pc = s.pc := rfl
@[simp] theorem State.request_sr (s : State) (w : Word) : (s.request w).sr = s.sr := rfl
@[simp] theorem State.request_mode (s : State) (w : Word) : (s.request w).mode = s.mode := rfl
@[simp] theorem State.request_paused (s : State) (w : Word) : (s.request w).paused = s.paused := rfl
@[simp] theorem State.request_mem (s : State) (w : Word) : (s.request w).mem = s.mem := rfl
@[simp] theorem State.request_installed (s : State) (w : Word) : (s.request w).installed = s.installed := rfl
@[simp] theorem State.request_codeTmt (s : State) (w : Word) : (s.request w).codeTmt = s.codeTmt := rfl
@[simp] theorem State.request_dataTmt (s : State) (w : Word) : (s.request w).dataTmt = s.dataTmt := rfl
@[simp] theorem State.request_accessed (s : State) (w : Word) : (s.request w).accessed = s.accessed := rfl
@[simp] theorem State.request_fetch (s : State) (w : Word) : (s.request w).fetch = s.fetch := rfl
@[simp] theorem State.request_elog (s : State) (w : Word) : (s.request w).elog = s.elog := rfl
@[simp] theorem State.request_tickStage (s : State) (w : Word) : (s.request w).tickStage = s.tickStage := rfl
@[simp] theorem State.request_bootDeviceSwitch (s : State) (w : Word) : (s.request w).bootDeviceSwitch = s.bootDeviceSwitch := rfl
@[simp] theorem State.request_loadEnableSwitch (s : State) (w : Word) : (s.request w).loadEnableSwitch = s.loadEnableSwitch := rfl
@[simp] theorem State.request_ioTrace (s : State) (w : Word) : (s.request w).ioTrace = s.ioTrace := rfl
@[simp] theorem State.request_parityData (s : State) (w : Word) : (s.request w).parityData = s.parityData := rfl
@[simp] theorem State.request_parityEntry (s : State) (w : Word) : (s.request w).parityEntry = s.parityEntry := rfl
@[simp] theorem State.request_within (s : State) (w : Word) : (s.request w).within = s.within := rfl
@[simp] theorem State.request_world (s : State) (w : Word) : (s.request w).world = s.world := rfl
@[simp] theorem State.request_draws (s : State) (w : Word) : (s.request w).draws = s.draws := rfl
@[simp] theorem State.request_reg (s : State) (w : Word) (i : Reg) : (s.request w).reg i = s.reg i := rfl
@[simp] theorem State.request_pair (s : State) (w : Word) (i : Reg) : (s.request w).pair i = s.pair i := rfl
@[simp] theorem State.request_spec (s : State) (w : Word) (i : Reg) : (s.request w).spec i = s.spec i := rfl

/-! ### withdraw -/

@[simp] theorem State.withdraw_regs (s : State) (d : BitVec 8) : (s.withdraw d).regs = s.regs := rfl
@[simp] theorem State.withdraw_pc (s : State) (d : BitVec 8) : (s.withdraw d).pc = s.pc := rfl
@[simp] theorem State.withdraw_sr (s : State) (d : BitVec 8) : (s.withdraw d).sr = s.sr := rfl
@[simp] theorem State.withdraw_mode (s : State) (d : BitVec 8) : (s.withdraw d).mode = s.mode := rfl
@[simp] theorem State.withdraw_paused (s : State) (d : BitVec 8) : (s.withdraw d).paused = s.paused := rfl
@[simp] theorem State.withdraw_mem (s : State) (d : BitVec 8) : (s.withdraw d).mem = s.mem := rfl
@[simp] theorem State.withdraw_installed (s : State) (d : BitVec 8) : (s.withdraw d).installed = s.installed := rfl
@[simp] theorem State.withdraw_codeTmt (s : State) (d : BitVec 8) : (s.withdraw d).codeTmt = s.codeTmt := rfl
@[simp] theorem State.withdraw_dataTmt (s : State) (d : BitVec 8) : (s.withdraw d).dataTmt = s.dataTmt := rfl
@[simp] theorem State.withdraw_accessed (s : State) (d : BitVec 8) : (s.withdraw d).accessed = s.accessed := rfl
@[simp] theorem State.withdraw_fetch (s : State) (d : BitVec 8) : (s.withdraw d).fetch = s.fetch := rfl
@[simp] theorem State.withdraw_elog (s : State) (d : BitVec 8) : (s.withdraw d).elog = s.elog := rfl
@[simp] theorem State.withdraw_tickStage (s : State) (d : BitVec 8) : (s.withdraw d).tickStage = s.tickStage := rfl
@[simp] theorem State.withdraw_bootDeviceSwitch (s : State) (d : BitVec 8) : (s.withdraw d).bootDeviceSwitch = s.bootDeviceSwitch := rfl
@[simp] theorem State.withdraw_loadEnableSwitch (s : State) (d : BitVec 8) : (s.withdraw d).loadEnableSwitch = s.loadEnableSwitch := rfl
@[simp] theorem State.withdraw_ioTrace (s : State) (d : BitVec 8) : (s.withdraw d).ioTrace = s.ioTrace := rfl
@[simp] theorem State.withdraw_parityData (s : State) (d : BitVec 8) : (s.withdraw d).parityData = s.parityData := rfl
@[simp] theorem State.withdraw_parityEntry (s : State) (d : BitVec 8) : (s.withdraw d).parityEntry = s.parityEntry := rfl
@[simp] theorem State.withdraw_within (s : State) (d : BitVec 8) : (s.withdraw d).within = s.within := rfl
@[simp] theorem State.withdraw_world (s : State) (d : BitVec 8) : (s.withdraw d).world = s.world := rfl
@[simp] theorem State.withdraw_draws (s : State) (d : BitVec 8) : (s.withdraw d).draws = s.draws := rfl
@[simp] theorem State.withdraw_reg (s : State) (d : BitVec 8) (i : Reg) : (s.withdraw d).reg i = s.reg i := rfl
@[simp] theorem State.withdraw_pair (s : State) (d : BitVec 8) (i : Reg) : (s.withdraw d).pair i = s.pair i := rfl
@[simp] theorem State.withdraw_spec (s : State) (d : BitVec 8) (i : Reg) : (s.withdraw d).spec i = s.spec i := rfl

/-! ### timersPending -/

@[simp] theorem State.timersPending_regs (s : State) (t1 t2 : Word) : (s.timersPending t1 t2).regs = s.regs := rfl
@[simp] theorem State.timersPending_pc (s : State) (t1 t2 : Word) : (s.timersPending t1 t2).pc = s.pc := rfl
@[simp] theorem State.timersPending_sr (s : State) (t1 t2 : Word) : (s.timersPending t1 t2).sr = s.sr := rfl
@[simp] theorem State.timersPending_mode (s : State) (t1 t2 : Word) : (s.timersPending t1 t2).mode = s.mode := rfl
@[simp] theorem State.timersPending_paused (s : State) (t1 t2 : Word) : (s.timersPending t1 t2).paused = s.paused := rfl
@[simp] theorem State.timersPending_mem (s : State) (t1 t2 : Word) : (s.timersPending t1 t2).mem = s.mem := rfl
@[simp] theorem State.timersPending_installed (s : State) (t1 t2 : Word) : (s.timersPending t1 t2).installed = s.installed := rfl
@[simp] theorem State.timersPending_codeTmt (s : State) (t1 t2 : Word) : (s.timersPending t1 t2).codeTmt = s.codeTmt := rfl
@[simp] theorem State.timersPending_dataTmt (s : State) (t1 t2 : Word) : (s.timersPending t1 t2).dataTmt = s.dataTmt := rfl
@[simp] theorem State.timersPending_accessed (s : State) (t1 t2 : Word) : (s.timersPending t1 t2).accessed = s.accessed := rfl
@[simp] theorem State.timersPending_fetch (s : State) (t1 t2 : Word) : (s.timersPending t1 t2).fetch = s.fetch := rfl
@[simp] theorem State.timersPending_elog (s : State) (t1 t2 : Word) : (s.timersPending t1 t2).elog = s.elog := rfl
@[simp] theorem State.timersPending_tickStage (s : State) (t1 t2 : Word) : (s.timersPending t1 t2).tickStage = s.tickStage := rfl
@[simp] theorem State.timersPending_bootDeviceSwitch (s : State) (t1 t2 : Word) : (s.timersPending t1 t2).bootDeviceSwitch = s.bootDeviceSwitch := rfl
@[simp] theorem State.timersPending_loadEnableSwitch (s : State) (t1 t2 : Word) : (s.timersPending t1 t2).loadEnableSwitch = s.loadEnableSwitch := rfl
@[simp] theorem State.timersPending_ioTrace (s : State) (t1 t2 : Word) : (s.timersPending t1 t2).ioTrace = s.ioTrace := rfl
@[simp] theorem State.timersPending_parityData (s : State) (t1 t2 : Word) : (s.timersPending t1 t2).parityData = s.parityData := rfl
@[simp] theorem State.timersPending_parityEntry (s : State) (t1 t2 : Word) : (s.timersPending t1 t2).parityEntry = s.parityEntry := rfl
@[simp] theorem State.timersPending_within (s : State) (t1 t2 : Word) : (s.timersPending t1 t2).within = s.within := rfl
@[simp] theorem State.timersPending_world (s : State) (t1 t2 : Word) : (s.timersPending t1 t2).world = s.world := rfl
@[simp] theorem State.timersPending_draws (s : State) (t1 t2 : Word) : (s.timersPending t1 t2).draws = s.draws := rfl
@[simp] theorem State.timersPending_reg (s : State) (t1 t2 : Word) (i : Reg) : (s.timersPending t1 t2).reg i = s.reg i := rfl
@[simp] theorem State.timersPending_pair (s : State) (t1 t2 : Word) (i : Reg) : (s.timersPending t1 t2).pair i = s.pair i := rfl
@[simp] theorem State.timersPending_spec (s : State) (t1 t2 : Word) (i : Reg) : (s.timersPending t1 t2).spec i = s.spec i := rfl

/-! ### setTick -/

@[simp] theorem State.setTick_regs (s : State) (stage : TickStage) : (s.setTick stage).regs = s.regs := rfl
@[simp] theorem State.setTick_pc (s : State) (stage : TickStage) : (s.setTick stage).pc = s.pc := rfl
@[simp] theorem State.setTick_sr (s : State) (stage : TickStage) : (s.setTick stage).sr = s.sr := rfl
@[simp] theorem State.setTick_mode (s : State) (stage : TickStage) : (s.setTick stage).mode = s.mode := rfl
@[simp] theorem State.setTick_paused (s : State) (stage : TickStage) : (s.setTick stage).paused = s.paused := rfl
@[simp] theorem State.setTick_mem (s : State) (stage : TickStage) : (s.setTick stage).mem = s.mem := rfl
@[simp] theorem State.setTick_installed (s : State) (stage : TickStage) : (s.setTick stage).installed = s.installed := rfl
@[simp] theorem State.setTick_codeTmt (s : State) (stage : TickStage) : (s.setTick stage).codeTmt = s.codeTmt := rfl
@[simp] theorem State.setTick_dataTmt (s : State) (stage : TickStage) : (s.setTick stage).dataTmt = s.dataTmt := rfl
@[simp] theorem State.setTick_accessed (s : State) (stage : TickStage) : (s.setTick stage).accessed = s.accessed := rfl
@[simp] theorem State.setTick_fetch (s : State) (stage : TickStage) : (s.setTick stage).fetch = s.fetch := rfl
@[simp] theorem State.setTick_pending (s : State) (stage : TickStage) : (s.setTick stage).pending = s.pending := rfl
@[simp] theorem State.setTick_elog (s : State) (stage : TickStage) : (s.setTick stage).elog = s.elog := rfl
@[simp] theorem State.setTick_tickStage (s : State) (stage : TickStage) : (s.setTick stage).tickStage = stage := rfl
@[simp] theorem State.setTick_bootDeviceSwitch (s : State) (stage : TickStage) : (s.setTick stage).bootDeviceSwitch = s.bootDeviceSwitch := rfl
@[simp] theorem State.setTick_loadEnableSwitch (s : State) (stage : TickStage) : (s.setTick stage).loadEnableSwitch = s.loadEnableSwitch := rfl
@[simp] theorem State.setTick_ioTrace (s : State) (stage : TickStage) : (s.setTick stage).ioTrace = s.ioTrace := rfl
@[simp] theorem State.setTick_parityData (s : State) (stage : TickStage) : (s.setTick stage).parityData = s.parityData := rfl
@[simp] theorem State.setTick_parityEntry (s : State) (stage : TickStage) : (s.setTick stage).parityEntry = s.parityEntry := rfl
@[simp] theorem State.setTick_within (s : State) (stage : TickStage) : (s.setTick stage).within = s.within := rfl
@[simp] theorem State.setTick_world (s : State) (stage : TickStage) : (s.setTick stage).world = s.world := rfl
@[simp] theorem State.setTick_draws (s : State) (stage : TickStage) : (s.setTick stage).draws = s.draws := rfl
@[simp] theorem State.setTick_reg (s : State) (stage : TickStage) (i : Reg) : (s.setTick stage).reg i = s.reg i := rfl
@[simp] theorem State.setTick_pair (s : State) (stage : TickStage) (i : Reg) : (s.setTick stage).pair i = s.pair i := rfl
@[simp] theorem State.setTick_spec (s : State) (stage : TickStage) (i : Reg) : (s.setTick stage).spec i = s.spec i := rfl

/-! ### dropTmt -/

@[simp] theorem State.dropTmt_regs (s : State) (seg : Segment) (p : Page) : (s.dropTmt seg p).regs = s.regs := by cases seg <;> rfl
@[simp] theorem State.dropTmt_pc (s : State) (seg : Segment) (p : Page) : (s.dropTmt seg p).pc = s.pc := by cases seg <;> rfl
@[simp] theorem State.dropTmt_sr (s : State) (seg : Segment) (p : Page) : (s.dropTmt seg p).sr = s.sr := by cases seg <;> rfl
@[simp] theorem State.dropTmt_mode (s : State) (seg : Segment) (p : Page) : (s.dropTmt seg p).mode = s.mode := by cases seg <;> rfl
@[simp] theorem State.dropTmt_paused (s : State) (seg : Segment) (p : Page) : (s.dropTmt seg p).paused = s.paused := by cases seg <;> rfl
@[simp] theorem State.dropTmt_mem (s : State) (seg : Segment) (p : Page) : (s.dropTmt seg p).mem = s.mem := by cases seg <;> rfl
@[simp] theorem State.dropTmt_installed (s : State) (seg : Segment) (p : Page) : (s.dropTmt seg p).installed = s.installed := by cases seg <;> rfl
@[simp] theorem State.dropTmt_accessed (s : State) (seg : Segment) (p : Page) : (s.dropTmt seg p).accessed = s.accessed := by cases seg <;> rfl
@[simp] theorem State.dropTmt_fetch (s : State) (seg : Segment) (p : Page) : (s.dropTmt seg p).fetch = s.fetch := by cases seg <;> rfl
@[simp] theorem State.dropTmt_pending (s : State) (seg : Segment) (p : Page) : (s.dropTmt seg p).pending = s.pending := by cases seg <;> rfl
@[simp] theorem State.dropTmt_elog (s : State) (seg : Segment) (p : Page) : (s.dropTmt seg p).elog = s.elog := by cases seg <;> rfl
@[simp] theorem State.dropTmt_tickStage (s : State) (seg : Segment) (p : Page) : (s.dropTmt seg p).tickStage = s.tickStage := by cases seg <;> rfl
@[simp] theorem State.dropTmt_bootDeviceSwitch (s : State) (seg : Segment) (p : Page) : (s.dropTmt seg p).bootDeviceSwitch = s.bootDeviceSwitch := by cases seg <;> rfl
@[simp] theorem State.dropTmt_loadEnableSwitch (s : State) (seg : Segment) (p : Page) : (s.dropTmt seg p).loadEnableSwitch = s.loadEnableSwitch := by cases seg <;> rfl
@[simp] theorem State.dropTmt_ioTrace (s : State) (seg : Segment) (p : Page) : (s.dropTmt seg p).ioTrace = s.ioTrace := by cases seg <;> rfl
@[simp] theorem State.dropTmt_parityData (s : State) (seg : Segment) (p : Page) : (s.dropTmt seg p).parityData = s.parityData := by cases seg <;> rfl
@[simp] theorem State.dropTmt_parityEntry (s : State) (seg : Segment) (p : Page) : (s.dropTmt seg p).parityEntry = s.parityEntry := by cases seg <;> rfl
@[simp] theorem State.dropTmt_within (s : State) (seg : Segment) (p : Page) : (s.dropTmt seg p).within = s.within := by cases seg <;> rfl
@[simp] theorem State.dropTmt_world (s : State) (seg : Segment) (p : Page) : (s.dropTmt seg p).world = s.world := by cases seg <;> rfl
@[simp] theorem State.dropTmt_draws (s : State) (seg : Segment) (p : Page) : (s.dropTmt seg p).draws = s.draws := by cases seg <;> rfl
@[simp] theorem State.dropTmt_reg (s : State) (seg : Segment) (p : Page) (i : Reg) : (s.dropTmt seg p).reg i = s.reg i := by cases seg <;> rfl
@[simp] theorem State.dropTmt_spec (s : State) (seg : Segment) (p : Page) (i : Reg) : (s.dropTmt seg p).spec i = s.spec i := by cases seg <;> rfl

/-! ### dropAhead -/

@[simp] theorem State.dropAhead_regs (s : State)  : s.dropAhead.regs = s.regs := by unfold State.dropAhead; split <;> rfl
@[simp] theorem State.dropAhead_pc (s : State)  : s.dropAhead.pc = s.pc := by unfold State.dropAhead; split <;> rfl
@[simp] theorem State.dropAhead_sr (s : State)  : s.dropAhead.sr = s.sr := by unfold State.dropAhead; split <;> rfl
@[simp] theorem State.dropAhead_mode (s : State)  : s.dropAhead.mode = s.mode := by unfold State.dropAhead; split <;> rfl
@[simp] theorem State.dropAhead_paused (s : State)  : s.dropAhead.paused = s.paused := by unfold State.dropAhead; split <;> rfl
@[simp] theorem State.dropAhead_mem (s : State)  : s.dropAhead.mem = s.mem := by unfold State.dropAhead; split <;> rfl
@[simp] theorem State.dropAhead_installed (s : State)  : s.dropAhead.installed = s.installed := by unfold State.dropAhead; split <;> rfl
@[simp] theorem State.dropAhead_codeTmt (s : State)  : s.dropAhead.codeTmt = s.codeTmt := by unfold State.dropAhead; split <;> rfl
@[simp] theorem State.dropAhead_dataTmt (s : State)  : s.dropAhead.dataTmt = s.dataTmt := by unfold State.dropAhead; split <;> rfl
@[simp] theorem State.dropAhead_accessed (s : State)  : s.dropAhead.accessed = s.accessed := by unfold State.dropAhead; split <;> rfl
@[simp] theorem State.dropAhead_pending (s : State)  : s.dropAhead.pending = s.pending := by unfold State.dropAhead; split <;> rfl
@[simp] theorem State.dropAhead_elog (s : State)  : s.dropAhead.elog = s.elog := by unfold State.dropAhead; split <;> rfl
@[simp] theorem State.dropAhead_tickStage (s : State)  : s.dropAhead.tickStage = s.tickStage := by unfold State.dropAhead; split <;> rfl
@[simp] theorem State.dropAhead_bootDeviceSwitch (s : State)  : s.dropAhead.bootDeviceSwitch = s.bootDeviceSwitch := by unfold State.dropAhead; split <;> rfl
@[simp] theorem State.dropAhead_loadEnableSwitch (s : State)  : s.dropAhead.loadEnableSwitch = s.loadEnableSwitch := by unfold State.dropAhead; split <;> rfl
@[simp] theorem State.dropAhead_ioTrace (s : State)  : s.dropAhead.ioTrace = s.ioTrace := by unfold State.dropAhead; split <;> rfl
@[simp] theorem State.dropAhead_parityData (s : State)  : s.dropAhead.parityData = s.parityData := by unfold State.dropAhead; split <;> rfl
@[simp] theorem State.dropAhead_parityEntry (s : State)  : s.dropAhead.parityEntry = s.parityEntry := by unfold State.dropAhead; split <;> rfl
@[simp] theorem State.dropAhead_within (s : State)  : s.dropAhead.within = s.within := by unfold State.dropAhead; split <;> rfl
@[simp] theorem State.dropAhead_world (s : State)  : s.dropAhead.world = s.world := by unfold State.dropAhead; split <;> rfl
@[simp] theorem State.dropAhead_draws (s : State)  : s.dropAhead.draws = s.draws := by unfold State.dropAhead; split <;> rfl
@[simp] theorem State.dropAhead_reg (s : State)  (i : Reg) : s.dropAhead.reg i = s.reg i := by unfold State.dropAhead; split <;> rfl
@[simp] theorem State.dropAhead_spec (s : State)  (i : Reg) : s.dropAhead.spec i = s.spec i := by unfold State.dropAhead; split <;> rfl

/-! ### setInfo -/

@[simp] theorem State.setInfo_regs (s : State) (k : Reg) (v : Option Word) : (s.setInfo k v).regs = s.regs := by cases v <;> rfl
@[simp] theorem State.setInfo_pc (s : State) (k : Reg) (v : Option Word) : (s.setInfo k v).pc = s.pc := by cases v <;> rfl
@[simp] theorem State.setInfo_mode (s : State) (k : Reg) (v : Option Word) : (s.setInfo k v).mode = s.mode := by cases v <;> rfl
@[simp] theorem State.setInfo_paused (s : State) (k : Reg) (v : Option Word) : (s.setInfo k v).paused = s.paused := by cases v <;> rfl
@[simp] theorem State.setInfo_mem (s : State) (k : Reg) (v : Option Word) : (s.setInfo k v).mem = s.mem := by cases v <;> rfl
@[simp] theorem State.setInfo_installed (s : State) (k : Reg) (v : Option Word) : (s.setInfo k v).installed = s.installed := by cases v <;> rfl
@[simp] theorem State.setInfo_codeTmt (s : State) (k : Reg) (v : Option Word) : (s.setInfo k v).codeTmt = s.codeTmt := by cases v <;> rfl
@[simp] theorem State.setInfo_dataTmt (s : State) (k : Reg) (v : Option Word) : (s.setInfo k v).dataTmt = s.dataTmt := by cases v <;> rfl
@[simp] theorem State.setInfo_accessed (s : State) (k : Reg) (v : Option Word) : (s.setInfo k v).accessed = s.accessed := by cases v <;> rfl
@[simp] theorem State.setInfo_fetch (s : State) (k : Reg) (v : Option Word) : (s.setInfo k v).fetch = s.fetch := by cases v <;> rfl
@[simp] theorem State.setInfo_pending (s : State) (k : Reg) (v : Option Word) : (s.setInfo k v).pending = s.pending := by cases v <;> rfl
@[simp] theorem State.setInfo_elog (s : State) (k : Reg) (v : Option Word) : (s.setInfo k v).elog = s.elog := by cases v <;> rfl
@[simp] theorem State.setInfo_tickStage (s : State) (k : Reg) (v : Option Word) : (s.setInfo k v).tickStage = s.tickStage := by cases v <;> rfl
@[simp] theorem State.setInfo_bootDeviceSwitch (s : State) (k : Reg) (v : Option Word) : (s.setInfo k v).bootDeviceSwitch = s.bootDeviceSwitch := by cases v <;> rfl
@[simp] theorem State.setInfo_loadEnableSwitch (s : State) (k : Reg) (v : Option Word) : (s.setInfo k v).loadEnableSwitch = s.loadEnableSwitch := by cases v <;> rfl
@[simp] theorem State.setInfo_ioTrace (s : State) (k : Reg) (v : Option Word) : (s.setInfo k v).ioTrace = s.ioTrace := by cases v <;> rfl
@[simp] theorem State.setInfo_parityData (s : State) (k : Reg) (v : Option Word) : (s.setInfo k v).parityData = s.parityData := by cases v <;> rfl
@[simp] theorem State.setInfo_parityEntry (s : State) (k : Reg) (v : Option Word) : (s.setInfo k v).parityEntry = s.parityEntry := by cases v <;> rfl
@[simp] theorem State.setInfo_within (s : State) (k : Reg) (v : Option Word) : (s.setInfo k v).within = s.within := by cases v <;> rfl
@[simp] theorem State.setInfo_world (s : State) (k : Reg) (v : Option Word) : (s.setInfo k v).world = s.world := by cases v <;> rfl
@[simp] theorem State.setInfo_reg (s : State) (k : Reg) (v : Option Word) (i : Reg) : (s.setInfo k v).reg i = s.reg i := by cases v <;> rfl

/-! ### saveReturn -/

@[simp] theorem State.saveReturn_regs (s : State) (ret : Word) : (s.saveReturn ret).regs = s.regs := by unfold State.saveReturn; split <;> rfl
@[simp] theorem State.saveReturn_pc (s : State) (ret : Word) : (s.saveReturn ret).pc = s.pc := by unfold State.saveReturn; split <;> rfl
@[simp] theorem State.saveReturn_mode (s : State) (ret : Word) : (s.saveReturn ret).mode = s.mode := by unfold State.saveReturn; split <;> rfl
@[simp] theorem State.saveReturn_paused (s : State) (ret : Word) : (s.saveReturn ret).paused = s.paused := by unfold State.saveReturn; split <;> rfl
@[simp] theorem State.saveReturn_mem (s : State) (ret : Word) : (s.saveReturn ret).mem = s.mem := by unfold State.saveReturn; split <;> rfl
@[simp] theorem State.saveReturn_installed (s : State) (ret : Word) : (s.saveReturn ret).installed = s.installed := by unfold State.saveReturn; split <;> rfl
@[simp] theorem State.saveReturn_codeTmt (s : State) (ret : Word) : (s.saveReturn ret).codeTmt = s.codeTmt := by unfold State.saveReturn; split <;> rfl
@[simp] theorem State.saveReturn_dataTmt (s : State) (ret : Word) : (s.saveReturn ret).dataTmt = s.dataTmt := by unfold State.saveReturn; split <;> rfl
@[simp] theorem State.saveReturn_accessed (s : State) (ret : Word) : (s.saveReturn ret).accessed = s.accessed := by unfold State.saveReturn; split <;> rfl
@[simp] theorem State.saveReturn_fetch (s : State) (ret : Word) : (s.saveReturn ret).fetch = s.fetch := by unfold State.saveReturn; split <;> rfl
@[simp] theorem State.saveReturn_pending (s : State) (ret : Word) : (s.saveReturn ret).pending = s.pending := by unfold State.saveReturn; split <;> rfl
@[simp] theorem State.saveReturn_elog (s : State) (ret : Word) : (s.saveReturn ret).elog = s.elog := by unfold State.saveReturn; split <;> rfl
@[simp] theorem State.saveReturn_tickStage (s : State) (ret : Word) : (s.saveReturn ret).tickStage = s.tickStage := by unfold State.saveReturn; split <;> rfl
@[simp] theorem State.saveReturn_bootDeviceSwitch (s : State) (ret : Word) : (s.saveReturn ret).bootDeviceSwitch = s.bootDeviceSwitch := by unfold State.saveReturn; split <;> rfl
@[simp] theorem State.saveReturn_loadEnableSwitch (s : State) (ret : Word) : (s.saveReturn ret).loadEnableSwitch = s.loadEnableSwitch := by unfold State.saveReturn; split <;> rfl
@[simp] theorem State.saveReturn_ioTrace (s : State) (ret : Word) : (s.saveReturn ret).ioTrace = s.ioTrace := by unfold State.saveReturn; split <;> rfl
@[simp] theorem State.saveReturn_parityData (s : State) (ret : Word) : (s.saveReturn ret).parityData = s.parityData := by unfold State.saveReturn; split <;> rfl
@[simp] theorem State.saveReturn_parityEntry (s : State) (ret : Word) : (s.saveReturn ret).parityEntry = s.parityEntry := by unfold State.saveReturn; split <;> rfl
@[simp] theorem State.saveReturn_within (s : State) (ret : Word) : (s.saveReturn ret).within = s.within := by unfold State.saveReturn; split <;> rfl
@[simp] theorem State.saveReturn_world (s : State) (ret : Word) : (s.saveReturn ret).world = s.world := by unfold State.saveReturn; split <;> rfl
@[simp] theorem State.saveReturn_draws (s : State) (ret : Word) : (s.saveReturn ret).draws = s.draws := by unfold State.saveReturn; split <;> rfl
@[simp] theorem State.saveReturn_reg (s : State) (ret : Word) (i : Reg) : (s.saveReturn ret).reg i = s.reg i := by unfold State.saveReturn; split <;> rfl

/-! ### setTmt -/

@[simp] theorem State.setTmt_regs (s : State) (seg : Segment) (l : List TmtEntry) : (s.setTmt seg l).regs = s.regs := by cases seg <;> rfl
@[simp] theorem State.setTmt_pc (s : State) (seg : Segment) (l : List TmtEntry) : (s.setTmt seg l).pc = s.pc := by cases seg <;> rfl
@[simp] theorem State.setTmt_sr (s : State) (seg : Segment) (l : List TmtEntry) : (s.setTmt seg l).sr = s.sr := by cases seg <;> rfl
@[simp] theorem State.setTmt_mode (s : State) (seg : Segment) (l : List TmtEntry) : (s.setTmt seg l).mode = s.mode := by cases seg <;> rfl
@[simp] theorem State.setTmt_paused (s : State) (seg : Segment) (l : List TmtEntry) : (s.setTmt seg l).paused = s.paused := by cases seg <;> rfl
@[simp] theorem State.setTmt_mem (s : State) (seg : Segment) (l : List TmtEntry) : (s.setTmt seg l).mem = s.mem := by cases seg <;> rfl
@[simp] theorem State.setTmt_installed (s : State) (seg : Segment) (l : List TmtEntry) : (s.setTmt seg l).installed = s.installed := by cases seg <;> rfl
@[simp] theorem State.setTmt_accessed (s : State) (seg : Segment) (l : List TmtEntry) : (s.setTmt seg l).accessed = s.accessed := by cases seg <;> rfl
@[simp] theorem State.setTmt_fetch (s : State) (seg : Segment) (l : List TmtEntry) : (s.setTmt seg l).fetch = s.fetch := by cases seg <;> rfl
@[simp] theorem State.setTmt_pending (s : State) (seg : Segment) (l : List TmtEntry) : (s.setTmt seg l).pending = s.pending := by cases seg <;> rfl
@[simp] theorem State.setTmt_elog (s : State) (seg : Segment) (l : List TmtEntry) : (s.setTmt seg l).elog = s.elog := by cases seg <;> rfl
@[simp] theorem State.setTmt_tickStage (s : State) (seg : Segment) (l : List TmtEntry) : (s.setTmt seg l).tickStage = s.tickStage := by cases seg <;> rfl
@[simp] theorem State.setTmt_bootDeviceSwitch (s : State) (seg : Segment) (l : List TmtEntry) : (s.setTmt seg l).bootDeviceSwitch = s.bootDeviceSwitch := by cases seg <;> rfl
@[simp] theorem State.setTmt_loadEnableSwitch (s : State) (seg : Segment) (l : List TmtEntry) : (s.setTmt seg l).loadEnableSwitch = s.loadEnableSwitch := by cases seg <;> rfl
@[simp] theorem State.setTmt_ioTrace (s : State) (seg : Segment) (l : List TmtEntry) : (s.setTmt seg l).ioTrace = s.ioTrace := by cases seg <;> rfl
@[simp] theorem State.setTmt_parityData (s : State) (seg : Segment) (l : List TmtEntry) : (s.setTmt seg l).parityData = s.parityData := by cases seg <;> rfl
@[simp] theorem State.setTmt_parityEntry (s : State) (seg : Segment) (l : List TmtEntry) : (s.setTmt seg l).parityEntry = s.parityEntry := by cases seg <;> rfl
@[simp] theorem State.setTmt_within (s : State) (seg : Segment) (l : List TmtEntry) : (s.setTmt seg l).within = s.within := by cases seg <;> rfl
@[simp] theorem State.setTmt_world (s : State) (seg : Segment) (l : List TmtEntry) : (s.setTmt seg l).world = s.world := by cases seg <;> rfl
@[simp] theorem State.setTmt_draws (s : State) (seg : Segment) (l : List TmtEntry) : (s.setTmt seg l).draws = s.draws := by cases seg <;> rfl
@[simp] theorem State.setTmt_reg (s : State) (seg : Segment) (l : List TmtEntry) (i : Reg) : (s.setTmt seg l).reg i = s.reg i := by cases seg <;> rfl
@[simp] theorem State.setTmt_spec (s : State) (seg : Segment) (l : List TmtEntry) (i : Reg) : (s.setTmt seg l).spec i = s.spec i := by cases seg <;> rfl

/-! ### Registers read after a write -/

@[simp] theorem State.reg_setReg_same (s : State) (r : Reg) (v : Word) : (s.setReg r v).reg r = v := by
  simp [State.reg, State.setReg]

theorem State.reg_setReg_other (s : State) (r i : Reg) (v : Word) (h : i ≠ r) : (s.setReg r v).reg i = s.reg i := by
  have h' : r.toNat ≠ i.toNat := fun e => h (BitVec.eq_of_toNat_eq e.symm)
  simp [State.reg, State.setReg, Vector.getElem_set_ne _ _ h']

theorem State.reg_setReg (s : State) (r i : Reg) (v : Word) :
    (s.setReg r v).reg i = if i = r then v else s.reg i := by
  by_cases h : i = r
  · subst h; simp
  · simp [h, State.reg_setReg_other]

@[simp] theorem State.spec_setSpec_same (s : State) (k : Reg) (v : Word) : (s.setSpec k v).spec k = v := by
  simp [State.spec, State.setSpec]

theorem State.spec_setSpec_other (s : State) (k i : Reg) (v : Word) (h : i ≠ k) :
    (s.setSpec k v).spec i = s.spec i := by
  have h' : k.toNat ≠ i.toNat := fun e => h (BitVec.eq_of_toNat_eq e.symm)
  simp [State.spec, State.setSpec, Vector.getElem_set_ne _ _ h']

theorem State.spec_setSpec (s : State) (k i : Reg) (v : Word) :
    (s.setSpec k v).spec i = if i = k then v else s.spec i := by
  by_cases h : i = k
  · subst h; simp
  · simp [h, State.spec_setSpec_other]

/-- The two registers of a pair are different. -/
theorem reg_succ_ne (r : Reg) : r + 1 ≠ r := by
  intro h
  simp at h


theorem State.reg_setPair (s : State) (r i : Reg) (v : Double) :
    (s.setPair r v).reg i =
      if i = r + 1 then v.extractLsb' 0 32 else if i = r then v.extractLsb' 32 32 else s.reg i := by
  simp [State.setPair, State.reg_setReg]

/-- A pair read after it was written (R10). -/
@[simp] theorem State.pair_setPair_same (s : State) (r : Reg) (v : Double) : (s.setPair r v).pair r = v := by
  have h : r ≠ r + 1 := fun e => reg_succ_ne r e.symm
  simp only [State.pair, State.reg_setPair, h, if_false, if_true]
  ext i hi
  simp only [BitVec.getElem_append, BitVec.getElem_extractLsb']
  split <;> simp_all [BitVec.getLsbD_eq_getElem]

theorem State.spec_setInfo (s : State) (k i : Reg) (v : Option Word) (h : i ≠ k) :
    (s.setInfo k v).spec i = s.spec i := by
  cases v <;> simp [State.setInfo, State.spec_setSpec_other _ _ _ _ h]

/-! ### What a fetch notes (R141, R612) -/

@[simp] theorem State.dropAhead_stale (s : State) : s.dropAhead.fetch.stale = s.fetch.stale := by
  unfold State.dropAhead; split <;> rfl

@[simp] theorem State.dropAhead_seen (s : State) : s.dropAhead.fetch.seen = s.fetch.seen := by
  unfold State.dropAhead; split <;> rfl

theorem State.dropAhead_ahead (s : State) :
    s.dropAhead.fetch.ahead = if s.fetch.aheadPc = s.pc then s.fetch.ahead else [] := by
  unfold State.dropAhead; split <;> rfl

@[simp] theorem FetchState.note_stale (f : FetchState) (x : SeenFetch) : (f.note x).stale = f.stale := by
  unfold FetchState.note; split <;> rfl

@[simp] theorem FetchState.note_ahead (f : FetchState) (x : SeenFetch) : (f.note x).ahead = f.ahead := by
  unfold FetchState.note; split <;> rfl

@[simp] theorem FetchState.note_aheadPc (f : FetchState) (x : SeenFetch) : (f.note x).aheadPc = f.aheadPc := by
  unfold FetchState.note; split <;> rfl

theorem FetchState.mem_note_seen (f : FetchState) (x y : SeenFetch) : y ∈ (f.note x).seen ↔ y ∈ f.seen ∨ y = x := by
  unfold FetchState.note; split
  · rename_i h
    have : x ∈ f.seen := by simpa using h
    constructor
    · exact Or.inl
    · rintro (h | rfl) <;> assumption
  · simp [or_comm]

@[simp] theorem State.noteFetch_stale (s : State) (n : Nat) : (s.noteFetch n).fetch.stale = s.fetch.stale := by
  simp [State.noteFetch]

@[simp] theorem State.noteFetch_ahead (s : State) (n : Nat) : (s.noteFetch n).fetch.ahead = s.fetch.ahead := by
  simp [State.noteFetch]

@[simp] theorem State.noteFetch_aheadPc (s : State) (n : Nat) : (s.noteFetch n).fetch.aheadPc = s.fetch.aheadPc := by
  simp [State.noteFetch]

theorem State.mem_noteFetch_seen (s : State) (n : Nat) (x : SeenFetch) :
    x ∈ (s.noteFetch n).fetch.seen ↔
      x ∈ s.fetch.seen ∨ x = { space := s.space, address := s.pc, length := n + 12 } := by
  simp [State.noteFetch, FetchState.mem_note_seen]

/-- A fetch noted changes no old byte (R140). -/
@[simp] theorem State.noteFetch_old (s : State) (n a : Nat) : (s.noteFetch n).fetch.old a = s.fetch.old a := by
  simp [FetchState.old]

/-- Nor what the cache may hold of other spaces (R612). -/
@[simp] theorem State.noteFetch_mixed (s : State) (n : Nat) (va : Word) :
    (s.noteFetch n).fetch.mixed s.space va = s.fetch.mixed s.space va := by
  rw [Bool.eq_iff_iff]
  simp only [FetchState.mixed, List.any_eq_true, State.mem_noteFetch_seen]
  constructor
  · rintro ⟨x, hx | rfl, h⟩
    · exact ⟨x, hx, h⟩
    · simp at h
  · rintro ⟨x, hx, h⟩
    exact ⟨x, .inl hx, h⟩

@[simp] theorem State.afterFetch_stale (s : State) (n : Nat) : (s.afterFetch n).fetch.stale = s.fetch.stale := rfl

@[simp] theorem State.afterFetch_seen (s : State) (n : Nat) : (s.afterFetch n).fetch.seen = s.fetch.seen := rfl

@[simp] theorem State.afterFetch_ahead (s : State) (n : Nat) : (s.afterFetch n).fetch.ahead = s.fetch.ahead.tail := rfl

@[simp] theorem State.afterFetch_aheadPc (s : State) (n : Nat) : (s.afterFetch n).fetch.aheadPc = s.nextPc n := rfl

/-- The accesses noted (R123). -/
theorem State.mem_recordAccess (s : State) (seg : Word) (p : Page) (w : Bool) (x : PageAccess) :
    x ∈ (s.recordAccess seg p w).accessed ↔ x ∈ s.accessed ∨ x = { segment := seg, page := p, stored := w } := by
  show x ∈ noteAccess _ _ ↔ _
  unfold noteAccess; split
  · rename_i h
    rw [List.contains_iff_mem] at h
    constructor
    · exact Or.inl
    · rintro (h | rfl) <;> assumption
  · simp [or_comm]

@[simp] theorem State.spec_setInfo_some (s : State) (k : Reg) (v : Word) : (s.setInfo k (some v)).spec k = v := by
  simp [State.setInfo]

end Sys2Proof.Machine
end

