-- ==== Sys2Proof/Laws/Operations.lean ====
section
/-! SUPPORT. What each shared operation can do, said once. Proofs about instructions cite these lemmas and unfold no
operation. -/

namespace Sys2Proof.Machine

/-! ### Sequencing -/

theorem Access.bind_eq_ok {α β : Type} (x : Access α) (k : α → State → Access β) (v : β) (t : State) :
    x.bind k = .ok v t ↔ ∃ a s, x = .ok a s ∧ k a s = .ok v t := by
  cases x <;> simp [Access.bind]

theorem Access.bind_eq_trap {α β : Type} (x : Access α) (k : α → State → Access β) (e : Exception) (t : State) :
    x.bind k = .trap e t ↔ x = .trap e t ∨ ∃ a s, x = .ok a s ∧ k a s = .trap e t := by
  cases x <;> simp [Access.bind]

theorem Access.finish_eq_next {α : Type} (x : Access α) (k : α → State → Outcome) (t : State) :
    x.finish k = .next t ↔
      (∃ v s, x = .ok v s ∧ k v s = .next t) ∨ ∃ e s, x = .trap e s ∧ raise e s = .next t := by
  cases x <;> simp [Access.finish]

@[simp] theorem Access.ok_bind {α β : Type} (v : α) (s : State) (k : α → State → Access β) :
    (Access.ok v s).bind k = k v s := rfl

@[simp] theorem Access.trap_bind {α β : Type} (e : Exception) (s : State) (k : α → State → Access β) :
    (Access.trap e s).bind k = .trap e s := rfl

@[simp] theorem Access.fault_bind {α β : Type} (f : Fault) (k : α → State → Access β) :
    (Access.fault f).bind k = .fault f := rfl

@[simp] theorem Access.refused_bind {α β : Type} (r : Refusal) (k : α → State → Access β) :
    (Access.refused r).bind k = .refused r := rfl

@[simp] theorem Access.ok_finish {α : Type} (v : α) (s : State) (k : α → State → Outcome) :
    (Access.ok v s).finish k = k v s := rfl

@[simp] theorem Access.trap_finish {α : Type} (e : Exception) (s : State) (k : α → State → Outcome) :
    (Access.trap e s : Access α).finish k = raise e s := rfl

/-! ### The advance of the pc -/

theorem advance_of_lt (len : Nat) (s : State) (h : s.pc.toNat + len < 2 ^ 32) :
    advance len s = .next (s.setPc (s.pc + BitVec.ofNat 32 len)) := by
  rw [advance, if_pos h, State.nextPc]

theorem advance_eq_next (len : Nat) (s t : State) :
    advance len s = .next t ↔ s.pc.toNat + len < 2 ^ 32 ∧ t = s.setPc (s.pc + BitVec.ofNat 32 len) := by
  unfold advance State.nextPc
  split
  · simp only [Host.Outcome.next.injEq, *, true_and]; exact eq_comm
  · rename_i h
    exact iff_of_false (by simp) fun h' => h h'.1

/-! ### Taking an exception -/

/-- What it takes for SR11 to point at a CCB (R512). -/
theorem State.ccbPlaced_iff (s : State) :
    s.ccbPlaced = true ↔ (s.spec 11).toNat % 4 = 0 ∧ s.installedAt (s.spec 11 + 0x44F).toNat = true := by
  rw [State.ccbPlaced, Bool.and_eq_true, decide_eq_true_eq]

/-- Where the CCB word can be read, an entry saves the registers and goes to the handler. -/
theorem enterException_of_usable (e : Exception) (ret : Word) (s : State) (h : s.ccbUsable e.ccbOffset = true) :
    enterException e ret s = .next
      { (((s.saveReturn ret).setInfo 1 e.info1).setInfo 2 e.info2).setInfo 3 e.info3 with
        mode := .kernel, paused := false, pc := s.ccbWord e.ccbOffset } := by
  simp [enterException, h]

theorem enterException_eq_next (e : Exception) (ret : Word) (s t : State) :
    enterException e ret s = .next t ↔ s.ccbUsable e.ccbOffset = true ∧
      t = { (((s.saveReturn ret).setInfo 1 e.info1).setInfo 2 e.info2).setInfo 3 e.info3 with
        mode := .kernel, paused := false, pc := s.ccbWord e.ccbOffset } := by
  unfold enterException
  dsimp only
  split
  · simp only [Host.Outcome.next.injEq, *, true_and]; exact eq_comm
  · simp [*]

/-- After what other agents do, an exception is an entry from the state they leave. -/
theorem takeException_of_between (e : Exception) (ret : Word) (s s0 : State) (h : s.between = .ok () s0) :
    takeException e ret s = enterException e ret s0 := by
  simp [takeException, h]

theorem takeException_eq_next (e : Exception) (ret : Word) (s t : State) :
    takeException e ret s = .next t ↔ ∃ s0, s.between = .ok () s0 ∧ enterException e ret s0 = .next t := by
  unfold takeException
  cases s.between <;> simp

/-- After an exception the mode is kernel, whatever it was. -/
theorem takeException_mode (e : Exception) (ret : Word) (s t : State) (h : takeException e ret s = .next t) :
    t.mode = .kernel := by
  rw [takeException_eq_next] at h
  obtain ⟨s0, -, h⟩ := h
  rw [enterException_eq_next] at h
  rw [h.2]

theorem trapsWordEnd_eq_next (code : Nat) (s t : State) :
    trapsWordEnd code s = .next t ↔
      (s.trapEnabled code = true ∧ raise (.trapsWord code) s = .next t) ∨
      (s.trapEnabled code = false ∧ advance 2 s = .next t) := by
  unfold trapsWordEnd
  cases s.trapEnabled code <;> simp

/-! ### Real memory -/

/-- A byte is backed if it is among backed bytes. -/
theorem State.installedAt_of_backed (s : State) (a n k : Nat) (h : s.backed a n = true) (hk : k < n) :
    s.installedAt (a + k) = true := by
  simp only [State.backed, List.all_eq_true, List.mem_range] at h
  exact h k hk

theorem State.lt_of_installedAt (s : State) (a : Nat) (h : s.installedAt a = true) : a < 2 ^ 32 := by
  simp only [State.installedAt, Bool.and_eq_true, decide_eq_true_eq] at h
  exact h.1

theorem State.lt_of_backed (s : State) (a n : Nat) (h : s.backed a n = true) (hn : 0 < n) : a + n ≤ 2 ^ 32 := by
  have := s.lt_of_installedAt _ (s.installedAt_of_backed a n (n - 1) h (by omega))
  omega

/-- Which memory is installed depends on nothing but the list of regions. -/
theorem State.installedAt_congr (s t : State) (a : Nat) (h : t.installed = s.installed) :
    t.installedAt a = s.installedAt a := by simp [State.installedAt, h]

theorem State.backed_congr (s t : State) (a n : Nat) (h : t.installed = s.installed) :
    t.backed a n = s.backed a n := by simp [State.backed, State.installedAt, h]

theorem State.entryBacked_congr (s t : State) (ea : Word) (h : t.installed = s.installed) :
    t.entryBacked ea ↔ s.entryBacked ea := by
  rw [State.entryBacked, State.entryBacked, State.backed_congr s t _ _ h, State.backed_congr s t _ _ h]

theorem State.backed_add (s : State) (a m n : Nat) :
    s.backed a (m + n) = true ↔ s.backed a m = true ∧ s.backed (a + m) n = true := by
  simp only [State.backed, List.all_eq_true, List.mem_range]
  constructor
  · intro h
    refine ⟨fun k hk => h k (by omega), fun k hk => ?_⟩
    have := h (m + k) (by omega)
    rwa [show a + (m + k) = a + m + k by omega] at this
  · rintro ⟨h1, h2⟩ k hk
    by_cases h : k < m
    · exact h1 k h
    · have := h2 (k - m) (by omega)
      rwa [show a + m + (k - m) = a + k by omega] at this

theorem realRead_of_backed (a n : Nat) (s : State) (h : s.backed a n = true) :
    realRead a n s = .ok (s.mem.load a n) s := by simp [realRead, h]

theorem realWrite_of_backed (a n v : Nat) (s : State) (h : s.backed a n = true) :
    realWrite a n v s = .ok () (s.setMem (s.mem.store a n v) a n) := by simp [realWrite, h]

theorem realRead_eq_ok (a n v : Nat) (s t : State) :
    realRead a n s = .ok v t ↔ s.backed a n = true ∧ v = s.mem.load a n ∧ t = s := by
  unfold realRead
  split
  · simp only [Access.ok.injEq, *, true_and]; exact and_congr eq_comm eq_comm
  · simp [*]

theorem realRead_ne_trap (a n : Nat) (s t : State) (e : Exception) : realRead a n s ≠ .trap e t := by
  unfold realRead
  split <;> simp

theorem realWrite_eq_ok (a n v : Nat) (s t : State) :
    realWrite a n v s = .ok () t ↔ s.backed a n = true ∧ t = s.setMem (s.mem.store a n v) a n := by
  unfold realWrite
  split
  · simp only [Access.ok.injEq, *, true_and]; exact eq_comm
  · simp [*]

theorem realWrite_ne_trap (a n v : Nat) (s t : State) (e : Exception) : realWrite a n v s ≠ .trap e t := by
  unfold realWrite
  split <;> simp

theorem realRead32_eq_ok (a v : Word) (s t : State) :
    realRead32 a s = .ok v t ↔ s.backed a.toNat 4 = true ∧ v = BitVec.ofNat 32 (s.mem.load a.toNat 4) ∧ t = s := by
  simp only [realRead32, Access.bind_eq_ok, realRead_eq_ok]
  constructor
  · rintro ⟨x, s', ⟨h, rfl, rfl⟩, h2⟩
    simp only [Access.ok.injEq] at h2
    exact ⟨h, h2.1.symm, h2.2.symm⟩
  · rintro ⟨h, rfl, rfl⟩
    exact ⟨_, _, ⟨h, rfl, rfl⟩, rfl⟩

theorem realRead32_ne_trap (a : Word) (s t : State) (e : Exception) : realRead32 a s ≠ .trap e t := by
  simp [realRead32, Access.bind_eq_trap, realRead_ne_trap]

/-! ### Loads as words -/

theorem load_one (m : Memory) (a : Nat) : m.load a 1 = (m.read a).toNat := by simp [Memory.load]

theorem toNat_append' {m n : Nat} (x : BitVec m) (y : BitVec n) : (x ++ y).toNat = x.toNat * 2 ^ n + y.toNat := by
  rw [BitVec.toNat_append, Nat.shiftLeft_eq, Nat.mul_comm, Nat.two_pow_add_eq_or_of_lt y.isLt]

theorem State.load_half (s : State) (a : Nat) : s.mem.load a 2 = (s.halfAt a).toNat := by
  rw [State.halfAt, toNat_append']
  simp [Memory.load]

/-- A load of twice as many bytes puts the first half above the second. -/
theorem Memory.load_add (m : Memory) (a k n : Nat) :
    m.load a (k + n) = m.load a k * 256 ^ n + m.load (a + k) n := by
  induction k generalizing a with
  | zero => simp [Memory.load]
  | succ k ih =>
    rw [show k + 1 + n = (k + n) + 1 by omega, Memory.load, Memory.load, ih (a + 1), Nat.pow_add,
      show a + (k + 1) = a + 1 + k by omega]
    ring

theorem State.load_word (s : State) (a : Nat) : s.mem.load a 4 = (s.wordAt a).toNat := by
  rw [show 4 = 2 + 2 from rfl, Memory.load_add, s.load_half, s.load_half, State.wordAt, toNat_append']
  norm_num

theorem State.load_double (s : State) (a : Nat) : s.mem.load a 8 = (s.doubleAt a).toNat := by
  rw [show 8 = 4 + 4 from rfl, Memory.load_add, s.load_word, s.load_word, State.doubleAt, toNat_append']
  norm_num

/-- A word read depends on its four bytes only. -/
theorem State.wordAt_congr (s t : State) (a : Nat) (h : ∀ k < 4, t.mem.read (a + k) = s.mem.read (a + k)) :
    t.wordAt a = s.wordAt a := by
  have := Memory.load_congr s.mem t.mem a 4 h
  rw [s.load_word, t.load_word] at this
  exact BitVec.eq_of_toNat_eq this

/-- An entry of the VRT read depends on the bytes of its two words only. -/
theorem State.entryAt_congr (s t : State) (ea : Word) (h : ∀ x, ¬OutsideEntry ea x → t.mem.read x = s.mem.read x) :
    t.entryAt ea = s.entryAt ea := by
  unfold State.entryAt
  rw [State.wordAt_congr s t ea.toNat fun k hk => h _ fun ho => by have := ho.1; unfold OutsideWord at this; omega,
    State.wordAt_congr s t (ea + 4).toNat fun k hk => h _ fun ho => by have := ho.2; unfold OutsideWord at this; omega]

/-! ### Modes -/

theorem kernelOnly_kernel (op : Byte) (r1 r2 : Reg) (k : State → Outcome) (s : State) (h : s.mode = .kernel) :
    kernelOnly op r1 r2 k s = k s := by simp [kernelOnly, h]

theorem kernelOnly_user (op : Byte) (r1 r2 : Reg) (k : State → Outcome) (s : State) (h : s.mode = .user) :
    kernelOnly op r1 r2 k s = raise (.kernelViolation op r1 r2) s := by simp [kernelOnly, h]

theorem kernelOrPrivileged_allowed (op : Byte) (r1 r2 : Reg) (k : State → Outcome) (s : State)
    (h : s.mode = .kernel ∨ TrapOn 31 s) : kernelOrPrivileged op r1 r2 k s = k s := by
  unfold kernelOrPrivileged State.privileged State.trapEnabled
  cases hm : s.mode <;> simp_all [TrapOn]

theorem kernelOrPrivileged_denied (op : Byte) (r1 r2 : Reg) (k : State → Outcome) (s : State)
    (h : s.mode = .user) (hp : ¬TrapOn 31 s) :
    kernelOrPrivileged op r1 r2 k s = raise (.kernelViolation op r1 r2) s := by
  unfold kernelOrPrivileged State.privileged State.trapEnabled
  simp_all [TrapOn]

/-! ### Old bytes -/

/-- A change of memory adds old bytes only for the addresses it may have changed. -/
theorem State.old_setMem (s : State) (m : Memory) (a n x : Nat) (h : x < a ∨ a + n ≤ x) :
    (s.setMem m a n).fetch.old x = s.fetch.old x := by
  have : oldBytes (changedBytes s.mem m a n) x = [] := by
    simp only [oldBytes, changedBytes, List.map_eq_nil_iff, List.filter_eq_nil_iff, List.mem_filterMap, List.mem_range]
    rintro c ⟨k, hk, hc⟩
    split at hc
    · simp at hc
    · simp only [Option.some.injEq] at hc
      subst hc
      simp only [decide_eq_true_eq]
      omega
  unfold oldBytes at this
  simp only [FetchState.old, State.setMem, oldBytes, List.filter_append, List.map_append, this, List.nil_append]

/-! ### Free choices -/

theorem chooseFrom_mem {α : Type} (n : Nat) (l : List α) (x : α) (h : chooseFrom n l = some x) : x ∈ l := by
  match l, h with
  | [a], h => simp_all [chooseFrom]
  | a :: b :: l, h =>
    simp only [chooseFrom, Option.some.injEq] at h
    rw [← h, List.getD_eq_getElem _ _ (by simp only [List.length_cons]; exact Nat.mod_lt _ (by omega))]
    exact List.getElem_mem _

theorem chooseFrom_cons {α : Type} (n : Nat) (a : α) (l : List α) : ∃ x, chooseFrom n (a :: l) = some x := by
  cases l <;> simp [chooseFrom]

end Sys2Proof.Machine
end

