-- ==== Sys2Proof/Laws/Bus.lean ====
section
/-! SUPPORT. What memory accesses and VRT searches can do, with what other agents do between them (R96, R131): said once, for
anything that every pause keeps. -/

namespace Sys2Proof.Machine

/-! ### Memory events -/

/-- Between `s` and `t` nothing but memory events happened: bytes changed, TMT entries went, the tick went on and may have
made timer interrupts pending. -/
def OnlyEvents (s t : State) : Prop :=
  t = { s with
    mem := t.mem, fetch := { s.fetch with stale := t.fetch.stale }, codeTmt := t.codeTmt, dataTmt := t.dataTmt,
    within := t.within, tickStage := t.tickStage,
    pending := { s.pending with timer1 := t.pending.timer1, timer2 := t.pending.timer2 } }

theorem OnlyEvents.refl (s : State) : OnlyEvents s s := rfl

theorem OnlyEvents.trans {s t u : State} (h : OnlyEvents s t) (k : OnlyEvents t u) : OnlyEvents s u := by
  unfold OnlyEvents at *
  generalize u.mem = a, u.fetch.stale = b, u.codeTmt = c, u.dataTmt = d, u.within = e, u.tickStage = f,
    u.pending.timer1 = g, u.pending.timer2 = i at k
  subst k
  generalize t.mem = a', t.fetch.stale = b', t.codeTmt = c', t.dataTmt = d', t.within = e', t.tickStage = f',
    t.pending.timer1 = g', t.pending.timer2 = i' at h
  subst h
  rfl

theorem OnlyEvents.setMem (s : State) (m : Memory) (a n : Nat) : OnlyEvents s (s.setMem m a n) := rfl

theorem OnlyEvents.markEntry (s : State) (ea : Word) (u : Double → Double) : OnlyEvents s (s.markEntry ea u) := rfl

theorem OnlyEvents.setTmt (s : State) (seg : Segment) (l : List TmtEntry) : OnlyEvents s (s.setTmt seg l) := by
  cases seg <;> rfl

theorem OnlyEvents.setTick (s : State) (stage : TickStage) : OnlyEvents s (s.setTick stage) := rfl

theorem OnlyEvents.timersPending (s : State) (t1 t2 : Word) : OnlyEvents s (s.timersPending t1 t2) := rfl

theorem OnlyEvents.regs {s t : State} (h : OnlyEvents s t) : t.regs = s.regs := by rw [h]
theorem OnlyEvents.pc {s t : State} (h : OnlyEvents s t) : t.pc = s.pc := by rw [h]
theorem OnlyEvents.sr {s t : State} (h : OnlyEvents s t) : t.sr = s.sr := by rw [h]
theorem OnlyEvents.mode {s t : State} (h : OnlyEvents s t) : t.mode = s.mode := by rw [h]
theorem OnlyEvents.paused {s t : State} (h : OnlyEvents s t) : t.paused = s.paused := by rw [h]
theorem OnlyEvents.installed {s t : State} (h : OnlyEvents s t) : t.installed = s.installed := by rw [h]
theorem OnlyEvents.external {s t : State} (h : OnlyEvents s t) : t.pending.external = s.pending.external := by rw [h]
theorem OnlyEvents.elog {s t : State} (h : OnlyEvents s t) : t.elog = s.elog := by rw [h]
theorem OnlyEvents.world {s t : State} (h : OnlyEvents s t) : t.world = s.world := by rw [h]
theorem OnlyEvents.parityEntry {s t : State} (h : OnlyEvents s t) : t.parityEntry = s.parityEntry := by rw [h]
theorem OnlyEvents.parityData {s t : State} (h : OnlyEvents s t) : t.parityData = s.parityData := by rw [h]
theorem OnlyEvents.accessed {s t : State} (h : OnlyEvents s t) : t.accessed = s.accessed := by rw [h]
theorem OnlyEvents.ahead {s t : State} (h : OnlyEvents s t) : t.fetch.ahead = s.fetch.ahead := by rw [h]

theorem OnlyEvents.reg {s t : State} (h : OnlyEvents s t) (r : Reg) : t.reg r = s.reg r := by
  simp only [State.reg, h.regs]

theorem OnlyEvents.spec {s t : State} (h : OnlyEvents s t) (k : Reg) : t.spec k = s.spec k := by
  simp only [State.spec, h.sr]

theorem OnlyEvents.installedAt {s t : State} (h : OnlyEvents s t) (a : Nat) : t.installedAt a = s.installedAt a :=
  State.installedAt_congr s t a h.installed

theorem OnlyEvents.entryBacked {s t : State} (h : OnlyEvents s t) (ea : Word) : t.entryBacked ea ↔ s.entryBacked ea :=
  State.entryBacked_congr s t ea h.installed

theorem OnlyEvents.backed {s t : State} (h : OnlyEvents s t) (a n : Nat) : t.backed a n = s.backed a n :=
  State.backed_congr s t a n h.installed

theorem dmaByte_only (a : Nat) (b : Byte) (s : State) : OnlyEvents s (dmaByte a b s) := by
  unfold dmaByte; split
  · exact .setMem _ _ _ _
  · exact .refl s

theorem markPage_only (s : State) (segment : Word) (page : Page) (m : Bool) :
    OnlyEvents s (s.markPage segment page m) := by
  unfold State.markPage; split
  · split
    · exact .markEntry _ _ _
    · exact .refl s
  · exact .refl s

/-! ### The tick -/

/-- A word the tick reads has memory, and nothing but the stage changes. -/
theorem tickRead_eq_ok {a : Word} {stage : Word → TickStage} {s t : State} :
    tickRead a stage s = .ok () t ↔ s.backed a.toNat 4 = true ∧ t = s.setTick (stage (s.wordAt a.toNat)) := by
  simp only [tickRead, Access.bind_eq_ok, realRead32_eq_ok, Access.ok.injEq, true_and, s.load_word, BitVec.ofNat_toNat,
    BitVec.setWidth_eq]
  constructor
  · rintro ⟨_, _, ⟨h, rfl, rfl⟩, rfl⟩; exact ⟨h, rfl⟩
  · rintro ⟨h, rfl⟩; exact ⟨_, _, ⟨h, rfl, rfl⟩, rfl⟩

/-- A word the tick writes has memory, and nothing but the word and the stage changes. -/
theorem tickWrite_eq_ok {a v : Word} {stage : TickStage} {s t : State} :
    tickWrite a v stage s = .ok () t ↔
      s.backed a.toNat 4 = true ∧ t = (s.setMem (s.mem.store a.toNat 4 v.toNat) a.toNat 4).setTick stage := by
  rw [tickWrite, realWrite32, Access.bind_eq_ok]
  constructor
  · rintro ⟨_, s1, h1, h2⟩
    rw [realWrite_eq_ok] at h1
    cases h2
    exact ⟨h1.1, by rw [h1.2]⟩
  · rintro ⟨h, rfl⟩
    exact ⟨(), _, (realWrite_eq_ok _ _ _ _ _).mpr ⟨h, rfl⟩, rfl⟩

/-- An access of the tick keeps what every change of its stage, every word stored into memory that is there and every timer
interrupt keeps. -/
theorem tickAccess_keeps {P : State → Prop} (hs : ∀ s stage, P s → P (s.setTick stage))
    (hw : ∀ s a v, P s → s.backed a 4 = true → P (s.setMem (s.mem.store a 4 v) a 4))
    (hp : ∀ s t1 t2, P s → P (s.timersPending t1 t2)) {s t : State} (h : P s) (he : tickAccess s = .ok () t) : P t := by
  have read : ∀ {a : Word} {f : Word → TickStage} {t : State}, tickRead a f s = .ok () t → P t := by
    intro _ _ _ he
    rw [(tickRead_eq_ok.mp he).2]
    exact hs _ _ h
  have write : ∀ {a v : Word} {f : TickStage} {t : State}, tickWrite a v f s = .ok () t → P t := by
    intro a v f t he
    obtain ⟨hb, rfl⟩ := tickWrite_eq_ok.mp he
    exact hs _ _ (hw _ _ _ h hb)
  have readCcb : ∀ {a : Word} {f : Word → Word → TickStage}, tickReadCcb a f s = .ok () t → P t := by
    intro a f he
    unfold tickReadCcb at he
    split at he
    · exact read he
    · cases he
  unfold tickAccess at he
  split at he
  · unfold tickBegin at he
    split at he
    · cases he
    split at he
    · cases he
    · exact read he
  · exact write he
  · exact readCcb he
  · exact read he
  · exact write he
  · exact write he
  · exact readCcb he
  · exact write he
  · exact readCcb he
  · rw [Access.bind_eq_ok] at he
    obtain ⟨_, s1, h1, he⟩ := he
    cases he
    exact hp _ _ _ (write h1)

theorem tickRead_ne_trap {a : Word} {f : Word → TickStage} {s t : State} {e : Exception} : tickRead a f s ≠ .trap e t := by
  simp [tickRead, Access.bind_eq_trap, realRead32_ne_trap]

theorem tickWrite_ne_trap {a v : Word} {f : TickStage} {s t : State} {e : Exception} : tickWrite a v f s ≠ .trap e t := by
  simp [tickWrite, realWrite32, Access.bind_eq_trap, realWrite_ne_trap]

theorem tickReadCcb_ne_trap {a : Word} {f : Word → Word → TickStage} {s t : State} {e : Exception} :
    tickReadCcb a f s ≠ .trap e t := by
  unfold tickReadCcb; split
  · exact tickRead_ne_trap
  · intro h; cases h

/-- The tick raises no exception. -/
theorem tickAccess_ne_trap {s t : State} {e : Exception} : tickAccess s ≠ .trap e t := by
  unfold tickAccess; split
  · unfold tickBegin; split
    · intro h; cases h
    split
    · intro h; cases h
    · exact tickRead_ne_trap
  · exact tickWrite_ne_trap
  · exact tickReadCcb_ne_trap
  · exact tickRead_ne_trap
  · exact tickWrite_ne_trap
  · exact tickWrite_ne_trap
  · exact tickReadCcb_ne_trap
  · exact tickWrite_ne_trap
  · exact tickReadCcb_ne_trap
  · simp [Access.bind_eq_trap, tickWrite_ne_trap]

theorem tickAccess_only {s t : State} (he : tickAccess s = .ok () t) : OnlyEvents s t :=
  tickAccess_keeps (P := OnlyEvents s) (fun _ _ h => h.trans (.setTick _ _)) (fun _ _ _ h _ => h.trans (.setMem _ _ _ _))
    (fun _ _ _ h => h.trans (.timersPending _ _ _)) (.refl s) he

/-! ### Events within an instruction -/

theorem applyMemoryEvent_only {e : MemoryEvent} {s t : State} (he : applyMemoryEvent e s = .ok () t) : OnlyEvents s t := by
  cases e with
  | tickAccess => exact tickAccess_only he
  | dmaWrite a b => cases he; exact dmaByte_only _ _ _
  | tmtDrop seg page => cases he; exact .setTmt _ _ _
  | vrtMark segment page m => cases he; exact markPage_only _ _ _ _

theorem applyMemoryEvent_ne_trap {m : MemoryEvent} {s t : State} {e : Exception} : applyMemoryEvent m s ≠ .trap e t := by
  cases m with
  | tickAccess => exact tickAccess_ne_trap
  | _ => intro h; cases h

theorem applyMemoryEvents_only {l : List MemoryEvent} {s t : State} (he : applyMemoryEvents l s = .ok () t) :
    OnlyEvents s t := by
  induction l generalizing s with
  | nil => cases he; exact .refl _
  | cons e l ih =>
    rw [applyMemoryEvents, Access.bind_eq_ok] at he
    obtain ⟨_, s1, h1, he⟩ := he
    exact (applyMemoryEvent_only h1).trans (ih he)

theorem applyMemoryEvents_ne_trap {l : List MemoryEvent} {s t : State} {e : Exception} :
    applyMemoryEvents l s ≠ .trap e t := by
  induction l generalizing s with
  | nil => intro h; cases h
  | cons m l ih =>
    intro h
    rw [applyMemoryEvents, Access.bind_eq_trap] at h
    rcases h with h | ⟨_, s1, -, h⟩
    · exact applyMemoryEvent_ne_trap h
    · exact ih h

/-- What happens between two accesses, if the run goes on: memory events only. -/
theorem between_only {s t : State} (he : s.between = .ok () t) : OnlyEvents s t := by
  unfold State.between at he; split at he
  · cases he; exact .refl s
  · rename_i es rest _
    exact OnlyEvents.trans (t := { s with within := rest }) rfl (applyMemoryEvents_only he)

theorem between_ne_trap {s t : State} {e : Exception} : s.between ≠ .trap e t := by
  unfold State.between; split
  · intro h; cases h
  · exact applyMemoryEvents_ne_trap

/-- Where nothing else acts, a pause changes nothing. -/
theorem between_alone {s : State} (h : Alone s) : s.between = .ok () s := by
  unfold State.between; rw [h]

/-- An exception entry that can be made is made from the state itself. -/
theorem takeException_of_canEnter (e : Exception) (ret : Word) (s : State) (h : CanEnter e.ccbOffset s) :
    takeException e ret s = .next
      { (((s.saveReturn ret).setInfo 1 e.info1).setInfo 2 e.info2).setInfo 3 e.info3 with
        mode := .kernel, paused := false, pc := s.ccbWord e.ccbOffset } := by
  rw [takeException_of_between e ret s s (between_alone h.2), enterException_of_usable e ret s h.1]

/-! ### Accesses in parts -/

theorem pausedRead_eq_ok {pause : State → Access Unit} {a n v : Nat} {s t : State} :
    pausedRead pause a n s = .ok v t ↔ pause s = .ok () t ∧ t.backed a n = true ∧ v = t.mem.load a n := by
  unfold pausedRead
  rw [Access.bind_eq_ok]
  constructor
  · rintro ⟨_, s1, h1, h2⟩
    rw [realRead_eq_ok] at h2
    obtain ⟨h2, h3, rfl⟩ := h2
    exact ⟨h1, h2, h3⟩
  · rintro ⟨h1, h2, h3⟩
    exact ⟨(), t, h1, (realRead_eq_ok _ _ _ _ _).mpr ⟨h2, h3, rfl⟩⟩

theorem pausedWrite_eq_ok {pause : State → Access Unit} {a n v : Nat} {s t : State} :
    pausedWrite pause a n v s = .ok () t ↔
      ∃ s1, pause s = .ok () s1 ∧ s1.backed a n = true ∧ t = s1.setMem (s1.mem.store a n v) a n := by
  unfold pausedWrite
  rw [Access.bind_eq_ok]
  constructor
  · rintro ⟨_, s1, h1, h2⟩
    exact ⟨s1, h1, (realWrite_eq_ok _ _ _ _ _).mp h2⟩
  · rintro ⟨s1, h1, h2⟩
    exact ⟨(), s1, h1, (realWrite_eq_ok _ _ _ _ _).mpr h2⟩

theorem readParts_ne_trap {pause : State → Access Unit} (hp : ∀ s e t, pause s ≠ .trap e t) (a n : Nat) (s t : State)
    (e : Exception) : readParts pause a n s ≠ .trap e t := by
  have one : ∀ a n s e t, pausedRead pause a n s ≠ .trap e t := by
    simp [pausedRead, Access.bind_eq_trap, hp, realRead_ne_trap]
  unfold readParts; split
  · simp [Access.bind_eq_trap, one]
  · exact one _ _ _ _ _

theorem writeParts_ne_trap {pause : State → Access Unit} (hp : ∀ s e t, pause s ≠ .trap e t) (a n v : Nat) (s t : State)
    (e : Exception) : writeParts pause a n v s ≠ .trap e t := by
  have one : ∀ a n v s e t, pausedWrite pause a n v s ≠ .trap e t := by
    simp [pausedWrite, Access.bind_eq_trap, hp, realWrite_ne_trap]
  unfold writeParts; split
  · simp [Access.bind_eq_trap, one]
  · exact one _ _ _ _ _ _

/-- A read keeps what every pause keeps. -/
theorem readParts_keeps {P : State → Prop} {pause : State → Access Unit} (hp : ∀ s t, P s → pause s = .ok () t → P t)
    {a n v : Nat} {s t : State} (h : P s) (he : readParts pause a n s = .ok v t) : P t := by
  unfold readParts at he; split at he
  · rw [Access.bind_eq_ok] at he; obtain ⟨_, s1, h1, he⟩ := he
    rw [Access.bind_eq_ok] at he; obtain ⟨_, s2, h2, he⟩ := he
    cases he
    exact hp _ _ (hp _ _ h (pausedRead_eq_ok.mp h1).1) (pausedRead_eq_ok.mp h2).1
  · exact hp _ _ h (pausedRead_eq_ok.mp he).1

/-- A write keeps what every pause and every store into memory that is there keeps. -/
theorem writeParts_keeps {P : State → Prop} {pause : State → Access Unit} (hp : ∀ s t, P s → pause s = .ok () t → P t)
    (hw : ∀ s a n v, P s → s.backed a n = true → P (s.setMem (s.mem.store a n v) a n)) {a n v : Nat} {s t : State}
    (h : P s) (he : writeParts pause a n v s = .ok () t) : P t := by
  have one : ∀ {a n v s t}, P s → pausedWrite pause a n v s = .ok () t → P t := by
    intro a n v s t h he
    obtain ⟨s1, h1, h2, rfl⟩ := pausedWrite_eq_ok.mp he
    exact hw _ _ _ _ (hp _ _ h h1) h2
  unfold writeParts at he; split at he
  · rw [Access.bind_eq_ok] at he; obtain ⟨_, s1, h1, he⟩ := he
    exact one (one h h1) he
  · exact one h he

/-- Where nothing happens meanwhile, a read in parts is a read. -/
theorem readParts_still {pause : State → Access Unit} {s : State} (hp : pause s = .ok () s) (a n : Nat)
    (h : s.backed a n = true) : readParts pause a n s = .ok (s.mem.load a n) s := by
  unfold readParts pausedRead; split
  · rename_i hn
    subst hn
    rw [show 8 = 4 + 4 from rfl, State.backed_add] at h
    rw [hp, Access.ok_bind, realRead_of_backed _ _ _ h.1, Access.ok_bind, hp, Access.ok_bind,
      realRead_of_backed _ _ _ h.2, Access.ok_bind, show 8 = 4 + 4 from rfl, Memory.load_add]
    norm_num
  · rw [hp, Access.ok_bind, realRead_of_backed _ _ _ h]

/-- A read of an entry answers its two words, each read after a pause, from memory that is there. -/
theorem readEntry_eq_ok {pause : State → Access Unit} {ea : Word} {e : Double} {s t : State} :
    readEntry pause ea s = .ok e t ↔ ∃ high low s1, pausedRead pause ea.toNat 4 s = .ok high s1 ∧
      pausedRead pause (ea + 4).toNat 4 s1 = .ok low t ∧ e = vrtWords high low := by
  simp only [readEntry, Access.bind_eq_ok, Access.ok.injEq]
  constructor
  · rintro ⟨high, s1, h1, low, s2, h2, rfl, rfl⟩; exact ⟨high, low, s1, h1, h2, rfl⟩
  · rintro ⟨high, low, s1, h1, h2, rfl⟩; exact ⟨high, s1, h1, low, t, h2, rfl, rfl⟩

theorem readEntry_ne_trap {pause : State → Access Unit} (hp : ∀ s e t, pause s ≠ .trap e t) (ea : Word) (s t : State)
    (e : Exception) : readEntry pause ea s ≠ .trap e t := by
  have one : ∀ a n s e t, pausedRead pause a n s ≠ .trap e t := by
    intro a n s e t; simp [pausedRead, Access.bind_eq_trap, hp, realRead_ne_trap]
  simp [readEntry, Access.bind_eq_trap, one]

theorem readEntry_keeps {P : State → Prop} {pause : State → Access Unit} (hp : ∀ s t, P s → pause s = .ok () t → P t)
    {ea : Word} {e : Double} {s t : State} (h : P s) (he : readEntry pause ea s = .ok e t) : P t := by
  obtain ⟨_, _, s1, h1, h2, -⟩ := readEntry_eq_ok.mp he
  exact hp _ _ (hp _ _ h (pausedRead_eq_ok.mp h1).1) (pausedRead_eq_ok.mp h2).1

/-- An entry that was read lies in memory that is there. -/
theorem readEntry_backed {pause : State → Access Unit} (hp : ∀ s t, pause s = .ok () t → t.installed = s.installed)
    {ea : Word} {e : Double} {s t : State} (he : readEntry pause ea s = .ok e t) : s.entryBacked ea := by
  obtain ⟨_, _, s1, h1, h2, -⟩ := readEntry_eq_ok.mp he
  obtain ⟨h1, hb1, -⟩ := pausedRead_eq_ok.mp h1
  obtain ⟨h2, hb2, -⟩ := pausedRead_eq_ok.mp h2
  rw [State.backed_congr _ _ _ _ (hp _ _ h1)] at hb1
  rw [State.backed_congr _ _ _ _ (hp _ _ h2), State.backed_congr _ _ _ _ (hp _ _ h1)] at hb2
  exact ⟨hb1, hb2⟩

/-- The two words of an entry in memory. -/
theorem State.vrtWords_load (s : State) (ea : Word) :
    vrtWords (s.mem.load ea.toNat 4) (s.mem.load (ea + 4).toNat 4) = s.entryAt ea := by
  rw [vrtWords, s.load_word, s.load_word, State.entryAt]
  simp

/-- Where nothing happens meanwhile, the entry in memory is read. -/
theorem readEntry_still {pause : State → Access Unit} {s : State} (hp : pause s = .ok () s) (ea : Word)
    (h : s.entryBacked ea) : readEntry pause ea s = .ok (s.entryAt ea) s :=
  readEntry_eq_ok.mpr ⟨_, _, s, pausedRead_eq_ok.mpr ⟨hp, h.1, rfl⟩, pausedRead_eq_ok.mpr ⟨hp, h.2, rfl⟩,
    (s.vrtWords_load ea).symm⟩

/-- Two pauses that do nothing to a state read an entry of it alike. -/
theorem readEntry_congr {p q : State → Access Unit} {s : State} (hp : p s = .ok () s) (hq : q s = .ok () s) (ea : Word) :
    readEntry p ea s = readEntry q ea s := by
  unfold readEntry pausedRead
  rw [hp, hq, Access.ok_bind]
  unfold realRead; split
  · simp only [Access.ok_bind, hp, hq]
  · rfl

theorem noPause_installed (s t : State) (h : noPause s = .ok () t) : t.installed = s.installed := by cases h; rfl

theorem between_installed (s t : State) (h : s.between = .ok () t) : t.installed = s.installed := (between_only h).installed

theorem between_never_traps (s : State) (e : Exception) (t : State) : s.between ≠ .trap e t := between_ne_trap

theorem busRead_alone {s : State} (ha : Alone s) (a n : Nat) (h : s.backed a n = true) :
    busRead a n s = .ok (s.mem.load a n) s := readParts_still (between_alone ha) a n h

theorem busRead32_alone {s : State} (ha : Alone s) (a : Word) (h : s.backed a.toNat 4 = true) :
    busRead32 a s = .ok (s.wordAt a.toNat) s := by
  rw [busRead32, busRead_alone ha _ _ h, Access.ok_bind, s.load_word]
  simp

/-- What a write does where nothing happens meanwhile: the bytes are those of the store, no other byte and no old byte of
another address changes, nothing else does. -/
theorem busWrite_alone {s : State} (ha : Alone s) (a n v : Nat) (h : s.backed a n = true) :
    ∃ t, busWrite a n v s = .ok () t ∧ (∀ x, t.mem.read x = (s.mem.store a n v).read x) ∧
      (∀ x, x < a ∨ a + n ≤ x → t.fetch.old x = s.fetch.old x) ∧ t = { s with mem := t.mem, fetch := t.fetch } := by
  unfold busWrite writeParts pausedWrite; split
  · rename_i hn
    subst hn
    rw [show 8 = 4 + 4 from rfl, State.backed_add] at h
    have ha1 : ∀ m a n, Alone (s.setMem m a n) := fun _ _ _ => ha
    rw [between_alone ha, Access.ok_bind, realWrite_of_backed _ _ _ _ h.1, Access.ok_bind, between_alone (ha1 _ _ _),
      Access.ok_bind, realWrite_of_backed _ _ _ _ ((State.backed_congr s (s.setMem _ _ _) _ _ rfl).trans h.2)]
    refine ⟨_, rfl, fun x => ?_, fun x hx => ?_, rfl⟩
    · simp only [State.setMem_mem]
      have hd : ∀ k, v / 2 ^ 32 / 256 ^ k = v / 256 ^ (k + 4) := by
        intro k
        rw [Nat.div_div_eq_div_mul, Nat.pow_add, Nat.mul_comm]
        norm_num
      by_cases h1 : x < a ∨ a + 8 ≤ x
      · rw [Memory.read_store_other _ _ _ _ _ (by omega), Memory.read_store_other _ _ _ _ _ (by omega),
          Memory.read_store_other _ _ _ _ _ h1]
      obtain ⟨k, rfl⟩ : ∃ k, x = a + k := ⟨x - a, by omega⟩
      rw [Memory.read_store _ _ _ _ _ (by omega)]
      by_cases h2 : k < 4
      · rw [Memory.read_store_other _ _ _ _ _ (by omega), Memory.read_store _ _ _ _ _ h2, hd,
          show 4 - 1 - k + 4 = 8 - 1 - k by omega]
      · rw [show a + k = a + 4 + (k - 4) by omega, Memory.read_store _ _ _ _ _ (by omega),
          show 4 - 1 - (k - 4) = 8 - 1 - k by omega]
    · rw [State.old_setMem _ _ _ _ _ (by omega), State.old_setMem _ _ _ _ _ (by omega)]
  · rw [between_alone ha, Access.ok_bind, realWrite_of_backed _ _ _ _ h]
    exact ⟨_, rfl, fun _ => rfl, fun x hx => State.old_setMem _ _ _ _ _ hx, rfl⟩

/-! ### The VRT search -/

/-- A search keeps what every pause keeps. -/
theorem vrtChain_keeps {P : State → Prop} {pause : State → Access Unit} (hp : ∀ s t, P s → pause s = .ok () t → P t)
    {segment va : Word} {fuel : Nat} {a : Word} {r : Option (Word × Double)} {s t : State} (h : P s)
    (he : vrtChain pause segment va fuel a s = .ok r t) : P t := by
  induction fuel generalizing a s with
  | zero => cases he
  | succ fuel ih =>
    rw [vrtChain] at he
    split at he
    · cases he
    rw [Access.bind_eq_ok] at he; obtain ⟨v, s1, h1, he⟩ := he
    have h2 := readEntry_keeps hp h h1
    split at he
    · split at he
      · cases he; exact h2
      · cases he
    split at he
    · cases he; exact h2
    · exact ih h2 he

theorem vrtSearch_keeps {P : State → Prop} (hp : ∀ s t, P s → s.between = .ok () t → P t) {segment va : Word}
    {r : Option (Word × Double)} {s t : State} (h : P s) (he : vrtSearch segment va s = .ok r t) : P t := by
  unfold vrtSearch vrtSearchWith at he; split at he
  · exact vrtChain_keeps hp h he
  · cases he

theorem vrtChain_ne_trap {pause : State → Access Unit} (hp : ∀ s e t, pause s ≠ .trap e t) {segment va : Word} {fuel : Nat} {a : Word}
    {s t : State} {e : Exception} : vrtChain pause segment va fuel a s ≠ .trap e t := by
  induction fuel generalizing a s with
  | zero => intro he; cases he
  | succ fuel ih =>
    intro he
    rw [vrtChain] at he
    split at he
    · cases he
    rw [Access.bind_eq_trap] at he
    rcases he with he | ⟨v, s1, -, he⟩
    · exact readEntry_ne_trap hp _ _ _ _ he
    split at he
    · split at he <;> cases he
    split at he
    · cases he
    · exact ih he

theorem vrtSearchWith_ne_trap {pause : State → Access Unit} (hp : ∀ s e t, pause s ≠ .trap e t) {segment va : Word} {s t : State} {e : Exception} :
    vrtSearchWith pause segment va s ≠ .trap e t := by
  unfold vrtSearchWith; split
  · exact vrtChain_ne_trap hp
  · intro h; cases h

/-- An entry that a search finds lies in memory that is there. -/
theorem vrtChain_backed {pause : State → Access Unit} (hp : ∀ s t, pause s = .ok () t → t.installed = s.installed)
    {segment va : Word} {fuel : Nat} {a ea : Word} {e : Double} {s t : State}
    (he : vrtChain pause segment va fuel a s = .ok (some (ea, e)) t) : s.entryBacked ea := by
  induction fuel generalizing a s with
  | zero => cases he
  | succ fuel ih =>
    rw [vrtChain] at he
    split at he
    · cases he
    rw [Access.bind_eq_ok] at he; obtain ⟨v, s1, h1, he⟩ := he
    split at he
    · split at he
      · cases he; exact readEntry_backed hp h1
      · cases he
    split at he
    · cases he
    · have hi : s1.installed = s.installed :=
        readEntry_keeps (P := fun u => u.installed = s.installed) (fun u w hu hw => (hp u w hw).trans hu) rfl h1
      exact (State.entryBacked_congr s s1 _ hi).mp (ih he)

theorem vrtSearchWith_backed {pause : State → Access Unit} (hp : ∀ s t, pause s = .ok () t → t.installed = s.installed)
    {segment va ea : Word} {e : Double} {s t : State}
    (he : vrtSearchWith pause segment va s = .ok (some (ea, e)) t) : s.entryBacked ea := by
  unfold vrtSearchWith at he; split at he
  · exact vrtChain_backed hp he
  · cases he

theorem vrtSearch_only {segment va : Word} {r : Option (Word × Double)} {s t : State}
    (he : vrtSearch segment va s = .ok r t) : OnlyEvents s t :=
  vrtSearch_keeps (P := OnlyEvents s) (fun _ _ hu hw => hu.trans (between_only hw)) (.refl s) he

/-- Two pauses that do nothing to a state search it alike. -/
theorem vrtChain_congr {p q : State → Access Unit} {s : State} (hp : p s = .ok () s) (hq : q s = .ok () s)
    (segment va : Word) (fuel : Nat) (a : Word) :
    vrtChain p segment va fuel a s = vrtChain q segment va fuel a s := by
  induction fuel generalizing a with
  | zero => rfl
  | succ fuel ih =>
    have hr := readEntry_congr hp hq a
    have hk : ∀ v t, readEntry q a s = .ok v t → t = s := fun v t h =>
      readEntry_keeps (P := fun u => u = s) (fun u w hu hw => by rw [hu, hq] at hw; cases hw; rfl) rfl h
    unfold vrtChain
    rw [hr]
    generalize readEntry q a s = x at hk
    cases x with
    | ok v t =>
      obtain rfl := hk v t rfl
      simp only [Access.ok_bind, ih]
    | trap e t => simp only [Access.trap_bind]
    | fault f => simp only [Access.fault_bind]
    | refused r => simp only [Access.refused_bind]

/-- Where nothing else acts, the search of an access is that of memory as it stands. -/
theorem vrtSearch_alone {s : State} (h : Alone s) (segment va : Word) :
    vrtSearch segment va s = vrtSearchWith noPause segment va s := by
  unfold vrtSearch vrtSearchWith
  rw [vrtChain_congr (between_alone h) (show noPause s = .ok () s from rfl)]

/-- A search of memory as it stands changes nothing, and what it finds is the entry in memory. -/
theorem vrtChain_found {segment va : Word} {fuel : Nat} {a ea : Word} {e : Double} {s t : State}
    (he : vrtChain noPause segment va fuel a s = .ok (some (ea, e)) t) : e = s.entryAt ea := by
  induction fuel generalizing a with
  | zero => cases he
  | succ fuel ih =>
    rw [vrtChain] at he
    split at he
    · cases he
    rw [Access.bind_eq_ok] at he; obtain ⟨v, s1, h1, he⟩ := he
    rw [readEntry_still (pause := noPause) rfl _ (readEntry_backed noPause_installed h1), Access.ok.injEq] at h1
    obtain ⟨rfl, rfl⟩ := h1
    split at he
    · split at he
      · cases he; rfl
      · cases he
    split at he
    · cases he
    · exact ih he

theorem Finds.backed {segment va ea : Word} {e : Double} {s : State}
    (h : Finds segment va (some (ea, e)) s) : s.entryBacked ea :=
  vrtSearchWith_backed noPause_installed h

theorem Finds.entry {segment va ea : Word} {e : Double} {s : State}
    (h : Finds segment va (some (ea, e)) s) : e = s.entryAt ea := by
  unfold Finds vrtSearchWith at h; split at h
  · exact vrtChain_found h
  · cases h

/-! ### Translation and data accesses -/

@[simp] theorem State.tmt_markEntry (s : State) (ea : Word) (u : Double → Double) (seg : Segment) :
    (s.markEntry ea u).tmt seg = s.tmt seg := by
  cases seg
  · exact State.markEntry_codeTmt s ea u
  · exact State.markEntry_dataTmt s ea u

theorem resolve_kernel (seg : Segment) (va : Word) (w : Bool) (s : State) (h : s.mode = .kernel) :
    resolve seg va w s = .ok va s := by simp [resolve, h]

theorem lookupPage_hit (seg : Segment) (va : Word) (s : State) (e : TmtEntry) (ha : Alone s)
    (h : tmtFind (s.tmt seg) (pageOf va) = some e) : lookupPage seg va s = .ok e.realPage s := by
  simp only [lookupPage, between_alone ha, Access.ok_bind, h]

theorem lookupPage_miss (seg : Segment) (va : Word) (s : State) (found : Option (Word × Double)) (ha : Alone s)
    (h : tmtFind (s.tmt seg) (pageOf va) = none) (hf : Finds (s.segNumber seg) va found s) :
    lookupPage seg va s = loadMapping seg va found s := by
  have hs : vrtSearch (s.segNumber seg) va s = .ok found s := (vrtSearch_alone ha _ _).trans hf
  simp only [lookupPage, between_alone ha, h, hs, Access.ok_bind]

theorem lookupPage_missing (seg : Segment) (va : Word) (s : State) (ha : Alone s)
    (h : tmtFind (s.tmt seg) (pageOf va) = none) (hf : Finds (s.segNumber seg) va none s) :
    lookupPage seg va s = .trap (.pageFault (s.segNumber seg) va) s :=
  lookupPage_miss seg va s none ha h hf

/-- What a translation does, where nothing else acts: by the TMT, or by the VRT (R119). -/
theorem lookupPage_maps (seg : Segment) (va : Word) (s s1 : State) (rp : Page) (ha : Alone s)
    (h : Maps seg (s.segNumber seg) va rp s s1) : lookupPage seg va s = .ok rp s1 := by
  rcases h with ⟨entry, h1, rfl, rfl⟩ | ⟨ea, e, h1, h2, rfl, rfl⟩
  · exact lookupPage_hit seg va _ entry ha h1
  · rw [lookupPage_miss seg va s _ ha h1 h2]
    unfold loadMapping
    dsimp only
    rw [between_alone ha, Access.ok_bind, State.tmt_markEntry, State.markEntry_draws]

theorem resolve_maps (seg : Segment) (va : Word) (w : Bool) (s s1 : State) (rp : Page) (hm : s.mode = .user)
    (ha : Alone s) (h : Maps seg (s.segNumber seg) va rp s s1) :
    resolve seg va w s = .ok (realAddress rp va) (s1.recordAccess (s1.segNumber seg) (pageOf va) w) := by
  simp [resolve, hm, translate, lookupPage_maps seg va s s1 rp ha h]

/-- What a translation changes, where nothing else acts: bytes of memory, the TMT, and the count of draws. -/
theorem Maps.frame {seg : Segment} {segment va : Word} {rp : Page} {s s1 : State} (h : Maps seg segment va rp s s1) :
    s1 = { s with
      mem := s1.mem, fetch := s1.fetch, codeTmt := s1.codeTmt, dataTmt := s1.dataTmt, draws := s1.draws } := by
  rcases h with ⟨_, _, _, rfl⟩ | ⟨ea, e, _, _, _, rfl⟩
  · rfl
  · have h1 := (OnlyEvents.markEntry s ea vrtSetR).trans (OnlyEvents.setTmt _ seg
      (tmtLoad s.draws (s.tmt seg) { page := pageOf va, realPage := rp, modified := vrtM e }))
    generalize hx : (State.setTmt (s.markEntry ea vrtSetR) seg
      (tmtLoad s.draws (s.tmt seg) { page := pageOf va, realPage := rp, modified := vrtM e })) = x at h1 ⊢
    have hw : x.within = s.within := by rw [← hx, State.setTmt_within, State.markEntry_within]
    have hs : x.tickStage = s.tickStage := by rw [← hx, State.setTmt_tickStage, State.markEntry_tickStage]
    have hp : x.pending = s.pending := by rw [← hx, State.setTmt_pending, State.markEntry_pending]
    unfold OnlyEvents at h1
    rw [hw, hs, hp] at h1
    generalize x.mem = a, x.fetch.stale = b, x.codeTmt = c, x.dataTmt = d at h1
    clear hx
    subst h1
    rfl

/-- An access that is noted is noted, and no other. -/
theorem Noted.recordAccess (s s1 : State) (segment : Word) (page : Page) (stored : Bool)
    (h : s1.accessed = s.accessed) : Noted segment page stored s (s1.recordAccess segment page stored) := by
  intro x
  unfold State.recordAccess noteAccess
  rw [h]
  dsimp only
  split
  · rename_i hc
    simp only [List.contains_iff_mem] at hc
    refine ⟨.inl, ?_⟩
    rintro (h | rfl) <;> assumption
  · rw [List.mem_cons, or_comm]

theorem memRead_misaligned (seg : Segment) (va : Word) (n : Nat) (s : State) (h : va.toNat % n ≠ 0) :
    memRead seg va n s = .trap (.dataAlignment (s.alignmentSegment seg) va) s := by simp [memRead, h]

theorem memWrite_misaligned (va : Word) (n v : Nat) (s : State) (h : va.toNat % n ≠ 0) :
    memWrite va n v s = .trap (.dataAlignment (s.alignmentSegment .data) va) s := by simp [memWrite, h]

theorem memRead_kernel (seg : Segment) (va : Word) (n : Nat) (s : State) (hm : s.mode = .kernel)
    (hp : s.parityData = false) (ha : va.toNat % n = 0) : memRead seg va n s = busRead va.toNat n s := by
  simp [memRead, ha, resolve_kernel seg va false s hm, hp]

theorem memWrite_kernel (va : Word) (n v : Nat) (s : State) (hm : s.mode = .kernel) (hp : s.parityData = false)
    (ha : va.toNat % n = 0) : memWrite va n v s = busWrite va.toNat n v s := by
  simp [memWrite, ha, resolve_kernel .data va true s hm, hp]

end Sys2Proof.Machine
end

