-- ==== Sys2Proof/Laws/Invariant.lean ====
section
/-! SUPPORT. Each shared operation keeps the invariant of Sys2Proof/Safety.lean. -/

namespace Sys2Proof.Machine

/-- The invariant speaks of these fields only. -/
theorem State.Inv.congr {s t : State} (h : s.Inv) (hm : t.mem = s.mem) (hi : t.installed = s.installed)
    (hc : t.codeTmt = s.codeTmt) (hd : t.dataTmt = s.dataTmt) (he : t.elog = s.elog)
    (hx : t.pending.external = s.pending.external) (hp : t.paused = true → t.mode = .kernel)
    (ha : t.fetch.ahead.length ≤ 2) : t.Inv where
  memory := hm ▸ h.memory
  backed := fun c hc' => by
    rw [State.installedAt_congr s t c.1 hi]
    exact h.backed c (hm ▸ hc')
  codeTmt := hc ▸ h.codeTmt
  dataTmt := hd ▸ h.dataTmt
  elog := he ▸ h.elog
  requests := hx ▸ h.requests
  pause := hp
  ahead := ha

theorem State.Inv.setReg {s : State} (h : s.Inv) (r : Reg) (v : Word) : (s.setReg r v).Inv :=
  h.congr rfl rfl rfl rfl rfl rfl h.pause h.ahead

theorem State.Inv.setPair {s : State} (h : s.Inv) (r : Reg) (v : Double) : (s.setPair r v).Inv :=
  (h.setReg _ _).setReg _ _

theorem State.Inv.setSpec {s : State} (h : s.Inv) (k : Reg) (v : Word) : (s.setSpec k v).Inv :=
  h.congr rfl rfl rfl rfl rfl rfl h.pause h.ahead

theorem State.Inv.setPc {s : State} (h : s.Inv) (t : Word) : (s.setPc t).Inv :=
  h.congr rfl rfl rfl rfl rfl rfl h.pause h.ahead

theorem State.Inv.drawn {s : State} (h : s.Inv) : s.drawn.Inv := h.congr rfl rfl rfl rfl rfl rfl h.pause h.ahead

theorem State.Inv.scrambleReg {s : State} (h : s.Inv) (r : Reg) : (s.scrambleReg r).Inv := (h.setReg _ _).drawn

theorem State.Inv.scramblePair {s : State} (h : s.Inv) (r : Reg) : (s.scramblePair r).Inv :=
  (h.scrambleReg _).scrambleReg _

theorem State.Inv.flushTmt {s : State} (h : s.Inv) : s.flushTmt.Inv :=
  { h with codeTmt := ⟨Nat.zero_le _, List.nodup_nil⟩, dataTmt := ⟨Nat.zero_le _, List.nodup_nil⟩ }

theorem State.Inv.flushFetch {s : State} (h : s.Inv) : s.flushFetch.Inv :=
  h.congr rfl rfl rfl rfl rfl rfl h.pause (Nat.zero_le _)

theorem State.Inv.flushCacheOnly {s : State} (h : s.Inv) : s.flushCacheOnly.Inv :=
  h.congr rfl rfl rfl rfl rfl rfl h.pause (Nat.le_refl 2)

/-- A store into memory that is there keeps the invariant. -/
theorem State.Inv.store {s : State} (h : s.Inv) (a n v : Nat) (hb : s.backed a n = true) :
    (s.setMem (s.mem.store a n v) a n).Inv :=
  { h with
    memory := Memory.wf_store _ _ _ _ h.memory
    backed := fun c hc => by
      rcases Memory.mem_store _ _ _ _ _ hc with hc | hc
      · have := s.installedAt_of_backed a n (c.1 - a) hb (by omega)
        rwa [show a + (c.1 - a) = c.1 by omega] at this
      · exact h.backed c hc }

/-- A byte written where memory is keeps the invariant. -/
theorem State.Inv.writeByte {s : State} (h : s.Inv) (a : Nat) (b : Byte) (hb : s.installedAt a = true) :
    (s.setMem (s.mem.write a b) a 1).Inv :=
  { h with
    memory := Memory.wf_write _ _ _ h.memory
    backed := fun c hc => by
      rcases Memory.mem_write _ _ _ _ hc with hc | hc
      · rw [hc]; exact hb
      · exact h.backed c hc }

theorem State.Inv.realRead {a n v : Nat} {s t : State} (h : s.Inv) (he : realRead a n s = .ok v t) : t.Inv := by
  rw [realRead_eq_ok] at he
  rw [he.2.2]; exact h

theorem State.Inv.realWrite {a n v : Nat} {s t : State} (h : s.Inv) (he : realWrite a n v s = .ok () t) : t.Inv := by
  rw [realWrite_eq_ok] at he
  rw [he.2]; exact h.store a n v he.1

/-! ### The advance of the pc -/

theorem State.Inv.advance {len : Nat} {s t : State} (h : s.Inv) (he : advance len s = .next t) : t.Inv := by
  rw [advance_eq_next] at he
  rw [he.2]; exact h.setPc _

/-! ### The TMT -/

/-- Loading a mapping keeps a half of the TMT within sixteen entries, one a page. -/
theorem tmtLoad_inv (n : Nat) (l : List TmtEntry) (e : TmtEntry)
    (h : l.length ≤ 16 ∧ (l.map TmtEntry.page).Nodup) :
    (tmtLoad n l e).length ≤ 16 ∧ ((tmtLoad n l e).map TmtEntry.page).Nodup := by
  have hrest : ((l.filter (fun x => x.page ≠ e.page)).map TmtEntry.page).Nodup :=
    h.2.sublist (List.filter_sublist.map _)
  have key : ∀ l' : List TmtEntry, l'.Sublist (l.filter (fun x => x.page ≠ e.page)) → l'.length ≤ 15 →
      (e :: l').length ≤ 16 ∧ ((e :: l').map TmtEntry.page).Nodup := by
    intro l' hs hl
    refine ⟨by simp only [List.length_cons]; omega, ?_⟩
    rw [List.map_cons, List.nodup_cons]
    refine ⟨?_, hrest.sublist (hs.map _)⟩
    rw [List.mem_map]
    rintro ⟨x, hx, he⟩
    have := List.of_mem_filter (hs.subset hx)
    simp [he] at this
  unfold tmtLoad
  simp only
  split
  · rename_i hl
    exact key _ (List.Sublist.refl _) (by omega)
  · refine key _ ?_ (by simp)
    exact (List.take_sublist _ _).trans (List.eraseIdx_sublist _ _)

theorem State.Inv.setTmt {s : State} (h : s.Inv) (seg : Segment) (l : List TmtEntry)
    (hl : l.length ≤ 16 ∧ (l.map TmtEntry.page).Nodup) : (s.setTmt seg l).Inv := by
  cases seg
  · exact { h with codeTmt := hl }
  · exact { h with dataTmt := hl }

theorem State.Inv.tmt {s : State} (h : s.Inv) (seg : Segment) :
    (s.tmt seg).length ≤ 16 ∧ ((s.tmt seg).map TmtEntry.page).Nodup := by
  cases seg
  · exact h.codeTmt
  · exact h.dataTmt

/-! ### Memory events and accesses -/

theorem State.Inv.markEntry {s : State} (h : s.Inv) (ea : Word) (u : Double → Double)
    (hb : s.entryBacked ea) : (s.markEntry ea u).Inv := (h.store _ _ _ hb.1).store _ _ _ hb.2

theorem State.Inv.recordAccess {s : State} (h : s.Inv) (seg : Word) (p : Page) (w : Bool) :
    (s.recordAccess seg p w).Inv :=
  h.congr rfl rfl rfl rfl rfl rfl h.pause h.ahead

theorem State.Inv.dropTmt {s : State} (h : s.Inv) (seg : Segment) (p : Page) : (s.dropTmt seg p).Inv :=
  h.setTmt _ _ ⟨(List.length_filter_le _ _).trans (h.tmt seg).1, (h.tmt seg).2.sublist (List.filter_sublist.map _)⟩

theorem State.Inv.markPage {s : State} (h : s.Inv) (segment : Word) (page : Page) (m : Bool) :
    (s.markPage segment page m).Inv := by
  unfold State.markPage; split
  · split
    · rename_i hf; exact h.markEntry _ _ (vrtSearchWith_backed noPause_installed hf)
    · exact h
  · exact h

/-- The tick keeps the invariant. -/
theorem State.Inv.tickAccess {s t : State} (h : s.Inv) (he : Machine.tickAccess s = .ok () t) : t.Inv :=
  tickAccess_keeps (P := State.Inv) (fun _ _ h => h.congr rfl rfl rfl rfl rfl rfl h.pause h.ahead)
    (fun _ a v h hb => h.store a 4 v hb) (fun _ _ _ h => h.congr rfl rfl rfl rfl rfl rfl h.pause h.ahead) h he

theorem State.Inv.applyMemoryEvent {e : MemoryEvent} {s t : State} (h : s.Inv)
    (he : Machine.applyMemoryEvent e s = .ok () t) : t.Inv := by
  cases e with
  | tickAccess => exact h.tickAccess he
  | dmaWrite a b =>
    cases he
    unfold dmaByte; split
    · exact h.writeByte _ _ ‹_›
    · exact h
  | tmtDrop seg page => cases he; exact h.dropTmt _ _
  | vrtMark segment page m => cases he; exact h.markPage _ _ _

theorem State.Inv.applyMemoryEvents {l : List MemoryEvent} {s t : State} (h : s.Inv)
    (he : Machine.applyMemoryEvents l s = .ok () t) : t.Inv := by
  induction l generalizing s with
  | nil => cases he; exact h
  | cons e l ih =>
    rw [Machine.applyMemoryEvents, Access.bind_eq_ok] at he
    obtain ⟨_, s1, h1, he⟩ := he
    exact ih (h.applyMemoryEvent h1) he

theorem State.Inv.between (s t : State) (h : s.Inv) (he : s.between = .ok () t) : t.Inv := by
  unfold State.between at he; split at he
  · cases he; exact h
  · rename_i es rest _
    have h1 : State.Inv { s with within := rest } := h.congr rfl rfl rfl rfl rfl rfl h.pause h.ahead
    exact h1.applyMemoryEvents he

theorem State.Inv.busRead {a n v : Nat} {s t : State} (h : s.Inv) (he : busRead a n s = .ok v t) : t.Inv :=
  readParts_keeps (P := State.Inv) State.Inv.between h he

theorem State.Inv.busWrite {a n v : Nat} {s t : State} (h : s.Inv) (he : busWrite a n v s = .ok () t) : t.Inv :=
  writeParts_keeps (P := State.Inv) State.Inv.between (fun _ a n v h hb => h.store a n v hb) h he

theorem State.Inv.busRead32 {a v : Word} {s t : State} (h : s.Inv) (he : busRead32 a s = .ok v t) : t.Inv := by
  rw [Machine.busRead32, Access.bind_eq_ok] at he
  obtain ⟨_, s1, h1, h2⟩ := he
  cases h2
  exact h.busRead h1

theorem busRead32_ne_trap (a : Word) (s t : State) (e : Exception) : busRead32 a s ≠ .trap e t := by
  rw [busRead32]
  intro h
  rw [Access.bind_eq_trap] at h
  rcases h with h | ⟨_, _, _, h⟩
  · exact readParts_ne_trap between_never_traps _ _ _ _ _ h
  · cases h

theorem busWrite32_ne_trap (a v : Word) (s t : State) (e : Exception) : busWrite32 a v s ≠ .trap e t := by
  unfold busWrite32 busWrite
  exact writeParts_ne_trap between_never_traps _ _ _ _ _ _

theorem State.Inv.vrtSearch {segment va : Word} {r : Option (Word × Double)} {s t : State} (h : s.Inv)
    (he : vrtSearch segment va s = .ok r t) : t.Inv :=
  vrtSearch_keeps (P := State.Inv) State.Inv.between h he

/-! ### Exceptions -/

theorem State.Inv.takeException {e : Exception} {ret : Word} {s t : State} (h : s.Inv)
    (he : takeException e ret s = .next t) : t.Inv := by
  rw [takeException_eq_next] at he
  obtain ⟨s0, h0, he⟩ := he
  rw [enterException_eq_next] at he
  rw [he.2]
  have h1 := State.Inv.between s s0 h h0
  exact h1.congr (by simp) (by simp) (by simp) (by simp) (by simp) (by simp) (fun _ => rfl) (by simpa using h1.ahead)

theorem State.Inv.trapsWordEnd {code : Nat} {s t : State} (h : s.Inv) (he : trapsWordEnd code s = .next t) : t.Inv := by
  rw [trapsWordEnd_eq_next] at he
  rcases he with ⟨-, he⟩ | ⟨-, he⟩
  · exact h.takeException he
  · exact h.advance he

/-! ### Translation -/

theorem State.Inv.loadMapping {seg : Segment} {va ea : Word} {e : Double} {p : Page} {s t : State} (h : s.Inv)
    (hb : s.entryBacked ea) (he : loadMapping seg va (some (ea, e)) s = .ok p t) : t.Inv := by
  unfold Machine.loadMapping at he
  dsimp only at he
  rw [Access.bind_eq_ok] at he
  obtain ⟨_, s0, h0, he⟩ := he
  cases he
  have h1 := State.Inv.between s s0 h h0
  refine State.Inv.drawn (State.Inv.setTmt ?_ _ _ (tmtLoad_inv _ _ _ ?_))
  · exact h1.markEntry _ _ (((between_only h0).entryBacked _).mpr hb)
  · rw [State.tmt_markEntry]; exact h1.tmt seg

theorem State.Inv.lookupPage {seg : Segment} {va : Word} {p : Page} {s t : State} (h : s.Inv)
    (he : lookupPage seg va s = .ok p t) : t.Inv := by
  unfold Machine.lookupPage at he
  rw [Access.bind_eq_ok] at he
  obtain ⟨_, s0, h0, he⟩ := he
  have hs := State.Inv.between s s0 h h0
  split at he
  · cases he; exact hs
  · rw [Access.bind_eq_ok] at he
    obtain ⟨r, s1, h1, h2⟩ := he
    cases r with
    | none => cases h2
    | some x =>
      have hb := vrtSearchWith_backed between_installed h1
      exact (hs.vrtSearch h1).loadMapping (((vrtSearch_only h1).entryBacked _).mpr hb) h2

/-- A translation that raises an exception raises the page fault, and only memory events happened meanwhile. -/
theorem lookupPage_trap {seg : Segment} {va : Word} {e : Exception} {s t : State}
    (he : lookupPage seg va s = .trap e t) : OnlyEvents s t ∧ e = .pageFault (s.segNumber seg) va ∧ (s.Inv → t.Inv) := by
  unfold lookupPage at he
  rw [Access.bind_eq_trap] at he
  rcases he with he | ⟨_, s0, h0, he⟩
  · exact absurd he between_ne_trap
  split at he
  · cases he
  · rw [Access.bind_eq_trap] at he
    rcases he with he | ⟨r, s1, h1, h2⟩
    · exact absurd he (vrtSearchWith_ne_trap between_never_traps)
    · cases r with
      | some x =>
        unfold Machine.loadMapping at h2
        dsimp only at h2
        rw [Access.bind_eq_trap] at h2
        rcases h2 with h2 | ⟨_, _, _, h2⟩
        · exact absurd h2 between_ne_trap
        · cases h2
      | none =>
        cases h2
        have h3 := (between_only h0).trans (vrtSearch_only h1)
        refine ⟨h3, ?_, fun h => (State.Inv.between s s0 h h0).vrtSearch h1⟩
        cases seg
        · exact congrArg (fun w => Exception.pageFault w va) (h3.spec 8)
        · exact congrArg (fun w => Exception.pageFault w va) (h3.spec 9)

theorem State.Inv.resolve {seg : Segment} {va ra : Word} {w : Bool} {s t : State} (h : s.Inv)
    (he : resolve seg va w s = .ok ra t) : t.Inv := by
  unfold Machine.resolve translate at he
  split at he
  · cases he; exact h
  · rw [Access.bind_eq_ok] at he
    obtain ⟨p, s1, h1, h2⟩ := he
    cases h2
    exact (h.lookupPage h1).recordAccess _ _ _

theorem resolve_trap {seg : Segment} {va : Word} {w : Bool} {e : Exception} {s t : State}
    (he : resolve seg va w s = .trap e t) : OnlyEvents s t ∧ e = .pageFault (s.segNumber seg) va ∧ (s.Inv → t.Inv) := by
  unfold resolve translate at he
  split at he
  · cases he
  · rw [Access.bind_eq_trap] at he
    rcases he with he | ⟨p, s1, -, h2⟩
    · exact lookupPage_trap he
    · cases h2

theorem State.Inv.memRead {seg : Segment} {va : Word} {n v : Nat} {s t : State} (h : s.Inv)
    (he : memRead seg va n s = .ok v t) : t.Inv := by
  unfold Machine.memRead at he
  split at he
  · cases he
  · rw [Access.bind_eq_ok] at he
    obtain ⟨ra, s1, h1, h2⟩ := he
    split at h2
    · cases h2
    · exact (h.resolve h1).busRead h2

theorem State.Inv.memRead_trap {seg : Segment} {va : Word} {n : Nat} {e : Exception} {s t : State} (h : s.Inv)
    (he : Machine.memRead seg va n s = .trap e t) : t.Inv := by
  unfold Machine.memRead at he
  split at he
  · cases he; exact h
  · rw [Access.bind_eq_trap] at he
    rcases he with he | ⟨ra, s1, h1, h2⟩
    · exact (resolve_trap he).2.2 h
    · split at h2
      · cases h2
        exact (h.resolve h1).congr rfl rfl rfl rfl rfl rfl (h.resolve h1).pause (h.resolve h1).ahead
      · exact absurd h2 (readParts_ne_trap between_never_traps _ _ _ _ _)

theorem State.Inv.memWrite {va : Word} {n v : Nat} {s t : State} (h : s.Inv)
    (he : memWrite va n v s = .ok () t) : t.Inv := by
  unfold Machine.memWrite at he
  split at he
  · cases he
  · rw [Access.bind_eq_ok] at he
    obtain ⟨ra, s1, h1, h2⟩ := he
    split at h2
    · cases h2
    · exact (h.resolve h1).busWrite h2

theorem State.Inv.memWrite_trap {va : Word} {n v : Nat} {e : Exception} {s t : State} (h : s.Inv)
    (he : Machine.memWrite va n v s = .trap e t) : t.Inv := by
  unfold Machine.memWrite at he
  split at he
  · cases he; exact h
  · rw [Access.bind_eq_trap] at he
    rcases he with he | ⟨ra, s1, h1, h2⟩
    · exact (resolve_trap he).2.2 h
    · split at h2
      · cases h2
        exact (h.resolve h1).congr rfl rfl rfl rfl rfl rfl (h.resolve h1).pause (h.resolve h1).ahead
      · exact absurd h2 (writeParts_ne_trap between_never_traps _ _ _ _ _ _)

end Sys2Proof.Machine
end

