-- ==== Sys2Proof/Laws/Ends.lean ====
section
/-! SUPPORT. Each shared ending of an instruction, and each operation over the PCB, the error log and device requests, keeps
the invariant of Sys2Proof/Safety.lean. -/

namespace Sys2Proof.Machine

theorem State.Inv.raise {e s t} (h : s.Inv) (he : Machine.raise e s = .next t) : t.Inv :=
  h.takeException he

theorem State.Inv.plainResult {r v s t} (h : s.Inv) (he : Machine.plainResult r v s = .next t) : t.Inv :=
  (h.setReg _ _).advance he

theorem State.Inv.pairResult {r v s t} (h : s.Inv) (he : Machine.pairResult r v s = .next t) : t.Inv :=
  (h.setPair _ _).advance he

theorem State.Inv.overflowEnd {b s t} (h : s.Inv) (he : Machine.overflowEnd b s = .next t) : t.Inv := by
  unfold Machine.overflowEnd at he; split at he
  · exact h.trapsWordEnd he
  · exact h.advance he

theorem State.Inv.integerResult {r n s t} (h : s.Inv) (he : Machine.integerResult r n s = .next t) : t.Inv :=
  State.Inv.overflowEnd (h.setReg _ _) he

theorem State.Inv.divideResult {r a b n s t} (h : s.Inv) (he : Machine.divideResult r a b n s = .next t) : t.Inv := by
  unfold Machine.divideResult at he; split at he
  · exact h.trapsWordEnd he
  split at he
  · exact h.trapsWordEnd he
  · exact (h.setReg _ _).advance he

theorem State.Inv.carryResult {r v c s t} (h : s.Inv) (he : Machine.carryResult r v c s = .next t) : t.Inv := by
  unfold Machine.carryResult at he; split at he
  · simp at he
  · exact ((h.setReg _ _).setReg _ _).advance he

theorem State.Inv.realEnd {r x s t} (h : s.Inv) (he : Machine.realEnd r x s = .next t) : t.Inv := by
  unfold Machine.realEnd at he; split at he
  · exact (h.setReg _ _).advance he
  · exact (h.setReg _ _).trapsWordEnd he
  · exact (h.setReg _ _).trapsWordEnd he
  · exact (h.scrambleReg _).trapsWordEnd he

theorem State.Inv.makeRealEnd {r x s t} (h : s.Inv) (he : Machine.makeRealEnd r x s = .next t) : t.Inv := by
  unfold Machine.makeRealEnd at he; split at he
  · exact (h.setReg _ _).advance he
  · exact (h.scrambleReg _).trapsWordEnd he
  · exact (h.scrambleReg _).trapsWordEnd he
  · exact (h.scrambleReg _).trapsWordEnd he

theorem State.Inv.doubleEnd {r x s t} (h : s.Inv) (he : Machine.doubleEnd r x s = .next t) : t.Inv := by
  unfold Machine.doubleEnd at he; split at he
  · exact (h.setPair _ _).advance he
  · exact (h.setPair _ _).trapsWordEnd he
  · exact (h.setPair _ _).trapsWordEnd he
  · exact (h.scramblePair _).trapsWordEnd he

theorem State.Inv.fixEnd {r x s t} (h : s.Inv) (he : Machine.fixEnd r x s = .next t) : t.Inv := by
  unfold Machine.fixEnd at he; split at he
  · exact h.trapsWordEnd he
  · exact (h.setReg _ _).advance he

theorem State.Inv.checkEnd {b r1 r2 s t} (h : s.Inv) (he : Machine.checkEnd b r1 r2 s = .next t) : t.Inv := by
  unfold Machine.checkEnd at he; split at he
  · exact State.Inv.raise h he
  · exact h.advance he

theorem inv_of_withBitNumber {n k s t} (hk : ∀ n, k n s = .next t → t.Inv)
    (he : withBitNumber n k s = .next t) : t.Inv := by
  unfold withBitNumber at he; split at he
  · exact hk _ he
  · simp at he

theorem State.Inv.arithmeticLeft {r n s t} (h : s.Inv) (he : Machine.arithmeticLeft r n s = .next t) : t.Inv :=
  State.Inv.overflowEnd (h.setReg _ _) he

theorem State.Inv.branchIf {c d l s t} (h : s.Inv) (he : Machine.branchIf c d l s = .next t) : t.Inv := by
  unfold Machine.branchIf at he; split at he
  · simp only [Host.Outcome.next.injEq] at he; rw [← he]; exact h.setPc _
  · exact h.advance he

theorem State.Inv.linkAndGo {r tg l s t} (h : s.Inv) (he : Machine.linkAndGo r tg l s = .next t) : t.Inv := by
  unfold Machine.linkAndGo at he; simp only [Host.Outcome.next.injEq] at he; rw [← he]; exact (h.setReg _ _).setPc _

theorem State.Inv.loadTo {seg n r ea l s t} (h : s.Inv) (he : Machine.loadTo seg n r ea l s = .next t) : t.Inv := by
  unfold Machine.loadTo at he; split at he
  · rename_i h1; exact ((h.memRead h1).setReg _ _).advance he
  · rename_i h1; unfold abortLoad at he; split at he
    · exact State.Inv.raise ((h.memRead_trap h1).scrambleReg _) he
    · exact State.Inv.raise (h.memRead_trap h1) he
  · simp at he
  · simp at he

theorem State.Inv.loadPairTo {seg r ea l s t} (h : s.Inv) (he : Machine.loadPairTo seg r ea l s = .next t) : t.Inv := by
  unfold Machine.loadPairTo at he; split at he
  · rename_i h1; exact ((h.memRead h1).setPair _ _).advance he
  · rename_i h1; unfold abortLoad at he; split at he
    · exact State.Inv.raise ((h.memRead_trap h1).scramblePair _) he
    · exact State.Inv.raise (h.memRead_trap h1) he
  · simp at he
  · simp at he

theorem State.Inv.storeFrom {n v ea l s t} (h : s.Inv) (he : Machine.storeFrom n v ea l s = .next t) : t.Inv := by
  unfold Machine.storeFrom at he; rw [Access.finish_eq_next] at he
  rcases he with ⟨v, s1, h1, h2⟩ | ⟨e, s1, h1, h2⟩
  · exact (h.memWrite h1).advance h2
  · exact State.Inv.raise (h.memWrite_trap h1) h2

theorem State.Inv.loadAddress {r ea l s t} (h : s.Inv) (he : Machine.loadAddress r ea l s = .next t) : t.Inv :=
  (h.setReg _ _).advance he

theorem State.Inv.kernelOnly {op r1 r2 k s t} (h : s.Inv) (hk : s.mode = .kernel → k s = .next t → t.Inv)
    (he : Machine.kernelOnly op r1 r2 k s = .next t) : t.Inv := by
  unfold Machine.kernelOnly at he; split at he
  · exact hk ‹_› he
  · exact State.Inv.raise h he

theorem State.Inv.kernelOrPrivileged {op r1 r2 k s t} (h : s.Inv) (hk : k s = .next t → t.Inv)
    (he : Machine.kernelOrPrivileged op r1 r2 k s = .next t) : t.Inv := by
  unfold Machine.kernelOrPrivileged at he; split at he
  · exact hk he
  split at he
  · exact hk he
  · exact State.Inv.raise h he

theorem State.Inv.withProcess {k s t} (h : s.Inv) (hk : k s = .next t → t.Inv)
    (he : Machine.withProcess k s = .next t) : t.Inv := by
  unfold Machine.withProcess at he; split at he
  · exact h.advance he
  split at he
  · exact hk he
  · simp at he

theorem State.Inv.saveRegisters {l s t} (h : s.Inv) (he : Machine.saveRegisters l s = .ok () t) : t.Inv := by
  induction l generalizing s with
  | nil => simp [Machine.saveRegisters] at he; rw [← he]; exact h
  | cons r l ih =>
    rw [Machine.saveRegisters, Access.bind_eq_ok] at he
    obtain ⟨_, s1, h1, h2⟩ := he
    exact ih (State.Inv.busWrite h h1) h2

/-- Saving registers raises no exception. -/
theorem saveRegisters_ne_trap {l s e t} : saveRegisters l s ≠ .trap e t := by
  induction l generalizing s with
  | nil => simp [saveRegisters]
  | cons r l ih =>
    rw [saveRegisters]; intro h; rw [Access.bind_eq_trap] at h
    rcases h with h | ⟨_, _, _, h⟩
    · exact busWrite32_ne_trap _ _ _ _ _ h
    · exact ih h

theorem State.Inv.loadRegisters {l s t} (h : s.Inv) (he : Machine.loadRegisters l s = .ok () t) : t.Inv := by
  induction l generalizing s with
  | nil => simp [Machine.loadRegisters] at he; rw [← he]; exact h
  | cons r l ih =>
    rw [Machine.loadRegisters, Access.bind_eq_ok] at he
    obtain ⟨_, s1, h1, h2⟩ := he
    exact ih ((State.Inv.busRead32 h h1).setReg _ _) h2

/-- Loading registers raises no exception. -/
theorem loadRegisters_ne_trap {l s e t} : loadRegisters l s ≠ .trap e t := by
  induction l generalizing s with
  | nil => simp [loadRegisters]
  | cons r l ih =>
    rw [loadRegisters]; intro h; rw [Access.bind_eq_trap] at h
    rcases h with h | ⟨_, _, _, h⟩
    · exact busRead32_ne_trap _ _ _ _ h
    · exact ih h

theorem State.Inv.loadSpecial {k o s t} (h : s.Inv) (he : Machine.loadSpecial k o s = .ok () t) : t.Inv := by
  rw [Machine.loadSpecial, Access.bind_eq_ok] at he
  obtain ⟨_, s1, h1, h2⟩ := he
  simp at h2; rw [← h2]; exact (State.Inv.busRead32 h h1).setSpec _ _

theorem State.Inv.loadProcess {s t} (h : s.Inv) (he : Machine.loadProcess s = .ok () t) : t.Inv := by
  unfold Machine.loadProcess at he
  rw [Access.bind_eq_ok] at he; obtain ⟨_, s1, h1, he⟩ := he
  rw [Access.bind_eq_ok] at he; obtain ⟨_, s2, h2, he⟩ := he
  rw [Access.bind_eq_ok] at he; obtain ⟨_, s3, h3, he⟩ := he
  exact State.Inv.loadSpecial (State.Inv.loadSpecial (State.Inv.loadSpecial (State.Inv.loadSpecial h h1) h2) h3) he

theorem loadSpecial_ne_trap {k o s e t} : loadSpecial k o s ≠ .trap e t := by
  rw [loadSpecial]; intro h; rw [Access.bind_eq_trap] at h
  rcases h with h | ⟨_, _, _, h⟩
  · exact busRead32_ne_trap _ _ _ _ h
  · simp at h

theorem loadProcess_ne_trap {s e t} : loadProcess s ≠ .trap e t := by
  unfold loadProcess; intro h
  rw [Access.bind_eq_trap] at h; rcases h with h | ⟨_, _, _, h⟩; · exact loadSpecial_ne_trap h
  rw [Access.bind_eq_trap] at h; rcases h with h | ⟨_, _, _, h⟩; · exact loadSpecial_ne_trap h
  rw [Access.bind_eq_trap] at h; rcases h with h | ⟨_, _, _, h⟩; · exact loadSpecial_ne_trap h
  exact loadSpecial_ne_trap h

theorem State.Inv.translateExplicit {u r1 r2 s t} (h : s.Inv)
    (he : Machine.translateExplicit u r1 r2 s = .next t) : t.Inv := by
  unfold Machine.translateExplicit at he; dsimp only at he
  rw [Access.finish_eq_next] at he
  rcases he with ⟨r, s1, h1, h2⟩ | ⟨e, s1, h1, -⟩
  · have hs := h.vrtSearch h1
    cases r with
    | none => exact (hs.setReg _ _).advance h2
    | some x =>
      rw [Access.finish_eq_next] at h2
      rcases h2 with ⟨_, s2, h2, h3⟩ | ⟨e, s2, h2, -⟩
      · refine (((State.Inv.between s1 s2 hs h2).markEntry _ _ ?_).setReg _ _).advance h3
        rw [(between_only h2).entryBacked, (vrtSearch_only h1).entryBacked]
        exact vrtSearchWith_backed between_installed h1
      · exact absurd h2 between_ne_trap
  · exact absurd h1 (vrtSearchWith_ne_trap between_never_traps)

/-- An address goes into its place in a rising list. -/
theorem elogInsert_sorted (l : List Nat) (a : Nat) (h : l.Pairwise (fun a b => a < b)) :
    (elogInsert l a).Pairwise (fun a b => a < b) := by
  induction l with
  | nil => simp [elogInsert]
  | cons k l ih =>
    rw [List.pairwise_cons] at h
    unfold elogInsert; split
    · rw [List.pairwise_cons]; refine ⟨?_, List.pairwise_cons.2 h⟩
      intro x hx; rw [List.mem_cons] at hx; rcases hx with rfl | hx
      · assumption
      · have := h.1 x hx; omega
    split
    · exact List.pairwise_cons.2 h
    · rw [List.pairwise_cons]; refine ⟨?_, ih h.2⟩
      have hm : ∀ l : List Nat, ∀ x ∈ elogInsert l a, x = a ∨ x ∈ l := by
        intro l; induction l with
        | nil => simp [elogInsert]
        | cons k l ih => 
          intro x hx; unfold elogInsert at hx; split at hx
          · simpa using hx
          split at hx
          · right; exact hx
          · simp only [List.mem_cons] at hx ⊢; rcases hx with hx | hx
            · tauto
            · have := ih x hx; tauto
      intro x hx; rcases hm l x hx with rfl | hx
      · omega
      · exact h.1 x hx

theorem State.Inv.elogWrite {s : State} {a : Nat} {b : Bool} (h : s.Inv) :
    State.Inv { s with elog := Machine.elogWrite s.elog a b } := by
  refine { h with elog := ?_ }
  show (Machine.elogWrite s.elog a b).Pairwise _
  unfold Machine.elogWrite; split
  · exact elogInsert_sorted _ _ h.elog
  · exact h.elog.filter _

/-- Requests may be taken off. -/
theorem State.Inv.requestsTaken {s : State} {l : List Word} {tr d} (h : s.Inv) (hs : l.Sublist s.pending.external) :
    State.Inv { s with ioTrace := tr, pending := { s.pending with external := l }, draws := d } :=
  { h with requests := h.requests.sublist (hs.map _) }

theorem State.Inv.takeIoir {s w t} (h : s.Inv) (he : Machine.takeIoir s = some (w, t)) : t.Inv := by
  unfold Machine.takeIoir at he
  rw [Option.map_eq_some_iff] at he
  obtain ⟨w', _, he⟩ := he
  simp only [Prod.mk.injEq] at he
  rw [← he.2]
  apply State.Inv.requestsTaken h
  split
  · exact List.filter_sublist
  · exact List.Sublist.refl _

end Sys2Proof.Machine
end

