-- ==== Sys2Proof/Laws/Fetch.lean ====
section
/-! SUPPORT. Fetching an instruction keeps the invariant and neither begins nor ends a pause. -/

namespace Sys2Proof.Machine

theorem State.Inv.fetchByte {m a s b t} (h : s.Inv) (he : Machine.fetchByte m a s = .ok b t) : t.Inv := by
  unfold Machine.fetchByte at he; split at he
  · split at he
    · cases he; exact h.drawn
    split at he
    · cases he; exact h
    · cases he; exact h.drawn
  · cases he

theorem fetchByte_ne_trap {m a s e t} : fetchByte m a s ≠ .trap e t := by
  unfold fetchByte; split
  · split
    · intro h; cases h
    split <;> (intro h; cases h)
  · intro h; cases h

theorem State.Inv.fetchPair {va ra s b t} (h : s.Inv) (he : Machine.fetchPair va ra s = .ok b t) : t.Inv := by
  unfold Machine.fetchPair at he
  rw [Access.bind_eq_ok] at he; obtain ⟨_, s1, h1, he⟩ := he
  rw [Access.bind_eq_ok] at he; obtain ⟨_, s2, h2, he⟩ := he
  cases he
  exact State.Inv.fetchByte (State.Inv.fetchByte h h1) h2

theorem fetchPair_ne_trap {va ra s e t} : fetchPair va ra s ≠ .trap e t := by
  unfold fetchPair
  intro he
  rw [Access.bind_eq_trap] at he; rcases he with he | ⟨_, s1, _, he⟩
  · exact absurd he fetchByte_ne_trap
  rw [Access.bind_eq_trap] at he; rcases he with he | ⟨_, s1, _, he⟩
  · exact absurd he fetchByte_ne_trap
  cases he

/-- A halfword that is fetched meets no parity error: it is translated, and its two bytes read. -/
theorem fetchHalf_eq_ok {p va s b t} :
    fetchHalf p va s = .ok b t ↔
      errorIn p va = none ∧ ∃ ra s1 s2, resolve .code va false s = .ok ra s1 ∧ s1.between = .ok () s2 ∧
        fetchPair va ra s2 = .ok b t := by
  unfold fetchHalf
  rw [Access.bind_eq_ok]
  cases errorIn p va <;> simp [Access.bind_eq_ok, Unique.exists_iff]

/-- A halfword whose fetch raises an exception is missing, or meets the parity error (R93, R550). -/
theorem fetchHalf_eq_trap {p va s e t} :
    fetchHalf p va s = .trap e t ↔
      resolve .code va false s = .trap e t ∨
        ∃ a ra, errorIn p va = some a ∧ resolve .code va false s = .ok ra t ∧ e = .parityCodeFetch a := by
  unfold fetchHalf
  rw [Access.bind_eq_trap]
  refine or_congr_right ?_
  cases errorIn p va with
  | none => simp [Access.bind_eq_trap, fetchPair_ne_trap, between_ne_trap]
  | some a =>
    simp only [Access.trap.injEq, Option.some.injEq]
    constructor
    · rintro ⟨ra, s1, h, rfl, rfl⟩; exact ⟨a, ra, rfl, h, rfl⟩
    · rintro ⟨_, ra, rfl, h, rfl⟩; exact ⟨ra, t, h, rfl, rfl⟩

theorem State.Inv.fetchHalf {p va s b t} (h : s.Inv) (he : Machine.fetchHalf p va s = .ok b t) : t.Inv := by
  obtain ⟨-, _, s1, s2, h1, h2, h3⟩ := fetchHalf_eq_ok.mp he
  exact State.Inv.fetchPair (State.Inv.between s1 s2 (h.resolve h1) h2) h3

theorem State.Inv.fetchHalf_trap {p va s e t} (h : s.Inv) (he : Machine.fetchHalf p va s = .trap e t) : t.Inv := by
  rcases fetchHalf_eq_trap.mp he with he | ⟨_, _, -, he, -⟩
  · exact (resolve_trap he).2.2 h
  · exact h.resolve he

theorem State.Inv.fetchHalfOf {l p va s b t} (h : s.Inv) (he : Machine.fetchHalfOf l p va s = .ok b t) : t.Inv := by
  unfold Machine.fetchHalfOf at he; split at he
  · simp at he
  · exact State.Inv.fetchHalf h he

theorem State.Inv.fetchHalfOf_trap {l p va s e t} (h : s.Inv) (he : Machine.fetchHalfOf l p va s = .trap e t) : t.Inv := by
  unfold Machine.fetchHalfOf at he; split at he
  · rename_i h1; cases he; exact (State.Inv.fetchHalf_trap h h1).drawn
  · exact State.Inv.fetchHalf_trap h he

theorem State.Inv.fetchTail {l p k va s b t} (h : s.Inv) (he : Machine.fetchTail l p k va s = .ok b t) : t.Inv := by
  induction k generalizing va s b t with
  | zero => simp [Machine.fetchTail] at he; rw [← he.2]; exact h
  | succ k ih =>
    rw [Machine.fetchTail, Access.bind_eq_ok] at he; obtain ⟨_, s1, h1, he⟩ := he
    rw [Access.bind_eq_ok] at he; obtain ⟨_, s2, h2, he⟩ := he
    simp only [Access.ok.injEq] at he; rw [← he.2]
    exact ih (State.Inv.fetchHalfOf h h1) h2

theorem State.Inv.fetchTail_trap {l p k va s e t} (h : s.Inv) (he : Machine.fetchTail l p k va s = .trap e t) : t.Inv := by
  induction k generalizing va s t with
  | zero => simp [Machine.fetchTail] at he
  | succ k ih =>
    rw [Machine.fetchTail, Access.bind_eq_trap] at he; rcases he with he | ⟨_, s1, h1, he⟩
    · exact State.Inv.fetchHalfOf_trap h he
    rw [Access.bind_eq_trap] at he; rcases he with he | ⟨_, s2, h2, he⟩
    · exact ih (State.Inv.fetchHalfOf h h1) he
    · simp at he

theorem State.Inv.noteFetch {n : Nat} {s : State} (h : s.Inv) : (State.noteFetch n s).Inv :=
  h.congr rfl rfl rfl rfl rfl rfl h.pause (by rw [State.noteFetch_ahead]; exact h.ahead)

/-- The end of a fetch leaves the state, and gives all the bytes or the parity error. -/
theorem endFetch_eq_ok {p l s b t} : endFetch p l s = .ok b t ↔ p = none ∧ b = l ∧ t = s := by
  cases p <;> simp [endFetch, eq_comm]

theorem endFetch_eq_trap {p l s e t} :
    endFetch p l s = .trap e t ↔ ∃ a, p = some a ∧ e = .parityCodeFetch a ∧ t = s := by
  cases p <;> simp [endFetch, eq_comm]

theorem State.Inv.fetchBytes {p s b t} (h : s.Inv) (he : Machine.fetchBytes p s = .ok b t) : t.Inv := by
  unfold Machine.fetchBytes at he
  rw [Access.bind_eq_ok] at he; obtain ⟨_, s1, h1, he⟩ := he
  dsimp only at he; split at he
  · simp at he
  rw [Access.bind_eq_ok] at he; obtain ⟨_, s2, h2, he⟩ := he
  rw [(endFetch_eq_ok.mp he).2.2]
  exact State.Inv.fetchTail (State.Inv.fetchHalfOf h h1).noteFetch h2

theorem State.Inv.fetchBytes_trap {p s e t} (h : s.Inv) (he : Machine.fetchBytes p s = .trap e t) : t.Inv := by
  unfold Machine.fetchBytes at he
  rw [Access.bind_eq_trap] at he; rcases he with he | ⟨_, s1, h1, he⟩
  · exact State.Inv.fetchHalfOf_trap h he
  dsimp only at he; split at he
  · simp at he
  rw [Access.bind_eq_trap] at he; rcases he with he | ⟨_, s2, h2, he⟩
  · exact State.Inv.fetchTail_trap (State.Inv.fetchHalfOf h h1).noteFetch he
  · obtain ⟨_, -, -, rfl⟩ := endFetch_eq_trap.mp he
    exact State.Inv.fetchTail (State.Inv.fetchHalfOf h h1).noteFetch h2

/-- Noting a stretch changes only what has been fetched. -/
theorem FetchState.note_frame (f : FetchState) (x : SeenFetch) :
    (f.note x).stale = f.stale ∧ (f.note x).aheadPc = f.aheadPc ∧ (f.note x).ahead = f.ahead ∧
      ∀ y, y ∈ (f.note x).seen ↔ y ∈ f.seen ∨ y = x := by
  unfold FetchState.note
  split
  · rename_i h
    simp only [List.contains_iff_mem] at h
    refine ⟨rfl, rfl, rfl, fun y => ⟨.inl, ?_⟩⟩
    rintro (h | rfl) <;> assumption
  · refine ⟨rfl, rfl, rfl, fun y => ?_⟩
    rw [List.mem_cons, or_comm]

theorem State.Inv.dropAhead {s : State} (h : s.Inv) : s.dropAhead.Inv := by
  unfold State.dropAhead; split
  · exact h
  · exact h.congr rfl rfl rfl rfl rfl rfl h.pause (Nat.zero_le _)

theorem State.Inv.afterFetch {n : Nat} {s : State} (h : s.Inv) : (State.afterFetch n s).Inv :=
  h.congr rfl rfl rfl rfl rfl rfl h.pause (by
    rw [State.afterFetch_ahead, List.length_tail]
    have := h.ahead
    omega)

theorem resolve_paused {seg va w s ra t} (he : resolve seg va w s = .ok ra t) : t.paused = s.paused := by
  unfold resolve Machine.translate at he; split at he
  · cases he; rfl
  · rw [Access.bind_eq_ok] at he; obtain ⟨p, s1, h1, h2⟩ := he
    cases h2
    rw [State.recordAccess_paused]
    unfold lookupPage at h1
    rw [Access.bind_eq_ok] at h1; obtain ⟨_, s0, h0, h1⟩ := h1
    split at h1
    · cases h1; exact (between_only h0).paused
    · rw [Access.bind_eq_ok] at h1; obtain ⟨r, s2, h2, h3⟩ := h1
      cases r with
      | none => cases h3
      | some x =>
        unfold Machine.loadMapping at h3
        dsimp only at h3
        rw [Access.bind_eq_ok] at h3; obtain ⟨_, s3, h4, h3⟩ := h3
        cases h3
        rw [State.drawn_paused, State.setTmt_paused, State.markEntry_paused, (between_only h4).paused,
          (vrtSearch_only h2).paused, (between_only h0).paused]

theorem fetchByte_paused {m a s b t} (he : fetchByte m a s = .ok b t) : t.paused = s.paused := by
  unfold fetchByte at he; split at he
  · split at he
    · cases he; rfl
    split at he <;> (cases he; rfl)
  · cases he

theorem fetchHalf_paused {p va s b t} (he : fetchHalf p va s = .ok b t) : t.paused = s.paused := by
  obtain ⟨-, _, s1, s0, h1, h0, he⟩ := fetchHalf_eq_ok.mp he
  unfold fetchPair at he
  rw [Access.bind_eq_ok] at he; obtain ⟨_, s2, h2, he⟩ := he
  rw [Access.bind_eq_ok] at he; obtain ⟨_, s3, h3, he⟩ := he
  cases he
  rw [fetchByte_paused h3, fetchByte_paused h2, (between_only h0).paused, resolve_paused h1]

theorem fetchHalfOf_paused {l p va s b t} (he : fetchHalfOf l p va s = .ok b t) : t.paused = s.paused := by
  unfold fetchHalfOf at he; split at he
  · simp at he
  · exact fetchHalf_paused he

theorem fetchTail_paused {l p k va s b t} (he : fetchTail l p k va s = .ok b t) : t.paused = s.paused := by
  induction k generalizing va s b t with
  | zero => simp [fetchTail] at he; rw [← he.2]
  | succ k ih =>
    rw [fetchTail, Access.bind_eq_ok] at he; obtain ⟨_, s1, h1, he⟩ := he
    rw [Access.bind_eq_ok] at he; obtain ⟨_, s2, h2, he⟩ := he
    simp only [Access.ok.injEq] at he; rw [← he.2, ih h2, fetchHalfOf_paused h1]

theorem fetchBytes_paused {p s b t} (he : fetchBytes p s = .ok b t) : t.paused = s.paused := by
  unfold fetchBytes at he
  rw [Access.bind_eq_ok] at he; obtain ⟨_, s1, h1, he⟩ := he
  dsimp only at he; split at he
  · simp at he
  rw [Access.bind_eq_ok] at he; obtain ⟨_, s2, h2, he⟩ := he
  rw [(endFetch_eq_ok.mp he).2.2, fetchTail_paused h2, State.noteFetch_paused, fetchHalfOf_paused h1]

end Sys2Proof.Machine
end

