-- ==== Sys2Proof/Laws/PerInstr.lean ====
section
/-! SUPPORT. The per-instruction family EncodedLength: every instruction's encoding begins with an opcode byte, and that byte
alone gives the encoding's length (R152). -/

namespace Sys2Proof.Laws.EncodedLength

/-- The encoding of an instruction begins with an opcode whose length it has. -/
def Statement (i : Instr) : Prop := ∃ op rest, encode i = op :: rest ∧ (encode i).length = lengthOf op

theorem move (r1 r2 : Reg) : Statement (.move r1 r2) := ⟨_, _, rfl, rfl⟩
theorem neg (r1 r2 : Reg) : Statement (.neg r1 r2) := ⟨_, _, rfl, rfl⟩
theorem add (r1 r2 : Reg) : Statement (.add r1 r2) := ⟨_, _, rfl, rfl⟩
theorem sub (r1 r2 : Reg) : Statement (.sub r1 r2) := ⟨_, _, rfl, rfl⟩
theorem mpy (r1 r2 : Reg) : Statement (.mpy r1 r2) := ⟨_, _, rfl, rfl⟩
theorem div (r1 r2 : Reg) : Statement (.div r1 r2) := ⟨_, _, rfl, rfl⟩
theorem rem (r1 r2 : Reg) : Statement (.rem r1 r2) := ⟨_, _, rfl, rfl⟩
theorem not (r1 r2 : Reg) : Statement (.not r1 r2) := ⟨_, _, rfl, rfl⟩
theorem or (r1 r2 : Reg) : Statement (.or r1 r2) := ⟨_, _, rfl, rfl⟩
theorem xor (r1 r2 : Reg) : Statement (.xor r1 r2) := ⟨_, _, rfl, rfl⟩
theorem and (r1 r2 : Reg) : Statement (.and r1 r2) := ⟨_, _, rfl, rfl⟩
theorem cbit (r1 r2 : Reg) : Statement (.cbit r1 r2) := ⟨_, _, rfl, rfl⟩
theorem sbit (r1 r2 : Reg) : Statement (.sbit r1 r2) := ⟨_, _, rfl, rfl⟩
theorem tbit (r1 r2 : Reg) : Statement (.tbit r1 r2) := ⟨_, _, rfl, rfl⟩
theorem chk (r1 r2 : Reg) : Statement (.chk r1 r2) := ⟨_, _, rfl, rfl⟩
theorem nop (r1 r2 : Reg) : Statement (.nop r1 r2) := ⟨_, _, rfl, rfl⟩
theorem movei (r1 r2 : Reg) : Statement (.movei r1 r2) := ⟨_, _, rfl, rfl⟩
theorem addi (r1 r2 : Reg) : Statement (.addi r1 r2) := ⟨_, _, rfl, rfl⟩
theorem subi (r1 r2 : Reg) : Statement (.subi r1 r2) := ⟨_, _, rfl, rfl⟩
theorem mpyi (r1 r2 : Reg) : Statement (.mpyi r1 r2) := ⟨_, _, rfl, rfl⟩
theorem noti (r1 r2 : Reg) : Statement (.noti r1 r2) := ⟨_, _, rfl, rfl⟩
theorem andi (r1 r2 : Reg) : Statement (.andi r1 r2) := ⟨_, _, rfl, rfl⟩
theorem chki (r1 r2 : Reg) : Statement (.chki r1 r2) := ⟨_, _, rfl, rfl⟩
theorem fixt (r1 r2 : Reg) : Statement (.fixt r1 r2) := ⟨_, _, rfl, rfl⟩
theorem fixr (r1 r2 : Reg) : Statement (.fixr r1 r2) := ⟨_, _, rfl, rfl⟩
theorem rneg (r1 r2 : Reg) : Statement (.rneg r1 r2) := ⟨_, _, rfl, rfl⟩
theorem radd (r1 r2 : Reg) : Statement (.radd r1 r2) := ⟨_, _, rfl, rfl⟩
theorem rsub (r1 r2 : Reg) : Statement (.rsub r1 r2) := ⟨_, _, rfl, rfl⟩
theorem rmpy (r1 r2 : Reg) : Statement (.rmpy r1 r2) := ⟨_, _, rfl, rfl⟩
theorem rdiv (r1 r2 : Reg) : Statement (.rdiv r1 r2) := ⟨_, _, rfl, rfl⟩
theorem makerd (r1 r2 : Reg) : Statement (.makerd r1 r2) := ⟨_, _, rfl, rfl⟩
theorem lcomp (r1 r2 : Reg) : Statement (.lcomp r1 r2) := ⟨_, _, rfl, rfl⟩
theorem float (r1 r2 : Reg) : Statement (.float r1 r2) := ⟨_, _, rfl, rfl⟩
theorem rcomp (r1 r2 : Reg) : Statement (.rcomp r1 r2) := ⟨_, _, rfl, rfl⟩
theorem eadd (r1 r2 : Reg) : Statement (.eadd r1 r2) := ⟨_, _, rfl, rfl⟩
theorem esub (r1 r2 : Reg) : Statement (.esub r1 r2) := ⟨_, _, rfl, rfl⟩
theorem empy (r1 r2 : Reg) : Statement (.empy r1 r2) := ⟨_, _, rfl, rfl⟩
theorem ediv (r1 r2 : Reg) : Statement (.ediv r1 r2) := ⟨_, _, rfl, rfl⟩
theorem dfixt (r1 r2 : Reg) : Statement (.dfixt r1 r2) := ⟨_, _, rfl, rfl⟩
theorem dfixr (r1 r2 : Reg) : Statement (.dfixr r1 r2) := ⟨_, _, rfl, rfl⟩
theorem drneg (r1 r2 : Reg) : Statement (.drneg r1 r2) := ⟨_, _, rfl, rfl⟩
theorem dradd (r1 r2 : Reg) : Statement (.dradd r1 r2) := ⟨_, _, rfl, rfl⟩
theorem drsub (r1 r2 : Reg) : Statement (.drsub r1 r2) := ⟨_, _, rfl, rfl⟩
theorem drmpy (r1 r2 : Reg) : Statement (.drmpy r1 r2) := ⟨_, _, rfl, rfl⟩
theorem drdiv (r1 r2 : Reg) : Statement (.drdiv r1 r2) := ⟨_, _, rfl, rfl⟩
theorem makedr (r1 r2 : Reg) : Statement (.makedr r1 r2) := ⟨_, _, rfl, rfl⟩
theorem dcomp (r1 r2 : Reg) : Statement (.dcomp r1 r2) := ⟨_, _, rfl, rfl⟩
theorem dfloat (r1 r2 : Reg) : Statement (.dfloat r1 r2) := ⟨_, _, rfl, rfl⟩
theorem drcomp (r1 r2 : Reg) : Statement (.drcomp r1 r2) := ⟨_, _, rfl, rfl⟩
theorem trap (r1 r2 : Reg) : Statement (.trap r1 r2) := ⟨_, _, rfl, rfl⟩
theorem sus (r1 r2 : Reg) : Statement (.sus r1 r2) := ⟨_, _, rfl, rfl⟩
theorem lus (r1 r2 : Reg) : Statement (.lus r1 r2) := ⟨_, _, rfl, rfl⟩
theorem rum (r1 r2 : Reg) : Statement (.rum r1 r2) := ⟨_, _, rfl, rfl⟩
theorem ldregs (r1 r2 : Reg) : Statement (.ldregs r1 r2) := ⟨_, _, rfl, rfl⟩
theorem trans (r1 r2 : Reg) : Statement (.trans r1 r2) := ⟨_, _, rfl, rfl⟩
theorem dirt (r1 r2 : Reg) : Statement (.dirt r1 r2) := ⟨_, _, rfl, rfl⟩
theorem movesr (r1 r2 : Reg) : Statement (.movesr r1 r2) := ⟨_, _, rfl, rfl⟩
theorem movers (r1 r2 : Reg) : Statement (.movers r1 r2) := ⟨_, _, rfl, rfl⟩
theorem elogr (r1 : Reg) : Statement (.elogr r1) := ⟨_, _, rfl, rfl⟩
theorem elogw (r1 : Reg) : Statement (.elogw r1) := ⟨_, _, rfl, rfl⟩
theorem flush (r1 : Reg) : Statement (.flush r1) := ⟨_, _, rfl, rfl⟩
theorem trapexit (r1 : Reg) : Statement (.trapexit r1) := ⟨_, _, rfl, rfl⟩
theorem itest (r1 : Reg) : Statement (.itest r1) := ⟨_, _, rfl, rfl⟩
theorem read (r1 r2 : Reg) : Statement (.read r1 r2) := ⟨_, _, rfl, rfl⟩
theorem write (r1 r2 : Reg) : Statement (.write r1 r2) := ⟨_, _, rfl, rfl⟩
theorem testGt (r1 r2 : Reg) : Statement (.testGt r1 r2) := ⟨_, _, rfl, rfl⟩
theorem testLt (r1 r2 : Reg) : Statement (.testLt r1 r2) := ⟨_, _, rfl, rfl⟩
theorem testEq (r1 r2 : Reg) : Statement (.testEq r1 r2) := ⟨_, _, rfl, rfl⟩
theorem callr (r1 r2 : Reg) : Statement (.callr r1 r2) := ⟨_, _, rfl, rfl⟩
theorem testiGt (r1 r2 : Reg) : Statement (.testiGt r1 r2) := ⟨_, _, rfl, rfl⟩
theorem testiLt (r1 r2 : Reg) : Statement (.testiLt r1 r2) := ⟨_, _, rfl, rfl⟩
theorem testiEq (r1 r2 : Reg) : Statement (.testiEq r1 r2) := ⟨_, _, rfl, rfl⟩
theorem ret (r1 r2 : Reg) : Statement (.ret r1 r2) := ⟨_, _, rfl, rfl⟩
theorem testLe (r1 r2 : Reg) : Statement (.testLe r1 r2) := ⟨_, _, rfl, rfl⟩
theorem testGe (r1 r2 : Reg) : Statement (.testGe r1 r2) := ⟨_, _, rfl, rfl⟩
theorem testNe (r1 r2 : Reg) : Statement (.testNe r1 r2) := ⟨_, _, rfl, rfl⟩
theorem kcall (n : BitVec 8) : Statement (.kcall n) := ⟨_, _, rfl, rfl⟩
theorem testiLe (r1 r2 : Reg) : Statement (.testiLe r1 r2) := ⟨_, _, rfl, rfl⟩
theorem testiGe (r1 r2 : Reg) : Statement (.testiGe r1 r2) := ⟨_, _, rfl, rfl⟩
theorem testiNe (r1 r2 : Reg) : Statement (.testiNe r1 r2) := ⟨_, _, rfl, rfl⟩
theorem lsl (r1 r2 : Reg) : Statement (.lsl r1 r2) := ⟨_, _, rfl, rfl⟩
theorem lsr (r1 r2 : Reg) : Statement (.lsr r1 r2) := ⟨_, _, rfl, rfl⟩
theorem asl (r1 r2 : Reg) : Statement (.asl r1 r2) := ⟨_, _, rfl, rfl⟩
theorem asr (r1 r2 : Reg) : Statement (.asr r1 r2) := ⟨_, _, rfl, rfl⟩
theorem dlsl (r1 r2 : Reg) : Statement (.dlsl r1 r2) := ⟨_, _, rfl, rfl⟩
theorem dlsr (r1 r2 : Reg) : Statement (.dlsr r1 r2) := ⟨_, _, rfl, rfl⟩
theorem csl (r1 r2 : Reg) : Statement (.csl r1 r2) := ⟨_, _, rfl, rfl⟩
theorem seb (r1 r2 : Reg) : Statement (.seb r1 r2) := ⟨_, _, rfl, rfl⟩
theorem lsli (r1 r2 : Reg) : Statement (.lsli r1 r2) := ⟨_, _, rfl, rfl⟩
theorem lsri (r1 r2 : Reg) : Statement (.lsri r1 r2) := ⟨_, _, rfl, rfl⟩
theorem asli (r1 r2 : Reg) : Statement (.asli r1 r2) := ⟨_, _, rfl, rfl⟩
theorem asri (r1 r2 : Reg) : Statement (.asri r1 r2) := ⟨_, _, rfl, rfl⟩
theorem dlsli (r1 r2 : Reg) : Statement (.dlsli r1 r2) := ⟨_, _, rfl, rfl⟩
theorem dlsri (r1 r2 : Reg) : Statement (.dlsri r1 r2) := ⟨_, _, rfl, rfl⟩
theorem csli (r1 r2 : Reg) : Statement (.csli r1 r2) := ⟨_, _, rfl, rfl⟩
theorem seh (r1 r2 : Reg) : Statement (.seh r1 r2) := ⟨_, _, rfl, rfl⟩
theorem brGt (r1 r2 : Reg) (disp : Half) : Statement (.brGt r1 r2 disp) := ⟨_, _, rfl, rfl⟩
theorem brGtL (r1 r2 : Reg) (disp : Word) : Statement (.brGtL r1 r2 disp) := ⟨_, _, rfl, rfl⟩
theorem brEq (r1 r2 : Reg) (disp : Half) : Statement (.brEq r1 r2 disp) := ⟨_, _, rfl, rfl⟩
theorem brEqL (r1 r2 : Reg) (disp : Word) : Statement (.brEqL r1 r2 disp) := ⟨_, _, rfl, rfl⟩
theorem call (r1 r2 : Reg) (disp : Half) : Statement (.call r1 r2 disp) := ⟨_, _, rfl, rfl⟩
theorem callL (r1 r2 : Reg) (disp : Word) : Statement (.callL r1 r2 disp) := ⟨_, _, rfl, rfl⟩
theorem briGt (r1 r2 : Reg) (disp : Half) : Statement (.briGt r1 r2 disp) := ⟨_, _, rfl, rfl⟩
theorem briGtL (r1 r2 : Reg) (disp : Word) : Statement (.briGtL r1 r2 disp) := ⟨_, _, rfl, rfl⟩
theorem briLt (r1 r2 : Reg) (disp : Half) : Statement (.briLt r1 r2 disp) := ⟨_, _, rfl, rfl⟩
theorem briLtL (r1 r2 : Reg) (disp : Word) : Statement (.briLtL r1 r2 disp) := ⟨_, _, rfl, rfl⟩
theorem briEq (r1 r2 : Reg) (disp : Half) : Statement (.briEq r1 r2 disp) := ⟨_, _, rfl, rfl⟩
theorem briEqL (r1 r2 : Reg) (disp : Word) : Statement (.briEqL r1 r2 disp) := ⟨_, _, rfl, rfl⟩
theorem loop (r1 r2 : Reg) (disp : Half) : Statement (.loop r1 r2 disp) := ⟨_, _, rfl, rfl⟩
theorem loopL (r1 r2 : Reg) (disp : Word) : Statement (.loopL r1 r2 disp) := ⟨_, _, rfl, rfl⟩
theorem brLe (r1 r2 : Reg) (disp : Half) : Statement (.brLe r1 r2 disp) := ⟨_, _, rfl, rfl⟩
theorem brLeL (r1 r2 : Reg) (disp : Word) : Statement (.brLeL r1 r2 disp) := ⟨_, _, rfl, rfl⟩
theorem brNe (r1 r2 : Reg) (disp : Half) : Statement (.brNe r1 r2 disp) := ⟨_, _, rfl, rfl⟩
theorem brNeL (r1 r2 : Reg) (disp : Word) : Statement (.brNeL r1 r2 disp) := ⟨_, _, rfl, rfl⟩
theorem br (r1 r2 : Reg) (disp : Half) : Statement (.br r1 r2 disp) := ⟨_, _, rfl, rfl⟩
theorem brL (r1 r2 : Reg) (disp : Word) : Statement (.brL r1 r2 disp) := ⟨_, _, rfl, rfl⟩
theorem briLe (r1 r2 : Reg) (disp : Half) : Statement (.briLe r1 r2 disp) := ⟨_, _, rfl, rfl⟩
theorem briLeL (r1 r2 : Reg) (disp : Word) : Statement (.briLeL r1 r2 disp) := ⟨_, _, rfl, rfl⟩
theorem briGe (r1 r2 : Reg) (disp : Half) : Statement (.briGe r1 r2 disp) := ⟨_, _, rfl, rfl⟩
theorem briGeL (r1 r2 : Reg) (disp : Word) : Statement (.briGeL r1 r2 disp) := ⟨_, _, rfl, rfl⟩
theorem briNe (r1 r2 : Reg) (disp : Half) : Statement (.briNe r1 r2 disp) := ⟨_, _, rfl, rfl⟩
theorem briNeL (r1 r2 : Reg) (disp : Word) : Statement (.briNeL r1 r2 disp) := ⟨_, _, rfl, rfl⟩
theorem storeb (r1 r2 : Reg) (disp : Half) : Statement (.storeb r1 r2 disp) := ⟨_, _, rfl, rfl⟩
theorem storebX (r1 r2 : Reg) (disp : Half) : Statement (.storebX r1 r2 disp) := ⟨_, _, rfl, rfl⟩
theorem storebL (r1 r2 : Reg) (disp : Word) : Statement (.storebL r1 r2 disp) := ⟨_, _, rfl, rfl⟩
theorem storebLX (r1 r2 : Reg) (disp : Word) : Statement (.storebLX r1 r2 disp) := ⟨_, _, rfl, rfl⟩
theorem storeh (r1 r2 : Reg) (disp : Half) : Statement (.storeh r1 r2 disp) := ⟨_, _, rfl, rfl⟩
theorem storehX (r1 r2 : Reg) (disp : Half) : Statement (.storehX r1 r2 disp) := ⟨_, _, rfl, rfl⟩
theorem storehL (r1 r2 : Reg) (disp : Word) : Statement (.storehL r1 r2 disp) := ⟨_, _, rfl, rfl⟩
theorem storehLX (r1 r2 : Reg) (disp : Word) : Statement (.storehLX r1 r2 disp) := ⟨_, _, rfl, rfl⟩
theorem store (r1 r2 : Reg) (disp : Half) : Statement (.store r1 r2 disp) := ⟨_, _, rfl, rfl⟩
theorem storeX (r1 r2 : Reg) (disp : Half) : Statement (.storeX r1 r2 disp) := ⟨_, _, rfl, rfl⟩
theorem storeL (r1 r2 : Reg) (disp : Word) : Statement (.storeL r1 r2 disp) := ⟨_, _, rfl, rfl⟩
theorem storeLX (r1 r2 : Reg) (disp : Word) : Statement (.storeLX r1 r2 disp) := ⟨_, _, rfl, rfl⟩
theorem stored (r1 r2 : Reg) (disp : Half) : Statement (.stored r1 r2 disp) := ⟨_, _, rfl, rfl⟩
theorem storedX (r1 r2 : Reg) (disp : Half) : Statement (.storedX r1 r2 disp) := ⟨_, _, rfl, rfl⟩
theorem storedL (r1 r2 : Reg) (disp : Word) : Statement (.storedL r1 r2 disp) := ⟨_, _, rfl, rfl⟩
theorem storedLX (r1 r2 : Reg) (disp : Word) : Statement (.storedLX r1 r2 disp) := ⟨_, _, rfl, rfl⟩
theorem loadb (r1 r2 : Reg) (disp : Half) : Statement (.loadb r1 r2 disp) := ⟨_, _, rfl, rfl⟩
theorem loadbX (r1 r2 : Reg) (disp : Half) : Statement (.loadbX r1 r2 disp) := ⟨_, _, rfl, rfl⟩
theorem loadbL (r1 r2 : Reg) (disp : Word) : Statement (.loadbL r1 r2 disp) := ⟨_, _, rfl, rfl⟩
theorem loadbLX (r1 r2 : Reg) (disp : Word) : Statement (.loadbLX r1 r2 disp) := ⟨_, _, rfl, rfl⟩
theorem loadh (r1 r2 : Reg) (disp : Half) : Statement (.loadh r1 r2 disp) := ⟨_, _, rfl, rfl⟩
theorem loadhX (r1 r2 : Reg) (disp : Half) : Statement (.loadhX r1 r2 disp) := ⟨_, _, rfl, rfl⟩
theorem loadhL (r1 r2 : Reg) (disp : Word) : Statement (.loadhL r1 r2 disp) := ⟨_, _, rfl, rfl⟩
theorem loadhLX (r1 r2 : Reg) (disp : Word) : Statement (.loadhLX r1 r2 disp) := ⟨_, _, rfl, rfl⟩
theorem load (r1 r2 : Reg) (disp : Half) : Statement (.load r1 r2 disp) := ⟨_, _, rfl, rfl⟩
theorem loadX (r1 r2 : Reg) (disp : Half) : Statement (.loadX r1 r2 disp) := ⟨_, _, rfl, rfl⟩
theorem loadL (r1 r2 : Reg) (disp : Word) : Statement (.loadL r1 r2 disp) := ⟨_, _, rfl, rfl⟩
theorem loadLX (r1 r2 : Reg) (disp : Word) : Statement (.loadLX r1 r2 disp) := ⟨_, _, rfl, rfl⟩
theorem loadd (r1 r2 : Reg) (disp : Half) : Statement (.loadd r1 r2 disp) := ⟨_, _, rfl, rfl⟩
theorem loaddX (r1 r2 : Reg) (disp : Half) : Statement (.loaddX r1 r2 disp) := ⟨_, _, rfl, rfl⟩
theorem loaddL (r1 r2 : Reg) (disp : Word) : Statement (.loaddL r1 r2 disp) := ⟨_, _, rfl, rfl⟩
theorem loaddLX (r1 r2 : Reg) (disp : Word) : Statement (.loaddLX r1 r2 disp) := ⟨_, _, rfl, rfl⟩
theorem laddr (r1 r2 : Reg) (disp : Half) : Statement (.laddr r1 r2 disp) := ⟨_, _, rfl, rfl⟩
theorem laddrX (r1 r2 : Reg) (disp : Half) : Statement (.laddrX r1 r2 disp) := ⟨_, _, rfl, rfl⟩
theorem laddrL (r1 r2 : Reg) (disp : Word) : Statement (.laddrL r1 r2 disp) := ⟨_, _, rfl, rfl⟩
theorem laddrLX (r1 r2 : Reg) (disp : Word) : Statement (.laddrLX r1 r2 disp) := ⟨_, _, rfl, rfl⟩
theorem loadbC (r1 r2 : Reg) (disp : Half) : Statement (.loadbC r1 r2 disp) := ⟨_, _, rfl, rfl⟩
theorem loadbCX (r1 r2 : Reg) (disp : Half) : Statement (.loadbCX r1 r2 disp) := ⟨_, _, rfl, rfl⟩
theorem loadbCL (r1 r2 : Reg) (disp : Word) : Statement (.loadbCL r1 r2 disp) := ⟨_, _, rfl, rfl⟩
theorem loadbCLX (r1 r2 : Reg) (disp : Word) : Statement (.loadbCLX r1 r2 disp) := ⟨_, _, rfl, rfl⟩
theorem loadhC (r1 r2 : Reg) (disp : Half) : Statement (.loadhC r1 r2 disp) := ⟨_, _, rfl, rfl⟩
theorem loadhCX (r1 r2 : Reg) (disp : Half) : Statement (.loadhCX r1 r2 disp) := ⟨_, _, rfl, rfl⟩
theorem loadhCL (r1 r2 : Reg) (disp : Word) : Statement (.loadhCL r1 r2 disp) := ⟨_, _, rfl, rfl⟩
theorem loadhCLX (r1 r2 : Reg) (disp : Word) : Statement (.loadhCLX r1 r2 disp) := ⟨_, _, rfl, rfl⟩
theorem loadC (r1 r2 : Reg) (disp : Half) : Statement (.loadC r1 r2 disp) := ⟨_, _, rfl, rfl⟩
theorem loadCX (r1 r2 : Reg) (disp : Half) : Statement (.loadCX r1 r2 disp) := ⟨_, _, rfl, rfl⟩
theorem loadCL (r1 r2 : Reg) (disp : Word) : Statement (.loadCL r1 r2 disp) := ⟨_, _, rfl, rfl⟩
theorem loadCLX (r1 r2 : Reg) (disp : Word) : Statement (.loadCLX r1 r2 disp) := ⟨_, _, rfl, rfl⟩
theorem loaddC (r1 r2 : Reg) (disp : Half) : Statement (.loaddC r1 r2 disp) := ⟨_, _, rfl, rfl⟩
theorem loaddCX (r1 r2 : Reg) (disp : Half) : Statement (.loaddCX r1 r2 disp) := ⟨_, _, rfl, rfl⟩
theorem loaddCL (r1 r2 : Reg) (disp : Word) : Statement (.loaddCL r1 r2 disp) := ⟨_, _, rfl, rfl⟩
theorem loaddCLX (r1 r2 : Reg) (disp : Word) : Statement (.loaddCLX r1 r2 disp) := ⟨_, _, rfl, rfl⟩
theorem laddrC (r1 r2 : Reg) (disp : Half) : Statement (.laddrC r1 r2 disp) := ⟨_, _, rfl, rfl⟩
theorem laddrCX (r1 r2 : Reg) (disp : Half) : Statement (.laddrCX r1 r2 disp) := ⟨_, _, rfl, rfl⟩
theorem laddrCL (r1 r2 : Reg) (disp : Word) : Statement (.laddrCL r1 r2 disp) := ⟨_, _, rfl, rfl⟩
theorem laddrCLX (r1 r2 : Reg) (disp : Word) : Statement (.laddrCLX r1 r2 disp) := ⟨_, _, rfl, rfl⟩

end Sys2Proof.Laws.EncodedLength
end

