-- ==== Sys2Proof/Laws/Shapes.lean ====
section
/-! SUPPORT. How the ends of instructions give the shapes that statements are made in (Sys2Proof/Safety.lean). -/

namespace Sys2Proof.Machine

/-- Where an instruction ends by writing a register and going on, it has the shape `Writes`. -/
theorem Writes.of_advance {i : Instr} {len : Nat} {r : Reg} {v : Word} {s : State}
    (h : exec i s = advance len (s.setReg r v)) (hpc : s.pc.toNat + len < 2 ^ 32) : Writes i len r v s := by
  refine ⟨_, h.trans (advance_of_lt _ _ hpc), ?_, rfl, ?_, fun _ => rfl, fun _ => rfl, rfl⟩
  · simp
  · intro k hk
    simp only [List.mem_singleton] at hk
    simp [State.reg_setReg_other _ _ _ _ hk]

/-- The same for a pair. -/
theorem WritesPair.of_advance {i : Instr} {len : Nat} {r : Reg} {v : Double} {s : State}
    (h : exec i s = advance len (s.setPair r v)) (hpc : s.pc.toNat + len < 2 ^ 32) : WritesPair i len r v s := by
  refine ⟨_, h.trans (advance_of_lt _ _ hpc), ?_, ?_, rfl, ?_, fun _ => rfl, fun _ => rfl, rfl⟩
  · simp [State.reg_setPair]
  · simp [State.reg_setPair]
  · intro k hk
    simp only [List.mem_cons, List.not_mem_nil, or_false, not_or] at hk
    rw [State.setPc_reg, State.reg_setPair, if_neg hk.2, if_neg hk.1]

/-- Where an instruction just goes on, it has the shape `Goes`. -/
theorem Goes.of_advance {i : Instr} {len : Nat} {s : State} (h : exec i s = advance len s)
    (hpc : s.pc.toNat + len < 2 ^ 32) : Goes i (s.pc + BitVec.ofNat 32 len) s :=
  ⟨_, h.trans (advance_of_lt _ _ hpc), rfl, fun _ _ => rfl, fun _ => rfl, fun _ => rfl, rfl⟩

theorem Goes.of_setPc {i : Instr} {target : Word} {s : State} (h : exec i s = .next (s.setPc target)) :
    Goes i target s :=
  ⟨_, h, rfl, fun _ _ => rfl, fun _ => rfl, fun _ => rfl, rfl⟩

/-- Where an instruction ends by writing a register and going to a target, it has the shape `Links`. -/
theorem Links.of_setPc {i : Instr} {r : Reg} {link target : Word} {s : State}
    (h : exec i s = .next ((s.setReg r link).setPc target)) : Links i r link target s := by
  refine ⟨_, h, by simp, rfl, ?_, fun _ => rfl, fun _ => rfl, rfl⟩
  intro k hk
  simp only [List.mem_singleton] at hk
  simp [State.reg_setReg_other _ _ _ _ hk]

/-- The CCB entries are usable whatever the registers hold. -/
@[simp] theorem State.ccbUsable_setReg (s : State) (r : Reg) (v : Word) (off : Nat) :
    (s.setReg r v).ccbUsable off = s.ccbUsable off := rfl

@[simp] theorem State.ccbUsable_setPair (s : State) (r : Reg) (v : Double) (off : Nat) :
    (s.setPair r v).ccbUsable off = s.ccbUsable off := rfl

@[simp] theorem canEnter_setReg (s : State) (r : Reg) (v : Word) (off : Nat) :
    CanEnter off (s.setReg r v) ↔ CanEnter off s := Iff.rfl

@[simp] theorem canEnter_setPair (s : State) (r : Reg) (v : Double) (off : Nat) :
    CanEnter off (s.setPair r v) ↔ CanEnter off s := Iff.rfl

@[simp] theorem State.trapEnabled_setReg (s : State) (r : Reg) (v : Word) (k : Nat) :
    (s.setReg r v).trapEnabled k = s.trapEnabled k := rfl

@[simp] theorem State.trapEnabled_setPair (s : State) (r : Reg) (v : Double) (k : Nat) :
    (s.setPair r v).trapEnabled k = s.trapEnabled k := rfl

theorem trapsWordEnd_on {code : Nat} {s : State} (h : TrapOn code s) :
    trapsWordEnd code s = raise (.trapsWord code) s :=
  if_pos h

theorem trapsWordEnd_off {code : Nat} {s : State} (h : ¬TrapOn code s) : trapsWordEnd code s = advance 2 s :=
  if_neg h

/-- The overflow condition of R241 in the terms of statements. -/
theorem overflows_iff (n : Int) : overflows n = true ↔ ¬Fits n := by
  unfold overflows Fits
  simp only [Bool.or_eq_true, decide_eq_true_eq]
  omega

theorem overflows_eq_false (n : Int) : overflows n = false ↔ Fits n := by
  rw [← Bool.not_eq_true, overflows_iff, not_not]

end Sys2Proof.Machine
end

