-- ==== Sys2Proof/Laws/Vrt.lean ====
section
/-! SUPPORT. The fields of a VRT entry and the words of a PCB, for every layout the spec allows (R118, R431). -/

namespace Sys2Proof.Machine

/-! ### VRT entries -/

/-- The layout meets the constraints of R118. -/
theorem vrtLayout_wf : Config.vrtLayout.wf = true := by
  unfold Config.vrtLayout
  split
  · assumption
  · decide

/-- A bit set outside a field leaves the field as it was. -/
theorem extract_setBit (e : Double) (k p w : Nat) (h : k < p ∨ p + w ≤ k) :
    (e ||| (1#64 <<< k)).extractLsb' p w = e.extractLsb' p w := by
  ext i hi
  have : p + i ≠ k := by omega
  simp only [BitVec.getElem_extractLsb', BitVec.getLsbD_or, BitVec.getLsbD_shiftLeft, BitVec.getLsbD_one]
  by_cases hk : p + i < k
  · simp [hk]
  · have : p + i - k ≠ 0 := by omega
    simp [this]

/-- A bit set is set, and no other bit changes. -/
theorem getLsbD_setBit (e : Double) (k j : Nat) (hk : k < 64) :
    (e ||| (1#64 <<< k)).getLsbD j = (decide (j = k) || e.getLsbD j) := by
  simp only [BitVec.getLsbD_or, BitVec.getLsbD_shiftLeft, BitVec.getLsbD_one]
  by_cases h1 : j = k
  · subst h1; simp [hk]
  · by_cases h2 : j < k
    · simp [h1, h2]
    · have : j - k ≠ 0 := by omega
      simp [h1, this]

/-- Two different fields do not overlap. -/
theorem vrtLayout_fields_apart (i j : Nat) (hi : i < 7) (hj : j < 7) (hij : i < j) :
    let f := Config.vrtLayout.fields
    (f[i]'hi).1 + (f[i]'hi).2 ≤ (f[j]'hj).1 ∨ (f[j]'hj).1 + (f[j]'hj).2 ≤ (f[i]'hi).1 := by
  have h := vrtLayout_wf
  simp only [VrtLayout.wf, Bool.and_eq_true] at h
  exact List.pairwise_iff_getElem.1 (of_decide_eq_true h.2) i j hi hj hij

/-- Every field ends within the entry. -/
theorem vrtLayout_fields_in (i : Nat) (hi : i < 7) :
    (Config.vrtLayout.fields[i]'hi).1 + (Config.vrtLayout.fields[i]'hi).2 ≤ 64 := by
  have h := vrtLayout_wf
  simp only [VrtLayout.wf, Bool.and_eq_true, List.all_eq_true] at h
  exact of_decide_eq_true (h.1.2 _ (List.getElem_mem hi))

/-- The places of the fields, as far as proofs need them: R and M lie in the entry and apart from every other field. -/
theorem vrtLayout_apart :
    let l := Config.vrtLayout
    (l.rAt < 64 ∧ l.mAt < 64 ∧ l.rAt ≠ l.mAt) ∧
    (∀ f ∈ [(l.segAt, l.segBits), (l.tagAt, 16), (l.linkAt, 16), (l.vvvAt, 3), (l.pageAt, l.pageBits)],
      (l.rAt < f.1 ∨ f.1 + f.2 ≤ l.rAt) ∧ (l.mAt < f.1 ∨ f.1 + f.2 ≤ l.mAt)) ∧
    l.pageBits ≤ 20 := by
  dsimp only
  have h := vrtLayout_wf
  simp only [VrtLayout.wf, Bool.and_eq_true] at h
  have hb := of_decide_eq_true h.1.1
  have hr := vrtLayout_fields_apart 3 5 (by decide) (by decide) (by decide)
  have h03 := vrtLayout_fields_apart 0 3 (by decide) (by decide) (by decide)
  have h13 := vrtLayout_fields_apart 1 3 (by decide) (by decide) (by decide)
  have h23 := vrtLayout_fields_apart 2 3 (by decide) (by decide) (by decide)
  have h34 := vrtLayout_fields_apart 3 4 (by decide) (by decide) (by decide)
  have h36 := vrtLayout_fields_apart 3 6 (by decide) (by decide) (by decide)
  have h05 := vrtLayout_fields_apart 0 5 (by decide) (by decide) (by decide)
  have h15 := vrtLayout_fields_apart 1 5 (by decide) (by decide) (by decide)
  have h25 := vrtLayout_fields_apart 2 5 (by decide) (by decide) (by decide)
  have h45 := vrtLayout_fields_apart 4 5 (by decide) (by decide) (by decide)
  have h56 := vrtLayout_fields_apart 5 6 (by decide) (by decide) (by decide)
  have i3 := vrtLayout_fields_in 3 (by decide)
  have i5 := vrtLayout_fields_in 5 (by decide)
  simp only [VrtLayout.fields, List.getElem_cons_zero, List.getElem_cons_succ] at hr h03 h13 h23 h34 h36 h05 h15 h25 h45 h56 i3 i5
  refine ⟨⟨by clear * - i3; omega, by clear * - i5; omega, by clear * - hr; omega⟩, ?_, hb.2.2.2⟩
  intro f hf
  simp only [List.mem_cons, List.not_mem_nil, or_false] at hf
  rcases hf with rfl | rfl | rfl | rfl | rfl
  · exact ⟨by clear * - h03; omega, by clear * - h05; omega⟩
  · exact ⟨by clear * - h13; omega, by clear * - h15; omega⟩
  · exact ⟨by clear * - h23; omega, by clear * - h25; omega⟩
  · exact ⟨by clear * - h34; omega, by clear * - h45; omega⟩
  · exact ⟨by clear * - h36; omega, by clear * - h56; omega⟩

/-- Setting R changes no other field (R118). -/
theorem vrt_setR (e : Double) :
    vrtSeg (vrtSetR e) = vrtSeg e ∧ vrtTag (vrtSetR e) = vrtTag e ∧ vrtLink (vrtSetR e) = vrtLink e ∧
      vrtVvv (vrtSetR e) = vrtVvv e ∧ vrtRealPage (vrtSetR e) = vrtRealPage e ∧ vrtM (vrtSetR e) = vrtM e ∧
      (vrtSetR e).getLsbD Config.vrtLayout.rAt = true := by
  obtain ⟨⟨h1, h2, h3⟩, h4, -⟩ := vrtLayout_apart
  simp only [List.mem_cons, List.not_mem_nil, or_false, forall_eq_or_imp, forall_eq] at h4
  obtain ⟨a, b, c, d, f⟩ := h4
  refine ⟨?_, ?_, ?_, ?_, ?_, ?_, ?_⟩
  · simp only [vrtSeg, vrtField, vrtSetR, extract_setBit _ _ _ _ a.1]
  · simp only [vrtTag, vrtSetR, extract_setBit _ _ _ _ b.1]
  · simp only [vrtLink, vrtSetR, extract_setBit _ _ _ _ c.1]
  · simp only [vrtVvv, vrtSetR, extract_setBit _ _ _ _ d.1]
  · simp only [vrtRealPage, vrtField, vrtSetR, extract_setBit _ _ _ _ f.1]
  · rw [vrtM, vrtSetR, getLsbD_setBit _ _ _ h1]
    simp [vrtM, Ne.symm h3]
  · rw [vrtSetR, getLsbD_setBit _ _ _ h1]
    simp

/-- Setting M changes no other field (R118). -/
theorem vrt_setM (e : Double) :
    vrtSeg (vrtSetM e) = vrtSeg e ∧ vrtTag (vrtSetM e) = vrtTag e ∧ vrtLink (vrtSetM e) = vrtLink e ∧
      vrtVvv (vrtSetM e) = vrtVvv e ∧ vrtRealPage (vrtSetM e) = vrtRealPage e ∧ vrtM (vrtSetM e) = true ∧
      (vrtSetM e).getLsbD Config.vrtLayout.rAt = e.getLsbD Config.vrtLayout.rAt := by
  obtain ⟨⟨h1, h2, h3⟩, h4, -⟩ := vrtLayout_apart
  simp only [List.mem_cons, List.not_mem_nil, or_false, forall_eq_or_imp, forall_eq] at h4
  obtain ⟨a, b, c, d, f⟩ := h4
  refine ⟨?_, ?_, ?_, ?_, ?_, ?_, ?_⟩
  · simp only [vrtSeg, vrtField, vrtSetM, extract_setBit _ _ _ _ a.2]
  · simp only [vrtTag, vrtSetM, extract_setBit _ _ _ _ b.2]
  · simp only [vrtLink, vrtSetM, extract_setBit _ _ _ _ c.2]
  · simp only [vrtVvv, vrtSetM, extract_setBit _ _ _ _ d.2]
  · simp only [vrtRealPage, vrtField, vrtSetM, extract_setBit _ _ _ _ f.2]
  · rw [vrtM, vrtSetM, getLsbD_setBit _ _ _ h2]
    simp
  · rw [vrtSetM, getLsbD_setBit _ _ _ h2]
    simp [h3]

/-! ### The search, entry by entry -/

/-- SEG_BITS is at least 1 (D15). -/
theorem segBits_pos : 1 ≤ Config.vrtLayout.segBits := by
  have h := vrtLayout_wf
  simp only [VrtLayout.wf, Bool.and_eq_true] at h
  exact (of_decide_eq_true h.1.1).1

/-- What makes an entry the one searched for (R119 step 4, D15). -/
theorem vrtMatches_iff (segment va : Word) (e : Double) :
    vrtMatches segment va e = true ↔
      vrtSeg e = segment.toNat % 2 ^ Config.vrtLayout.segBits ∧ vrtTag e = va.extractLsb' 16 16 := by
  simp [vrtMatches, segMatches]

/-- What the step of a search does at an entry. -/
theorem vrtChain_at (segment va ea : Word) (n : Nat) (s : State) (e : Double) (ha : ea.toNat % 4 = 0)
    (hb : s.entryBacked ea) (he : e = s.entryAt ea) :
    vrtChain noPause segment va (n + 1) ea s =
      if vrtMatches segment va e then
        if vrtVvv e = 7 then .ok (some (ea, e)) s else .refused .vrtMatchInvalid
      else if vrtLink e = 0 then .ok none s
      else vrtChain noPause segment va n (s.spec 12 + (vrtLink e).zeroExtend 32) s := by
  rw [vrtChain, if_neg (by simp [ha]), readEntry_still (pause := noPause) rfl _ hb, Access.ok_bind, ← he]

/-- What a search does at its first entry. -/
theorem vrtSearchWith_at (segment va : Word) (s : State) (e : Double)
    (hm : vrtMaskValid (s.spec 13) = true) (ha : (vrtHead segment va s).toNat % 4 = 0)
    (hb : s.entryBacked (vrtHead segment va s)) (he : e = s.entryAt (vrtHead segment va s)) :
    vrtSearchWith noPause segment va s =
      if vrtMatches segment va e then
        if vrtVvv e = 7 then .ok (some (vrtHead segment va s, e)) s else .refused .vrtMatchInvalid
      else if vrtLink e = 0 then .ok none s
      else vrtChain noPause segment va 8191 (s.spec 12 + (vrtLink e).zeroExtend 32) s := by
  rw [vrtSearchWith, if_pos hm]
  exact vrtChain_at segment va _ 8191 s e ha hb he

/-! ### An entry marked, a mapping loaded -/

theorem State.read_markEntry_other (s : State) (ea : Word) (u : Double → Double) (x : Nat)
    (h : OutsideEntry ea x) : (s.markEntry ea u).mem.read x = s.mem.read x := by
  rw [State.markEntry_mem, Memory.read_store_other _ _ _ _ _ h.2, Memory.read_store_other _ _ _ _ _ h.1]

theorem State.old_markEntry_other (s : State) (ea : Word) (u : Double → Double) (x : Nat) (h : OutsideEntry ea x) :
    (s.markEntry ea u).fetch.old x = s.fetch.old x :=
  (State.old_setMem _ _ _ _ _ h.2).trans (State.old_setMem _ _ _ _ _ h.1)

/-- A word read after it was stored, and after another word apart from it was. -/
theorem State.wordAt_setWord (s : State) (a v : Word) : (s.setWord a v).wordAt a.toNat = v := by
  have h := State.load_word (s.setWord a v) a.toNat
  rw [State.setWord, State.setMem_mem, Memory.load_store_same, Nat.mod_eq_of_lt (by have := v.isLt; omega)] at h
  exact (BitVec.eq_of_toNat_eq h).symm

theorem State.wordAt_setWord_other (s : State) (a v : Word) (x : Nat) (h : x + 4 ≤ a.toNat ∨ a.toNat + 4 ≤ x) :
    (s.setWord a v).wordAt x = s.wordAt x :=
  State.wordAt_congr s _ x fun k hk => Memory.read_store_other _ _ _ _ _ (by omega)

/-- The two words of an entry do not overlap. -/
theorem entryWords_apart (ea : Word) : ea.toNat + 4 ≤ (ea + 4).toNat ∨ (ea + 4).toNat + 4 ≤ ea.toNat := by
  have := ea.isLt
  rw [BitVec.toNat_add, show (4 : Word).toNat = 4 from rfl]
  omega

/-- The entry read after it was changed. -/
theorem State.entryAt_markEntry (s : State) (ea : Word) (u : Double → Double) :
    (s.markEntry ea u).entryAt ea = u (s.entryAt ea) := by
  unfold State.entryAt State.markEntry
  dsimp only
  rw [State.wordAt_setWord, State.wordAt_setWord_other _ _ _ _ (entryWords_apart ea), State.wordAt_setWord,
    s.vrtWords_load, State.entryAt]
  generalize u _ = e
  ext i hi
  rw [BitVec.getElem_append]
  split
  · rw [BitVec.getElem_extractLsb', Nat.zero_add, BitVec.getLsbD_eq_getElem]
  · rw [BitVec.getElem_extractLsb', show 32 + (i - 32) = i by omega, BitVec.getLsbD_eq_getElem]

/-- A mapping that was loaded is found. -/
theorem tmtFind_tmtLoad (n : Nat) (l : List TmtEntry) (e : TmtEntry) : tmtFind (tmtLoad n l e) e.page = some e := by
  unfold tmtLoad tmtFind
  dsimp only
  split <;> simp

/-- Loading a mapping brings in no other. -/
theorem mem_tmtLoad (n : Nat) (l : List TmtEntry) (e x : TmtEntry) (h : x ∈ tmtLoad n l e) : x = e ∨ x ∈ l := by
  unfold tmtLoad at h
  dsimp only at h
  split at h
  · rw [List.mem_cons] at h
    exact h.imp_right fun h => (List.mem_filter.1 h).1
  · rw [List.mem_cons] at h
    exact h.imp_right fun h => (List.mem_filter.1 ((List.eraseIdx_sublist _ _).subset (List.mem_of_mem_take h))).1

/-- The half of the TMT read after it was replaced. -/
@[simp] theorem State.tmt_setTmt_same (s : State) (seg : Segment) (l : List TmtEntry) : (s.setTmt seg l).tmt seg = l := by
  cases seg <;> rfl

/-! ### The Process Control Block -/

/-- The layout meets the constraints of R431. -/
theorem pcbLayout_wf : Config.pcbLayout.wf = true := by
  unfold Config.pcbLayout
  split
  · assumption
  · decide

/-- Every offset is a multiple of 4. -/
theorem pcbOffset_aligned (o : Word) (h : o ∈ Config.pcbLayout.offsets) : o.toNat % 4 = 0 := by
  have hw := pcbLayout_wf
  simp only [PcbLayout.wf, Bool.and_eq_true, List.all_eq_true, decide_eq_true_eq] at hw
  exact hw.1 o h

theorem pcbRegOffset_mem (k : Reg) : pcbRegOffset k ∈ Config.pcbLayout.offsets := by
  unfold PcbLayout.offsets pcbRegOffset
  exact List.mem_append_left _ (by simp)

/-- The registers' offsets are distinct, and distinct from the pc's. -/
theorem pcbRegOffset_inj (j k : Reg) (h : pcbRegOffset j = pcbRegOffset k) : j = k := by
  have hw := pcbLayout_wf
  simp only [PcbLayout.wf, Bool.and_eq_true, PcbLayout.offsets] at hw
  have hn := (List.nodup_append.1 (of_decide_eq_true hw.2)).1
  unfold pcbRegOffset at h
  rw [← Vector.getElem_toList (by simpa using j.isLt), ← Vector.getElem_toList (by simpa using k.isLt),
    hn.getElem_inj_iff] at h
  exact BitVec.eq_of_toNat_eq h

theorem pcbRegOffset_ne_pc (k : Reg) : pcbRegOffset k ≠ Config.pcbLayout.pc := by
  have hw := pcbLayout_wf
  simp only [PcbLayout.wf, Bool.and_eq_true, PcbLayout.offsets] at hw
  have hn := (List.nodup_append.1 (of_decide_eq_true hw.2)).2.2
  unfold pcbRegOffset
  exact hn _ (by simp) _ (by simp)

/-- Two different members of an aligned PCB are two different words. -/
theorem pcbAt_apart (s : State) (o p : Word) (ho : o ∈ Config.pcbLayout.offsets) (hp : p ∈ Config.pcbLayout.offsets)
    (hs : (s.spec 14).toNat % 4 = 0) (hne : o ≠ p) :
    pcbAt o s + 4 ≤ pcbAt p s ∨ pcbAt p s + 4 ≤ pcbAt o s := by
  have h1 := pcbOffset_aligned o ho
  have h2 := pcbOffset_aligned p hp
  have h3 : pcbAt o s ≠ pcbAt p s := by
    intro h
    exact hne (by simpa using BitVec.eq_of_toNat_eq h)
  have h4 : pcbAt o s % 4 = 0 := by
    simp only [pcbAt, BitVec.toNat_add]; omega
  have h5 : pcbAt p s % 4 = 0 := by
    simp only [pcbAt, BitVec.toNat_add]; omega
  omega

end Sys2Proof.Machine
end

