-- ==== Sys2Proof/Laws/World.lean ====
section
/-! SUPPORT. What the outside does at an instruction boundary keeps the invariant, and raises no exception. -/

namespace Sys2Proof.Machine

theorem State.Inv.tickAccesses {n s t} (h : s.Inv) (he : Machine.tickAccesses n s = .ok () t) : t.Inv := by
  induction n generalizing s with
  | zero => cases he; exact h
  | succ n ih =>
    rw [Machine.tickAccesses, Access.bind_eq_ok] at he
    obtain ⟨_, s1, h1, he⟩ := he
    split at he
    · cases he; exact h.tickAccess h1
    · exact ih (h.tickAccess h1) he

theorem State.Inv.applyEvent {e s t} (h : s.Inv) (he : Machine.applyEvent e s = .ok () t) : t.Inv := by
  cases e
  case tick => exact State.Inv.tickAccesses h he
  case memory e => exact h.applyMemoryEvent he
  all_goals (simp only [Machine.applyEvent, Access.ok.injEq, true_and] at he; rw [← he])
  case deviceRequest w =>
    refine { h with requests := ?_ }
    show (List.map deviceOf (w :: _)).Nodup
    rw [List.map_cons, List.nodup_cons]
    refine ⟨?_, h.requests.sublist (List.filter_sublist.map _)⟩
    rw [List.mem_map]; rintro ⟨x, hx, hxe⟩
    have := List.of_mem_filter hx
    simp [hxe] at this
  case deviceWithdraw w => exact { h with requests := h.requests.sublist (List.filter_sublist.map _) }
  case elogWrite => exact State.Inv.elogWrite h
  all_goals exact h.congr rfl rfl rfl rfl rfl rfl h.pause h.ahead

theorem State.Inv.applyEvents {l s t} (h : s.Inv) (he : Machine.applyEvents l s = .ok () t) : t.Inv := by
  induction l generalizing s with
  | nil => simp [Machine.applyEvents] at he; rw [← he]; exact h
  | cons e l ih =>
    rw [Machine.applyEvents, Access.bind_eq_ok] at he; obtain ⟨_, s1, h1, he⟩ := he
    exact ih (State.Inv.applyEvent h h1) he

theorem State.Inv.takeSource {x s e t} (h : s.Inv) (he : Machine.takeSource x s = some (e, t)) : t.Inv := by
  cases x
  case external => 
    simp only [Machine.takeSource, Option.map_eq_some_iff] at he
    obtain ⟨⟨w, s1⟩, h1, h2⟩ := he
    simp only [Prod.mk.injEq] at h2; rw [← h2.2]; exact State.Inv.takeIoir h h1
  all_goals
    simp only [Machine.takeSource] at he; split at he
    · simp only [Option.some.injEq, Prod.mk.injEq] at he; rw [← he.2]
      exact h.congr rfl rfl rfl rfl rfl rfl h.pause h.ahead
    · simp at he

theorem tickAccesses_ne_trap {n s x t} : tickAccesses n s ≠ .trap x t := by
  induction n generalizing s with
  | zero => intro h; cases h
  | succ n ih =>
    intro h
    rw [tickAccesses, Access.bind_eq_trap] at h
    rcases h with h | ⟨_, s1, -, h⟩
    · exact tickAccess_ne_trap h
    split at h
    · cases h
    · exact ih h

theorem applyEvent_ne_trap {e s x t} : applyEvent e s ≠ .trap x t := by
  cases e
  case tick => exact tickAccesses_ne_trap
  case memory e => exact applyMemoryEvent_ne_trap
  all_goals (intro h; cases h)

theorem applyEvents_ne_trap {l s x t} : applyEvents l s ≠ .trap x t := by
  induction l generalizing s with
  | nil => simp [applyEvents]
  | cons e l ih =>
    intro h; rw [applyEvents, Access.bind_eq_trap] at h; rcases h with h | ⟨_, s1, _, h⟩
    · exact applyEvent_ne_trap h
    · exact ih h

end Sys2Proof.Machine
end

