-- ==== Sys2Proof/WellFormed.lean ====
section
/-! DEFINITION. Which instructions are well formed. The types of the fields already bound register numbers, immediates and
displacements (R151, R155); what is left is the one form the spec gives no meaning although every field is in range. -/

namespace Sys2Proof

/-- EADD and ESUB with R1 = 0 send the sum and the carry to the same register and are refused (R261); every other
instruction is well formed. -/
def Instr.wellFormed : Instr → Bool
  | .eadd r1 _ => r1 ≠ 0
  | .esub r1 _ => r1 ≠ 0
  | .move _ _ => true
  | .neg _ _ => true
  | .add _ _ => true
  | .sub _ _ => true
  | .mpy _ _ => true
  | .div _ _ => true
  | .rem _ _ => true
  | .not _ _ => true
  | .or _ _ => true
  | .xor _ _ => true
  | .and _ _ => true
  | .cbit _ _ => true
  | .sbit _ _ => true
  | .tbit _ _ => true
  | .chk _ _ => true
  | .nop _ _ => true
  | .movei _ _ => true
  | .addi _ _ => true
  | .subi _ _ => true
  | .mpyi _ _ => true
  | .noti _ _ => true
  | .andi _ _ => true
  | .chki _ _ => true
  | .fixt _ _ => true
  | .fixr _ _ => true
  | .rneg _ _ => true
  | .radd _ _ => true
  | .rsub _ _ => true
  | .rmpy _ _ => true
  | .rdiv _ _ => true
  | .makerd _ _ => true
  | .lcomp _ _ => true
  | .float _ _ => true
  | .rcomp _ _ => true
  | .empy _ _ => true
  | .ediv _ _ => true
  | .dfixt _ _ => true
  | .dfixr _ _ => true
  | .drneg _ _ => true
  | .dradd _ _ => true
  | .drsub _ _ => true
  | .drmpy _ _ => true
  | .drdiv _ _ => true
  | .makedr _ _ => true
  | .dcomp _ _ => true
  | .dfloat _ _ => true
  | .drcomp _ _ => true
  | .trap _ _ => true
  | .sus _ _ => true
  | .lus _ _ => true
  | .rum _ _ => true
  | .ldregs _ _ => true
  | .trans _ _ => true
  | .dirt _ _ => true
  | .movesr _ _ => true
  | .movers _ _ => true
  | .elogr _ => true
  | .elogw _ => true
  | .flush _ => true
  | .trapexit _ => true
  | .itest _ => true
  | .read _ _ => true
  | .write _ _ => true
  | .testGt _ _ => true
  | .testLt _ _ => true
  | .testEq _ _ => true
  | .callr _ _ => true
  | .testiGt _ _ => true
  | .testiLt _ _ => true
  | .testiEq _ _ => true
  | .ret _ _ => true
  | .testLe _ _ => true
  | .testGe _ _ => true
  | .testNe _ _ => true
  | .kcall _ => true
  | .testiLe _ _ => true
  | .testiGe _ _ => true
  | .testiNe _ _ => true
  | .lsl _ _ => true
  | .lsr _ _ => true
  | .asl _ _ => true
  | .asr _ _ => true
  | .dlsl _ _ => true
  | .dlsr _ _ => true
  | .csl _ _ => true
  | .seb _ _ => true
  | .lsli _ _ => true
  | .lsri _ _ => true
  | .asli _ _ => true
  | .asri _ _ => true
  | .dlsli _ _ => true
  | .dlsri _ _ => true
  | .csli _ _ => true
  | .seh _ _ => true
  | .brGt _ _ _ => true
  | .brGtL _ _ _ => true
  | .brEq _ _ _ => true
  | .brEqL _ _ _ => true
  | .call _ _ _ => true
  | .callL _ _ _ => true
  | .briGt _ _ _ => true
  | .briGtL _ _ _ => true
  | .briLt _ _ _ => true
  | .briLtL _ _ _ => true
  | .briEq _ _ _ => true
  | .briEqL _ _ _ => true
  | .loop _ _ _ => true
  | .loopL _ _ _ => true
  | .brLe _ _ _ => true
  | .brLeL _ _ _ => true
  | .brNe _ _ _ => true
  | .brNeL _ _ _ => true
  | .br _ _ _ => true
  | .brL _ _ _ => true
  | .briLe _ _ _ => true
  | .briLeL _ _ _ => true
  | .briGe _ _ _ => true
  | .briGeL _ _ _ => true
  | .briNe _ _ _ => true
  | .briNeL _ _ _ => true
  | .storeb _ _ _ => true
  | .storebX _ _ _ => true
  | .storebL _ _ _ => true
  | .storebLX _ _ _ => true
  | .storeh _ _ _ => true
  | .storehX _ _ _ => true
  | .storehL _ _ _ => true
  | .storehLX _ _ _ => true
  | .store _ _ _ => true
  | .storeX _ _ _ => true
  | .storeL _ _ _ => true
  | .storeLX _ _ _ => true
  | .stored _ _ _ => true
  | .storedX _ _ _ => true
  | .storedL _ _ _ => true
  | .storedLX _ _ _ => true
  | .loadb _ _ _ => true
  | .loadbX _ _ _ => true
  | .loadbL _ _ _ => true
  | .loadbLX _ _ _ => true
  | .loadh _ _ _ => true
  | .loadhX _ _ _ => true
  | .loadhL _ _ _ => true
  | .loadhLX _ _ _ => true
  | .load _ _ _ => true
  | .loadX _ _ _ => true
  | .loadL _ _ _ => true
  | .loadLX _ _ _ => true
  | .loadd _ _ _ => true
  | .loaddX _ _ _ => true
  | .loaddL _ _ _ => true
  | .loaddLX _ _ _ => true
  | .laddr _ _ _ => true
  | .laddrX _ _ _ => true
  | .laddrL _ _ _ => true
  | .laddrLX _ _ _ => true
  | .loadbC _ _ _ => true
  | .loadbCX _ _ _ => true
  | .loadbCL _ _ _ => true
  | .loadbCLX _ _ _ => true
  | .loadhC _ _ _ => true
  | .loadhCX _ _ _ => true
  | .loadhCL _ _ _ => true
  | .loadhCLX _ _ _ => true
  | .loadC _ _ _ => true
  | .loadCX _ _ _ => true
  | .loadCL _ _ _ => true
  | .loadCLX _ _ _ => true
  | .loaddC _ _ _ => true
  | .loaddCX _ _ _ => true
  | .loaddCL _ _ _ => true
  | .loaddCLX _ _ _ => true
  | .laddrC _ _ _ => true
  | .laddrCX _ _ _ => true
  | .laddrCL _ _ _ => true
  | .laddrCLX _ _ _ => true

end Sys2Proof
end

