-- ==== Sys2Proof/Tests/Slice0.lean ====
section
/-! SUPPORT. The model's own tests. Expected results are the vectors of spec/95_test_vectors.md, or calculated by hand from the
rule a test names; the words of the decoding tests are the patterns of spec/opcode_table.json with R1 = 10, R2 = 5 and a
displacement filled in. The last part shows, for each obligation with hypotheses, states and operands that meet them. -/

namespace Sys2Proof.Tests

set_option Elab.async false

open Sys2Proof.Machine

/-! ## Well-formed instructions (R261) -/

theorem test_eadd_of_register_0_is_ill_formed : (Instr.eadd 0 2).wellFormed = false := by decide

theorem test_esub_of_register_0_is_ill_formed : (Instr.esub 0 2).wellFormed = false := by decide

theorem test_eadd_of_register_1_is_well_formed : (Instr.eadd 1 0).wellFormed = true := by decide

/-! ## Decoding (R150 to R166) -/

/-- Every row of bytes decodes to its instruction, and the instruction encodes to those bytes. -/
def decodes (rows : List (List Byte × Instr)) : Bool :=
  rows.all (fun x => decide (decode x.1 = .instr x.2) && decide (encode x.2 = x.1))

theorem test_decode_register_1 :
  decodes [([0x01, 0xA5], .move 10 5), ([0x02, 0xA5], .neg 10 5), ([0x03, 0xA5], .add 10 5),
    ([0x04, 0xA5], .sub 10 5), ([0x05, 0xA5], .mpy 10 5), ([0x06, 0xA5], .div 10 5), ([0x07, 0xA5], .rem 10 5),
    ([0x08, 0xA5], .not 10 5), ([0x09, 0xA5], .or 10 5), ([0x0A, 0xA5], .xor 10 5), ([0x0B, 0xA5], .and 10 5),
    ([0x0C, 0xA5], .cbit 10 5), ([0x0D, 0xA5], .sbit 10 5), ([0x0E, 0xA5], .tbit 10 5), ([0x0F, 0xA5], .chk 10 5),
    ([0x10, 0xA5], .nop 10 5)] = true := by decide

theorem test_decode_register_2 :
  decodes [([0x11, 0xA5], .movei 10 5), ([0x13, 0xA5], .addi 10 5), ([0x14, 0xA5], .subi 10 5),
    ([0x15, 0xA5], .mpyi 10 5), ([0x18, 0xA5], .noti 10 5), ([0x1B, 0xA5], .andi 10 5), ([0x1F, 0xA5], .chki 10 5),
    ([0x20, 0xA5], .fixt 10 5), ([0x21, 0xA5], .fixr 10 5), ([0x22, 0xA5], .rneg 10 5), ([0x23, 0xA5], .radd 10 5),
    ([0x24, 0xA5], .rsub 10 5), ([0x25, 0xA5], .rmpy 10 5), ([0x26, 0xA5], .rdiv 10 5), ([0x27, 0xA5], .makerd 10 5),
    ([0x28, 0xA5], .lcomp 10 5)] = true := by decide

theorem test_decode_register_3 :
  decodes [([0x29, 0xA5], .float 10 5), ([0x2A, 0xA5], .rcomp 10 5), ([0x2C, 0xA5], .eadd 10 5),
    ([0x2D, 0xA5], .esub 10 5), ([0x2E, 0xA5], .empy 10 5), ([0x2F, 0xA5], .ediv 10 5), ([0x30, 0xA5], .dfixt 10 5),
    ([0x31, 0xA5], .dfixr 10 5), ([0x32, 0xA5], .drneg 10 5), ([0x33, 0xA5], .dradd 10 5),
    ([0x34, 0xA5], .drsub 10 5), ([0x35, 0xA5], .drmpy 10 5), ([0x36, 0xA5], .drdiv 10 5),
    ([0x37, 0xA5], .makedr 10 5), ([0x38, 0xA5], .dcomp 10 5), ([0x39, 0xA5], .dfloat 10 5)] = true := by decide

theorem test_decode_register_4 :
  decodes [([0x3A, 0xA5], .drcomp 10 5), ([0x3B, 0xA5], .trap 10 5), ([0x40, 0xA5], .sus 10 5),
    ([0x41, 0xA5], .lus 10 5), ([0x42, 0xA5], .rum 10 5), ([0x43, 0xA5], .ldregs 10 5), ([0x44, 0xA5], .trans 10 5),
    ([0x45, 0xA5], .dirt 10 5), ([0x46, 0xA5], .movesr 10 5), ([0x47, 0xA5], .movers 10 5),
    ([0x4C, 0xA0], .elogr 10), ([0x4C, 0xA1], .elogw 10), ([0x4C, 0xA6], .flush 10), ([0x4C, 0xA7], .trapexit 10),
    ([0x4C, 0xA8], .itest 10), ([0x4E, 0xA5], .read 10 5)] = true := by decide

theorem test_decode_register_5 :
  decodes [([0x4F, 0xA5], .write 10 5), ([0x50, 0xA5], .testGt 10 5), ([0x51, 0xA5], .testLt 10 5),
    ([0x52, 0xA5], .testEq 10 5), ([0x53, 0xA5], .callr 10 5), ([0x54, 0xA5], .testiGt 10 5),
    ([0x55, 0xA5], .testiLt 10 5), ([0x56, 0xA5], .testiEq 10 5), ([0x57, 0xA5], .ret 10 5),
    ([0x58, 0xA5], .testLe 10 5), ([0x59, 0xA5], .testGe 10 5), ([0x5A, 0xA5], .testNe 10 5),
    ([0x5B, 0xA5], .kcall 0xA5), ([0x5C, 0xA5], .testiLe 10 5), ([0x5D, 0xA5], .testiGe 10 5),
    ([0x5E, 0xA5], .testiNe 10 5)] = true := by decide

theorem test_decode_register_6 :
  decodes [([0x60, 0xA5], .lsl 10 5), ([0x61, 0xA5], .lsr 10 5), ([0x62, 0xA5], .asl 10 5),
    ([0x63, 0xA5], .asr 10 5), ([0x64, 0xA5], .dlsl 10 5), ([0x65, 0xA5], .dlsr 10 5), ([0x68, 0xA5], .csl 10 5),
    ([0x6A, 0xA5], .seb 10 5), ([0x70, 0xA5], .lsli 10 5), ([0x71, 0xA5], .lsri 10 5), ([0x72, 0xA5], .asli 10 5),
    ([0x73, 0xA5], .asri 10 5), ([0x74, 0xA5], .dlsli 10 5), ([0x75, 0xA5], .dlsri 10 5), ([0x78, 0xA5], .csli 10 5),
    ([0x7A, 0xA5], .seh 10 5)] = true := by decide

theorem test_decode_short_1 :
  decodes [([0x80, 0xA5, 0x89, 0xAB], .brGt 10 5 0x89AB), ([0x82, 0xA5, 0x89, 0xAB], .brEq 10 5 0x89AB),
    ([0x83, 0xA5, 0x89, 0xAB], .call 10 5 0x89AB), ([0x84, 0xA5, 0x89, 0xAB], .briGt 10 5 0x89AB),
    ([0x85, 0xA5, 0x89, 0xAB], .briLt 10 5 0x89AB), ([0x86, 0xA5, 0x89, 0xAB], .briEq 10 5 0x89AB),
    ([0x87, 0xA5, 0x89, 0xAB], .loop 10 5 0x89AB), ([0x88, 0xA5, 0x89, 0xAB], .brLe 10 5 0x89AB),
    ([0x8A, 0xA5, 0x89, 0xAB], .brNe 10 5 0x89AB), ([0x8B, 0xA5, 0x89, 0xAB], .br 10 5 0x89AB),
    ([0x8C, 0xA5, 0x89, 0xAB], .briLe 10 5 0x89AB), ([0x8D, 0xA5, 0x89, 0xAB], .briGe 10 5 0x89AB),
    ([0x8E, 0xA5, 0x89, 0xAB], .briNe 10 5 0x89AB), ([0xA0, 0xA5, 0x89, 0xAB], .storeb 10 5 0x89AB),
    ([0xA1, 0xA5, 0x89, 0xAB], .storebX 10 5 0x89AB), ([0xA2, 0xA5, 0x89, 0xAB], .storeh 10 5 0x89AB)] = true := by decide

theorem test_decode_short_2 :
  decodes [([0xA3, 0xA5, 0x89, 0xAB], .storehX 10 5 0x89AB), ([0xA6, 0xA5, 0x89, 0xAB], .store 10 5 0x89AB),
    ([0xA7, 0xA5, 0x89, 0xAB], .storeX 10 5 0x89AB), ([0xA8, 0xA5, 0x89, 0xAB], .stored 10 5 0x89AB),
    ([0xA9, 0xA5, 0x89, 0xAB], .storedX 10 5 0x89AB), ([0xC0, 0xA5, 0x89, 0xAB], .loadb 10 5 0x89AB),
    ([0xC1, 0xA5, 0x89, 0xAB], .loadbX 10 5 0x89AB), ([0xC2, 0xA5, 0x89, 0xAB], .loadh 10 5 0x89AB),
    ([0xC3, 0xA5, 0x89, 0xAB], .loadhX 10 5 0x89AB), ([0xC6, 0xA5, 0x89, 0xAB], .load 10 5 0x89AB),
    ([0xC7, 0xA5, 0x89, 0xAB], .loadX 10 5 0x89AB), ([0xC8, 0xA5, 0x89, 0xAB], .loadd 10 5 0x89AB),
    ([0xC9, 0xA5, 0x89, 0xAB], .loaddX 10 5 0x89AB), ([0xCE, 0xA5, 0x89, 0xAB], .laddr 10 5 0x89AB),
    ([0xCF, 0xA5, 0x89, 0xAB], .laddrX 10 5 0x89AB), ([0xE0, 0xA5, 0x89, 0xAB], .loadbC 10 5 0x89AB)] = true := by decide

theorem test_decode_short_3 :
  decodes [([0xE1, 0xA5, 0x89, 0xAB], .loadbCX 10 5 0x89AB), ([0xE2, 0xA5, 0x89, 0xAB], .loadhC 10 5 0x89AB),
    ([0xE3, 0xA5, 0x89, 0xAB], .loadhCX 10 5 0x89AB), ([0xE6, 0xA5, 0x89, 0xAB], .loadC 10 5 0x89AB),
    ([0xE7, 0xA5, 0x89, 0xAB], .loadCX 10 5 0x89AB), ([0xE8, 0xA5, 0x89, 0xAB], .loaddC 10 5 0x89AB),
    ([0xE9, 0xA5, 0x89, 0xAB], .loaddCX 10 5 0x89AB), ([0xEE, 0xA5, 0x89, 0xAB], .laddrC 10 5 0x89AB),
    ([0xEF, 0xA5, 0x89, 0xAB], .laddrCX 10 5 0x89AB)] = true := by decide

theorem test_decode_long_1 :
  decodes [([0x90, 0xA5, 0x89, 0xAB, 0xCD, 0xEF], .brGtL 10 5 0x89ABCDEF),
    ([0x92, 0xA5, 0x89, 0xAB, 0xCD, 0xEF], .brEqL 10 5 0x89ABCDEF),
    ([0x93, 0xA5, 0x89, 0xAB, 0xCD, 0xEF], .callL 10 5 0x89ABCDEF),
    ([0x94, 0xA5, 0x89, 0xAB, 0xCD, 0xEF], .briGtL 10 5 0x89ABCDEF),
    ([0x95, 0xA5, 0x89, 0xAB, 0xCD, 0xEF], .briLtL 10 5 0x89ABCDEF),
    ([0x96, 0xA5, 0x89, 0xAB, 0xCD, 0xEF], .briEqL 10 5 0x89ABCDEF),
    ([0x97, 0xA5, 0x89, 0xAB, 0xCD, 0xEF], .loopL 10 5 0x89ABCDEF),
    ([0x98, 0xA5, 0x89, 0xAB, 0xCD, 0xEF], .brLeL 10 5 0x89ABCDEF),
    ([0x9A, 0xA5, 0x89, 0xAB, 0xCD, 0xEF], .brNeL 10 5 0x89ABCDEF),
    ([0x9B, 0xA5, 0x89, 0xAB, 0xCD, 0xEF], .brL 10 5 0x89ABCDEF),
    ([0x9C, 0xA5, 0x89, 0xAB, 0xCD, 0xEF], .briLeL 10 5 0x89ABCDEF),
    ([0x9D, 0xA5, 0x89, 0xAB, 0xCD, 0xEF], .briGeL 10 5 0x89ABCDEF),
    ([0x9E, 0xA5, 0x89, 0xAB, 0xCD, 0xEF], .briNeL 10 5 0x89ABCDEF),
    ([0xB0, 0xA5, 0x89, 0xAB, 0xCD, 0xEF], .storebL 10 5 0x89ABCDEF),
    ([0xB1, 0xA5, 0x89, 0xAB, 0xCD, 0xEF], .storebLX 10 5 0x89ABCDEF),
    ([0xB2, 0xA5, 0x89, 0xAB, 0xCD, 0xEF], .storehL 10 5 0x89ABCDEF)] = true := by decide

theorem test_decode_long_2 :
  decodes [([0xB3, 0xA5, 0x89, 0xAB, 0xCD, 0xEF], .storehLX 10 5 0x89ABCDEF),
    ([0xB6, 0xA5, 0x89, 0xAB, 0xCD, 0xEF], .storeL 10 5 0x89ABCDEF),
    ([0xB7, 0xA5, 0x89, 0xAB, 0xCD, 0xEF], .storeLX 10 5 0x89ABCDEF),
    ([0xB8, 0xA5, 0x89, 0xAB, 0xCD, 0xEF], .storedL 10 5 0x89ABCDEF),
    ([0xB9, 0xA5, 0x89, 0xAB, 0xCD, 0xEF], .storedLX 10 5 0x89ABCDEF),
    ([0xD0, 0xA5, 0x89, 0xAB, 0xCD, 0xEF], .loadbL 10 5 0x89ABCDEF),
    ([0xD1, 0xA5, 0x89, 0xAB, 0xCD, 0xEF], .loadbLX 10 5 0x89ABCDEF),
    ([0xD2, 0xA5, 0x89, 0xAB, 0xCD, 0xEF], .loadhL 10 5 0x89ABCDEF),
    ([0xD3, 0xA5, 0x89, 0xAB, 0xCD, 0xEF], .loadhLX 10 5 0x89ABCDEF),
    ([0xD6, 0xA5, 0x89, 0xAB, 0xCD, 0xEF], .loadL 10 5 0x89ABCDEF),
    ([0xD7, 0xA5, 0x89, 0xAB, 0xCD, 0xEF], .loadLX 10 5 0x89ABCDEF),
    ([0xD8, 0xA5, 0x89, 0xAB, 0xCD, 0xEF], .loaddL 10 5 0x89ABCDEF),
    ([0xD9, 0xA5, 0x89, 0xAB, 0xCD, 0xEF], .loaddLX 10 5 0x89ABCDEF),
    ([0xDE, 0xA5, 0x89, 0xAB, 0xCD, 0xEF], .laddrL 10 5 0x89ABCDEF),
    ([0xDF, 0xA5, 0x89, 0xAB, 0xCD, 0xEF], .laddrLX 10 5 0x89ABCDEF),
    ([0xF0, 0xA5, 0x89, 0xAB, 0xCD, 0xEF], .loadbCL 10 5 0x89ABCDEF)] = true := by decide

theorem test_decode_long_3 :
  decodes [([0xF1, 0xA5, 0x89, 0xAB, 0xCD, 0xEF], .loadbCLX 10 5 0x89ABCDEF),
    ([0xF2, 0xA5, 0x89, 0xAB, 0xCD, 0xEF], .loadhCL 10 5 0x89ABCDEF),
    ([0xF3, 0xA5, 0x89, 0xAB, 0xCD, 0xEF], .loadhCLX 10 5 0x89ABCDEF),
    ([0xF6, 0xA5, 0x89, 0xAB, 0xCD, 0xEF], .loadCL 10 5 0x89ABCDEF),
    ([0xF7, 0xA5, 0x89, 0xAB, 0xCD, 0xEF], .loadCLX 10 5 0x89ABCDEF),
    ([0xF8, 0xA5, 0x89, 0xAB, 0xCD, 0xEF], .loaddCL 10 5 0x89ABCDEF),
    ([0xF9, 0xA5, 0x89, 0xAB, 0xCD, 0xEF], .loaddCLX 10 5 0x89ABCDEF),
    ([0xFE, 0xA5, 0x89, 0xAB, 0xCD, 0xEF], .laddrCL 10 5 0x89ABCDEF),
    ([0xFF, 0xA5, 0x89, 0xAB, 0xCD, 0xEF], .laddrCLX 10 5 0x89ABCDEF)] = true := by decide

/-- Vectors E2, E9, E11, E12 of spec/95. -/
theorem test_decode_unassigned :
    decode [0x7F, 0x00] = .illegal 0x7F 0 0 ∧ decode [0x4C, 0x02] = .unassignedSubop 2 ∧
      decode [0x00, 0x00] = .illegal 0x00 0 0 ∧ decode [0xC4, 0x10, 0x00, 0x00] = .illegal 0xC4 1 0 := by decide

/-- Words of the opcode table as it numbers their bits. -/
theorem test_decode_table_words :
    decodeTableWord 16 0x0312 = some (.add 1 2) ∧ decodeTableWord 16 0x4C06 = some (.flush 0) ∧
      decodeTableWord 32 0xC7322010 = some (.loadX 3 2 0x2010) ∧
      decodeTableWord 48 0x9BA500010000 = some (.brL 10 5 0x00010000) ∧ decodeTableWord 16 0x4C02 = none := by decide

/-! ## One step -/

/-- Kernel mode, with instruction bytes at the pc, general registers, special registers and further memory. -/
def start (pc : Word) (code : List Byte) (regs sregs : List (Reg × Word)) (data : List (Nat × List Byte)) : State :=
  let s := { State.reset with
    pc := pc, mem := (data.foldl (fun (m : Memory) x => m.storeBytes x.1 x.2) []).storeBytes pc.toNat code }
  sregs.foldl (fun s x => s.setSpec x.1 x.2) (regs.foldl (fun s x => s.setReg x.1 x.2) s)

/-- Memory before the vectors of section 2.2 of spec/95. -/
def sample : List (Nat × List Byte) :=
  [(0x100, [0x9C]), (0x200, [0x80, 0x01]), (0x300, [0x12, 0x34, 0x56, 0x78]),
    (0x400, [0x00, 0x00, 0x00, 0x01, 0xFF, 0xFF, 0xFF, 0xFE])]

/-- An entry of a CCB at 0x10000: the handler's address is 0x20000 plus the offset. -/
def vector (offset : Nat) : Nat × List Byte := (0x10000 + offset, bytesOfWord (BitVec.ofNat 32 (0x20000 + offset)))

/-- One step from the state gives a next state in which `f` has these values. -/
def shows (s : State) (f : State → List Word) (values : List Word) : Bool :=
  match step s with
  | .next t => f t == values
  | _ => false

/-- Vector M1 of spec/95. -/
theorem test_loadb :
    shows (start 0x1000 [0xC0, 0x10, 0x01, 0x00] [] [] sample) (fun t => [t.reg 1, t.pc]) [0x9C, 0x1004]
      = true := by decide

/-- Vector M2 of spec/95. -/
theorem test_loadh :
    shows (start 0x1000 [0xC2, 0x20, 0x02, 0x00] [] [] sample) (fun t => [t.reg 2, t.pc]) [0x8001, 0x1004]
      = true := by decide

/-- Vector M3 of spec/95. -/
theorem test_load :
    shows (start 0x1000 [0xC6, 0x30, 0x03, 0x00] [] [] sample) (fun t => [t.reg 3, t.pc]) [0x12345678, 0x1004]
      = true := by decide

/-- Vector M5 of spec/95. -/
theorem test_loadd_wraps :
    shows (start 0x1000 [0xC8, 0xF0, 0x04, 0x00] [] [] sample) (fun t => [t.reg 15, t.reg 0, t.pc])
      [1, 0xFFFFFFFE, 0x1004] = true := by decide

/-- Vector M6 of spec/95. -/
theorem test_loadX_index_is_destination :
    shows (start 0x1000 [0xC7, 0x22, 0x01, 0x00] [(2, 0x200)] [] sample) (fun t => [t.reg 2, t.pc])
      [0x12345678, 0x1004] = true := by decide

/-- Vector M7 of spec/95. -/
theorem test_loadX_wraps :
    shows (start 0x1000 [0xC7, 0x32, 0x03, 0x04] [(2, 0xFFFFFFFC)] [] sample) (fun t => [t.reg 3, t.pc])
      [0x12345678, 0x1004] = true := by decide

/-- Vector M8 of spec/95. -/
theorem test_loadC :
    shows (start 0x2F0 [0xE6, 0x30, 0x00, 0x10] [] [] sample) (fun t => [t.reg 3, t.pc]) [0x12345678, 0x2F4]
      = true := by decide

/-- Vector M9 of spec/95. -/
theorem test_loadCX :
    shows (start 0x2F0 [0xE7, 0x34, 0x00, 0x08] [(4, 8)] [] sample) (fun t => [t.reg 3, t.pc]) [0x12345678, 0x2F4]
      = true := by decide

/-- Rule R201. -/
theorem test_loadbL :
    shows (start 0x1000 [0xD0, 0x10, 0x00, 0x00, 0x03, 0x01] [] [] sample) (fun t => [t.reg 1, t.pc]) [0x34, 0x1006]
      = true := by decide

/-- Rule R202. -/
theorem test_loadhCLX :
    shows (start 0x1000 [0xF3, 0x12, 0xFF, 0xFF, 0xF1, 0x00] [(2, 0x200)] [] sample) (fun t => [t.reg 1, t.pc])
      [0x1234, 0x1006] = true := by decide

/-- Vector M10 of spec/95. -/
theorem test_load_misaligned :
    shows (start 0x1000 [0xC6, 0x30, 0x03, 0x02] [(3, 7)] [(11, 0x00010000)] (vector 0x400 :: sample))
      (fun t => [t.reg 3, t.spec 3, t.spec 0, t.pc]) [7, 0x302, 0x1000, 0x00020400] = true := by decide

/-- Vector M12 of spec/95. -/
theorem test_loadd_misaligned :
    shows (start 0x1000 [0xC8, 0x40, 0x04, 0x04] [(4, 7)] [(11, 0x00010000)] (vector 0x400 :: sample))
      (fun t => [t.reg 4, t.spec 3, t.spec 0, t.pc]) [7, 0x404, 0x1000, 0x00020400] = true := by decide

/-- Vector M14 of spec/95. -/
theorem test_storeb :
    shows (start 0x1000 [0xA0, 0x10, 0x01, 0x00] [(1, 0x123456AB)] [] [(0x100, List.replicate 8 0xEE)])
      (fun t => [t.wordAt 0x100, t.wordAt 0x104, t.pc]) [0xABEEEEEE, 0xEEEEEEEE, 0x1004] = true := by decide

/-- Vector M15 of spec/95. -/
theorem test_storeh :
    shows (start 0x1000 [0xA2, 0x10, 0x02, 0x00] [(1, 0x1234BEEF)] [] [(0x200, List.replicate 8 0xEE)])
      (fun t => [t.wordAt 0x200, t.wordAt 0x204, t.pc]) [0xBEEFEEEE, 0xEEEEEEEE, 0x1004] = true := by decide

/-- Vector M16 of spec/95. -/
theorem test_storeX :
    shows (start 0x1000 [0xA7, 0x25, 0x00, 0x08] [(2, 0xCAFEF00D), (5, 0x2000)] [] [(0x2008, List.replicate 8 0xEE)])
      (fun t => [t.wordAt 0x2008, t.wordAt 0x200C, t.pc]) [0xCAFEF00D, 0xEEEEEEEE, 0x1004] = true := by decide

/-- Vector M17 of spec/95. -/
theorem test_stored :
    shows
      (start 0x1000 [0xA8, 0x60, 0x04, 0x00] [(6, 0x01020304), (7, 0x05060708)] [] [(0x400, List.replicate 8 0xEE)])
      (fun t => [t.wordAt 0x400, t.wordAt 0x404, t.pc]) [0x01020304, 0x05060708, 0x1004] = true := by decide

/-- Rule R201. -/
theorem test_storehLX :
    shows
      (start 0x1000 [0xB3, 0x12, 0x00, 0x00, 0x02, 0x02] [(1, 0x1234BEEF), (2, 0x100)] [] [(0x300, List.replicate 8 0xEE)])
      (fun t => [t.wordAt 0x300, t.wordAt 0x304, t.pc]) [0xEEEEBEEF, 0xEEEEEEEE, 0x1006] = true := by decide

/-- Vector M19 of spec/95. -/
theorem test_laddrX :
    shows (start 0x100 [0xCF, 0x35, 0xFF, 0xF0] [(5, 0x1000)] [] []) (fun t => [t.reg 3, t.pc]) [0xFF0, 0x104]
      = true := by decide

/-- Vector M20 of spec/95. -/
theorem test_laddrC :
    shows (start 0x2000 [0xEE, 0x40, 0x00, 0x10] [] [] []) (fun t => [t.reg 4, t.pc]) [0x2010, 0x2004]
      = true := by decide

/-- Vector M21 of spec/95. -/
theorem test_laddr :
    shows (start 0x100 [0xCE, 0x20, 0xFF, 0xF0] [] [] []) (fun t => [t.reg 2, t.pc]) [0xFFFFFFF0, 0x104]
      = true := by decide

/-- Vector I1 of spec/95. -/
theorem test_move :
    shows (start 0x100 [0x01, 0x12] [(2, 0xDEADBEEF)] [] []) (fun t => [t.reg 1, t.pc]) [0xDEADBEEF, 0x102]
      = true := by decide

/-- Vector I2 of spec/95. -/
theorem test_neg :
    shows (start 0x100 [0x02, 0x12] [(2, 5)] [] []) (fun t => [t.reg 1, t.pc]) [0xFFFFFFFB, 0x102] = true := by decide

/-- Vector I3 of spec/95. -/
theorem test_neg_overflow :
    shows (start 0x100 [0x02, 0x12] [(1, 7), (2, 0x80000000)] [(10, 0x0000F800), (11, 0x00010000)] [vector 0x41C])
      (fun t => [t.reg 1, t.spec 3, t.spec 0, t.pc]) [7, 16, 0x100, 0x0002041C] = true := by decide

/-- Vector I5 of spec/95. -/
theorem test_add_overflow :
    shows (start 0x100 [0x03, 0x12] [(1, 0x7FFFFFFF), (2, 1)] [(10, 0x0000F800), (11, 0x00010000)] [vector 0x41C])
      (fun t => [t.reg 1, t.spec 3, t.spec 0, t.pc]) [0x80000000, 16, 0x100, 0x0002041C] = true := by decide

/-- Vector I6 of spec/95. -/
theorem test_add_wraps :
    shows (start 0x100 [0x03, 0x12] [(1, 0xFFFFFFFF), (2, 1)] [(10, 0x0000F800), (11, 0x00010000)] [])
      (fun t => [t.reg 1, t.pc]) [0, 0x102] = true := by decide

/-- Vector I8 of spec/95. -/
theorem test_sub_overflow :
    shows (start 0x100 [0x04, 0x12] [(1, 0x80000000), (2, 1)] [(10, 0x0000F800), (11, 0x00010000)] [vector 0x41C])
      (fun t => [t.reg 1, t.spec 3, t.spec 0, t.pc]) [0x7FFFFFFF, 16, 0x100, 0x0002041C] = true := by decide

/-- Vector I9 of spec/95. -/
theorem test_sub :
    shows (start 0x100 [0x04, 0x12] [(1, 3), (2, 5)] [(10, 0x0000F800), (11, 0x00010000)] [])
      (fun t => [t.reg 1, t.pc]) [0xFFFFFFFE, 0x102] = true := by decide

/-- Vector I10 of spec/95. -/
theorem test_mpy :
    shows (start 0x100 [0x05, 0x12] [(1, 0xFFFFFFFD), (2, 7)] [(10, 0x0000F800), (11, 0x00010000)] [])
      (fun t => [t.reg 1, t.pc]) [0xFFFFFFEB, 0x102] = true := by decide

/-- Vector I11 of spec/95. -/
theorem test_mpy_overflow :
    shows
      (start 0x100 [0x05, 0x12] [(1, 0x00010000), (2, 0x00010000)] [(10, 0x0000F800), (11, 0x00010000)] [vector 0x41C])
      (fun t => [t.reg 1, t.spec 3, t.spec 0, t.pc]) [0, 16, 0x100, 0x0002041C] = true := by decide

/-- Vector I12 of spec/95. -/
theorem test_div :
    shows (start 0x100 [0x06, 0x12] [(1, 0xFFFFFFF9), (2, 2)] [(10, 0x0000F800), (11, 0x00010000)] [])
      (fun t => [t.reg 1, t.pc]) [0xFFFFFFFD, 0x102] = true := by decide

/-- Vector I15 of spec/95. -/
theorem test_div_by_zero :
    shows (start 0x100 [0x06, 0x12] [(1, 5)] [(10, 0x0000F800), (11, 0x00010000)] [vector 0x41C])
      (fun t => [t.reg 1, t.spec 3, t.spec 0, t.pc]) [5, 17, 0x100, 0x0002041C] = true := by decide

/-- Vector I16 of spec/95. -/
theorem test_rem :
    shows (start 0x100 [0x07, 0x12] [(1, 0xFFFFFFF9), (2, 2)] [(10, 0x0000F800), (11, 0x00010000)] [])
      (fun t => [t.reg 1, t.pc]) [0xFFFFFFFF, 0x102] = true := by decide

/-- Vector I18 of spec/95. -/
theorem test_rem_overflow :
    shows
      (start 0x100 [0x07, 0x12] [(1, 0x80000000), (2, 0xFFFFFFFF)] [(10, 0x0000F800), (11, 0x00010000)] [vector 0x41C])
      (fun t => [t.reg 1, t.spec 3, t.spec 0, t.pc]) [0x80000000, 16, 0x100, 0x0002041C] = true := by decide

/-- Vector I19 of spec/95. -/
theorem test_not :
    shows (start 0x100 [0x08, 0x12] [(2, 0x0000FFFF)] [] []) (fun t => [t.reg 1, t.pc]) [0xFFFF0000, 0x102]
      = true := by decide

/-- Vector I20 of spec/95. -/
theorem test_and :
    shows (start 0x100 [0x0B, 0x12] [(1, 0xFF00FF00), (2, 0x0FF00FF0)] [] []) (fun t => [t.reg 1, t.pc])
      [0x0F000F00, 0x102] = true := by decide

/-- Vector I21 of spec/95. -/
theorem test_or :
    shows (start 0x100 [0x09, 0x12] [(1, 0xFF00FF00), (2, 0x0FF00FF0)] [] []) (fun t => [t.reg 1, t.pc])
      [0xFFF0FFF0, 0x102] = true := by decide

/-- Vector I22 of spec/95. -/
theorem test_xor :
    shows (start 0x100 [0x0A, 0x12] [(1, 0xFF00FF00), (2, 0x0FF00FF0)] [] []) (fun t => [t.reg 1, t.pc])
      [0xF0F0F0F0, 0x102] = true := by decide

/-- Vector I24 of spec/95. -/
theorem test_eadd_carry :
    shows (start 0x100 [0x2C, 0x12] [(1, 0xFFFFFFFF), (2, 2)] [] []) (fun t => [t.reg 1, t.reg 0, t.pc]) [1, 1, 0x102]
      = true := by decide

/-- Vector I25 of spec/95. -/
theorem test_eadd :
    shows (start 0x100 [0x2C, 0x12] [(0, 9), (1, 1), (2, 2)] [] []) (fun t => [t.reg 1, t.reg 0, t.pc]) [3, 0, 0x102]
      = true := by decide

/-- Vector I26 of spec/95. -/
theorem test_esub :
    shows (start 0x100 [0x2D, 0x12] [(1, 5), (2, 7)] [] []) (fun t => [t.reg 1, t.pc]) [0xFFFFFFFE, 0x102]
      = true := by decide

/-- Vector I28 of spec/95. -/
theorem test_empy :
    shows (start 0x100 [0x2E, 0x13] [(1, 0xFFFFFFFF), (3, 0xFFFFFFFF)] [] []) (fun t => [t.reg 1, t.reg 2, t.pc])
      [0xFFFFFFFE, 1, 0x102] = true := by decide

/-- Vector I31 of spec/95. -/
theorem test_ediv :
    shows (start 0x100 [0x2F, 0x13] [(1, 1), (2, 5), (3, 7)] [] []) (fun t => [t.reg 1, t.reg 2, t.pc])
      [0x24924925, 2, 0x102] = true := by decide

/-- Vector I32 of spec/95. -/
theorem test_ediv_overflow :
    shows (start 0x100 [0x2F, 0x13] [(1, 1), (3, 1)] [(10, 0x0000F800), (11, 0x00010000)] [vector 0x41C])
      (fun t => [t.reg 1, t.reg 2, t.spec 3, t.spec 0, t.pc]) [1, 0, 16, 0x100, 0x0002041C] = true := by decide

/-- Vector F1 of spec/95. -/
theorem test_rneg :
    shows (start 0x100 [0x22, 0x12] [(2, 0x3F800000)] [] []) (fun t => [t.reg 1, t.pc]) [0xBF800000, 0x102]
      = true := by decide +kernel

/-- Vector F2 of spec/95. -/
theorem test_radd :
    shows (start 0x100 [0x23, 0x12] [(1, 0x3F800000), (2, 0x3F800000)] [] []) (fun t => [t.reg 1, t.pc])
      [0x40000000, 0x102] = true := by decide +kernel

/-- Vector F3 of spec/95. -/
theorem test_rsub :
    shows (start 0x100 [0x24, 0x12] [(1, 0x40400000), (2, 0x3F800000)] [] []) (fun t => [t.reg 1, t.pc])
      [0x40000000, 0x102] = true := by decide +kernel

/-- Vector F5 of spec/95. -/
theorem test_rmpy :
    shows (start 0x100 [0x25, 0x12] [(1, 0x40000000), (2, 0x40400000)] [] []) (fun t => [t.reg 1, t.pc])
      [0x40C00000, 0x102] = true := by decide +kernel

/-- Vector F6 of spec/95. -/
theorem test_rdiv :
    shows (start 0x100 [0x26, 0x12] [(1, 0x40C00000), (2, 0x40000000)] [] []) (fun t => [t.reg 1, t.pc])
      [0x40400000, 0x102] = true := by decide +kernel

/-- Vector F7 of spec/95. -/
theorem test_rdiv_by_zero :
    shows (start 0x100 [0x26, 0x12] [(1, 0x3F800000)] [(10, 0x0000F800), (11, 0x00010000)] [vector 0x41C])
      (fun t => [t.spec 3, t.spec 0, t.pc]) [20, 0x100, 0x0002041C] = true := by decide +kernel

/-- Vector F8 of spec/95. -/
theorem test_float :
    shows (start 0x100 [0x29, 0x12] [(2, 0xFFFFFFFE)] [] []) (fun t => [t.reg 1, t.pc]) [0xC0000000, 0x102]
      = true := by decide +kernel

/-- Vector F8 of spec/95. -/
theorem test_float_smallest :
    shows (start 0x100 [0x29, 0x12] [(2, 0x80000000)] [] []) (fun t => [t.reg 1, t.pc]) [0xCF000000, 0x102]
      = true := by decide +kernel

/-- Vector F10 of spec/95. -/
theorem test_fixt :
    shows (start 0x100 [0x20, 0x12] [(2, 0xC0300000)] [] []) (fun t => [t.reg 1, t.pc]) [0xFFFFFFFE, 0x102]
      = true := by decide +kernel

/-- Vector F11 of spec/95. -/
theorem test_fixr :
    shows (start 0x100 [0x21, 0x12] [(2, 0x40300000)] [] []) (fun t => [t.reg 1, t.pc]) [3, 0x102]
      = true := by decide +kernel

/-- Vector F13 of spec/95. -/
theorem test_makerd :
    shows (start 0x100 [0x27, 0x13] [(3, 0x3F800000)] [] []) (fun t => [t.reg 1, t.reg 2, t.pc])
      [0x3FF00000, 0, 0x102] = true := by decide +kernel

/-- Vector F14 of spec/95. -/
theorem test_drneg :
    shows (start 0x100 [0x32, 0x42] [(2, 0x3FF00000)] [] []) (fun t => [t.reg 4, t.reg 5, t.pc])
      [0xBFF00000, 0, 0x102] = true := by decide +kernel

/-- Vector F15 of spec/95. -/
theorem test_dradd :
    shows (start 0x100 [0x33, 0x24] [(2, 0x3FF00000), (4, 0x3FF00000)] [] []) (fun t => [t.reg 2, t.reg 3, t.pc])
      [0x40000000, 0, 0x102] = true := by decide +kernel

/-- Vector F16 of spec/95. -/
theorem test_drsub :
    shows (start 0x100 [0x34, 0x24] [(2, 0x40080000), (4, 0x3FF00000)] [] []) (fun t => [t.reg 2, t.reg 3, t.pc])
      [0x40000000, 0, 0x102] = true := by decide +kernel

/-- Vector F17 of spec/95. -/
theorem test_drmpy :
    shows (start 0x100 [0x35, 0x24] [(2, 0x40000000), (4, 0x40080000)] [] []) (fun t => [t.reg 2, t.reg 3, t.pc])
      [0x40180000, 0, 0x102] = true := by decide +kernel

/-- Vector F18 of spec/95. -/
theorem test_drdiv :
    shows (start 0x100 [0x36, 0x24] [(2, 0x40180000), (4, 0x40000000)] [] []) (fun t => [t.reg 2, t.reg 3, t.pc])
      [0x40080000, 0, 0x102] = true := by decide +kernel

/-- Vector F19 of spec/95. -/
theorem test_dfloat :
    shows (start 0x100 [0x39, 0x13] [(3, 0xFFFFFFFE)] [] []) (fun t => [t.reg 1, t.reg 2, t.pc])
      [0xC0000000, 0, 0x102] = true := by decide +kernel

/-- Vector F20 of spec/95. -/
theorem test_dfixt :
    shows (start 0x100 [0x30, 0x12] [(2, 0x40060000)] [] []) (fun t => [t.reg 1, t.reg 2, t.reg 3, t.pc])
      [2, 0x40060000, 0, 0x102] = true := by decide +kernel

/-- Vector F20 of spec/95. -/
theorem test_dfixr :
    shows (start 0x100 [0x31, 0x12] [(2, 0x40060000)] [] []) (fun t => [t.reg 1, t.reg 2, t.reg 3, t.pc])
      [3, 0x40060000, 0, 0x102] = true := by decide +kernel

/-- Vector F21 of spec/95. -/
theorem test_makedr :
    shows (start 0x100 [0x37, 0x12] [(2, 0x3FF00000)] [] []) (fun t => [t.reg 1, t.pc]) [0x3F800000, 0x102]
      = true := by decide +kernel

/-- Vector F22 of spec/95. -/
theorem test_rcomp :
    shows (start 0x100 [0x2A, 0x12] [(1, 0xBF800000), (2, 0x3F800000)] [] []) (fun t => [t.reg 1, t.pc])
      [0xFFFFFFFF, 0x102] = true := by decide +kernel

/-- Vector F23 of spec/95. -/
theorem test_drcomp :
    shows (start 0x100 [0x3A, 0x24] [(2, 0x40000000), (3, 5), (4, 0x3FF00000)] [] [])
      (fun t => [t.reg 2, t.reg 3, t.pc]) [1, 5, 0x102] = true := by decide +kernel

/-- Vector T1 of spec/95. -/
theorem test_movei :
    shows (start 0x100 [0x11, 0x3F] [] [] []) (fun t => [t.reg 3, t.pc]) [0xF, 0x102] = true := by decide

/-- Vector T2 of spec/95. -/
theorem test_noti :
    shows (start 0x100 [0x18, 0x3F] [] [] []) (fun t => [t.reg 3, t.pc]) [0xFFFFFFF0, 0x102] = true := by decide

/-- Vector T3 of spec/95. -/
theorem test_addi_overflow :
    shows (start 0x100 [0x13, 0x11] [(1, 0x7FFFFFFF)] [(10, 0x0000F800), (11, 0x00010000)] [vector 0x41C])
      (fun t => [t.reg 1, t.spec 3, t.spec 0, t.pc]) [0x80000000, 16, 0x100, 0x0002041C] = true := by decide

/-- Vector T5 of spec/95. -/
theorem test_subi :
    shows (start 0x100 [0x14, 0x11] [] [(10, 0x0000F800), (11, 0x00010000)] []) (fun t => [t.reg 1, t.pc])
      [0xFFFFFFFF, 0x102] = true := by decide

/-- Vector T7 of spec/95. -/
theorem test_andi :
    shows (start 0x100 [0x1B, 0x1C] [(1, 0x12345678)] [] []) (fun t => [t.reg 1, t.pc]) [8, 0x102] = true := by decide

/-- Vector T8 of spec/95. -/
theorem test_mpyi_overflow :
    shows (start 0x100 [0x15, 0x12] [(1, 0x40000000)] [(10, 0x0000F800), (11, 0x00010000)] [vector 0x41C])
      (fun t => [t.reg 1, t.spec 3, t.spec 0, t.pc]) [0x80000000, 16, 0x100, 0x0002041C] = true := by decide

/-- Vector T9 of spec/95. -/
theorem test_tbit_first :
    shows (start 0x100 [0x0E, 0x13] [(1, 0x80000000)] [] []) (fun t => [t.reg 1, t.pc]) [1, 0x102] = true := by decide

/-- Vector T10 of spec/95. -/
theorem test_tbit_last :
    shows (start 0x100 [0x0E, 0x13] [(2, 1), (3, 63)] [] []) (fun t => [t.reg 1, t.reg 2, t.pc]) [1, 1, 0x102]
      = true := by decide

/-- Vector T11 of spec/95. -/
theorem test_sbit :
    shows (start 0x100 [0x0D, 0x46] [(6, 33)] [] []) (fun t => [t.reg 4, t.reg 5, t.pc]) [0, 0x40000000, 0x102]
      = true := by decide

/-- Vector T12 of spec/95. -/
theorem test_cbit :
    shows (start 0x100 [0x0C, 0x46] [(4, 0xFFFFFFFF), (6, 31)] [] []) (fun t => [t.reg 4, t.reg 5, t.pc])
      [0xFFFFFFFE, 0, 0x102] = true := by decide

/-- Vector T16 of spec/95. -/
theorem test_chk_signed :
    shows (start 0x100 [0x0F, 0x12] [(1, 0xFFFFFFFF)] [] []) (fun t => [t.reg 1, t.pc]) [0xFFFFFFFF, 0x102]
      = true := by decide

/-- Vector T17 of spec/95. -/
theorem test_chki_traps :
    shows (start 0x100 [0x1F, 0x13] [(1, 4)] [(11, 0x00010000)] [vector 0x418])
      (fun t => [t.spec 2, t.spec 3, t.spec 0, t.pc]) [1, 3, 0x100, 0x00020418] = true := by decide

/-- Vector T18 of spec/95. -/
theorem test_trap_on :
    shows (start 0x100 [0x3B, 0x02] [] [(10, 0x20000000), (11, 0x00010000)] [vector 0x41C])
      (fun t => [t.spec 3, t.spec 0, t.pc]) [2, 0x100, 0x0002041C] = true := by decide

/-- Vector T18 of spec/95. -/
theorem test_trap_off :
    shows (start 0x100 [0x3B, 0x03] [] [(10, 0x20000000), (11, 0x00010000)] [vector 0x41C])
      (fun t => [t.spec 0, t.pc]) [0, 0x102] = true := by decide

/-- Vector T20 of spec/95. -/
theorem test_kcall_in_kernel_mode :
    shows (start 0x100 [0x5B, 0x12] [] [(11, 0x00010000)] [vector 0x414])
      (fun t => [t.spec 0, t.spec 1, t.spec 2, t.spec 3, t.pc]) [0x100, 0x5B, 1, 2, 0x00020414] = true := by decide

/-- Rule R346. -/
theorem test_testGt :
    shows (start 0x100 [0x50, 0x12] [(1, 1), (2, 0xFFFFFFFF)] [] []) (fun t => [t.reg 1, t.pc]) [1, 0x102]
      = true := by decide

/-- Rule R346. -/
theorem test_testLt :
    shows (start 0x100 [0x51, 0x12] [(1, 1), (2, 0xFFFFFFFF)] [] []) (fun t => [t.reg 1, t.pc]) [0, 0x102]
      = true := by decide

/-- Rule R346. -/
theorem test_testEq :
    shows (start 0x100 [0x52, 0x11] [(1, 7)] [] []) (fun t => [t.reg 1, t.pc]) [1, 0x102] = true := by decide

/-- Rule R346. -/
theorem test_testLe :
    shows (start 0x100 [0x58, 0x12] [(1, 0x80000000), (2, 0x7FFFFFFF)] [] []) (fun t => [t.reg 1, t.pc]) [1, 0x102]
      = true := by decide

/-- Rule R346. -/
theorem test_testGe :
    shows (start 0x100 [0x59, 0x12] [(1, 0x80000000), (2, 0x7FFFFFFF)] [] []) (fun t => [t.reg 1, t.pc]) [0, 0x102]
      = true := by decide

/-- Rule R346. -/
theorem test_testNe :
    shows (start 0x100 [0x5A, 0x11] [(1, 7)] [] []) (fun t => [t.reg 1, t.pc]) [0, 0x102] = true := by decide

/-- Rule R347. -/
theorem test_testiGt :
    shows (start 0x100 [0x54, 0x1F] [(1, 15)] [] []) (fun t => [t.reg 1, t.pc]) [0, 0x102] = true := by decide

/-- Rule R347. -/
theorem test_testiLt :
    shows (start 0x100 [0x55, 0x1F] [(1, 0xFFFFFFFF)] [] []) (fun t => [t.reg 1, t.pc]) [1, 0x102] = true := by decide

/-- Rule R347. -/
theorem test_testiEq :
    shows (start 0x100 [0x56, 0x1F] [(1, 15)] [] []) (fun t => [t.reg 1, t.pc]) [1, 0x102] = true := by decide

/-- Rule R347. -/
theorem test_testiLe :
    shows (start 0x100 [0x5C, 0x1F] [(1, 16)] [] []) (fun t => [t.reg 1, t.pc]) [0, 0x102] = true := by decide

/-- Rule R347. -/
theorem test_testiGe :
    shows (start 0x100 [0x5D, 0x1F] [(1, 15)] [] []) (fun t => [t.reg 1, t.pc]) [1, 0x102] = true := by decide

/-- Rule R347. -/
theorem test_testiNe :
    shows (start 0x100 [0x5E, 0x1F] [(1, 15)] [] []) (fun t => [t.reg 1, t.pc]) [0, 0x102] = true := by decide

/-- Vector T21 of spec/95. -/
theorem test_dcomp_signed :
    shows (start 0x100 [0x38, 0x24] [(2, 0xFFFFFFFF), (3, 0xFFFFFFFF)] [] []) (fun t => [t.reg 2, t.reg 3, t.pc])
      [0xFFFFFFFF, 0xFFFFFFFF, 0x102] = true := by decide

/-- Vector T23 of spec/95. -/
theorem test_lcomp_unsigned :
    shows (start 0x100 [0x28, 0x12] [(1, 0xFFFFFFFF), (2, 1)] [] []) (fun t => [t.reg 1, t.pc]) [1, 0x102]
      = true := by decide

/-- Vector H2 of spec/95. -/
theorem test_csl :
    shows (start 0x100 [0x68, 0x12] [(1, 0x12345678), (2, 36)] [] []) (fun t => [t.reg 1, t.pc]) [0x23456781, 0x102]
      = true := by decide

/-- Vector H3 of spec/95. -/
theorem test_csli :
    shows (start 0x100 [0x78, 0x18] [(1, 0x12345678)] [] []) (fun t => [t.reg 1, t.pc]) [0x34567812, 0x102]
      = true := by decide

/-- Vector H4 of spec/95. -/
theorem test_lsl :
    shows (start 0x100 [0x60, 0x12] [(1, 0x80000001), (2, 33)] [] []) (fun t => [t.reg 1, t.pc]) [2, 0x102]
      = true := by decide

/-- Vector H5 of spec/95. -/
theorem test_lsli :
    shows (start 0x100 [0x70, 0x1F] [(1, 1)] [] []) (fun t => [t.reg 1, t.pc]) [0x8000, 0x102] = true := by decide

/-- Vector H6 of spec/95. -/
theorem test_lsr :
    shows (start 0x100 [0x61, 0x12] [(1, 0x80000000), (2, 31)] [] []) (fun t => [t.reg 1, t.pc]) [1, 0x102]
      = true := by decide

/-- Vector H7 of spec/95. -/
theorem test_lsri :
    shows (start 0x100 [0x71, 0x14] [(1, 0xFFFFFFFF)] [] []) (fun t => [t.reg 1, t.pc]) [0x0FFFFFFF, 0x102]
      = true := by decide

/-- Vector H9 of spec/95. -/
theorem test_asl_overflow :
    shows (start 0x100 [0x62, 0x12] [(1, 0x40000000), (2, 1)] [(10, 0x0000F800), (11, 0x00010000)] [vector 0x41C])
      (fun t => [t.reg 1, t.spec 3, t.spec 0, t.pc]) [0, 16, 0x100, 0x0002041C] = true := by decide

/-- Vector H10 of spec/95. -/
theorem test_asl :
    shows (start 0x100 [0x62, 0x12] [(1, 0xC0000000), (2, 1)] [(10, 0x0000F800), (11, 0x00010000)] [])
      (fun t => [t.reg 1, t.pc]) [0x80000000, 0x102] = true := by decide

/-- Vector H14 of spec/95. -/
theorem test_asli :
    shows (start 0x100 [0x72, 0x14] [(1, 0xFFFFFFFF)] [(10, 0x0000F800), (11, 0x00010000)] [])
      (fun t => [t.reg 1, t.pc]) [0xFFFFFFF0, 0x102] = true := by decide

/-- Vector H15 of spec/95. -/
theorem test_asr :
    shows (start 0x100 [0x63, 0x12] [(1, 0x80000000), (2, 31)] [] []) (fun t => [t.reg 1, t.pc]) [0xFFFFFFFF, 0x102]
      = true := by decide

/-- Vector H16 of spec/95. -/
theorem test_asri :
    shows (start 0x100 [0x73, 0x14] [(1, 0xFFFFFF00)] [] []) (fun t => [t.reg 1, t.pc]) [0xFFFFFFF0, 0x102]
      = true := by decide

/-- Vector H17 of spec/95. -/
theorem test_dlsl :
    shows (start 0x100 [0x64, 0x24] [(2, 1), (3, 0x80000000), (4, 1)] [] []) (fun t => [t.reg 2, t.reg 3, t.pc])
      [3, 0, 0x102] = true := by decide

/-- Vector H20 of spec/95. -/
theorem test_dlsli :
    shows (start 0x100 [0x74, 0x24] [(3, 0xF0000000)] [] []) (fun t => [t.reg 2, t.reg 3, t.pc]) [0xF, 0, 0x102]
      = true := by decide

/-- Vector H21 of spec/95. -/
theorem test_dlsr :
    shows (start 0x100 [0x65, 0x24] [(2, 0x80000000), (4, 63)] [] []) (fun t => [t.reg 2, t.reg 3, t.pc])
      [0, 1, 0x102] = true := by decide

/-- Vector H22 of spec/95. -/
theorem test_dlsri :
    shows (start 0x100 [0x75, 0x21] [(2, 1)] [] []) (fun t => [t.reg 2, t.reg 3, t.pc]) [0, 0x80000000, 0x102]
      = true := by decide

/-- Vector H23 of spec/95. -/
theorem test_seb :
    shows (start 0x100 [0x6A, 0x12] [(2, 0x12345680)] [] []) (fun t => [t.reg 1, t.pc]) [0xFFFFFF80, 0x102]
      = true := by decide

/-- Vector H24 of spec/95. -/
theorem test_seh :
    shows (start 0x100 [0x7A, 0x12] [(2, 0x00018000)] [] []) (fun t => [t.reg 1, t.pc]) [0xFFFF8000, 0x102]
      = true := by decide

/-- Vector H25 of spec/95. -/
theorem test_nop :
    shows (start 0x100 [0x10, 0xAB] [] [] []) (fun t => [t.pc]) [0x102] = true := by decide

/-- Vector B2 of spec/95. -/
theorem test_br_prediction_bit :
    shows (start 0x1000 [0x8B, 0x00, 0xFF, 0xFD] [] [] []) (fun t => [t.pc]) [0x0FFC] = true := by decide

/-- Vector B3 of spec/95. -/
theorem test_brL :
    shows (start 0x1000 [0x9B, 0x00, 0x00, 0x01, 0x00, 0x00] [] [] []) (fun t => [t.pc]) [0x11000] = true := by decide

/-- Vector B5 of spec/95. -/
theorem test_brLe :
    shows (start 0x2000 [0x88, 0x12, 0x00, 0x21] [(1, 0xFFFFFFFF)] [] []) (fun t => [t.pc]) [0x2020]
      = true := by decide

/-- Vector B6 of spec/95. -/
theorem test_brGt_not_taken :
    shows (start 0x2000 [0x80, 0x12, 0x00, 0x20] [(1, 0xFFFFFFFF)] [] []) (fun t => [t.pc]) [0x2004]
      = true := by decide

/-- Vector B7 of spec/95. -/
theorem test_brEq :
    shows (start 0x2000 [0x82, 0x11, 0x00, 0x20] [(1, 3)] [] []) (fun t => [t.pc]) [0x2020] = true := by decide

/-- Vector B7 of spec/95. -/
theorem test_brNe_not_taken :
    shows (start 0x2000 [0x8A, 0x11, 0x00, 0x20] [(1, 3)] [] []) (fun t => [t.pc]) [0x2004] = true := by decide

/-- Vector B8 of spec/95. -/
theorem test_brGtL_not_taken :
    shows (start 0x2000 [0x90, 0x12, 0x00, 0x00, 0x00, 0x20] [] [] []) (fun t => [t.pc]) [0x2006] = true := by decide

/-- Vector B9 of spec/95. -/
theorem test_briEq :
    shows (start 0x2000 [0x86, 0x30, 0x00, 0x0A] [] [] []) (fun t => [t.pc]) [0x200A] = true := by decide

/-- Vector B10 of spec/95. -/
theorem test_briLt :
    shows (start 0x2000 [0x85, 0x30, 0x00, 0x0A] [(3, 0x80000000)] [] []) (fun t => [t.pc]) [0x200A]
      = true := by decide

/-- Vector B11 of spec/95. -/
theorem test_briGt :
    shows (start 0x2000 [0x84, 0x3F, 0x00, 0x0A] [(3, 16)] [] []) (fun t => [t.pc]) [0x200A] = true := by decide

/-- Rule R404. -/
theorem test_briLeL_not_taken :
    shows (start 0x2000 [0x9C, 0x3F, 0x00, 0x01, 0x00, 0x00] [(3, 16)] [] []) (fun t => [t.pc]) [0x2006]
      = true := by decide

/-- Rule R404. -/
theorem test_briGeL :
    shows (start 0x2000 [0x9D, 0x3F, 0xFF, 0xFF, 0xFF, 0x00] [(3, 15)] [] []) (fun t => [t.pc]) [0x1F00]
      = true := by decide

/-- Rule R404. -/
theorem test_briNe :
    shows (start 0x2000 [0x8E, 0x3F, 0x00, 0x0A] [(3, 15)] [] []) (fun t => [t.pc]) [0x2004] = true := by decide

/-- Vector B12 of spec/95. -/
theorem test_call :
    shows (start 0x3000 [0x83, 0xB0, 0x01, 0x00] [] [] []) (fun t => [t.reg 11, t.pc]) [0x3004, 0x3100]
      = true := by decide

/-- Vector B13 of spec/95. -/
theorem test_callL :
    shows (start 0x3000 [0x93, 0xB0, 0x00, 0x00, 0x01, 0x00] [] [] []) (fun t => [t.reg 11, t.pc]) [0x3006, 0x3100]
      = true := by decide

/-- Vector B14 of spec/95. -/
theorem test_callr :
    shows (start 0x3000 [0x53, 0xB2] [(2, 0x40)] [] []) (fun t => [t.reg 11, t.pc]) [0x3002, 0x3040]
      = true := by decide

/-- Vector B16 of spec/95. -/
theorem test_ret_same_register :
    shows (start 0x3100 [0x57, 0xBB] [(11, 0x3004)] [] []) (fun t => [t.reg 11, t.pc]) [0x3102, 0x3004]
      = true := by decide

/-- Vector B17 of spec/95. -/
theorem test_ret_odd_target :
    shows (start 0x3100 [0x57, 0x0B] [(11, 0x3005)] [] []) (fun t => [t.reg 0, t.pc]) [0x3102, 0x3005]
      = true := by decide

/-- Vector B19 of spec/95. -/
theorem test_loop_falls_through :
    shows (start 0x4010 [0x87, 0x51, 0xFF, 0xF1] [(5, 0xFFFFFFFF)] [] []) (fun t => [t.reg 5, t.pc]) [0, 0x4014]
      = true := by decide

/-- Vector B20 of spec/95. -/
theorem test_loop_wraps :
    shows (start 0x4010 [0x87, 0x51, 0xFF, 0xF1] [(5, 0x7FFFFFFF)] [] []) (fun t => [t.reg 5, t.pc])
      [0x80000000, 0x4000] = true := by decide

/-- Vector K3 of spec/95. -/
theorem test_sus_without_process :
    shows (start 0x100 [0x40, 0x0F] [] [(14, 1)] []) (fun t => [t.pc]) [0x102] = true := by decide

/-- Vector K3 of spec/95. -/
theorem test_lus_without_process :
    shows (start 0x100 [0x41, 0x0F] [] [(14, 1)] []) (fun t => [t.pc]) [0x102] = true := by decide

/-- Vector K6 of spec/95. -/
theorem test_rum :
    shows (start 0x100 [0x42, 0x00] [] [(14, 0x8000), (15, 0x2000)] [])
      (fun t => [if t.mode = .user then 1 else 0, t.spec 0, t.pc]) [1, 0, 0x2000] = true := by decide

/-- Vector K7 of spec/95. -/
theorem test_rum_pauses :
    shows (start 0x100 [0x42, 0x00] [] [(14, 1), (15, 0x2000)] []) (fun t => [if t.paused then 1 else 0, t.pc])
      [1, 0x102] = true := by decide

/-- Vector K8 of spec/95. -/
theorem test_movesr :
    shows (start 0x100 [0x46, 0xB2] [(2, 0x00010000)] [] []) (fun t => [t.spec 11, t.reg 11, t.pc])
      [0x00010000, 0, 0x102] = true := by decide

/-- Vector K9 of spec/95. -/
theorem test_movers :
    shows (start 0x100 [0x47, 0x43] [] [(3, 0x5000)] []) (fun t => [t.reg 4, t.spec 4, t.pc]) [0x5000, 0, 0x102]
      = true := by decide

/-- Vector X5 of spec/95. -/
theorem test_trapexit :
    shows (start 0x100 [0x4C, 0x07] [] [(0, 0x00012346)] []) (fun t => [t.pc]) [0x00012346] = true := by decide

/-- Vector X7 of spec/95. -/
theorem test_itest_none :
    shows (start 0x100 [0x4C, 0x48] [(5, 0xAAAA5555)] [] []) (fun t => [t.reg 4, t.reg 5, t.pc])
      [1, 0xAAAA5555, 0x102] = true := by decide

/-- Vector G3 of spec/95. -/
theorem test_illegal :
    shows (start 0x100 [0x7F, 0x3A] [] [(11, 0x00010000)] [vector 0x404])
      (fun t => [t.spec 0, t.spec 1, t.spec 2, t.spec 3, t.pc]) [0x100, 0x7F, 3, 10, 0x00020404] = true := by decide

/-! ### Steps that need user mode, the outside world or devices -/

/-- The instruction in this state gives a next state in which `f` has these values. -/
def runs (i : Instr) (s : State) (f : State → List Word) (values : List Word) : Bool :=
  match exec i s with
  | .next t => f t == values
  | _ => false

/-- Why an outcome is a refusal, if it is one. -/
def refusalOf : Outcome → Option Refusal
  | .refused r => some r
  | _ => none

/-- 1 in user mode, 0 in kernel mode. -/
def userBit (s : State) : Word := if s.mode = .user then 1 else 0

/-- Vector I34 of spec/95. -/
theorem test_eadd_register_0_refused : refusalOf (exec (.eadd 0 2) State.reset) = some .carryRegisterConflict := by decide

/-- Vector T13 of spec/95. -/
theorem test_sbit_64_refused :
    refusalOf (step (start 0x100 [0x0D, 0x46] [(6, 64)] [] [])) = some .bitNumberOutOfRange := by decide

/-- Rule R38: no step at an odd pc. -/
theorem test_odd_pc_refused : refusalOf (step (start 0x101 [0x10, 0x00] [] [] [])) = some .oddPc := by decide

/-- Rules R38 and R557: nor does an interrupt or a parity report happen there. -/
theorem test_odd_pc_refused_with_interrupt :
    refusalOf (step { start 0x101 [] [] [(11, 0x00010000)] [] with
      mode := .user, pending := { Pending.none with switch0 := true },
      world := [{ Boundary.quiet with accept := some .switch0, parityFetch := some 0x101 }] }) = some .oddPc := by decide

/-- Rule R558: a parity error on the CCB word. -/
theorem test_parity_on_ccb_word :
    refusalOf (step { start 0x100 [0x5B, 0x12] [] [(11, 0x00010000)] [vector 0x414] with
      world := [{ Boundary.quiet with events := [.parityEntry] }] }) = some .ccbUnusable := by decide

/-- Rules R10 and R206: a store meets a parity error before it writes. -/
theorem test_store_parity :
    runs (.store 1 0 0x300) { start 0x100 [] [(1, 7)] [(11, 0x00010000)] (vector 0x40C :: sample) with parityData := true }
      (fun t => [t.spec 0, t.spec 3, t.wordAt 0x300, t.pc]) [0x100, 0x300, 0x12345678, 0x0002040C] = true := by decide

/-- Rules R525 and R550: a parity error of the fetch-ahead unit at, after and far from a NOP's own bytes. -/
theorem test_fetch_parity :
    ([0x101, 0x105, 0x106] : List Word).all (fun a =>
      shows { start 0x100 [0x10, 0x00] [] [(11, 0x00010000)] [vector 0x408] with
          world := [{ Boundary.quiet with parityFetch := some a }] }
        (fun t => [t.spec 0, t.spec 3, t.pc]) [0x100, a, 0x00020408]) = true := by decide

/-- Rules R96 and R131: a device writes into the second word of LOADD after the first was read. -/
theorem test_dma_between_accesses :
    runs (.loaddL 2 0 0x200) { start 0x100 [] [] [] [(0x200, [1, 2, 3, 4, 5, 6, 7, 8])] with
        within := [[], [.dmaWrite 0x203 0xFF, .dmaWrite 0x204 0xFF]] }
      (fun t => [t.reg 2, t.reg 3, t.wordAt 0x200]) [0x01020304, 0xFF060708, 0x010203FF] = true := by decide

/-- Some accesses of the tick, one after the other. -/
def tickParts (n : Nat) : List MemoryEvent := List.replicate n .tickAccess

/-- Rules R96 and R131: a tick counts the time of day between the two words of LOADD, which misses the carry. -/
theorem test_tick_between_accesses :
    runs (.loaddL 2 0 0x10448) { start 0x100 [] [] [(11, 0x00010000), (14, 1)] [(0x1044C, [0xFF, 0xFF, 0xFF, 0xFF])] with
        within := [tickParts 2, tickParts 4] }
      (fun t => [t.reg 2, t.reg 3, t.wordAt 0x10448, t.wordAt 0x1044C]) [0, 0x000F423F, 1, 0x000F423F] = true := by decide

/-- Rule R545: a store to a timer count falls between the read and the write of a tick that goes on after it, and is lost. -/
theorem test_tick_overwrites_store :
    (match (exec (.storeL 1 0 0x10440) { start 0x100 [] [(1, 7)] [(11, 0x00010000)] [(0x10440, [0, 0, 0, 5])] with
        tickStage := .timeCounted, within := [tickParts 1] }) with
      | .next t => match applyEvent (.memory .tickAccess) t with
        | .ok _ u => t.wordAt 0x10440 == 7 && u.wordAt 0x10440 == 4
        | _ => false
      | _ => false) = true := by decide

/-- Rule R39: NOP in the last two bytes of the address space. -/
theorem test_past_last_address :
    refusalOf (step (start 0xFFFFFFFE [0x10, 0x00] [] [] [])) = some .pastLastAddress := by decide

/-- Vector T19 of spec/95. -/
theorem test_kcall :
    runs (.kcall 0x12) { start 0x102 [] [] [(11, 0x00010000)] [vector 0x48] with mode := .user }
      (fun t => [t.spec 15, t.spec 0, t.spec 1, userBit t, t.pc]) [0x104, 1, 18, 0, 0x00020048] = true := by decide

/-- Vector K10 of spec/95. -/
theorem test_rum_in_user_mode :
    runs (.rum 0 0) { start 0x300 [] [] [(11, 0x00010000)] [vector 0x414] with mode := .user }
      (fun t => [t.spec 15, t.spec 0, t.spec 1, t.spec 2, t.spec 3, userBit t, t.pc])
      [0x300, 1, 0x42, 0, 0, 0, 0x00020414] = true := by decide

/-- Vector X2 of spec/95; and R141, R460: right after another FLUSH the next instruction may still show what could be buffered
then, and the one after it may not; two instructions after the other FLUSH neither may. -/
theorem test_flush_privileged :
    runs (.flush 0) { start 0x300 [] [] [(10, 1)] [] with mode := .user, codeTmt := [⟨0, 0, false⟩] }
      (fun t => [BitVec.ofNat 32 t.codeTmt.length, userBit t, t.pc]) [0, 1, 0x302] = true ∧
      ∀ x ∈ [([[⟨8, 1⟩]], [[⟨8, 1⟩], []]), (([] : List (List Host.Cell)), [[], []])],
        (match exec (.flush 0) { start 2 [] [] [] [] with fetch := { FetchState.empty with ahead := x.1, aheadPc := 4 } } with
          | .next t => decide (t.fetch.ahead = x.2)
          | _ => false) = true := by decide

/-- Vector X3 of spec/95. -/
theorem test_flush_unprivileged :
    runs (.flush 0) { start 0x300 [] [] [(11, 0x00010000)] [vector 0x414] with mode := .user }
      (fun t => [t.spec 15, t.spec 1, t.spec 2, t.spec 3, t.pc]) [0x300, 0x4C, 0, 6, 0x00020414] = true := by decide

/-- Vector X6 of spec/95. -/
theorem test_itest_device_3 :
    runs (.itest 4) { State.reset with pending := { Pending.none with external := [0x03000010] } }
      (fun t => [t.reg 4, t.reg 5, t.pc]) [0, 0x03000010, 2] = true := by decide

/-- Vector X12 of spec/95: what is sent, and that the instruction ends. -/
theorem test_read :
    (match exec (.read 6 2) (start 0x100 [] [(2, 0x05000004)] [] []) with
      | .next t => decide (t.ioTrace = [.read 0x05000004]) && t.pc == 0x102
      | _ => false) = true := by decide

/-- Vector X13 of spec/95. -/
theorem test_write :
    (match exec (.write 1 2) (start 0x100 [] [(1, 0xFF), (2, 0x05000008)] [] []) with
      | .next t => decide (t.ioTrace = [.write 0x05000008 0xFF]) && t.pc == 0x102
      | _ => false) = true := by decide

/-- Vectors C2 and C5 of spec/95, with a NOP after the tick. -/
theorem test_tick_while_no_process :
    shows { start 0x100 [0x10, 0x00] [] [(11, 0x00010000), (14, 1)] [(0x1043C, [0, 0, 0, 7, 0x80, 0, 0, 0]),
        (0x10448, [0, 0, 0, 0, 0xFF, 0xFF, 0, 0])] with world := [{ Boundary.quiet with events := [.tick] }] }
      (fun t => [t.wordAt 0x1043C, t.wordAt 0x10440, t.wordAt 0x10444, t.wordAt 0x10448, t.wordAt 0x1044C,
        if t.pending.timer1 then 1 else 0, if t.pending.timer2 then 1 else 0, t.pc])
      [8, 0x7FFFFFFF, 0xFFFFFFFF, 1, 0x000E4240, 0, 1, 0x102] = true := by decide

/-- Vector G7 of spec/95. -/
theorem test_external_interrupt :
    shows { start 0x402 [] [] [(11, 0x00010000)] [vector 0x420] with
        mode := .user, pending := { Pending.none with external := [0x03000010] },
        world := [{ Boundary.quiet with accept := some .external }] }
      (fun t => [t.spec 15, t.spec 0, t.spec 1, userBit t, t.pc]) [0x402, 1, 0x03000010, 0, 0x00020420] = true := by
  decide

/-- Vector G8 of spec/95: in kernel mode the request waits, the NOP runs. -/
theorem test_interrupt_held_in_kernel_mode :
    shows { start 0x402 [0x10, 0x00] [] [] [] with
        pending := { Pending.none with external := [0x03000010] },
        world := [{ Boundary.quiet with accept := some .external }] }
      (fun t => t.pc :: t.pending.external) [0x404, 0x03000010] = true := by decide

/-- Vector K7 of spec/95: timer 1 ends the pause; SR15 stays. -/
theorem test_pause_ends :
    shows { start 0x12342 [] [] [(11, 0x00010000), (14, 1), (15, 5)] [vector 0x430] with
        paused := true, pending := { Pending.none with timer1 := true },
        world := [{ Boundary.quiet with accept := some .timer1 }] }
      (fun t => [t.spec 0, t.spec 15, if t.paused then 1 else 0, t.pc]) [0x12342, 5, 0, 0x00020430] = true := by decide

/-- A word of the opcode table runs as the first instruction after reset: MOVEI R1, 7, and BR.L +0x10000. -/
theorem test_withFetchWord :
    shows (State.reset.withFetchWord 16 0x1117) (fun t => [t.reg 1, t.pc]) [7, 2] = true ∧
      shows (State.reset.withFetchWord 48 0x9B0000010000) (fun t => [t.pc]) [0x10000] = true := by decide

/-! ## States and operands that meet the hypotheses of the obligations

Each theorem is named after its obligation. Registers, addresses and counts stand at the ends of their ranges where a clause
has one. -/

/-- A user state at an address. -/
def user (pc : Word) (regs sregs : List (Reg × Word)) (data : List (Nat × List Byte)) : State :=
  { start pc [] regs sregs data with mode := .user }

/-- Whether an outcome is a next state. -/
def completes : Outcome → Bool
  | .next _ => true
  | _ => false

theorem exists_next {o : Outcome} (h : completes o = true) : ∃ t, o = .next t := by
  cases o <;> simp_all [completes]

theorem test_hypotheses_DecodeThenEncode :
    decode [0x03, 0x12, 0xFF] = .instr (.add 1 2) ∧
      decode [0xFF, 0xFF, 0x80, 0x00, 0x00, 0x00] = .instr (.laddrCLX 15 15 0x80000000) := by decide

theorem test_hypotheses_UnassignedOpcodesAreIllegal :
    decode [0x00, 0x00, 0, 0, 0, 0] = .illegal 0x00 0 0 ∧ decode [0x7F, 0xFF, 0, 0, 0, 0] = .illegal 0x7F 15 15 ∧
      decode [0x81, 0x00, 0, 0, 0, 0] = .illegal 0x81 0 0 ∧ decode [0xFD, 0xFF, 0, 0, 0, 0] = .illegal 0xFD 15 15 := by
  decide

theorem test_hypotheses_StepRunsDecodedInstruction :
    let s := start 0xFFFFFFFA [0x9B, 0x00, 0x00, 0x00, 0x00, 0x10] [] [] []
    Quiet s ∧ s.mode = .kernel ∧ s.pc.toNat % 2 = 0 ∧ 6 = (encode (.brL 0 0 0x10)).length ∧ s.pc.toNat + 6 ≤ 2 ^ 32 ∧
      s.backed s.pc.toNat 6 = true ∧ Fresh s.pc.toNat 6 s ∧ Unmixed 6 s ∧
      decode (s.bytesAt s.pc.toNat 6) = .instr (.brL 0 0 0x10) := by
  unfold Quiet Alone Fresh Unmixed; decide

theorem shows_of (a n : Nat) (bytes : List Byte) (s : State) (h : s.backed a n = true ∧ s.fetch = .empty ∧ bytes = s.bytesAt a n) :
    Shows a n bytes s := ⟨h.1, fun _ _ => by rw [h.2.1]; rfl, h.2.2⟩

/-- A user state at 0xFFE whose TMT maps the code pages 0 and 1 to the real pages 5 and 9. -/
def straddling (first rest : List Byte) : State :=
  { user 0xFFE [] [(11, 0x00010000)] [(0x5FFE, first), (0x9000, rest)] with codeTmt := [⟨0, 5, false⟩, ⟨1, 9, false⟩] }

/-- Two bytes before the end of a page and two after it. -/
theorem straddling_bytes (a b c d : Byte) (s : State) (hp : s.pc = 0xFFE) (hu : s.mode = .user)
    (ht : s.codeTmt = [⟨0, 5, false⟩, ⟨1, 9, false⟩]) (hf : s.fetch = .empty)
    (hi : s.backed 0x5FFE 2 = true ∧ s.backed 0x9000 2 = true)
    (hs : [a, b] = s.bytesAt 0x5FFE 2 ∧ [c, d] = s.bytesAt 0x9000 2) : CodeBytes 4 [a, b, c, d] s s := by
  have hc : s.tmt .code = [⟨0, 5, false⟩, ⟨1, 9, false⟩] := ht
  refine ⟨by rw [hp]; decide, .inr (.inr ⟨hu, 2, [a, b], [c, d], s, by decide, by decide, by rw [hp]; decide,
    ⟨by rw [hp]; decide, 5, .inl ⟨⟨0, 5, false⟩, by rw [hp, hc]; decide, rfl, rfl⟩, ?_⟩,
    ⟨by rw [hp]; decide, 9, .inl ⟨⟨1, 9, false⟩, by rw [hp, hc]; decide, rfl, rfl⟩, ?_⟩, rfl⟩)⟩
  · rw [hp]; exact shows_of _ _ _ _ ⟨hi.1, hf, hs.1⟩
  · rw [hp]; exact shows_of _ _ _ _ ⟨hi.2, hf, hs.2⟩

/-- In kernel mode at the last address, in user mode across two pages. -/
theorem test_hypotheses_IllegalInstructionTraps :
    (let s := start 0xFFFFFFFE [0x7F, 0x3A] [] [(11, 0x00010000)] []
     Quiet s ∧ s.pc.toNat % 2 = 0 ∧ CodeBytes 2 [0x7F, 0x3A] s s ∧ 2 = lengthOf 0x7F ∧ Unmixed 2 s ∧
        decode [0x7F, 0x3A] = .illegal 0x7F 3 10 ∧ CanEnter 0x404 s) ∧
    let s := straddling [0x81, 0xF0] [0, 0]
    Quiet s ∧ s.pc.toNat % 2 = 0 ∧ CodeBytes 4 [0x81, 0xF0, 0, 0] s s ∧ 4 = lengthOf 0x81 ∧ Unmixed 4 s ∧
      decode [0x81, 0xF0, 0, 0] = .illegal 0x81 15 0 ∧ CanEnter 0x404 s := by
  unfold Quiet CanEnter Alone Unmixed
  exact ⟨⟨by decide, by decide, ⟨by decide, .inl ⟨by decide, rfl, shows_of _ _ _ _ (by decide)⟩⟩, by decide, by decide,
    by decide, by decide⟩, by decide, by decide, straddling_bytes _ _ _ _ _ rfl rfl rfl rfl (by decide) (by decide), by decide, by decide, by decide,
    by decide⟩

theorem test_hypotheses_RefusedFetches :
    (start 0xFFFFFFFF [] [] [] []).pc.toNat % 2 = 1 ∧
    (let s := start 0x100 [0x4C, 0x0F] [] [] []
     Quiet s ∧ s.pc.toNat % 2 = 0 ∧ CodeBytes 2 [0x4C, (0 : Reg) ++ (15 : Reg)] s s ∧ Unmixed 2 s ∧
      (15 : Reg) ∉ ([0, 1, 6, 7, 8] : List Reg)) ∧
    (let s := start 0xFFFFFFFE [0x8B, 0x00] [] [] []
     Quiet s ∧ s.pc.toNat % 2 = 0 ∧ CodeBytes 2 [0x8B, 0x00] s s ∧ Unmixed 2 s ∧
      2 ^ 32 < s.pc.toNat + lengthOf 0x8B) ∧
    (2 ^ 32 ≤ (start 0xFFFFFFFE [] [] [] []).pc.toNat + (encode (.move 1 2)).length ∧
      2 ^ 32 ≤ (start 0xFFFFFFFC [] [] [] []).pc.toNat + (encode (.laddr 1 2 0)).length ∧
      2 ^ 32 ≤ (start 0xFFFFFFFA [] [] [] []).pc.toNat + (encode (.laddrL 1 2 0)).length) ∧
    (let s : State := { State.reset with installed := [] }
     Quiet s ∧ s.pc.toNat % 2 = 0 ∧ s.mode = .kernel ∧ s.installedAt s.pc.toNat = false) ∧
    let s : State := { straddling [] [] with installed := [{ base := 0, size := 0x5FFE }] }
    Quiet s ∧ s.pc.toNat % 2 = 0 ∧ s.mode = .user ∧ Maps .code (s.spec 8) s.pc 5 s s ∧
      s.installedAt (realAddress 5 s.pc).toNat = false := by
  unfold Quiet Alone Unmixed
  exact ⟨by decide, ⟨by decide, by decide, ⟨by decide, .inl ⟨by decide, rfl, shows_of _ _ _ _ (by decide)⟩⟩, by decide,
    by decide⟩, ⟨by decide, by decide, ⟨by decide, .inl ⟨by decide, rfl, shows_of _ _ _ _ (by decide)⟩⟩, by decide, by decide⟩,
    by decide, by decide, by decide, by decide, by decide, .inl ⟨⟨0, 5, false⟩, by decide, rfl, rfl⟩, by decide⟩

theorem test_hypotheses_FetchOldOrNew :
    (∃ b t, fetchByte false 0xFFFFFFFF State.reset = .ok b t) ∧ State.reset.installedAt 0xFFFFFFFF = true ∧
      (∀ x ∈ [SeenFetch.mk none 0xFFFFFFFF 14], x.space = none) ∧
      (∃ t, realWrite 0xFFFFFFFC 4 1 State.reset = .ok () t ∧ t.mem.read 0xFFFFFFFF ≠ State.reset.mem.read 0xFFFFFFFF) :=
  ⟨⟨_, _, rfl⟩, by decide, by decide, _, realWrite_of_backed _ _ _ _ (by decide), by decide⟩

theorem test_hypotheses_ExceptionEntry :
    (∃ s0, (start 0 [] [] [(11, 0xFFFFFBB0)] []).between = .ok () s0 ∧
        s0.ccbUsable (Exception.ccbOffset .timer2) = true) ∧
      (∃ s0, ({ start 0 [] [] [(11, 1)] [] with within := [[.dmaWrite 0 1]] } : State).between = .ok () s0) ∧
      Alone (start 0 [] [] [(11, 0xFFFFFBB0)] []) ∧ ((start 0 [] [] [(11, 1)] []).spec 11).toNat % 4 ≠ 0 ∧
      (let s : State := { start 0 [] [] [(11, 0xFFFFFFFC)] [] with installed := [{ base := 0, size := 0x44B }] }
       s.installedAt (s.spec 11 + 0x44F).toNat = false) ∧
      { State.reset with parityEntry := true }.parityEntry = true :=
  ⟨⟨_, rfl, by decide⟩, ⟨_, rfl⟩, rfl, by decide, by decide, rfl⟩

/-- A CCB that runs past the end of the address space (R10): the entry for KCALL 255, at offset 0x3FC, is at 0x3F8. -/
theorem test_ccb_wraps :
    runs (.kcall 0xFF)
      { start 0x102 [] [] [(11, 0xFFFFFFFC)] [(0x3F8, [0x00, 0x00, 0x20, 0x04])] with mode := .user }
      (fun t => [t.spec 1, t.pc]) [0xFF, 0x2004] = true := by decide

theorem test_hypotheses_InterruptTaken :
    let b (x : Source) : Boundary := { events := [], accept := some x, parityFetch := none, within := [] }
    let all : Pending := ⟨[0x03000010], true, true, true, true, true⟩
    let s (x : Source) : State := { user 0x402 [] [] [] with pending := all, world := [b x] }
    (∀ x ∈ [Source.external, .switch0, .powerFail, .endGlitch, .timer1, .timer2],
      (s x).world = b x :: [] ∧ (s x).pc.toNat % 2 = 0 ∧ (s x).mode = .user ∧
        { s x with mode := .kernel, paused := true }.paused = true) ∧
      all.switch0 = true ∧ all.powerFail = true ∧ all.endGlitch = true ∧ all.timer1 = true ∧ all.timer2 = true ∧
      all.external ≠ [] ∧ ∀ off ∈ [0x420, 0x424, 0x428, 0x42C, 0x430, 0x434], (s .timer1).ccbUsable off = true := by
  decide

theorem test_hypotheses_InterruptsHeldOff :
    let b : Boundary := { events := [], accept := some .timer1, parityFetch := none, within := [[], [.dmaWrite 0 1]] }
    let s : State := { State.reset with world := [b] }
    (s.world = b :: [] ∧ s.pc.toNat % 2 = 0 ∧ s.mode = .kernel ∧ s.paused = false) ∧
      Quiet { { State.reset with paused := true } with paused := false } ∧
      { State.reset with paused := true }.pc.toNat % 2 = 0 ∧ { State.reset with paused := true }.paused = true := by
  unfold Quiet Alone; decide

/-- The clock of the PCB at 0x8000, whatever its offset in the PCB is. -/
theorem test_hypotheses_MillisecondTick :
    (∀ ccb ∈ [(0 : Word), 0x10000, 0xFFFFFBB0, 0xFFFFFFFC],
      let s := start 0 [] [] [(11, ccb), (14, 1)] []
      s.tickStage = .idle ∧ s.spec 14 = 1 ∧ ccb = s.spec 11 ∧ ccb.toNat % 4 = 0 ∧
        (∀ w ∈ [ccb + 0x440, ccb + 0x444, ccb + 0x448, ccb + 0x44C, ccb + 0x43C], s.backed w.toNat 4 = true) ∧
        ccb + 0x43C ∉ [ccb + 0x440, ccb + 0x444, ccb + 0x448, ccb + 0x44C]) ∧
    (∃ s : State, s.tickStage = .idle ∧ (s.spec 11).toNat % 4 ≠ 0) ∧
    (∃ s : State, s.tickStage = .idle ∧ s.installedAt (s.spec 11 + 0x44F).toNat = false) ∧
    (∃ s : State, s.tickStage = .idle ∧ (s.spec 11).toNat % 4 = 0 ∧ s.installedAt (s.spec 11 + 0x44F).toNat = true ∧
      s.spec 14 ≠ 1 ∧ (s.spec 14).toNat % 4 ≠ 0) ∧
    ∃ s : State, s.tickStage = .idle ∧ s.spec 14 ≠ 1 ∧ (s.spec 14).toNat % 4 = 0 ∧ 0x10000 = s.spec 11 ∧
      (∀ w ∈ [(0x10440 : Word), 0x10444, 0x10448, 0x1044C, 0x8000], s.backed w.toNat 4 = true) ∧
      (0x8000 : Word) ∉ [(0x10440 : Word), 0x10444, 0x10448, 0x1044C] ∧ 0x8000 = s.spec 14 + Config.pcbLayout.clock := by
  refine ⟨fun ccb h => ?_, ⟨start 0 [] [] [(11, 0xFFFFFFFF)] [], by decide⟩,
    ⟨{ State.reset with installed := [] }, by decide⟩, ⟨start 0 [] [] [(11, 0xFFFFFBB0), (14, 2)] [], by decide⟩,
    (start 0 [] [] [(11, 0x10000)] []).setSpec 14 (0x8000 - Config.pcbLayout.clock), ?_⟩
  · simp only [List.mem_cons, List.not_mem_nil, or_false] at h
    rcases h with rfl | rfl | rfl | rfl <;>
      exact ⟨by decide, by decide, by decide, by decide, List.all_eq_true.mp (by decide), by decide⟩
  have h := pcbOffset_aligned Config.pcbLayout.clock (by simp [PcbLayout.offsets])
  have h4 : ((0x8000 - Config.pcbLayout.clock : Word)).toNat % 4 = 0 := by
    generalize Config.pcbLayout.clock = c at h
    have h8 : (0x8000 : Word).toNat = 0x8000 := by decide
    rw [BitVec.toNat_sub, h8]; omega
  refine ⟨rfl, ?_, ?_, by decide, List.all_eq_true.mp (by decide), by decide, ?_⟩
  · intro h1
    rw [State.spec_setSpec_same] at h1
    rw [h1] at h4
    exact absurd h4 (by decide)
  · rw [State.spec_setSpec_same]; exact h4
  · rw [State.spec_setSpec_same, BitVec.sub_add_cancel]

/-- Every stage of the tick, with a CCB that runs past the end of the address space and a word that has memory. -/
theorem test_hypotheses_MillisecondTick_accesses :
    ∀ x ∈ [TickStage.idle, .clockRead 0 0xFFFFFFFF, .clockCounted, .highRead 0xFFFFFFF8 0, .timeRead 0xFFFFFFF8 0,
        .highWritten 0xFFFFFFF8 0, .timeCounted, .timer1Read 0xFFFFFFFC 0, .timer1Counted 0, .timer2Read 0 0xFFFFFFFC 0],
      let s : State := { start 0 [] [] [(11, 0xFFFFFBB4), (14, 1)] [] with tickStage := x }
      s.tickStage = x ∧ s.spec 14 = 1 ∧ (s.spec 11).toNat % 4 = 0 ∧ s.installedAt (s.spec 11 + 0x44F).toNat = true ∧
        s.backed 0 4 = true ∧ s.backed 0xFFFFFFF0 16 = true := by decide

theorem test_hypotheses_StepKeepsInvariant :
    let s := start 0x100 [0x03, 0x12] [] [] []
    s.Inv ∧ ∃ t, step s = .next t := by
  exact ⟨⟨by decide, by decide, by decide, by decide, by decide, by decide, by decide, by decide⟩,
    exists_next (by decide)⟩

theorem test_hypotheses_UserModeKeepsSpecialRegisters :
    ∃ t, (user 0x100 [] [] []).mode = .user ∧ exec (.move 1 2) (user 0x100 [] [] []) = .next t ∧ t.mode = .user :=
  ⟨_, rfl, advance_of_lt 2 ((user 0x100 [] [] []).setReg 1 ((user 0x100 [] [] []).reg 2)) (by decide), rfl⟩

theorem test_hypotheses_OnlyRumEntersUserMode :
    ∃ t, State.reset.mode = .kernel ∧ exec (.rum 0 0) State.reset = .next t ∧ t.mode = .user := ⟨_, rfl, rfl, rfl⟩

/-- A state as near the last address as a 2-byte instruction can complete. -/
theorem test_hypotheses_register_instructions : (start 0xFFFFFFFC [] [] [] []).pc.toNat + 2 < 2 ^ 32 := by decide

/-- The arithmetic obligations: results at both ends that fit, one just outside, the trap off and on. -/
theorem test_hypotheses_AddSubtractMultiply :
    let s := start 0xFFFFFFFC [] [(1, 0x7FFFFFFF), (2, 1), (3, 0x80000000)] [(10, 0x00008000)] []
    (Fits ((s.reg 1).toInt + (s.reg 0).toInt) ∧ Fits ((s.reg 3).toInt - (s.reg 0).toInt) ∧
      Fits ((s.reg 3).toInt * (s.reg 2).toInt)) ∧
    ¬Fits ((s.reg 1).toInt + (s.reg 2).toInt) ∧ ¬Fits ((s.reg 3).toInt - (s.reg 2).toInt) ∧
      ¬Fits ((s.reg 3).toInt * (s.reg 3).toInt) ∧ ¬Fits ((s.reg 1).toInt + ((1 : Reg).toNat : Int)) ∧
      ¬Fits ((s.reg 3).toInt - ((1 : Reg).toNat : Int)) ∧ ¬Fits ((s.reg 1).toInt * ((2 : Reg).toNat : Int)) ∧
      TrapOn 16 s ∧ ¬TrapOn 16 State.reset ∧ CanEnter 0x41C s := by
  unfold Fits TrapOn CanEnter Alone; decide

theorem test_hypotheses_Negate :
    let s := start 0xFFFFFFFC [] [(1, 0x80000000), (2, 0x80000001)] [(10, 0x00008000)] []
    s.reg 2 ≠ 0x80000000 ∧ s.reg 1 = 0x80000000 ∧ s.pc.toNat + 2 < 2 ^ 32 ∧ TrapOn 16 s ∧ ¬TrapOn 16 State.reset ∧
      CanEnter 0x41C s := by
  unfold TrapOn CanEnter Alone; decide

theorem test_hypotheses_DivideRemainder :
    let s := start 0xFFFFFFFC [] [(1, 0x80000000), (2, 0xFFFFFFFF), (3, 1)] [(10, 0x0000C000)] []
    ((s.reg 3).toInt ≠ 0 ∧ ¬((s.reg 1).toInt = -(2 ^ 31) ∧ (s.reg 3).toInt = -1)) ∧ s.pc.toNat + 2 < 2 ^ 32 ∧
      (s.reg 0).toInt = 0 ∧ (s.reg 1).toInt = -(2 ^ 31) ∧ (s.reg 2).toInt = -1 ∧ TrapOn 16 s ∧ TrapOn 17 s ∧
      ¬TrapOn 16 State.reset ∧ ¬TrapOn 17 State.reset ∧ CanEnter 0x41C s := by
  unfold TrapOn CanEnter Alone; decide

theorem test_hypotheses_ExtendedMultiplyDivide :
    let s := start 0xFFFFFFFC [] [(2, 0xFFFFFFFF), (3, 1), (4, 1)] [(10, 0x0000C000)] []
    ((s.reg 4).toNat ≠ 0 ∧ ((s.reg 1).toNat * 2 ^ 32 + (s.reg 2).toNat) / (s.reg 4).toNat < 2 ^ 32) ∧
      2 ^ 32 ≤ ((s.reg 3).toNat * 2 ^ 32 + (s.reg 5).toNat) / (s.reg 4).toNat ∧ (s.reg 0).toNat = 0 ∧
      s.pc.toNat + 2 < 2 ^ 32 ∧ TrapOn 16 s ∧ TrapOn 17 s ∧ CanEnter 0x41C s := by
  unfold TrapOn CanEnter Alone; decide

/-! ### Real numbers: 1.0, 2.0, 3.0, 6.0 and the ends of the range -/

theorem test_hypotheses_RealArithmeticExact :
    let f := realFormat
    (f.wellFormed 0x40C00000 ∧ f.wellFormed 0x40400000 ∧ f.wellFormed 0 ∧ f.value 0x40400000 ≠ 0) ∧
      f.value 0x41100000 = f.value 0x40C00000 + f.value 0x40400000 ∧
      f.value 0x40400000 = f.value 0x40C00000 - f.value 0x40400000 ∧
      f.value 0x41900000 = f.value 0x40C00000 * f.value 0x40400000 ∧
      f.value 0x40000000 = f.value 0x40C00000 / f.value 0x40400000 ∧ f.value 0xC0400000 = -f.value 0x40400000 ∧
      f.value 0 = f.value 0x40400000 - f.value 0x40400000 ∧ f.value 0 = -f.value 0 ∧
      f.wellFormed 0x80000000 = false := by decide +kernel

theorem test_hypotheses_DoubleRealArithmeticExact :
    let f := doubleFormat
    (f.wellFormed 0x4018000000000000 ∧ f.wellFormed 0x4008000000000000 ∧ f.wellFormed 0 ∧
        f.value 0x4008000000000000 ≠ 0) ∧
      f.value 0x4022000000000000 = f.value 0x4018000000000000 + f.value 0x4008000000000000 ∧
      f.value 0x4008000000000000 = f.value 0x4018000000000000 - f.value 0x4008000000000000 ∧
      f.value 0x4032000000000000 = f.value 0x4018000000000000 * f.value 0x4008000000000000 ∧
      f.value 0x4000000000000000 = f.value 0x4018000000000000 / f.value 0x4008000000000000 ∧
      f.value 0xC008000000000000 = -f.value 0x4008000000000000 ∧ f.value 0 = -f.value 0 ∧
      f.wellFormed 0x8000000000000000 = false := by decide +kernel

theorem test_hypotheses_RealConversionsExact :
    realFormat.wellFormed 0xCF000000 ∧ doubleFormat.wellFormed 0xC1E0000000000000 ∧
      realFormat.value 0xCF000000 = ((0x80000000 : Word).toInt : Rat) ∧
      doubleFormat.value 0xC1E0000000000000 = ((0x80000000 : Word).toInt : Rat) ∧
      doubleFormat.value 0xC1E0000000000000 = realFormat.value 0xCF000000 := by decide +kernel

theorem test_hypotheses_FixConversions :
    let s := start 0xFFFFFFFC [] [] [(10, 0x00008000)] []
    realFormat.wellFormed 0x40300000 ∧ realFormat.wellFormed 0x4F800000 ∧ doubleFormat.wellFormed 0x4006000000000000 ∧
      doubleFormat.wellFormed 0x41F0000000000000 ∧ s.pc.toNat + 2 < 2 ^ 32 ∧ TrapOn 16 s ∧ ¬TrapOn 16 State.reset ∧
      CanEnter 0x41C s := by
  unfold TrapOn CanEnter Alone; decide +kernel

theorem test_hypotheses_RealRangeEnds :
    let f := realFormat
    (f.wellFormed 0x7F7FFFFF ∧ f.wellFormed 0x00800000 ∧ f.wellFormed 0 ∧ f.value 0 = 0) ∧
      (∀ top : Bool, f.value (if top then (0x7F7FFFFF : Word) else 0x7FFFFFFF).toNat <
        |f.value 0x7F7FFFFF * f.value 0x7F7FFFFF|) ∧
      (f.value 0x00800000 * f.value 0x00800000 ≠ 0 ∧
        |f.value 0x00800000 * f.value 0x00800000| < f.value 0x00800000) ∧
      (doubleFormat.wellFormed 0x7FEFFFFFFFFFFFFF ∧ doubleFormat.wellFormed 0x0010000000000000 ∧
        ∀ top : Bool, f.value (if top then (0x7F7FFFFF : Word) else 0x7FFFFFFF).toNat <
          |doubleFormat.value 0x7FEFFFFFFFFFFFFF|) ∧
      (doubleFormat.value 0x0010000000000000 ≠ 0 ∧ |doubleFormat.value 0x0010000000000000| < f.value 0x00800000) ∧
      f.value 0x00800000 ≠ 0 ∧ TrapOn 18 (start 0 [] [] [(10, 0x00003800)] []) ∧
      TrapOn 19 (start 0 [] [] [(10, 0x00003800)] []) ∧ TrapOn 20 (start 0 [] [] [(10, 0x00003800)] []) := by
  unfold TrapOn; decide +kernel

theorem test_hypotheses_DoubleRealRangeEnds :
    let f := doubleFormat
    (f.wellFormed 0x7FEFFFFFFFFFFFFF ∧ f.wellFormed 0x0010000000000000 ∧ f.wellFormed 0 ∧ f.value 0 = 0) ∧
      (∀ top : Bool, f.value (if top then (0x7FEFFFFFFFFFFFFF : Double) else 0x7FFFFFFFFFFFFFFF).toNat <
        |f.value 0x7FEFFFFFFFFFFFFF * f.value 0x7FEFFFFFFFFFFFFF|) ∧
      (f.value 0x0010000000000000 * f.value 0x0010000000000000 ≠ 0 ∧
        |f.value 0x0010000000000000 * f.value 0x0010000000000000| < f.value 0x0010000000000000) ∧
      f.value 0x0010000000000000 ≠ 0 := by decide +kernel

theorem test_hypotheses_RealInstructionsComplete :
    let s := start 0xFFFFFFFC [] [] [] []
    s.pc.toNat + 2 < 2 ^ 32 ∧ ¬TrapOn 16 s ∧ ¬TrapOn 18 s ∧ ¬TrapOn 19 s ∧ ¬TrapOn 20 s := by
  unfold TrapOn; decide

/-! ### Bits, checks, shifts, branches -/

theorem test_hypotheses_BitInstructions :
    let s := start 0xFFFFFFFC [] [(1, 63), (2, 64), (3, 0xFFFFFFFF)] [] []
    ((s.reg 0).toNat = 0 ∧ (s.reg 1).toNat = 63 ∧ (s.reg 1).toNat ≤ 63) ∧ 63 < (s.reg 2).toNat ∧ 63 < (s.reg 3).toNat ∧
      s.pc.toNat + 2 < 2 ^ 32 := by decide

theorem test_hypotheses_CheckInstructions :
    let s := start 0xFFFFFFFC [] [(1, 15), (2, 16), (3, 0xFFFFFFFF)] [] []
    ((s.reg 3).toInt ≤ (s.reg 0).toInt ∧ (s.reg 1).toInt ≤ (s.reg 1).toInt) ∧ (s.reg 1).toInt < (s.reg 2).toInt ∧
      (0 ≤ (s.reg 0).toInt ∧ 0 ≤ (s.reg 1).toInt ∧ (s.reg 1).toInt ≤ (15 : Reg).toNat) ∧
      ((s.reg 3).toInt < 0 ∧ ((15 : Reg).toNat : Int) < (s.reg 2).toInt) ∧ CanEnter 0x418 s ∧
      s.pc.toNat + 2 < 2 ^ 32 := by
  unfold CanEnter Alone; decide

theorem test_hypotheses_TrapInstruction :
    let s := start 0xFFFFFFFC [] [] [(10, 0x80010000)] []
    TrapOn (0 : Reg).toNat s ∧ TrapOn (15 : Reg).toNat s ∧ ¬TrapOn (1 : Reg).toNat s ∧ CanEnter 0x41C s := by
  unfold TrapOn CanEnter Alone; decide

theorem test_hypotheses_KernelCall :
    (user 0 [] [] []).mode = .user ∧ CanEnter (4 * (0 : BitVec 8).toNat) (user 0 [] [] []) ∧
      CanEnter (4 * (255 : BitVec 8).toNat) (user 0 [] [] []) ∧ State.reset.mode = .kernel ∧
      CanEnter 0x414 State.reset := by
  unfold CanEnter Alone; decide

theorem test_hypotheses_CompareInstructions :
    realFormat.wellFormed 0 ∧ realFormat.wellFormed 0xBF800000 ∧ doubleFormat.wellFormed 0 ∧
      doubleFormat.wellFormed 0xBFF0000000000000 := by decide +kernel

/-- Counts 0 and 31; the shifted value of 0x40000000 by 1 is 0. -/
theorem test_hypotheses_ArithmeticShifts :
    let s := start 0xFFFFFFFC [] [(1, 0x40000000), (2, 31), (3, 1), (4, 0xFFFFFFFF)] [(10, 0x00008000)] []
    ((s.reg 2).toNat % 32 = 31 ∧ (s.reg 0).toNat % 32 = 0) ∧
      ((0 : Word).msb = (s.reg 1).msb ∧ (0 : Word).toNat % 2 ^ 31 = (s.reg 1).toNat * 2 ^ 1 % 2 ^ 31 ∧
        ¬Fits ((s.reg 1).toInt * 2 ^ 1)) ∧
      ((0x80000000 : Word).msb = (s.reg 4).msb ∧
        (0x80000000 : Word).toNat % 2 ^ 31 = (s.reg 4).toNat * 2 ^ 31 % 2 ^ 31 ∧ Fits ((s.reg 4).toInt * 2 ^ 31)) ∧
      TrapOn 16 s ∧ CanEnter 0x41C s := by
  unfold Fits TrapOn CanEnter Alone; decide

/-- Each relation of a branch holds somewhere and fails somewhere, at the last addresses from which it can fall through. -/
theorem test_hypotheses_ConditionalBranches :
    let s := start 0xFFFFFFFA [] [(1, 15), (2, 16), (3, 0xFFFFFFFF)] [] []
    ((s.reg 3).toInt < (s.reg 1).toInt ∧ (s.reg 1).toInt < (s.reg 2).toInt) ∧
      ((s.reg 1).toInt = (15 : Reg).toNat ∧ ((15 : Reg).toNat : Int) < (s.reg 2).toInt ∧
        (s.reg 3).toInt < (0 : Reg).toNat) ∧
      s.pc.toNat + 4 < 2 ^ 32 ∧ (start 0xFFFFFFF8 [] [] [] []).pc.toNat + 6 < 2 ^ 32 := by decide

/-- LOOP: the sum -1 branches, the sum 0 falls through, and 2^31 is negative. -/
theorem test_hypotheses_BranchesCallsAndLoops :
    let s := start 0xFFFFFFF8 [] [(1, 0xFFFFFFFF), (2, 0x7FFFFFFF)] [] []
    ((s.reg 1 + BitVec.ofNat 32 (0 : Reg).toNat).toInt < 0 ∧ (s.reg 2 + BitVec.ofNat 32 (1 : Reg).toNat).toInt < 0) ∧
      (0 ≤ (s.reg 1 + BitVec.ofNat 32 (1 : Reg).toNat).toInt) ∧ s.pc.toNat + 4 < 2 ^ 32 ∧ s.pc.toNat + 6 < 2 ^ 32 := by
  decide

/-! ### Memory reference -/

/-- The first and the last address of each size, in kernel mode. -/
theorem test_hypotheses_LoadsInKernelMode :
    let s := start 0xFFFFFFF8 [] [(2, 1)] [] []
    (s.mode = .kernel ∧ s.parityData = false ∧ Alone s ∧ s.pc.toNat + 6 < 2 ^ 32) ∧
      (Segment.data, Instr.loadbL 1 2 0xFFFFFFFF, 6, (0xFFFFFFFF : Word)) ∈ loadForms 1 1 2 0 0xFFFFFFFF s ∧
      (Segment.data, Instr.loadhLX 1 2 0xFFFFFFFD, 6, (0xFFFFFFFE : Word)) ∈ loadForms 2 1 2 0 0xFFFFFFFD s ∧
      (Segment.code, Instr.loadC 1 2 0x0008, 4, (0 : Word)) ∈ loadForms 4 1 2 0x0008 0 s ∧
      (Segment.code, Instr.loaddCX 1 2 0xFFFF, 4, (0xFFFFFFF8 : Word)) ∈ loadForms 8 1 2 0xFFFF 0 s ∧
      (s.backed 0xFFFFFFFF 1 = true ∧ s.backed 0xFFFFFFFE 2 = true ∧ s.backed 0 4 = true ∧ s.backed 0xFFFFFFF8 8 = true) ∧
      ({ s with installed := [{ base := 0, size := 0xFFFFFFFF }] } : State).backed 0xFFFFFFF8 8 = false ∧
      ({ s with within := [[.dmaWrite 0xFFFFFFFF 7]] } : State).within = [.dmaWrite 0xFFFFFFFF 7] :: [] ∧
      ({ s with within := [[.dmaWrite 0xFFFFFFFF 7]] } : State).installedAt (0xFFFFFFFF : Word).toNat = true := by
  unfold Alone; decide

/-- Events fall before both words of a LOADD; of the first two, one is an access of the tick. -/
theorem test_hypotheses_LoadsInKernelMode_between :
    let s : State := { start 0x100 [] [] [(11, 0xFFFFFBB0), (14, 1)] [] with
      within := [[.tickAccess, .dmaWrite 0 1], [.dmaWrite 0xFFFFFFFF 1]] }
    s.within = (.tickAccess :: [.dmaWrite 0 1]) :: [[.dmaWrite 0xFFFFFFFF 1]] ∧
      ∃ s0 s1 s2, applyMemoryEvent .tickAccess { s with within := [.dmaWrite 0 1] :: [[.dmaWrite 0xFFFFFFFF 1]] } = .ok () s0 ∧
        s.between = .ok () s1 ∧ s1.between = .ok () s2 := ⟨rfl, _, _, _, rfl, rfl, rfl⟩

theorem test_hypotheses_StoresInKernelMode :
    let s := start 0xFFFFFFF8 [] [(2, 8)] [] []
    (s.mode = .kernel ∧ s.parityData = false ∧ Alone s ∧ s.pc.toNat + 6 < 2 ^ 32) ∧
      (Instr.stored 1 2 0, 4, (0 : Word)) ∈ storeForms 8 1 2 0 0 s ∧
      (Instr.storedLX 1 2 0xFFFFFFF0, 6, (0xFFFFFFF8 : Word)) ∈ storeForms 8 1 2 0 0xFFFFFFF0 s ∧
      (Instr.storebX 1 2 0xFFF7, 4, (0xFFFFFFFF : Word)) ∈ storeForms 1 1 2 0xFFF7 0 s ∧
      s.backed 0 8 = true ∧ s.backed 0xFFFFFFF8 8 = true ∧ s.backed 0xFFFFFFFF 1 = true ∧
      ({ s with installed := [{ base := 1, size := 0xFFFFFFFF }] } : State).backed 0 8 = false := by
  unfold Alone; decide

theorem test_hypotheses_MisalignedAccessTraps :
    let s := user 0x100 [] [(8, 3), (9, 4)] []
    CanEnter 0x400 s ∧ (Segment.data, Instr.loadh 1 2 0x7FFF, 4, (0x7FFF : Word)) ∈ loadForms 2 1 2 0x7FFF 0 s ∧
      (Segment.code, Instr.loaddC 1 2 0x0004, 4, (0x104 : Word)) ∈ loadForms 8 1 2 0x0004 0 s ∧
      (Instr.storeL 1 2 0xFFFFFFFF, 6, (0xFFFFFFFF : Word)) ∈ storeForms 4 1 2 0 0xFFFFFFFF s ∧
      (0x7FFF : Word).toNat % 2 ≠ 0 ∧ (0x104 : Word).toNat % 8 ≠ 0 ∧ (0xFFFFFFFF : Word).toNat % 4 ≠ 0 := by
  unfold CanEnter Alone; decide

/-! ### Translation, for every layout of a VRT entry -/

/-- A search whose first entry is 0 finds nothing for segment number 1. -/
theorem finds_none_of_zero (s : State) (va : Word) (hm : vrtMaskValid (s.spec 13) = true)
    (ha : (vrtHead 1 va s).toNat % 4 = 0) (hb : s.entryBacked (vrtHead 1 va s))
    (h0 : s.entryAt (vrtHead 1 va s) = 0) : Finds 1 va none s := by
  have hl : vrtLink 0 = 0 := by simp [vrtLink]
  have hn : ¬vrtMatches 1 va 0 = true := by
    rw [vrtMatches_iff]
    rintro ⟨h1, -⟩
    have hz : vrtSeg 0 = 0 := by simp [vrtSeg, vrtField]
    have hp : 1 < 2 ^ Config.vrtLayout.segBits := Nat.one_lt_two_pow (by have := segBits_pos; omega)
    rw [hz, show (1 : Word).toNat = 1 from rfl, Nat.mod_eq_of_lt hp] at h1
    exact absurd h1 (by decide)
  unfold Finds
  rw [vrtSearchWith_at 1 va s 0 hm ha hb h0.symm, if_neg hn, if_pos hl]

/-- Bits of an entry: the three of VVV, and the most significant one of the link. -/
def vvvBits : Double :=
  ((0 ||| 1#64 <<< Config.vrtLayout.vvvAt) ||| 1#64 <<< (Config.vrtLayout.vvvAt + 1)) |||
    1#64 <<< (Config.vrtLayout.vvvAt + 2)

theorem vvvBits_fields : vrtSeg vvvBits = 0 ∧ vrtTag vvvBits = 0 ∧ vrtLink vvvBits = 0 ∧ vrtVvv vvvBits = 7 := by
  have h0 := vrtLayout_fields_apart 0 4 (by decide) (by decide) (by decide)
  have h1 := vrtLayout_fields_apart 1 4 (by decide) (by decide) (by decide)
  have h2 := vrtLayout_fields_apart 2 4 (by decide) (by decide) (by decide)
  have h4 := vrtLayout_fields_in 4 (by decide)
  simp only [VrtLayout.fields, List.getElem_cons_zero, List.getElem_cons_succ] at h0 h1 h2 h4
  refine ⟨?_, ?_, ?_, ?_⟩
  · simp only [vrtSeg, vrtField, vvvBits]
    rw [extract_setBit _ _ _ _ (by omega), extract_setBit _ _ _ _ (by omega), extract_setBit _ _ _ _ (by omega)]
    simp
  · simp only [vrtTag, vvvBits]
    rw [extract_setBit _ _ _ _ (by omega), extract_setBit _ _ _ _ (by omega), extract_setBit _ _ _ _ (by omega)]
    simp
  · simp only [vrtLink, vvvBits]
    rw [extract_setBit _ _ _ _ (by omega), extract_setBit _ _ _ _ (by omega), extract_setBit _ _ _ _ (by omega)]
    simp
  · apply BitVec.eq_of_getLsbD_eq
    intro i hi
    simp only [vrtVvv, vvvBits, BitVec.getLsbD_extractLsb']
    rw [getLsbD_setBit _ _ _ (by omega), getLsbD_setBit _ _ _ (by omega), getLsbD_setBit _ _ _ (by omega)]
    have : i = 0 ∨ i = 1 ∨ i = 2 := by omega
    rcases this with rfl | rfl | rfl <;> simp

theorem vvvBits_page : vrtRealPage vvvBits = 0 := by
  have h := vrtLayout_fields_apart 4 6 (by decide) (by decide) (by decide)
  simp only [VrtLayout.fields, List.getElem_cons_zero, List.getElem_cons_succ] at h
  simp only [vrtRealPage, vrtField, vvvBits]
  rw [extract_setBit _ _ _ _ (by omega), extract_setBit _ _ _ _ (by omega), extract_setBit _ _ _ _ (by omega)]
  simp

/-- An entry of segment 0 with a tag of 1 and a link of 0x8000. -/
def linkBits : Double :=
  (0 ||| 1#64 <<< Config.vrtLayout.tagAt) ||| 1#64 <<< (Config.vrtLayout.linkAt + 15)

theorem linkBits_fields : vrtTag linkBits = 1 ∧ vrtLink linkBits = 0x8000 := by
  have h := vrtLayout_fields_apart 1 2 (by decide) (by decide) (by decide)
  have h1 := vrtLayout_fields_in 1 (by decide)
  have h2 := vrtLayout_fields_in 2 (by decide)
  simp only [VrtLayout.fields, List.getElem_cons_zero, List.getElem_cons_succ] at h h1 h2
  constructor
  · simp only [vrtTag, linkBits]
    rw [extract_setBit _ _ _ _ (by omega)]
    apply BitVec.eq_of_getLsbD_eq
    intro i hi
    rw [BitVec.getLsbD_extractLsb', getLsbD_setBit _ _ _ (by omega)]
    rcases Nat.eq_zero_or_pos i with rfl | hp
    · simp
    · simp [Nat.ne_of_gt hp, BitVec.getLsbD_one]
  · simp only [vrtLink, linkBits]
    apply BitVec.eq_of_getLsbD_eq
    intro i hi
    rw [BitVec.getLsbD_extractLsb', getLsbD_setBit _ _ _ (by omega), getLsbD_setBit _ _ _ (by omega)]
    have hne : Config.vrtLayout.linkAt + i ≠ Config.vrtLayout.tagAt := by omega
    have : i = 0 ∨ i = 1 ∨ i = 2 ∨ i = 3 ∨ i = 4 ∨ i = 5 ∨ i = 6 ∨ i = 7 ∨ i = 8 ∨ i = 9 ∨ i = 10 ∨ i = 11 ∨ i = 12 ∨
        i = 13 ∨ i = 14 ∨ i = 15 := by omega
    simp only [hne, decide_false, Nat.add_left_cancel_iff, hi, decide_true, Bool.true_and]
    rcases this with rfl | rfl | rfl | rfl | rfl | rfl | rfl | rfl | rfl | rfl | rfl | rfl | rfl | rfl | rfl | rfl <;> simp

/-- Special registers of a VRT at 0x1000 with the least mask; segment numbers 1 for code and data. -/
def vrtRegs : List (Reg × Word) := [(8, 1), (9, 1), (12, 0x1000), (13, 15)]

theorem missing_in_zero_vrt (s : State) (va : Word) (h : s = user 0x100 [] vrtRegs []) (hva : va = 0x100 ∨ va = 0x7FFC) :
    Finds 1 va none s := by
  subst h
  rcases hva with rfl | rfl <;>
    exact finds_none_of_zero _ _ (by decide) (by decide) ⟨by decide, by decide⟩ (by decide)

/-- BR at 0xFFE, its page mapped to real page 5, its displacement in a page that nothing maps. -/
def halfMapped : State :=
  { user 0xFFE [] vrtRegs [(0x5FFE, [0x8B, 0x00])] with codeTmt := [⟨0, 5, false⟩] }

theorem halfMapped_tail (s : State) (h : s.mem = halfMapped.mem ∧ s.codeTmt = halfMapped.codeTmt ∧ s.mode = .user ∧
    s.pc = 0xFFE ∧ s.sr = halfMapped.sr ∧ s.fetch = .empty ∧ s.installed = State.reset.installed) : TailMissing 2 4 s s := by
  obtain ⟨hm, ht, hu, hp, hs, hf, hi⟩ := h
  have hsp (k : Reg) : s.spec k = halfMapped.spec k := by unfold State.spec; rw [hs]
  have hb (a : Nat) : s.bytesAt a 2 = halfMapped.bytesAt a 2 := by unfold State.bytesAt; rw [hm]
  have hk (a n : Nat) (hr : State.reset.backed a n = true) : s.backed a n = true :=
    (State.backed_congr State.reset s _ _ hi).trans hr
  have hv : vrtHead 1 0x1000 s = 0x1010 := by unfold vrtHead; rw [hsp, hsp]; decide
  refine ⟨hu, by decide, by decide, by rw [hp]; decide, by rw [hp]; decide, ⟨[0x8B, 0x00], ⟨by rw [hp]; decide, 5,
    .inl ⟨⟨0, 5, false⟩, by rw [hp]; exact (congrArg (tmtFind · _) ht).trans (by decide), rfl, rfl⟩, ?_⟩, by decide⟩,
    fun k _ => by rw [hf]; rfl, by rw [hp, ht]; decide, ?_⟩
  · rw [hp]; exact shows_of _ _ _ _ ⟨hk _ _ (by decide), hf, by rw [hb]; decide⟩
  · rw [hp, hsp, show (0xFFE : Word) + BitVec.ofNat 32 2 = 0x1000 from rfl]
    refine finds_none_of_zero _ _ (by rw [hsp]; decide) (by rw [hv]; decide) (by rw [hv]; exact ⟨hk _ _ (by decide), hk _ _ (by decide)⟩) ?_
    have hz : s.entryAt 0x1010 = halfMapped.entryAt 0x1010 :=
      State.entryAt_congr _ _ _ fun _ _ => by rw [hm]
    rw [hv]; exact hz.trans (by decide)

theorem test_hypotheses_FetchPageFault :
    (let s := user 0x100 [] vrtRegs []
     Quiet s ∧ s.mode = .user ∧ s.pc.toNat % 2 = 0 ∧ pageOf s.pc = pageOf (s.pc + 5) ∧
      tmtFind s.codeTmt (pageOf s.pc) = none ∧ Finds (s.spec 8) s.pc none s ∧ CanEnter 0x410 s) ∧
    Quiet halfMapped ∧ halfMapped.pc.toNat % 2 = 0 ∧ TailMissing 2 4 halfMapped halfMapped ∧ CanEnter 0x410 halfMapped :=
  ⟨⟨⟨rfl, rfl, rfl⟩, rfl, by decide, by decide, by decide, missing_in_zero_vrt _ _ rfl (.inl rfl), by decide, rfl⟩,
    ⟨rfl, rfl, rfl⟩, by decide, halfMapped_tail _ ⟨rfl, rfl, rfl, rfl, rfl, rfl, rfl⟩, by decide, rfl⟩

theorem test_hypotheses_DataPageFault :
    let s := user 0x100 [] vrtRegs []
    s.mode = .user ∧ CanEnter 0x410 s ∧
      (Segment.code, Instr.loadC 1 2 0x0000, 4, (0x100 : Word)) ∈ loadForms 4 1 2 0 0 s ∧
      (Instr.store 1 2 0x7FFC, 4, (0x7FFC : Word)) ∈ storeForms 4 1 2 0x7FFC 0 s ∧
      tmtFind s.codeTmt (pageOf 0x100) = none ∧ tmtFind s.dataTmt (pageOf 0x7FFC) = none ∧
      Finds (s.spec 8) 0x100 none s ∧ Finds (s.spec 9) 0x7FFC none s :=
  ⟨rfl, ⟨by decide, rfl⟩, by decide, by decide, by decide, by decide, missing_in_zero_vrt _ _ rfl (.inl rfl),
    missing_in_zero_vrt _ _ rfl (.inr rfl)⟩

/-- A user state whose TMT maps the code page 0 and the data page 7 to real page 5. -/
def mapped : State :=
  { user 0x100 [] vrtRegs [(0x5100, [0x03, 0x12])] with
    codeTmt := [⟨0, 5, false⟩], dataTmt := [⟨7, 5, false⟩] }

/-- A state with an entry in memory, segment numbers 0. -/
def withEntry (s : State) (a : Word) (e : Double) : State := s.markEntry a fun _ => e

theorem withEntry_entry (s : State) (a : Word) (e : Double) : (withEntry s a e).entryAt a = e := s.entryAt_markEntry a _

/-- Page 0 of segment 0 is found in the entry that SR12 points at, one at the end of the address space too. -/
theorem found_entry (s : State) (a : Word) (h13 : s.spec 13 = 15) (h12 : s.spec 12 = a) (ha : a.toNat % 4 = 0)
    (hb : s.entryBacked a) : Finds 0 0 (some (a, vvvBits)) (withEntry s a vvvBits) := by
  have hm : vrtMaskValid ((withEntry s a vvvBits).spec 13) = true := by
    rw [withEntry, State.markEntry_spec, h13]; decide
  have hh : vrtHead 0 0 (withEntry s a vvvBits) = a := by
    rw [vrtHead, withEntry, State.markEntry_spec, State.markEntry_spec, h13, h12,
      show ((0 + (pageOf 0).zeroExtend 32) &&& 15) <<< 3 = (0 : Word) by decide]
    exact BitVec.add_zero a
  obtain ⟨f1, f2, -, f4⟩ := vvvBits_fields
  have hv : vrtMatches 0 0 vvvBits = true := by
    rw [vrtMatches_iff]
    exact ⟨by simp [f1], f2⟩
  have h := vrtSearchWith_at 0 0 (withEntry s a vvvBits) vvvBits hm (by rw [hh]; exact ha) (by rw [hh]; exact hb)
    (by rw [hh]; exact (withEntry_entry s a vvvBits).symm)
  rw [if_pos hv, if_pos f4, hh] at h
  exact h

/-- Memory with ADD R1, R2 at 0. -/
def addMemory : Memory := Memory.storeBytes [] 0 [0x03, 0x12]

/-- Page 0 of user mode, which the entry at 0x1000 maps to real page 0, with that instruction. -/
def byEntry : State := withEntry (user 0 [] [(12, 0x1000), (13, 15)] [(0, [0x03, 0x12])]) 0x1000 vvvBits

/-- The state after that entry has served a fetch. -/
def afterEntry : State :=
  ((byEntry.markEntry 0x1000 vrtSetR).setTmt .code
    (tmtLoad byEntry.draws byEntry.codeTmt
      { page := 0, realPage := vrtRealPage vvvBits, modified := vrtM vvvBits })).drawn

/-- The code at 0 is outside that entry. -/
theorem outside_entry (k : Nat) (hk : k < 2) : OutsideEntry 0x1000 k :=
  ⟨.inl (hk.trans (by decide)), .inl (hk.trans (by decide))⟩

theorem byEntry_bytes : CodeBytes 2 [0x03, 0x12] byEntry afterEntry := by
  have h0 : (realAddress (vrtRealPage vvvBits) byEntry.pc).toNat = 0 := by rw [vvvBits_page]; decide
  have hr (k : Nat) (hk : k < 2) : afterEntry.mem.read k = addMemory.read k := by
    have h1 : afterEntry.mem = (byEntry.markEntry 0x1000 vrtSetR).mem := by
      rw [afterEntry, State.drawn_mem, State.setTmt_mem]
    rw [h1, State.read_markEntry_other _ _ _ _ (outside_entry k hk), byEntry, withEntry,
      State.read_markEntry_other _ _ _ _ (outside_entry k hk)]
    rfl
  have hb : afterEntry.bytesAt 0 2 = [afterEntry.mem.read 0, afterEntry.mem.read 1] := rfl
  refine ⟨by decide, .inr (.inl ⟨rfl, by decide, vrtRealPage vvvBits, .inr ⟨0x1000, vvvBits, by decide,
    found_entry (user 0 [] [(12, 0x1000), (13, 15)] [(0, [0x03, 0x12])]) 0x1000 (by decide) (by decide) (by decide)
      ⟨by decide, by decide⟩, rfl, rfl⟩, ?_, ?_, ?_⟩)⟩
  · exact (State.backed_congr State.reset afterEntry _ _ rfl).trans (by rw [h0]; decide)
  · intro k hk
    have hf : afterEntry.fetch = (byEntry.markEntry 0x1000 vrtSetR).fetch := rfl
    rw [h0, Nat.zero_add, hf, State.old_markEntry_other _ _ _ _ (outside_entry k hk), byEntry, withEntry,
      State.old_markEntry_other _ _ _ _ (outside_entry k hk)]
    rfl
  · rw [h0, hb, hr 0 (by decide), hr 1 (by decide)]; decide

/-- One page, by the TMT and by the VRT; two pages by the TMT. -/
theorem test_hypotheses_StepRunsTranslatedInstruction :
    (let s := mapped
     Quiet s ∧ s.mode = .user ∧ s.pc.toNat % 2 = 0 ∧ 2 = (encode (.add 1 2)).length ∧ CodeBytes 2 [0x03, 0x12] s s ∧
      Unmixed 2 s ∧ decode [0x03, 0x12] = .instr (.add 1 2)) ∧
    (Quiet byEntry ∧ byEntry.mode = .user ∧ byEntry.pc.toNat % 2 = 0 ∧ CodeBytes 2 [0x03, 0x12] byEntry afterEntry ∧
      Unmixed 2 byEntry) ∧
    let s := straddling [0xE6, 0x30] [0x00, 0x10]
    Quiet s ∧ s.mode = .user ∧ s.pc.toNat % 2 = 0 ∧ 4 = (encode (.loadC 3 0 0x10)).length ∧
      CodeBytes 4 [0xE6, 0x30, 0x00, 0x10] s s ∧ Unmixed 4 s ∧
      decode [0xE6, 0x30, 0x00, 0x10] = .instr (.loadC 3 0 0x10) := by
  unfold Quiet Alone Unmixed
  exact ⟨⟨by decide, by decide, by decide, by decide, ⟨by decide, .inr (.inl ⟨by decide, by decide, 5,
    .inl ⟨⟨0, 5, false⟩, by decide, rfl, rfl⟩, shows_of _ _ _ _ (by decide)⟩)⟩, by decide, by decide⟩,
    ⟨⟨rfl, rfl, rfl⟩, rfl, by decide, byEntry_bytes, fun _ _ => rfl⟩,
    by decide, by decide, by decide, by decide, straddling_bytes _ _ _ _ _ rfl rfl rfl rfl (by decide) (by decide), by decide,
    by decide⟩

/-- The clauses about fetching at both ends of their distances from the pc; loads and stores in both modes. -/
theorem test_hypotheses_ParityErrors :
    let b (a : Word) : Boundary := { events := [], accept := none, parityFetch := some a, within := [] }
    (6 ≤ ((0xFFFFFFFF : Word) - State.reset.pc).toNat ∧ 6 ≤ ((6 : Word) - State.reset.pc).toNat) ∧
    (let s : State := { start 0xFFFFFFFA [] [] [] [] with world := [b 0xFFFFFFFF] }
     s.world = b 0xFFFFFFFF :: [] ∧ s.pc.toNat % 2 = 0 ∧ s.paused = false ∧ ((0xFFFFFFFF : Word) - s.pc).toNat < 6 ∧
      s.mode = .kernel ∧ s.pc.toNat + 6 ≤ 2 ^ 32 ∧ s.backed s.pc.toNat 6 = true ∧ s.ccbUsable 0x408 = true) ∧
    (let s : State := { mapped with world := [b 0x105] }
     let u : State := { s with world := [], within := [] }
     ((0x105 : Word) - s.pc).toNat < 6 ∧ s.mode = .user ∧ s.pc.toNat + 6 ≤ 2 ^ 32 ∧ pageOf 0x105 = pageOf s.pc ∧
      Maps .code (s.spec 8) s.pc 5 u u ∧ s.backed (realAddress 5 s.pc).toNat ((0x105 : Word) - s.pc).toNat = true) ∧
    (let s : State := { user 0x100 [] vrtRegs [] with world := [b 0x100] }
     ((0x100 : Word) - s.pc).toNat < 6 ∧ s.mode = .user ∧ tmtFind s.codeTmt (pageOf s.pc) = none ∧
      Finds (s.spec 8) s.pc none { s with world := [], within := [] } ∧ s.ccbUsable 0x410 = true) ∧
    (let s : State := { halfMapped with world := [b 0x1000] }
     2 ≤ ((0x1000 : Word) - s.pc).toNat ∧ ((0x1003 : Word) - s.pc).toNat < 6 ∧
      TailMissing 2 4 { s with world := [], within := [] } { s with world := [], within := [] }) ∧
    (let s : State := { State.reset with parityData := true }
     s.mode = .kernel ∧ s.parityData = true ∧ CanEnter 0x40C s ∧
      (Segment.data, Instr.loadb 15 0 0x7FFF, 4, (0x7FFF : Word)) ∈ loadForms 1 15 0 0x7FFF 0 s ∧
      (Segment.code, Instr.loaddCL 15 0 0xFFFFFFF8, 6, (0xFFFFFFF8 : Word)) ∈ loadForms 8 15 0 0 0xFFFFFFF8 s ∧
      (Instr.storedL 15 0 0xFFFFFFF8, 6, (0xFFFFFFF8 : Word)) ∈ storeForms 8 15 0 0 0xFFFFFFF8 s) ∧
    let s : State := { mapped with parityData := true }
    s.mode = .user ∧ s.parityData = true ∧ CanEnter 0x40C s ∧
      (Segment.data, Instr.loadd 1 2 0x7FF8, 4, (0x7FF8 : Word)) ∈ loadForms 8 1 2 0x7FF8 0 s ∧
      (Instr.storeb 1 2 0x7FFF, 4, (0x7FFF : Word)) ∈ storeForms 1 1 2 0x7FFF 0 s ∧
      Maps .data (s.spec 9) 0x7FF8 5 s s ∧ Maps .data (s.spec 9) 0x7FFF 5 s s := by
  unfold CanEnter Alone
  exact ⟨by decide, by decide, ⟨by decide, by decide, by decide, by decide,
    .inl ⟨⟨0, 5, false⟩, by decide, rfl, rfl⟩, by decide⟩, ⟨by decide, by decide, by decide,
    finds_none_of_zero _ _ (by decide) (by decide) ⟨by decide, by decide⟩ (by decide), by decide⟩,
    ⟨by decide, by decide, halfMapped_tail _ ⟨rfl, rfl, rfl, rfl, rfl, rfl, rfl⟩⟩, by decide, by decide, by decide, by decide,
    by decide, by decide, .inl ⟨⟨7, 5, false⟩, by decide, rfl, rfl⟩, .inl ⟨⟨7, 5, false⟩, by decide, rfl, rfl⟩⟩

/-- By the TMT, and for page 0 by the entry at 0x1000. -/
theorem test_hypotheses_AccessThroughTmt :
    (let s := mapped
     (s.mode = .user ∧ s.parityData = false ∧ Alone s ∧ s.pc.toNat + 4 < 2 ^ 32) ∧
      ((Segment.data, Instr.load 1 2 0x7FFC, 4, (0x7FFC : Word)) ∈ loadForms 4 1 2 0x7FFC 0 s ∧
        (Instr.store 1 2 0x7FFC, 4, (0x7FFC : Word)) ∈ storeForms 4 1 2 0x7FFC 0 s) ∧
      0x5FFC = ((5 : Page) ++ (0x7FFC : Word).extractLsb' 0 12 : Word).toNat ∧
        Maps .data (s.spec 9) 0x7FFC 5 s s ∧ s.backed 0x5FFC 4 = true) ∧
    (∃ (s s1 : State) (rp : Page), s.mode = .user ∧ s.parityData = false ∧ Alone s ∧
      (Segment.data, Instr.loadb 1 2 0, 4, (0 : Word)) ∈ loadForms 1 1 2 0 0 s ∧
      (Instr.storeb 1 2 0, 4, (0 : Word)) ∈ storeForms 1 1 2 0 0 s ∧
      tmtFind (s.tmt .data) (pageOf 0) = none ∧ Maps .data (s.spec 9) 0 rp s s1 ∧
      s.backed (rp ++ (0 : Word).extractLsb' 0 12 : Word).toNat 1 = true) ∧
    ∃ (s : State), s.mode = .user ∧ s.mayMark 0 0 true = true ∧
      Finds 0 ((0 : Page) ++ 0#12) (some (0x1000, vvvBits)) s := by
  refine ⟨⟨by unfold Alone; decide, by decide, by decide, .inl ⟨⟨7, 5, false⟩, by decide, rfl, rfl⟩, by decide⟩, ?_, ?_⟩
  · refine ⟨withEntry (user 0 [] [(12, 0x1000), (13, 15)] []) 0x1000 vvvBits, _, vrtRealPage vvvBits, rfl, rfl, rfl, ?_, ?_,
      by decide, .inr ⟨0x1000, vvvBits, by decide,
        found_entry (user 0 [] [(12, 0x1000), (13, 15)] []) 0x1000 (by decide) (by decide) (by decide) ⟨by decide, by decide⟩, rfl, rfl⟩, ?_⟩
    · exact List.mem_append_left _ (List.mem_map_of_mem (List.mem_cons_self ..))
    · exact List.mem_cons_self ..
    · have hi : (withEntry (user 0 [] [(12, 0x1000), (13, 15)] []) 0x1000 vvvBits).installed = State.reset.installed := rfl
      rw [State.backed_congr State.reset _ _ _ hi]
      generalize (vrtRealPage vvvBits ++ (0 : Word).extractLsb' 0 12 : Word) = w
      have := w.isLt
      simp only [State.backed, State.installedAt, State.reset, List.all_eq_true, List.mem_range, List.any_cons,
        List.any_nil, Bool.or_false, Bool.and_eq_true, decide_eq_true_eq]
      intro k hk
      omega
  · exact ⟨withEntry { user 0 [] [(12, 0x1000), (13, 15)] [] with accessed := [⟨0, 0, true⟩] } 0x1000 vvvBits, rfl,
      by decide, found_entry { user 0 [] [(12, 0x1000), (13, 15)] [] with accessed := [⟨0, 0, true⟩] } 0x1000
        (by decide) (by decide) (by decide) ⟨by decide, by decide⟩⟩

/-- 7 is no mask: a mask has at least four ones. -/
theorem mask_7 (s : State) (h : s.spec 13 = 7) : ∀ k, 4 ≤ k → k ≤ 32 → (s.spec 13).toNat ≠ 2 ^ k - 1 := by
  intro k hk _ he
  have := Nat.pow_le_pow_right (show 0 < 2 by decide) hk
  rw [h, show (7 : Word).toNat = 7 from rfl] at he
  omega

theorem test_hypotheses_VrtSearchOrder :
    (∃ s : State, Alone s ∧ (s.spec 13).toNat = 2 ^ 4 - 1 ∧
      (0x1000 : Word) = s.spec 12 + BitVec.ofNat 32 ((((0 : Word).toNat + (0 : Word).toNat / 4096) % 2 ^ 4) * 8) ∧
      s.entryBacked 0x1000 ∧ vrtSeg (s.entryAt 0x1000) = (0 : Word).toNat % 2 ^ Config.vrtLayout.segBits ∧
      vrtTag (s.entryAt 0x1000) = (0 : Word).extractLsb' 16 16 ∧ vrtVvv (s.entryAt 0x1000) = 7) ∧
    (∃ s : State, (s.spec 13).toNat = 2 ^ 32 - 1 ∧
      ¬(vrtSeg (s.entryAt 0x1008) = (1 : Word).toNat % 2 ^ Config.vrtLayout.segBits) ∧
      vrtLink (s.entryAt 0x1008) = 0) ∧
    (∃ s : State, ∀ k, 4 ≤ k → k ≤ 32 → (s.spec 13).toNat ≠ 2 ^ k - 1) ∧
    (∃ s : State, (s.spec 12 + BitVec.ofNat 32 ((((0 : Word).toNat + (0 : Word).toNat / 4096) % 2 ^ 4) * 8)).toNat % 4 ≠ 0) ∧
    (∃ s : State, (s.spec 13).toNat = 2 ^ 13 - 1 ∧
      (0x9000 : Word) = s.spec 12 + BitVec.ofNat 32 ((((0 : Word).toNat + (0x01000000 : Word).toNat / 4096) % 2 ^ 13) * 8) ∧
      ¬(vrtTag (s.entryAt 0x9000) = (0x01000000 : Word).extractLsb' 16 16) ∧ vrtLink (s.entryAt 0x9000) = 0x8000 ∧
      s.spec 12 + (0x8000 : Half).zeroExtend 32 = 0x9000) ∧
    ∃ s : State, ¬(vrtTag (s.entryAt 0x1000) = (0 : Word).extractLsb' 16 16) ∧ vrtLink (s.entryAt 0x1000) = 0x8000 ∧
      (0x9000 : Word) = 0x1000 + (0x8000 : Half).zeroExtend 32 ∧
      vrtSeg (s.entryAt 0x9000) = (0 : Word).toNat % 2 ^ Config.vrtLayout.segBits ∧
      vrtTag (s.entryAt 0x9000) = (0 : Word).extractLsb' 16 16 ∧ vrtVvv (s.entryAt 0x9000) = 7 := by
  refine ⟨⟨withEntry (start 0 [] [] [(12, 0x1000), (13, 15)] []) 0x1000 vvvBits, ?_⟩,
    ⟨start 0 [] [] [(12, 0x1000), (13, 0xFFFFFFFF)] [], ?_⟩, ⟨start 0 [] [] [(13, 7)] [], mask_7 _ (by decide)⟩,
    ⟨start 0 [] [] [(12, 0x1002)] [], by decide⟩,
    ⟨withEntry (start 0 [] [] [(12, 0x1000), (13, 0x1FFF)] []) 0x9000 linkBits, by decide, by decide, ?_⟩,
    ⟨withEntry (withEntry (start 0 [] [] [(12, 0x1000), (13, 15)] []) 0x1000 linkBits) 0x9000 vvvBits, ?_⟩⟩
  · rw [withEntry_entry]
    exact ⟨rfl, by decide, by decide, ⟨by decide, by decide⟩, by simp [vvvBits_fields.1], vvvBits_fields.2.1, vvvBits_fields.2.2.2⟩
  · have h0 : (start 0 [] [] [(12, 0x1000), (13, 0xFFFFFFFF)] []).entryAt 0x1008 = 0 := by decide
    rw [h0]
    have hp : 1 < 2 ^ Config.vrtLayout.segBits := Nat.one_lt_two_pow (by have := segBits_pos; omega)
    refine ⟨by decide, ?_, by simp [vrtLink]⟩
    rw [show (1 : Word).toNat = 1 from rfl, Nat.mod_eq_of_lt hp]
    simp [vrtSeg, vrtField]
  · rw [withEntry_entry, linkBits_fields.1, linkBits_fields.2]; decide
  · have h1 (s : State) : (withEntry s 0x9000 vvvBits).entryAt 0x1000 = s.entryAt 0x1000 := by
      refine State.entryAt_congr _ _ _ fun x hx => State.read_markEntry_other _ _ _ _ ?_
      have e1 : (0x1000 : Word).toNat = 0x1000 := rfl
      have e2 : (0x1000 + 4 : Word).toNat = 0x1004 := rfl
      have e3 : (0x9000 : Word).toNat = 0x9000 := rfl
      have e4 : (0x9000 + 4 : Word).toNat = 0x9004 := rfl
      unfold OutsideEntry OutsideWord at hx ⊢
      omega
    rw [h1, withEntry_entry, withEntry_entry]
    refine ⟨?_, linkBits_fields.2, by decide, by simp [vvvBits_fields.1], vvvBits_fields.2.1, vvvBits_fields.2.2.2⟩
    rw [linkBits_fields.1]; decide

theorem test_hypotheses_TranslationLoadsTmt :
    ∃ s : State, s.mode = .user ∧ Alone s ∧ tmtFind (s.tmt .data) (pageOf 0) = none ∧
      ∃ ea e, Finds (s.segNumber .data) 0 (some (ea, e)) s :=
  ⟨withEntry (user 0 [] [(12, 0x1000), (13, 15)] []) 0x1000 vvvBits, rfl, rfl, by decide, _, _,
    found_entry (user 0 [] [(12, 0x1000), (13, 15)] []) 0x1000 (by decide) (by decide) (by decide) ⟨by decide, by decide⟩⟩

theorem test_hypotheses_TransAndDirt :
    (∃ s : State, s.mode = .kernel ∧ Alone s ∧ s.pc.toNat + 2 < 2 ^ 32 ∧
      ∃ ea e, Finds (s.reg 2) (s.reg (2 + 1)) (some (ea, e)) s) ∧
    (∃ s : State, s.mode = .kernel ∧ Alone s ∧ s.pc.toNat + 2 < 2 ^ 32 ∧
      ∀ k, 4 ≤ k → k ≤ 32 → (s.spec 13).toNat ≠ 2 ^ k - 1) ∧
    ∃ s : State, s.mode = .kernel ∧ Alone s ∧ s.pc.toNat + 2 < 2 ^ 32 ∧ Finds (s.reg 2) (s.reg (2 + 1)) none s :=
  ⟨⟨withEntry (start 0 [] [] [(12, 0xFFFFFFFC), (13, 15)] []) 0xFFFFFFFC vvvBits, rfl, rfl, by decide, _, _,
    found_entry (start 0 [] [] [(12, 0xFFFFFFFC), (13, 15)] []) 0xFFFFFFFC (by decide) (by decide) (by decide)
      ⟨by decide, by decide⟩⟩,
    ⟨start 0 [] [] [(13, 7)] [], rfl, rfl, by decide, mask_7 _ (by decide)⟩, start 0 [] [(2, 1), (3, 0xFFFFF000)] [(12, 0x1000), (13, 15)] [], rfl, rfl, by decide,
    finds_none_of_zero _ _ (by decide) (by decide) ⟨by decide, by decide⟩ (by decide)⟩

/-! ### Kernel instructions -/

theorem test_hypotheses_KernelViolations :
    (user 0 [] [] []).mode = .user ∧ CanEnter 0x414 (user 0 [] [] []) ∧ ¬TrapOn 31 (user 0 [] [] []) := by
  unfold CanEnter Alone TrapOn; decide

/-- All memory is installed after reset, so a PCB at 0x8000 is in it, whatever its layout is. -/
theorem test_hypotheses_SaveUserState :
    let s := start 0xFFFFFFFC [] [] [(14, 0x8000)] []
    s.mode = .kernel ∧ Alone s ∧ s.pc.toNat + 2 < 2 ^ 32 ∧ (s.spec 14).toNat % 4 = 0 ∧
      (∀ o ∈ Config.pcbLayout.offsets, s.backed (pcbAt o s) 4 = true) ∧
      (start 0 [] [] [(14, 1)] []).spec 14 = 1 ∧
      ((start 0 [] [] [(14, 2)] []).spec 14 ≠ 1 ∧ ((start 0 [] [] [(14, 2)] []).spec 14).toNat % 4 ≠ 0) := by
  refine ⟨rfl, rfl, by decide, by decide, fun o ho => ?_, by decide, by decide⟩
  have h4 := pcbOffset_aligned o ho
  have h14 : (start 0xFFFFFFFC [] [] [(14, 0x8000)] []).spec 14 = 0x8000 := by decide
  have h8 : (0x8000 : Word).toNat = 0x8000 := rfl
  simp only [State.backed, List.all_eq_true, List.mem_range]
  intro k hk
  have hlt : pcbAt o (start 0xFFFFFFFC [] [] [(14, 0x8000)] []) + k < 2 ^ 32 := by
    rw [pcbAt, h14, BitVec.toNat_add, h8]; omega
  have hi : (start 0xFFFFFFFC [] [] [(14, 0x8000)] []).installed = [{ base := 0, size := 2 ^ 32 }] := rfl
  rw [State.installedAt, hi]
  simp only [List.any_cons, List.any_nil, Bool.or_false, Bool.and_eq_true, decide_eq_true_eq]
  omega

theorem test_hypotheses_LoadUserState :
    let s := start 0xFFFFFFFC [] [] [(14, 0x8000)] []
    s.mode = .kernel ∧ Alone s ∧ s.pc.toNat + 2 < 2 ^ 32 ∧ (s.spec 14).toNat % 4 = 0 ∧
      ∀ o ∈ Config.pcbLayout.offsets, s.backed (pcbAt o s) 4 = true :=
  ⟨rfl, rfl, by decide, by decide, test_hypotheses_SaveUserState.2.2.2.2.1⟩

theorem test_hypotheses_ResumeAndSpecialMoves :
    let s := start 0xFFFFFFFC [] [] [(14, 1), (15, 0xFFFFFFFE)] []
    s.mode = .kernel ∧ s.spec 14 = 1 ∧ s.pc.toNat + 2 < 2 ^ 32 ∧ State.reset.spec 14 ≠ 1 ∧ State.reset.mode = .kernel := by
  decide

theorem test_hypotheses_MaintenanceInstructions :
    let s := user 0xFFFFFFFC [] [(10, 1)] []
    s.mode = .user ∧ TrapOn 31 s ∧ s.pc.toNat + 2 < 2 ^ 32 ∧ State.reset.mode = .kernel := by
  unfold TrapOn; decide

theorem test_hypotheses_DeviceInstructions :
    let s := user 0xFFFFFFFC [] [(10, 1)] []
    TrapOn 31 s ∧ s.pc.toNat + 2 < 2 ^ 32 ∧ State.reset.mode = .kernel ∧ State.reset.pending.external = [] ∧
      { Pending.none with external := [0x03000010] }.external ≠ [] := by
  unfold TrapOn; decide

end Sys2Proof.Tests
end

section
/-! SUPPORT. What the entry of an exception leaves, in the terms of statements (`Entered`), and what it takes to make one. -/

namespace Sys2Proof.Machine

/-! ### The registers an entry saves -/

/-- One of SR1 to SR3 set, from the table or freely, is a change of the special registers and of the draws. -/
theorem State.setInfo_frame (s : State) (k : Reg) (v : Option Word) :
    s.setInfo k v = { s with sr := (s.setInfo k v).sr, draws := (s.setInfo k v).draws } := by
  cases v <;> rfl

theorem State.saveReturn_frame (s : State) (ret : Word) : s.saveReturn ret = { s with sr := (s.saveReturn ret).sr } := by
  unfold State.saveReturn
  split <;> rfl

theorem State.saveReturn_user {s : State} (h : s.mode = .user) (ret : Word) :
    s.saveReturn ret = (s.setSpec 15 ret).setSpec 0 1 := by
  simp [State.saveReturn, h]

theorem State.saveReturn_kernel {s : State} (h : s.mode = .kernel) (ret : Word) : s.saveReturn ret = s.setSpec 0 ret := by
  simp [State.saveReturn, h]

/-- A return address goes to SR0 and SR15 only (R510). -/
theorem State.spec_saveReturn_other (s : State) (ret : Word) (k : Reg) (h0 : k ≠ 0) (h15 : k ≠ 15) :
    (s.saveReturn ret).spec k = s.spec k := by
  cases hm : s.mode with
  | user => rw [s.saveReturn_user hm, State.spec_setSpec_other _ _ _ _ h0, State.spec_setSpec_other _ _ _ _ h15]
  | kernel => rw [s.saveReturn_kernel hm, State.spec_setSpec_other _ _ _ _ h0]

/-- The special registers of an exception entry (R510, R521), before the mode and the pc change. -/
def State.entryRegs (s : State) (e : Exception) (ret : Word) : State :=
  (((s.saveReturn ret).setInfo 1 e.info1).setInfo 2 e.info2).setInfo 3 e.info3

theorem State.entryRegs_frame (s : State) (e : Exception) (ret : Word) :
    s.entryRegs e ret = { s with sr := (s.entryRegs e ret).sr, draws := (s.entryRegs e ret).draws } := by
  unfold State.entryRegs
  rw [State.setInfo_frame, State.setInfo_frame, State.setInfo_frame, State.saveReturn_frame]

@[simp] theorem State.entryRegs_reg (s : State) (e : Exception) (ret : Word) (r : Reg) :
    (s.entryRegs e ret).reg r = s.reg r := by
  simp [State.entryRegs]

@[simp] theorem State.entryRegs_mem (s : State) (e : Exception) (ret : Word) : (s.entryRegs e ret).mem = s.mem := by
  simp [State.entryRegs]

theorem State.spec_entryRegs_other (s : State) (e : Exception) (ret : Word) (k : Reg) (h1 : k ≠ 1) (h2 : k ≠ 2)
    (h3 : k ≠ 3) : (s.entryRegs e ret).spec k = (s.saveReturn ret).spec k := by
  rw [State.entryRegs, State.spec_setInfo _ _ _ _ h3, State.spec_setInfo _ _ _ _ h2, State.spec_setInfo _ _ _ _ h1]

theorem State.spec_entryRegs_one {s : State} {e : Exception} {ret v : Word} (h : e.info1 = some v) :
    (s.entryRegs e ret).spec 1 = v := by
  rw [State.entryRegs, State.spec_setInfo _ _ _ _ (by decide), State.spec_setInfo _ _ _ _ (by decide), h,
    State.spec_setInfo_some]

theorem State.spec_entryRegs_two {s : State} {e : Exception} {ret v : Word} (h : e.info2 = some v) :
    (s.entryRegs e ret).spec 2 = v := by
  rw [State.entryRegs, State.spec_setInfo _ _ _ _ (by decide), h, State.spec_setInfo_some]

theorem State.spec_entryRegs_three {s : State} {e : Exception} {ret v : Word} (h : e.info3 = some v) :
    (s.entryRegs e ret).spec 3 = v := by
  rw [State.entryRegs, h, State.spec_setInfo_some]

/-! ### Entries -/

theorem State.ccbWord_eq (s : State) (off : Nat) :
    s.ccbWord off = s.wordAt (s.spec 11 + BitVec.ofNat 32 off).toNat := by
  rw [State.ccbWord, State.ccbAddress, s.load_word, BitVec.ofNat_toNat, BitVec.setWidth_eq]

/-- Kernel mode, not pausing, at the address of a handler. -/
def State.atHandler (s : State) (handler : Word) : State := { s with mode := .kernel, paused := false, pc := handler }

@[simp] theorem State.atHandler_spec (s : State) (h : Word) (k : Reg) : (s.atHandler h).spec k = s.spec k := rfl

theorem enterException_eq_atHandler {e : Exception} {s : State} (ret : Word) (h : s.ccbUsable e.ccbOffset = true) :
    enterException e ret s = .next ((s.entryRegs e ret).atHandler (s.ccbWord e.ccbOffset)) :=
  enterException_of_usable e ret s h

/-- An entry changes the special registers, the draws, the mode, the pause and the pc (R510, R511). -/
theorem State.atHandler_entryRegs_frame (s : State) (e : Exception) (ret handler : Word) :
    (s.entryRegs e ret).atHandler handler =
      { s with
        pc := handler, sr := (s.entryRegs e ret).sr, mode := .kernel, paused := false,
        draws := (s.entryRegs e ret).draws } :=
  congrArg (fun u : State => u.atHandler handler) (s.entryRegs_frame e ret)

/-- The state at the handler is what statements say of an entry (R510, R511, R521). -/
theorem State.entered_atHandler (s : State) (e : Exception) (ret handler : Word)
    (hh : handler = s.wordAt (s.spec 11 + BitVec.ofNat 32 e.ccbOffset).toNat) :
    Entered e ret s ((s.entryRegs e ret).atHandler handler) := by
  refine ⟨rfl, rfl, hh, fun hm => ⟨?_, ?_⟩, fun hm => ⟨?_, ?_⟩,
    fun v hv => State.spec_entryRegs_one hv, fun v hv => State.spec_entryRegs_two hv,
    fun v hv => State.spec_entryRegs_three hv, fun k h4 h14 => ?_, s.entryRegs_reg e ret,
    fun a => congrArg (Memory.read · a) (s.entryRegs_mem e ret), s.atHandler_entryRegs_frame e ret handler⟩
  · simp [State.spec_entryRegs_other, State.saveReturn_user hm, State.spec_setSpec]
  · simp [State.spec_entryRegs_other, State.saveReturn_user hm]
  · simp [State.spec_entryRegs_other, State.saveReturn_kernel hm]
  · simp [State.spec_entryRegs_other, State.saveReturn_kernel hm, State.spec_setSpec]
  · have ne : ∀ j : Reg, j.toNat < 4 ∨ 14 < j.toNat → k ≠ j := by
      rintro j hj rfl
      omega
    rw [State.atHandler_spec, s.spec_entryRegs_other e ret k (ne 1 (by decide)) (ne 2 (by decide)) (ne 3 (by decide)),
      s.spec_saveReturn_other ret k (ne 0 (by decide)) (ne 15 (by decide))]

/-- An exception with a usable CCB is entered. -/
theorem enterException_entered {e : Exception} {s : State} (ret : Word) (h : s.ccbUsable e.ccbOffset = true) :
    ∃ t, enterException e ret s = .next t ∧ Entered e ret s t :=
  ⟨_, enterException_eq_atHandler ret h, s.entered_atHandler e ret _ (s.ccbWord_eq _)⟩

/-- After what other agents do, an exception is entered from the state they leave. -/
theorem takeException_entered {e : Exception} {s s0 : State} (ret : Word) (hb : s.between = .ok () s0)
    (h : s0.ccbUsable e.ccbOffset = true) : ∃ t, takeException e ret s = .next t ∧ Entered e ret s0 t := by
  rw [takeException_of_between e ret s s0 hb]
  exact enterException_entered ret h

/-- A trap is entered from the state that raises it, with the instruction's own address saved (R506). -/
theorem raise_entered {e : Exception} {s : State} (h : CanEnter e.ccbOffset s) :
    ∃ t, raise e s = .next t ∧ Entered e s.pc s t :=
  takeException_entered s.pc (between_alone h.2) h.1

theorem raise_entered_at {e : Exception} {s : State} {pc : Word} (hpc : s.pc = pc) (h : CanEnter e.ccbOffset s) :
    ∃ t, raise e s = .next t ∧ Entered e pc s t := by
  subst hpc
  exact raise_entered h

/-- An entry says nothing of how many free values were drawn before it. -/
theorem entered_drawn_iff {e : Exception} {ret : Word} {s t : State} : Entered e ret s.drawn t ↔ Entered e ret s t :=
  Iff.rfl

theorem Entered.spec_three {e : Exception} {ret v : Word} {s t : State} (h : Entered e ret s t) (hv : e.info3 = some v) :
    t.spec 3 = v := by
  obtain ⟨-, -, -, -, -, -, -, h3, -⟩ := h
  exact h3 v hv

theorem Entered.spec_fifteen {e : Exception} {ret : Word} {s t : State} (h : Entered e ret s t) (hm : s.mode = .user) :
    t.spec 15 = ret := by
  obtain ⟨-, -, -, hu, -⟩ := h
  exact (hu hm).1

/-! ### What an entry needs -/

/-- Whether an entry can be made depends on the special registers, the installed memory and a waiting error only. -/
theorem State.ccbUsable_congr {s t : State} (off : Nat) (hs : t.sr = s.sr) (hi : t.installed = s.installed)
    (hp : t.parityEntry = s.parityEntry) : t.ccbUsable off = s.ccbUsable off := by
  have hk : ∀ k, t.spec k = s.spec k := fun k => by rw [State.spec, State.spec, hs]
  unfold State.ccbUsable State.ccbPlaced State.ccbAddress
  rw [hk, hp, State.installedAt_congr s t _ hi, State.backed_congr s t _ _ hi]

end Sys2Proof.Machine
end

section
/-! SUPPORT. Loads and stores in all their forms, and how a waiting parity error ends them (R206, R526). -/

namespace Sys2Proof.Machine

/-! ### The forms -/

/-- A load of `n` bytes: one register for up to four, a pair for eight (R210 to R213). -/
def loadOf (seg : Segment) (n : Nat) (r : Reg) (ea : Word) (len : Nat) (s : State) : Outcome :=
  if n = 8 then loadPairTo seg r ea len s else loadTo seg n r ea len s

/-- Every load is the load of its segment, size, register, effective address and length. -/
theorem exec_loadForms {n : Nat} (hn : n ∈ [1, 2, 4, 8]) {r rx : Reg} {d : Half} {w : Word} {s : State}
    {f : Segment × Instr × Nat × Word} (hf : f ∈ loadForms n r rx d w s) :
    exec f.2.1 s = loadOf f.1 n r f.2.2.2 f.2.2.1 s := by
  have eight : ∀ x1 x2 x3 x4 x5 x6 x7 x8 : Segment × Instr × Nat × Word, f ∈ [x1, x2, x3, x4, x5, x6, x7, x8] →
      f = x1 ∨ f = x2 ∨ f = x3 ∨ f = x4 ∨ f = x5 ∨ f = x6 ∨ f = x7 ∨ f = x8 := by simp
  simp only [List.mem_cons, List.not_mem_nil, or_false] at hn
  rcases hn with rfl | rfl | rfl | rfl <;>
    rcases eight _ _ _ _ _ _ _ _ hf with rfl | rfl | rfl | rfl | rfl | rfl | rfl | rfl <;> rfl

theorem storedValue_eight (r : Reg) (s : State) : storedValue 8 r s = (s.pair r).toNat := by
  rw [storedValue, if_pos rfl, State.pair, toNat_append']

/-- Every store is the store of its size, value, effective address and length. -/
theorem exec_storeForms {n : Nat} (hn : n ∈ [1, 2, 4, 8]) {r rx : Reg} {d : Half} {w : Word} {s : State}
    {f : Instr × Nat × Word} (hf : f ∈ storeForms n r rx d w s) :
    exec f.1 s = storeFrom n (storedValue n r s) f.2.2 f.2.1 s := by
  have four : ∀ x1 x2 x3 x4 : Instr × Nat × Word, f ∈ [x1, x2, x3, x4] →
      f = x1 ∨ f = x2 ∨ f = x3 ∨ f = x4 := by simp
  simp only [List.mem_cons, List.not_mem_nil, or_false] at hn
  rcases hn with rfl | rfl | rfl | rfl
  case inr.inr.inr =>
    rw [storedValue_eight]
    rcases four _ _ _ _ hf with rfl | rfl | rfl | rfl <;> rfl
  all_goals rcases four _ _ _ _ hf with rfl | rfl | rfl | rfl <;> rfl

/-! ### A waiting parity error -/

theorem memRead_parity {seg : Segment} {va ra : Word} {n : Nat} {s s1 : State} (ha : va.toNat % n = 0)
    (hr : resolve seg va false s = .ok ra s1) (hp : s1.parityData = true) :
    memRead seg va n s = .trap (.parityExecute va) { s1 with parityData := false } := by
  simp [memRead, ha, hr, hp]

theorem memWrite_parity {va ra : Word} {n v : Nat} {s s1 : State} (ha : va.toNat % n = 0)
    (hr : resolve .data va true s = .ok ra s1) (hp : s1.parityData = true) :
    memWrite va n v s = .trap (.parityExecute va) { s1 with parityData := false } := by
  simp [memWrite, ha, hr, hp]

/-- What a load that meets a parity error leaves in its destination: any value (R526). -/
def State.scrambleLoaded (s : State) (n : Nat) (r : Reg) : State := if n = 8 then s.scramblePair r else s.scrambleReg r

theorem State.scrambleLoaded_only (s : State) (n : Nat) (r : Reg) :
    OnlyRegsDrawing (loadedRegs n r) s (s.scrambleLoaded n r) := by
  unfold State.scrambleLoaded loadedRegs
  split
  · refine ⟨fun k hk => ?_, fun _ => rfl, fun _ => rfl, rfl⟩
    simp only [List.mem_cons, List.not_mem_nil, or_false, not_or] at hk
    exact (State.reg_setReg_other _ _ _ _ hk.2).trans (State.reg_setReg_other _ _ _ _ hk.1)
  · refine ⟨fun k hk => ?_, fun _ => rfl, fun _ => rfl, rfl⟩
    rw [List.mem_singleton] at hk
    exact State.reg_setReg_other _ _ _ _ hk

/-- An entry does not depend on the registers. -/
theorem canEnter_scrambleLoaded {off : Nat} {s : State} (n : Nat) (r : Reg) (h : CanEnter off s) :
    CanEnter off (s.scrambleLoaded n r) := by
  unfold State.scrambleLoaded
  split <;> exact h

@[simp] theorem State.scrambleLoaded_pc (s : State) (n : Nat) (r : Reg) : (s.scrambleLoaded n r).pc = s.pc := by
  unfold State.scrambleLoaded
  split <;> rfl

@[simp] theorem State.scrambleLoaded_mode (s : State) (n : Nat) (r : Reg) : (s.scrambleLoaded n r).mode = s.mode := by
  unfold State.scrambleLoaded
  split <;> rfl

theorem loadOf_parity {seg : Segment} {n len : Nat} {r : Reg} {ea ra : Word} {s s1 : State} (ha : ea.toNat % n = 0)
    (hr : resolve seg ea false s = .ok ra s1) (hp : s1.parityData = true) :
    loadOf seg n r ea len s = raise (.parityExecute ea) (State.scrambleLoaded { s1 with parityData := false } n r) := by
  unfold loadOf State.scrambleLoaded
  split
  · subst n
    simp only [loadPairTo, memRead_parity ha hr hp, abortLoad]
  · simp only [loadTo, memRead_parity ha hr hp, abortLoad]

/-- A load in any form that meets a parity error enters the kernel, its destination any value (R206, R526). -/
theorem loadForms_parity {n : Nat} (hn : n ∈ [1, 2, 4, 8]) {r rx : Reg} {d : Half} {w : Word} {s s1 : State}
    {f : Segment × Instr × Nat × Word} (hf : f ∈ loadForms n r rx d w s) (ha : f.2.2.2.toNat % n = 0) {ra : Word}
    (hr : resolve f.1 f.2.2.2 false s = .ok ra s1) (hp : s1.parityData = true) (hc : CanEnter 0x40C s1) (hpc : s1.pc = s.pc) :
    ∃ s2 t, OnlyRegsDrawing (loadedRegs n r) { s1 with parityData := false } s2 ∧ s2.mode = s1.mode ∧
      exec f.2.1 s = .next t ∧ Entered (.parityExecute f.2.2.2) s.pc s2 t := by
  obtain ⟨t, ht, he⟩ := raise_entered_at (e := .parityExecute f.2.2.2) (pc := s.pc)
    (s := State.scrambleLoaded { s1 with parityData := false } n r) ((State.scrambleLoaded_pc _ n r).trans hpc)
    (canEnter_scrambleLoaded n r hc)
  exact ⟨_, t, State.scrambleLoaded_only _ n r, State.scrambleLoaded_mode _ n r,
    (exec_loadForms hn hf).trans ((loadOf_parity ha hr hp).trans ht), he⟩

/-- A store in any form that meets a parity error enters the kernel and stores nothing (R10, R206). -/
theorem storeForms_parity {n : Nat} (hn : n ∈ [1, 2, 4, 8]) {r rx : Reg} {d : Half} {w : Word} {s s1 : State}
    {f : Instr × Nat × Word} (hf : f ∈ storeForms n r rx d w s) (ha : f.2.2.toNat % n = 0) {ra : Word}
    (hr : resolve .data f.2.2 true s = .ok ra s1) (hp : s1.parityData = true) (hc : CanEnter 0x40C s1) (hpc : s1.pc = s.pc) :
    ∃ t, exec f.1 s = .next t ∧ Entered (.parityExecute f.2.2) s.pc { s1 with parityData := false } t := by
  rw [exec_storeForms hn hf, storeFrom, memWrite_parity ha hr hp, Access.trap_finish]
  exact raise_entered_at (e := .parityExecute f.2.2) (s := { s1 with parityData := false }) hpc hc

/-! ### What a translation leaves -/

theorem Maps.pc {seg : Segment} {segment va : Word} {rp : Page} {s s1 : State} (h : Maps seg segment va rp s s1) :
    s1.pc = s.pc := by rw [h.frame]

theorem Maps.mode {seg : Segment} {segment va : Word} {rp : Page} {s s1 : State} (h : Maps seg segment va rp s s1) :
    s1.mode = s.mode := by rw [h.frame]

theorem Maps.sr {seg : Segment} {segment va : Word} {rp : Page} {s s1 : State} (h : Maps seg segment va rp s s1) :
    s1.sr = s.sr := by rw [h.frame]

theorem Maps.installed {seg : Segment} {segment va : Word} {rp : Page} {s s1 : State}
    (h : Maps seg segment va rp s s1) : s1.installed = s.installed := by rw [h.frame]

theorem Maps.accessed {seg : Segment} {segment va : Word} {rp : Page} {s s1 : State}
    (h : Maps seg segment va rp s s1) : s1.accessed = s.accessed := by rw [h.frame]

theorem Maps.parityData {seg : Segment} {segment va : Word} {rp : Page} {s s1 : State}
    (h : Maps seg segment va rp s s1) : s1.parityData = s.parityData := by rw [h.frame]

theorem Maps.parityEntry {seg : Segment} {segment va : Word} {rp : Page} {s s1 : State}
    (h : Maps seg segment va rp s s1) : s1.parityEntry = s.parityEntry := by rw [h.frame]

theorem Maps.alone {seg : Segment} {segment va : Word} {rp : Page} {s s1 : State} (h : Maps seg segment va rp s s1)
    (ha : Alone s) : Alone s1 := by rw [h.frame]; exact ha

theorem Maps.canEnter {seg : Segment} {segment va : Word} {rp : Page} {s s1 : State} (h : Maps seg segment va rp s s1)
    {off : Nat} (hc : CanEnter off s) : CanEnter off s1 :=
  ⟨(State.ccbUsable_congr off h.sr h.installed h.parityEntry).trans hc.1, h.alone hc.2⟩

/-- The segment numbers by name (R91). -/
theorem State.segNumber_eq (s : State) (seg : Segment) :
    s.segNumber seg = if seg = .code then s.spec 8 else s.spec 9 := by
  cases seg <;> rfl

end Sys2Proof.Machine
end

section
/-! SUPPORT. Pages and real addresses, translation before and after a first one, and the fetch of one halfword. -/

namespace Sys2Proof.Machine

/-! ### Pages -/

theorem toNat_pageOf (va : Word) : (pageOf va).toNat = va.toNat / 4096 := by
  have := va.isLt
  rw [pageOf, BitVec.extractLsb'_toNat, Nat.shiftRight_eq_div_pow]
  omega

theorem pageOf_eq_iff (a b : Word) : pageOf a = pageOf b ↔ a.toNat / 4096 = b.toNat / 4096 := by
  rw [← toNat_pageOf, ← toNat_pageOf, BitVec.toNat_inj]

theorem toNat_realAddress (p : Page) (va : Word) : (realAddress p va).toNat = p.toNat * 4096 + va.toNat % 4096 := by
  rw [realAddress, toNat_append', BitVec.extractLsb'_toNat, Nat.shiftRight_zero]
  norm_num

/-- An address some bytes on, where the sum does not wrap. -/
theorem toNat_add_ofNat {va : Word} {k : Nat} (h : va.toNat + k < 2 ^ 32) :
    (va + BitVec.ofNat 32 k).toNat = va.toNat + k := by
  rw [BitVec.toNat_add, BitVec.toNat_ofNat]
  omega

/-- What lies between two addresses of a page lies in it. -/
theorem pageOf_add_of_le {va : Word} {k n : Nat} (hn : va.toNat + n < 2 ^ 32)
    (h : pageOf (va + BitVec.ofNat 32 n) = pageOf va) (hk : k ≤ n) : pageOf (va + BitVec.ofNat 32 k) = pageOf va := by
  rw [pageOf_eq_iff, toNat_add_ofNat hn] at h
  rw [pageOf_eq_iff, toNat_add_ofNat (by omega)]
  omega

/-- Within a page real addresses follow each other as virtual ones do (R119). -/
theorem toNat_realAddress_add {va : Word} {k : Nat} (rp : Page) (hk : va.toNat + k < 2 ^ 32)
    (h : pageOf (va + BitVec.ofNat 32 k) = pageOf va) :
    (realAddress rp (va + BitVec.ofNat 32 k)).toNat = (realAddress rp va).toNat + k := by
  rw [pageOf_eq_iff, toNat_add_ofNat hk] at h
  rw [toNat_realAddress, toNat_realAddress, toNat_add_ofNat hk]
  omega

/-! ### Translation -/

/-- A search of memory as it stands depends on the memory and the special registers only. -/
theorem vrtChain_noPause_congr {segment va : Word} {fuel : Nat} {a : Word} {r : Option (Word × Double)}
    {s s' t : State} (hm : t.mem = s.mem) (hi : t.installed = s.installed) (hs : t.sr = s.sr)
    (he : vrtChain noPause segment va fuel a s = .ok r s') : vrtChain noPause segment va fuel a t = .ok r t := by
  induction fuel generalizing a with
  | zero => cases he
  | succ fuel ih =>
    by_cases ha : a.toNat % 4 = 0
    case neg => simp [vrtChain, ha] at he
    have hb : s.entryBacked a := by
      simp only [vrtChain, ha, ne_eq, not_true_eq_false, if_false, Access.bind_eq_ok] at he
      obtain ⟨v, s1, h1, -⟩ := he
      exact readEntry_backed noPause_installed h1
    have hbt : t.entryBacked a := (State.entryBacked_congr s t a hi).mpr hb
    have het : t.entryAt a = s.entryAt a := State.entryAt_congr s t a fun x _ => by rw [hm]
    rw [vrtChain_at segment va a fuel s _ ha hb rfl] at he
    rw [vrtChain_at segment va a fuel t _ ha hbt rfl, het, State.spec, hs, ← State.spec]
    by_cases hv : vrtMatches segment va (s.entryAt a) = true
    · rw [if_pos hv] at he ⊢
      split at he
      · rw [if_pos ‹_›]; cases he; rfl
      · cases he
    · rw [if_neg hv] at he ⊢
      split at he
      · rw [if_pos ‹_›]; cases he; rfl
      · rw [if_neg ‹_›]; exact ih he

theorem Finds.congr {segment va : Word} {found : Option (Word × Double)} {s t : State}
    (h : Finds segment va found s) (hm : t.mem = s.mem) (hi : t.installed = s.installed) (hs : t.sr = s.sr) :
    Finds segment va found t := by
  have hk : ∀ k, t.spec k = s.spec k := fun k => by rw [State.spec, State.spec, hs]
  unfold Finds vrtSearchWith vrtHead at *
  rw [hk, hk]
  split at h
  · rw [if_pos ‹_›]
    exact vrtChain_noPause_congr hm hi hs h
  · cases h

@[simp] theorem State.tmt_dropAhead (s : State) (seg : Segment) : s.dropAhead.tmt seg = s.tmt seg := by
  cases seg
  · exact s.dropAhead_codeTmt
  · exact s.dropAhead_dataTmt

/-- The fetch-ahead buffer can be dropped before or after a translation by the VRT. -/
theorem State.dropAhead_markEntry_setTmt (s : State) (ea : Word) (u : Double → Double) (seg : Segment)
    (l : List TmtEntry) :
    ((s.markEntry ea u).setTmt seg l).drawn.dropAhead = ((s.dropAhead.markEntry ea u).setTmt seg l).drawn := by
  by_cases h : s.fetch.aheadPc = s.pc
  · rw [show s.dropAhead = s from if_pos h]
    cases seg <;> exact if_pos h
  · rw [show s.dropAhead = _ from if_neg h]
    cases seg <;> exact if_neg h

/-- A translation is the same after the fetch-ahead buffer was dropped. -/
theorem Maps.dropAhead {seg : Segment} {segment va : Word} {rp : Page} {s s1 : State}
    (h : Maps seg segment va rp s s1) : Maps seg segment va rp s.dropAhead s1.dropAhead := by
  rcases h with ⟨entry, h1, hr, rfl⟩ | ⟨ea, e, h1, h2, hr, rfl⟩
  · exact .inl ⟨entry, by rw [State.tmt_dropAhead, h1], hr, rfl⟩
  · refine .inr ⟨ea, e, by rw [State.tmt_dropAhead, h1],
      h2.congr s.dropAhead_mem s.dropAhead_installed s.dropAhead_sr, hr, ?_⟩
    rw [State.dropAhead_markEntry_setTmt, State.tmt_dropAhead, State.dropAhead_draws]

/-- A page that was translated is in the TMT. -/
theorem Maps.inTmt {seg : Segment} {segment va : Word} {rp : Page} {s s1 : State} (h : Maps seg segment va rp s s1) :
    ∃ entry, tmtFind (s1.tmt seg) (pageOf va) = some entry ∧ rp = entry.realPage := by
  rcases h with ⟨entry, h1, hr, rfl⟩ | ⟨ea, e, -, -, -, rfl⟩
  · exact ⟨entry, h1, hr⟩
  · refine ⟨{ page := pageOf va, realPage := rp, modified := vrtM e }, ?_, rfl⟩
    rw [show State.tmt (State.drawn _) seg = _ from State.tmt_setTmt_same _ seg _]
    exact tmtFind_tmtLoad _ _ _

/-- Every address of a page that was translated is translated again, to the same real page; only the note changes. -/
theorem Maps.resolve_again {seg : Segment} {segment va va' : Word} {rp : Page} {s s1 t : State} {w : Bool}
    (h : Maps seg segment va rp s s1) (hp : pageOf va' = pageOf va) (ht : t.tmt seg = s1.tmt seg)
    (hm : t.mode = .user) (ha : Alone t) :
    resolve seg va' w t = .ok (realAddress rp va') (t.recordAccess (t.segNumber seg) (pageOf va') w) := by
  obtain ⟨entry, he, hr⟩ := h.inTmt
  exact resolve_maps seg va' w t t rp hm ha (.inl ⟨entry, by rw [ht, hp, he], hr, rfl⟩)

/-- The first translation of a fetch, after the fetch-ahead buffer was dropped. -/
theorem Maps.resolve_dropAhead {va : Word} {rp : Page} {s s1 : State} {w : Bool} (h : Maps .code (s.spec 8) va rp s s1)
    (hm : s.mode = .user) (ha : Alone s) :
    resolve .code va w s.dropAhead =
      .ok (realAddress rp va) (s1.dropAhead.recordAccess (s.spec 8) (pageOf va) w) := by
  have hs : s.dropAhead.segNumber .code = s.spec 8 := s.dropAhead_spec 8
  have hs1 : s1.dropAhead.segNumber .code = s.spec 8 :=
    (s1.dropAhead_spec 8).trans (congrArg (fun v : Vector Word 16 => v[8]) h.sr)
  have hr := resolve_maps .code va w s.dropAhead s1.dropAhead rp (s.dropAhead_mode.trans hm)
    (s.dropAhead_within.trans ha) (hs.symm ▸ h.dropAhead)
  rwa [hs1] at hr

/-- An access to a page that neither the TMT nor the VRT maps. -/
theorem resolve_missing {seg : Segment} {va : Word} {w : Bool} {s : State} (hm : s.mode = .user) (ha : Alone s)
    (h : tmtFind (s.tmt seg) (pageOf va) = none) (hf : Finds (s.segNumber seg) va none s) :
    resolve seg va w s = .trap (.pageFault (s.segNumber seg) va) s := by
  simp [resolve, hm, translate, lookupPage_missing seg va s ha h hf]

/-! ### One byte, one pair, one halfword -/

/-- The state with another count of draws. -/
def State.withDraws (s : State) (d : Nat) : State := { s with draws := d }

/-- A byte fetched from memory that is there: some byte, and no more than a free value drawn. -/
theorem fetchByte_of_installed {a : Nat} {s : State} (m : Bool) (h : s.installedAt a = true) :
    ∃ b d, fetchByte m a s = .ok b (s.withDraws d) := by
  unfold fetchByte
  rw [if_pos h]
  split
  · exact ⟨_, _, rfl⟩
  · split
    · exact ⟨_, s.draws, rfl⟩
    · exact ⟨_, _, rfl⟩

theorem State.installedAt_pair {s : State} {a : Nat} (h : s.backed a 2 = true) :
    s.installedAt a = true ∧ s.installedAt (a + 1) = true :=
  ⟨s.installedAt_of_backed a 2 0 h (by omega), s.installedAt_of_backed a 2 1 h (by omega)⟩

theorem fetchPair_of_backed {ra : Word} {s : State} (va : Word) (h : s.backed ra.toNat 2 = true) :
    ∃ p d, fetchPair va ra s = .ok p (s.withDraws d) := by
  obtain ⟨i0, i1⟩ := s.installedAt_pair h
  obtain ⟨b0, d0, h0⟩ := fetchByte_of_installed (s.fetch.mixed s.space va) i0
  obtain ⟨b1, d1, h1⟩ := fetchByte_of_installed (s := s.withDraws d0) (s.fetch.mixed s.space (va + 1)) i1
  refine ⟨(b0, b1), d1, ?_⟩
  rw [fetchPair, h0, Access.ok_bind]
  exact congrArg (Access.bind · _) h1

/-- A byte that nothing old or foreign can stand for is the byte in memory. -/
theorem fetchByte_fresh {a : Nat} {s : State} (h : s.installedAt a = true) (ho : s.fetch.old a = []) :
    fetchByte false a s = .ok (s.mem.read a) s := by
  simp [fetchByte, h, ho]

theorem fetchPair_fresh {va ra : Word} {s : State} (h : s.backed ra.toNat 2 = true)
    (h0 : s.fetch.old ra.toNat = []) (h1 : s.fetch.old (ra.toNat + 1) = [])
    (m0 : s.fetch.mixed s.space va = false) (m1 : s.fetch.mixed s.space (va + 1) = false) :
    fetchPair va ra s = .ok (s.mem.read ra.toNat, s.mem.read (ra.toNat + 1)) s := by
  obtain ⟨i0, i1⟩ := s.installedAt_pair h
  rw [fetchPair, m0, fetchByte_fresh i0 h0, Access.ok_bind, m1, fetchByte_fresh i1 h1, Access.ok_bind]

theorem errorIn_some {a va : Word} (h : a = va ∨ a = va + 1) : errorIn (some a) va = some a := by
  rw [errorIn, Option.filter_some, if_pos (decide_eq_true h)]

theorem errorIn_none {a va : Word} (h0 : a ≠ va) (h1 : a ≠ va + 1) : errorIn (some a) va = none := by
  rw [errorIn, Option.filter_some, if_neg (by rw [decide_eq_true_eq]; exact not_or_intro h0 h1)]

/-- The parity error of a halfword, once its address is translated (R525, R550). -/
theorem fetchHalfOf_parity {len : Nat} {err : Option Word} {va ra a : Word} {s s1 : State}
    (hr : resolve .code va false s = .ok ra s1) (he : errorIn err va = some a) :
    fetchHalfOf len err va s = .trap (.parityCodeFetch a) s1 := by
  simp [fetchHalfOf, fetchHalf, hr, he]

/-- A halfword without an error, where nothing else acts: what its two bytes give. -/
theorem fetchHalfOf_pair {len : Nat} {err : Option Word} {va ra : Word} {s s1 s2 : State} {p : Byte × Byte}
    (hr : resolve .code va false s = .ok ra s1) (he : errorIn err va = none) (ha : Alone s1)
    (hp : fetchPair va ra s1 = .ok p s2) : fetchHalfOf len err va s = .ok p s2 := by
  simp [fetchHalfOf, fetchHalf, hr, he, between_alone ha, hp]

/-- A halfword in a page that neither the TMT nor the VRT maps: the fault comes before a parity error (R550). -/
theorem fetchHalfOf_missing {len : Nat} {err : Option Word} {va : Word} {s : State} (hm : s.mode = .user)
    (ha : Alone s) (h : tmtFind s.codeTmt (pageOf va) = none) (hf : Finds (s.spec 8) va none s) :
    fetchHalfOf len err va s = .trap (.pageFault (s.spec 8) (faultAddress s.pc len va s.draws)) s.drawn := by
  have hr : resolve .code va false s = .trap (.pageFault (s.spec 8) va) s := resolve_missing hm ha h hf
  simp [fetchHalfOf, fetchHalf, hr]

theorem lengthOf_cases (op : Byte) : lengthOf op = 2 ∨ lengthOf op = 4 ∨ lengthOf op = 6 := by
  unfold lengthOf
  split
  · exact .inl rfl
  · split
    · exact .inr (.inl rfl)
    · exact .inr (.inr rfl)

/-- The fetch of an instruction after its first halfword, where its bytes lie in the address space. -/
theorem fetchBytes_of_first {err : Option Word} {s s1 : State} {p : Byte × Byte}
    (h : fetchHalfOf 6 err s.pc s = .ok p s1) (hl : s.pc.toNat + lengthOf p.1 ≤ 2 ^ 32) :
    fetchBytes err s =
      (fetchTail (lengthOf p.1) err (lengthOf p.1 / 2 - 1) (s.pc + 2) (s1.noteFetch (lengthOf p.1))).bind
        fun rest s2 => endFetch err (p.1 :: p.2 :: rest) s2 := by
  rw [fetchBytes, h, Access.ok_bind]
  exact if_neg (by omega)

theorem fetchBytes_of_first_trap {err : Option Word} {s s1 : State} {e : Exception}
    (h : fetchHalfOf 6 err s.pc s = .trap e s1) : fetchBytes err s = .trap e s1 := by
  rw [fetchBytes, h, Access.trap_bind]

/-- An exception of the fetch is raised by the instruction. -/
theorem runInstruction_of_trap {err : Option Word} {s s1 : State} {e : Exception}
    (h : fetchBytes err s.dropAhead = .trap e s1) : runInstruction err s = raise e s1 := by
  simp only [runInstruction, fetchInstruction, h]

end Sys2Proof.Machine
end

section
/-! SUPPORT. A parity error the fetch-ahead unit meets: at the boundary, or where the fetch of the instruction comes to it (R525,
R550). -/

namespace Sys2Proof.Machine

/-! ### The boundary -/

theorem step_of_closed {s : State} {o : Outcome} (h : openBoundary s = .closed o) : step s = o := by
  simp only [step, h]

theorem step_of_instruction {s s1 : State} {err : Option Word} (h : openBoundary s = .instruction err s1) :
    step s = runInstruction err s1 := by
  simp only [step, h]

/-- The boundary at which no event falls. -/
theorem openBoundary_eventless {s : State} {b : Boundary} {rest : List Boundary} (hw : s.world = b :: rest)
    (hb : b.events = []) (hpc : s.pc.toNat % 2 = 0) :
    openBoundary s = closeBoundary b { s with world := rest, within := b.within } := by
  rw [openBoundary, if_neg (by omega)]
  simp only [nextBoundary, hw, hb, applyEvents]

/-- Where no interrupt is accepted and nothing pauses, an error elsewhere than at the instruction ends the boundary. -/
theorem closeBoundary_of_far {s : State} {b : Boundary} {a : Word} (hb : b.accept = none) (he : b.parityFetch = some a)
    (hp : s.paused = false) (ha : 6 ≤ (a - s.pc).toNat) :
    closeBoundary b s = .closed (raise (.parityCodeFetch a) s) := by
  have hf : (some a).filter s.farAhead = some a := by
    rw [Option.filter_some, if_pos (show s.farAhead a = true from decide_eq_true ha)]
  simp only [closeBoundary, acceptSource, hb, he, hp, hf, Bool.false_eq_true, if_false]

/-- An error at one of the six bytes from the pc is left to the fetch. -/
theorem closeBoundary_of_near {s : State} {b : Boundary} {a : Word} (hb : b.accept = none) (he : b.parityFetch = some a)
    (hp : s.paused = false) (ha : (a - s.pc).toNat < 6) : closeBoundary b s = .instruction (some a) s := by
  have hf : (some a).filter s.farAhead = none := by
    rw [Option.filter_some, if_neg (by rw [State.farAhead, decide_eq_true_eq]; omega)]
  simp only [closeBoundary, acceptSource, hb, he, hp, hf, Bool.false_eq_true, if_false]

section
variable {s : State} {a : Word} {w : List (List MemoryEvent)} {rest : List Boundary}

theorem step_of_far_error (hw : s.world = { events := [], accept := none, parityFetch := some a, within := w } :: rest)
    (hpc : s.pc.toNat % 2 = 0) (hp : s.paused = false) (ha : 6 ≤ (a - s.pc).toNat) :
    step s = raise (.parityCodeFetch a) { s with world := rest, within := w } :=
  step_of_closed ((openBoundary_eventless hw rfl hpc).trans (closeBoundary_of_far rfl rfl hp ha))

theorem step_of_near_error (hw : s.world = { events := [], accept := none, parityFetch := some a, within := w } :: rest)
    (hpc : s.pc.toNat % 2 = 0) (hp : s.paused = false) (ha : (a - s.pc).toNat < 6) :
    step s = runInstruction (some a) { s with world := rest, within := w } :=
  step_of_instruction ((openBoundary_eventless hw rfl hpc).trans (closeBoundary_of_near rfl rfl hp ha))

end

/-! ### The fetch comes to the error -/

/-- The halfword at distance `k` from `pc`, one of those up to the one that holds `a`, is translated from `s`, which leaves a
state of `P`; its bytes are there if `a` is none of them. -/
def HalfReached (P : State → Prop) (pc a : Word) (k : Nat) (s : State) : Prop :=
  ∃ ra t, resolve .code (pc + BitVec.ofNat 32 k) false s = .ok ra t ∧ P t ∧
    (k + 2 ≤ (a - pc).toNat → t.backed ra.toNat 2 = true)

/-- A fetch in states of `P` comes to the address `a`: whatever it notes or draws on its way, it stays in them. -/
structure ComesTo (P : State → Prop) (pc a : Word) : Prop where
  alone : ∀ s, P s → Alone s
  withDraws : ∀ s d, P s → P (s.withDraws d)
  noteFetch : ∀ s n, P s → P (s.noteFetch n)
  half : ∀ s k, P s → k % 2 = 0 → k ≤ (a - pc).toNat → HalfReached P pc a k s

/-- An address by its distance from another. -/
theorem eq_add_distance (a pc : Word) : a = pc + BitVec.ofNat 32 (a - pc).toNat := by
  rw [BitVec.ofNat_toNat, BitVec.setWidth_eq]
  exact (add_sub_cancel pc a).symm

theorem add_ofNat_zero (pc : Word) : pc + BitVec.ofNat 32 0 = pc := add_zero pc

theorem add_ofNat_succ (pc : Word) (k : Nat) : pc + BitVec.ofNat 32 k + 1 = pc + BitVec.ofNat 32 (k + 1) := by
  rw [BitVec.ofNat_add, ← add_assoc]
  rfl

theorem add_ofNat_add_two (pc : Word) (k : Nat) : pc + BitVec.ofNat 32 k + 2 = pc + BitVec.ofNat 32 (k + 2) := by
  rw [BitVec.ofNat_add, ← add_assoc]
  rfl

theorem distance_add_ofNat (pc : Word) {k : Nat} (hk : k < 2 ^ 32) : (pc + BitVec.ofNat 32 k - pc).toNat = k := by
  rw [add_sub_cancel_left, BitVec.toNat_ofNat, Nat.mod_eq_of_lt hk]

/-- The halfword at an even distance before the error's has no error, the one that holds it has. -/
theorem errorIn_before {a pc : Word} {k : Nat} (hk : k + 2 ≤ (a - pc).toNat) :
    errorIn (some a) (pc + BitVec.ofNat 32 k) = none := by
  have hlt := (a - pc).isLt
  refine errorIn_none ?_ ?_ <;> intro h
  · rw [h, distance_add_ofNat pc (by omega)] at hk
    omega
  · rw [h, add_ofNat_succ, distance_add_ofNat pc (by omega)] at hk
    omega

theorem errorIn_at {a pc : Word} {k : Nat} (hk : k ≤ (a - pc).toNat) (hk2 : (a - pc).toNat < k + 2) :
    errorIn (some a) (pc + BitVec.ofNat 32 k) = some a := by
  refine errorIn_some ?_
  rw [add_ofNat_succ]
  have h := eq_add_distance a pc
  obtain hd | hd : (a - pc).toNat = k ∨ (a - pc).toNat = k + 1 := by omega
  · exact .inl (hd ▸ h)
  · exact .inr (hd ▸ h)

/-- A halfword reached holds the error, or is fetched. -/
theorem ComesTo.fetchHalfOf {P : State → Prop} {pc a : Word} (hP : ComesTo P pc a) (len : Nat) {k : Nat} {s : State}
    (hk : k ≤ (a - pc).toNat) (hr : HalfReached P pc a k s) :
    (∃ t, P t ∧ Machine.fetchHalfOf len (some a) (pc + BitVec.ofNat 32 k) s = .trap (.parityCodeFetch a) t) ∨
      k + 2 ≤ (a - pc).toNat ∧
        ∃ p t, P t ∧ Machine.fetchHalfOf len (some a) (pc + BitVec.ofNat 32 k) s = .ok p t := by
  obtain ⟨ra, t, ht, hPt, hb⟩ := hr
  by_cases h2 : k + 2 ≤ (a - pc).toNat
  · obtain ⟨p, d, hp⟩ := fetchPair_of_backed (pc + BitVec.ofNat 32 k) (hb h2)
    exact .inr ⟨h2, p, _, hP.withDraws t d hPt, fetchHalfOf_pair ht (errorIn_before h2) (hP.alone t hPt) hp⟩
  · exact .inl ⟨t, hPt, fetchHalfOf_parity ht (errorIn_at hk (by omega))⟩

/-- The further halfwords: one of them holds the error, or all are fetched. -/
theorem ComesTo.fetchTail {P : State → Prop} {pc a : Word} (hP : ComesTo P pc a) (len n : Nat) {k : Nat} {s : State}
    (hs : P s) (hk2 : k % 2 = 0) (hk : k ≤ (a - pc).toNat) :
    (∃ t, P t ∧ Machine.fetchTail len (some a) n (pc + BitVec.ofNat 32 k) s = .trap (.parityCodeFetch a) t) ∨
      ∃ bs t, P t ∧ Machine.fetchTail len (some a) n (pc + BitVec.ofNat 32 k) s = .ok bs t := by
  induction n generalizing k s with
  | zero => exact .inr ⟨[], s, hs, rfl⟩
  | succ n ih =>
    rcases hP.fetchHalfOf len hk (hP.half s k hs hk2 hk) with ⟨t, ht, he⟩ | ⟨hk', p, t, ht, he⟩
    · exact .inl ⟨t, ht, by rw [Machine.fetchTail, he, Access.trap_bind]⟩
    · rw [Machine.fetchTail, he, Access.ok_bind, add_ofNat_add_two]
      rcases ih ht (k := k + 2) (by omega) hk' with ⟨t', ht', he'⟩ | ⟨bs, t', ht', he'⟩
      · exact .inl ⟨t', ht', by rw [he', Access.trap_bind]⟩
      · exact .inr ⟨_, t', ht', by rw [he', Access.ok_bind]⟩

/-- A fetch that comes to the error traps with it, at the bytes of the instruction or beyond them (R525, R550). -/
theorem ComesTo.fetchBytes {P : State → Prop} {pc a : Word} (hP : ComesTo P pc a) {s : State} (hs : s.pc = pc)
    (hpc : pc.toNat + 6 ≤ 2 ^ 32) (hr : HalfReached P pc a 0 s) :
    ∃ t, P t ∧ Machine.fetchBytes (some a) s = .trap (.parityCodeFetch a) t := by
  subst hs
  have first := hP.fetchHalfOf 6 (Nat.zero_le _) hr
  rw [add_ofNat_zero] at first
  rcases first with ⟨t, ht, he⟩ | ⟨hk, p, t, ht, he⟩
  · exact ⟨t, ht, fetchBytes_of_first_trap he⟩
  · have hl := lengthOf_cases p.1
    rw [fetchBytes_of_first he (by omega)]
    have tail := hP.fetchTail (lengthOf p.1) (lengthOf p.1 / 2 - 1) (hP.noteFetch t (lengthOf p.1) ht) (k := 2)
      (by omega) hk
    rw [show s.pc + BitVec.ofNat 32 2 = s.pc + 2 from rfl] at tail
    rcases tail with ⟨t', ht', he'⟩ | ⟨bs, t', ht', he'⟩
    · exact ⟨t', ht', by rw [he', Access.trap_bind]⟩
    · exact ⟨t', ht', by rw [he', Access.ok_bind, endFetch]⟩

/-- The instruction then enters the kernel with the address of the error. -/
theorem ComesTo.runInstruction {P : State → Prop} {a : Word} {u : State} (hP : ComesTo P u.pc a)
    (hpc : u.pc.toNat + 6 ≤ 2 ^ 32) (hr : HalfReached P u.pc a 0 u.dropAhead) (hPpc : ∀ t, P t → t.pc = u.pc)
    (hc : ∀ t, P t → t.ccbUsable 0x408 = true) :
    ∃ u1 t, P u1 ∧ Machine.runInstruction (some a) u = .next t ∧ Entered (.parityCodeFetch a) u.pc u1 t := by
  obtain ⟨u1, h1, he⟩ := hP.fetchBytes u.dropAhead_pc hpc hr
  obtain ⟨t, ht, hent⟩ := raise_entered_at (e := .parityCodeFetch a) (hPpc u1 h1) ⟨hc u1 h1, hP.alone u1 h1⟩
  exact ⟨u1, t, h1, (runInstruction_of_trap he).trans ht, hent⟩

/-- The states that a fetch in kernel mode passes through. -/
def KernelFetching (u t : State) : Prop := t = { u with fetch := t.fetch, draws := t.draws }

/-- In kernel mode a fetch comes to any of six bytes that are there. -/
theorem comesTo_kernel {u : State} {a : Word} (hm : u.mode = .kernel) (ha : Alone u)
    (hpc : u.pc.toNat + 6 ≤ 2 ^ 32) (hb : u.backed u.pc.toNat 6 = true) (hd : (a - u.pc).toNat < 6) :
    ComesTo (KernelFetching u) u.pc a where
  alone := fun t ht => by rw [ht]; exact ha
  withDraws := fun t d ht => by rw [KernelFetching, ht]; rfl
  noteFetch := fun t n ht => by rw [KernelFetching, ht]; rfl
  half := fun t k ht hk2 hk => by
    refine ⟨_, t, resolve_kernel _ _ _ t (by rw [ht]; exact hm), ht, fun h2 => ?_⟩
    rw [toNat_add_ofNat (by omega), State.backed_congr u t _ _ (by rw [ht])]
    rw [show 6 = k + (6 - k) by omega, State.backed_add, show 6 - k = 2 + (4 - k) by omega, State.backed_add] at hb
    exact hb.2.1

/-- The states that a fetch in user mode passes through, once the page is mapped. -/
def UserFetching (u t : State) : Prop := t = { u with fetch := t.fetch, accessed := t.accessed, draws := t.draws }

/-- In user mode a fetch comes to a byte of the page of the pc, if the bytes before it are there. -/
theorem comesTo_user {u u1 : State} {a : Word} {rp : Page} (hm : u1.mode = .user) (ha : Alone u1)
    (hpc : u1.pc.toNat + 6 ≤ 2 ^ 32) (hd : (a - u1.pc).toNat < 6) (hp : pageOf a = pageOf u1.pc)
    (hmap : Maps .code (u.spec 8) u1.pc rp u u1)
    (hb : u1.backed (realAddress rp u1.pc).toNat (a - u1.pc).toNat = true) :
    ComesTo (UserFetching u1) u1.pc a where
  alone := fun t ht => by rw [ht]; exact ha
  withDraws := fun t d ht => by rw [UserFetching, ht]; rfl
  noteFetch := fun t n ht => by rw [UserFetching, ht]; rfl
  half := fun t k ht hk2 hk => by
    have hpage : pageOf (u1.pc + BitVec.ofNat 32 k) = pageOf u1.pc :=
      pageOf_add_of_le (by omega) (by rw [← eq_add_distance, hp]) hk
    have hr := hmap.resolve_again (w := false) hpage (t := t) (by rw [ht]; rfl) (by rw [ht]; exact hm)
      (by rw [ht]; exact ha)
    refine ⟨_, _, hr, by rw [UserFetching, ht]; rfl, fun h2 => ?_⟩
    rw [toNat_realAddress_add rp (by omega) hpage, State.backed_congr u1 _ _ _ (by rw [ht]; rfl)]
    obtain ⟨m, hm⟩ := Nat.exists_eq_add_of_le h2
    rw [hm, Nat.add_assoc, State.backed_add, State.backed_add] at hb
    exact hb.2.1

end Sys2Proof.Machine
end

section
/-! SUPPORT. The fetch of an instruction that straddles two pages, the second one missing (R90, R124, U14). -/

namespace Sys2Proof.Machine

/-! ### The address the fault reports -/

/-- The first of an instruction's bytes in its second page is the first byte of that page. -/
theorem secondPage_aligned {pc : Word} {k : Nat} (hk : 0 < k) (hpc : pc.toNat + k < 2 ^ 32)
    (hin : pageOf (pc + BitVec.ofNat 32 (k - 1)) = pageOf pc) (hout : pageOf (pc + BitVec.ofNat 32 k) ≠ pageOf pc) :
    (pc.toNat + k) % 4096 = 0 := by
  rw [pageOf_eq_iff, toNat_add_ofNat (by omega)] at hin
  rw [ne_eq, pageOf_eq_iff, toNat_add_ofNat hpc] at hout
  omega

/-- The address reported is that of one of the instruction's bytes in the missing page (U14). -/
theorem faultAddress_straddling {pc : Word} {k n : Nat} (d : Nat) (hk : 0 < k) (hkn : k < n) (hk5 : k ≤ 5)
    (hpc : pc.toNat + n ≤ 2 ^ 32) (hin : pageOf (pc + BitVec.ofNat 32 (k - 1)) = pageOf pc)
    (hout : pageOf (pc + BitVec.ofNat 32 k) ≠ pageOf pc) :
    ∃ j, k ≤ j ∧ j < n ∧ faultAddress pc n (pc + BitVec.ofNat 32 k) d = pc + BitVec.ofNat 32 j := by
  have h4096 := secondPage_aligned hk (by omega) hin hout
  have h5 : pageOf pc ≠ pageOf (pc + 5) := fun h =>
    hout (pageOf_add_of_le (n := 5) (by omega) h.symm hk5)
  have hmem : ∀ x, x ∈ missingBytes pc n (pc + BitVec.ofNat 32 k) ↔
      (∃ j < n, pc + BitVec.ofNat 32 j = x) ∧ pageOf x = pageOf (pc + BitVec.ofNat 32 k) := by
    simp [missingBytes]
  obtain ⟨y, l, hl⟩ := List.exists_cons_of_ne_nil (List.ne_nil_of_mem ((hmem _).mpr ⟨⟨k, hkn, rfl⟩, rfl⟩))
  obtain ⟨x, hx⟩ := chooseFrom_cons d y l
  rw [← hl] at hx
  obtain ⟨⟨j, hj, rfl⟩, hp⟩ := (hmem x).mp (chooseFrom_mem _ _ _ hx)
  refine ⟨j, ?_, hj, by rw [faultAddress, if_neg h5, hx, Option.getD_some]⟩
  by_contra hjk
  exact hout (hp ▸ pageOf_add_of_le (by omega) hin (by omega))

/-! ### What the cache may hold of other spaces -/

theorem State.space_congr {s t : State} (hm : t.mode = s.mode) (hs : t.sr = s.sr) : t.space = s.space := by
  rw [State.space, State.space, State.spec, State.spec, hm, hs]

theorem Unmixed.congr {n : Nat} {s t : State} (h : Unmixed n s) (hf : t.fetch.seen = s.fetch.seen) (hp : t.pc = s.pc)
    (hs : t.space = s.space) : Unmixed n t := fun k hk => by
  rw [FetchState.mixed, hf, hp, hs]
  exact h k hk

theorem OnlyEvents.seen {s t : State} (h : OnlyEvents s t) : t.fetch.seen = s.fetch.seen := by rw [h]

/-- A translation fetches nothing. -/
theorem Maps.seen {seg : Segment} {segment va : Word} {rp : Page} {s s1 : State} (h : Maps seg segment va rp s s1) :
    s1.fetch.seen = s.fetch.seen := by
  rcases h with ⟨_, -, -, rfl⟩ | ⟨ea, e, -, -, -, rfl⟩
  · rfl
  · rw [State.drawn_fetch]
    exact ((OnlyEvents.markEntry s ea vrtSetR).trans (.setTmt _ seg _)).seen

/-! ### The fetch up to the missing page -/

/-- The first `k` bytes from the pc, in one page that user mode translates to `rp`, are there and neither old nor of another
space. -/
structure FirstPage (k : Nat) (rp : Page) (u u1 : State) : Prop where
  mode : u.mode = .user
  alone : Alone u
  inSpace : u.pc.toNat + k < 2 ^ 32
  even : k % 2 = 0
  page : ∀ i < k, pageOf (u.pc + BitVec.ofNat 32 i) = pageOf u.pc
  maps : Maps .code (u.spec 8) u.pc rp u u1
  backed : u1.backed (realAddress rp u.pc).toNat k = true
  fresh : Fresh (realAddress rp u.pc).toNat k u1
  unmixed : Unmixed k u

/-- The states that a fetch of those bytes passes through: only the access to the page is noted, and still no byte is old or
of another space. -/
structure FirstPageFetching (k : Nat) (rp : Page) (u u1 t : State) : Prop where
  frame : t = { u1 with fetch := t.fetch, accessed := t.accessed }
  noted : Noted (u.spec 8) (pageOf u.pc) false u t
  fresh : Fresh (realAddress rp u.pc).toNat k t
  unmixed : Unmixed k t

section
variable {k : Nat} {rp : Page} {u u1 t : State}

theorem FirstPageFetching.pc (h : FirstPage k rp u u1) (ht : FirstPageFetching k rp u u1 t) : t.pc = u.pc := by
  rw [ht.frame]; exact h.maps.pc

theorem FirstPageFetching.mode (h : FirstPage k rp u u1) (ht : FirstPageFetching k rp u u1 t) : t.mode = .user := by
  rw [ht.frame]; exact h.maps.mode.trans h.mode

theorem FirstPageFetching.alone (h : FirstPage k rp u u1) (ht : FirstPageFetching k rp u u1 t) : Alone t := by
  rw [ht.frame]; exact h.maps.alone h.alone

theorem FirstPageFetching.spec (h : FirstPage k rp u u1) (ht : FirstPageFetching k rp u u1 t) (r : Reg) :
    t.spec r = u.spec r := by
  rw [ht.frame]; exact congrArg (fun v : Vector Word 16 => v[r.toNat]'r.isLt) h.maps.sr

theorem FirstPageFetching.space (h : FirstPage k rp u u1) (ht : FirstPageFetching k rp u u1 t) : t.space = u.space := by
  rw [ht.frame]; exact State.space_congr h.maps.mode h.maps.sr

theorem FirstPageFetching.noteFetch (ht : FirstPageFetching k rp u u1 t) (n : Nat) :
    FirstPageFetching k rp u u1 (t.noteFetch n) where
  frame := by rw [State.noteFetch, ht.frame]
  noted := ht.noted
  fresh := fun i hi => by rw [State.noteFetch_old]; exact ht.fresh i hi
  unmixed := fun i hi => (t.noteFetch_mixed n _).trans (ht.unmixed i hi)

/-- The one access noted is that of each of those bytes (R123). -/
theorem FirstPageFetching.codeNoted (h : FirstPage k rp u u1) (hk : 0 < k) (ht : FirstPageFetching k rp u u1 t) :
    CodeNoted k u t := fun x => by
  rw [ht.noted x]
  refine or_congr_right ⟨?_, ?_⟩
  · rintro rfl
    exact ⟨h.mode, 0, hk, by rw [add_ofNat_zero]⟩
  · rintro ⟨-, i, hi, rfl⟩
    rw [h.page i hi]

/-- The access to the page noted once more is noted. -/
theorem FirstPageFetching.recordAccess (ht : FirstPageFetching k rp u u1 t) :
    FirstPageFetching k rp u u1 (t.recordAccess (u.spec 8) (pageOf u.pc) false) where
  frame := by rw [State.recordAccess, ht.frame]
  noted := fun x => by rw [State.mem_recordAccess, ht.noted x, or_assoc, or_self]
  fresh := ht.fresh
  unmixed := ht.unmixed

/-- The first translation leaves such a state, the fetch-ahead buffer dropped. -/
theorem FirstPage.begun (h : FirstPage k rp u u1) :
    FirstPageFetching k rp u u1 (u1.dropAhead.recordAccess (u.spec 8) (pageOf u.pc) false) where
  frame := by unfold State.dropAhead; split <;> rfl
  noted := Noted.recordAccess _ _ _ _ _ (u1.dropAhead_accessed.trans h.maps.accessed)
  fresh := fun i hi => by
    have ho := h.fresh i hi
    rw [FetchState.old, List.append_eq_nil_iff] at ho
    rw [State.recordAccess_fetch, FetchState.old, State.dropAhead_stale, ho.1, State.dropAhead_ahead]
    split
    · exact ho.2
    · rfl
  unmixed := h.unmixed.congr (u1.dropAhead_seen.trans h.maps.seen) (u1.dropAhead_pc.trans h.maps.pc)
    (State.space_congr (u1.dropAhead_mode.trans h.maps.mode) (u1.dropAhead_sr.trans h.maps.sr))

/-- A halfword of those bytes, once translated, is that of memory, and fetching it changes nothing. -/
theorem FirstPageFetching.fetchPair (h : FirstPage k rp u u1) (ht : FirstPageFetching k rp u u1 t) {i : Nat}
    (hi : i + 2 ≤ k) :
    ∃ b, Machine.fetchPair (u.pc + BitVec.ofNat 32 i) (realAddress rp (u.pc + BitVec.ofNat 32 i)) t =
      .ok (t.mem.read ((realAddress rp u.pc).toNat + i), b) t := by
  have hra := toNat_realAddress_add rp (by have := h.inSpace; omega) (h.page i (by omega))
  have hb : t.backed ((realAddress rp u.pc).toNat + i) 2 = true := by
    have hb := h.backed
    obtain ⟨m, hm⟩ := Nat.exists_eq_add_of_le hi
    rw [hm, Nat.add_assoc, State.backed_add, State.backed_add] at hb
    rw [State.backed_congr u1 t _ _ (by rw [ht.frame])]
    exact hb.2.1
  have hm0 := ht.unmixed i (by omega)
  have hm1 := ht.unmixed (i + 1) (by omega)
  rw [ht.pc h] at hm0 hm1
  rw [← add_ofNat_succ] at hm1
  rw [← hra] at hb ⊢
  exact ⟨_, fetchPair_fresh hb (by rw [hra]; exact ht.fresh i (by omega))
    (by rw [hra]; exact ht.fresh (i + 1) (by omega)) hm0 hm1⟩

/-- After the first, the further halfwords of those bytes are fetched without a parity error, and then the missing page
faults. -/
theorem FirstPageFetching.fetchTail (h : FirstPage k rp u u1)
    (hmiss : tmtFind u1.codeTmt (pageOf (u.pc + BitVec.ofNat 32 k)) = none)
    (hfind : Finds (u.spec 8) (u.pc + BitVec.ofNat 32 k) none u1) {a : Word} (hka : k ≤ (a - u.pc).toNat) (len n : Nat)
    {i : Nat} (hi2 : i % 2 = 0) (hik : i ≤ k) (hkn : k < i + 2 * n) (ht : FirstPageFetching k rp u u1 t) :
    ∃ t', FirstPageFetching k rp u u1 t' ∧ t'.fetch = t.fetch ∧
      Machine.fetchTail len (some a) n (u.pc + BitVec.ofNat 32 i) t =
        .trap (.pageFault (u.spec 8) (faultAddress u.pc len (u.pc + BitVec.ofNat 32 k) t'.draws)) t'.drawn := by
  induction n generalizing i t with
  | zero => omega
  | succ n ih =>
    obtain rfl | hlt : i = k ∨ i < k := by omega
    · have hf : Finds (t.spec 8) (u.pc + BitVec.ofNat 32 i) none t := by
        rw [ht.spec h]
        exact hfind.congr (by rw [ht.frame]) (by rw [ht.frame]) (by rw [ht.frame])
      have he := fetchHalfOf_missing (len := len) (err := some a) (ht.mode h) (ht.alone h)
        (by rw [ht.frame]; exact hmiss) hf
      rw [ht.spec h, ht.pc h] at he
      exact ⟨t, ht, rfl, by rw [Machine.fetchTail, he, Access.trap_bind]⟩
    · have hi : i + 2 ≤ k := by have := h.even; omega
      have hr := h.maps.resolve_again (t := t) (w := false) (h.page i hlt) (by rw [ht.frame]; rfl) (ht.mode h) (ht.alone h)
      rw [h.page i hlt, show t.segNumber .code = u.spec 8 from ht.spec h 8] at hr
      obtain ⟨b, hp⟩ := ht.recordAccess.fetchPair h hi
      have he := fetchHalfOf_pair (len := len) hr (errorIn_before (a := a) (by omega)) (ht.recordAccess.alone h) hp
      obtain ⟨t', ht', hf', he'⟩ := ih (i := i + 2) (by omega) hi (by omega) ht.recordAccess
      exact ⟨t', ht', hf', by
        rw [Machine.fetchTail, he, Access.ok_bind, add_ofNat_add_two, he', Access.trap_bind]⟩

/-- The fetch of an instruction whose bytes from the `k`-th on are in a missing page (R124), where no parity error is met
before them. -/
theorem FirstPage.fetchBytes (h : FirstPage k rp u u1) (hk : 0 < k)
    (hmiss : tmtFind u1.codeTmt (pageOf (u.pc + BitVec.ofNat 32 k)) = none)
    (hfind : Finds (u.spec 8) (u.pc + BitVec.ofNat 32 k) none u1) {a : Word} (hka : k ≤ (a - u.pc).toNat) {n : Nat}
    (hn : n = lengthOf (u1.mem.read (realAddress rp u.pc).toNat)) (hkn : k < n) (hpc : u.pc.toNat + n ≤ 2 ^ 32) :
    ∃ t, FirstPageFetching k rp u u1 t ∧
      { space := u.space, address := u.pc, length := n + 12 } ∈ t.fetch.seen ∧
      Machine.fetchBytes (some a) u.dropAhead =
        .trap (.pageFault (u.spec 8) (faultAddress u.pc n (u.pc + BitVec.ofNat 32 k) t.draws)) t.drawn := by
  have hk2 : 2 ≤ k := by have := h.even; omega
  obtain ⟨b, hp⟩ := h.begun.fetchPair h (i := 0) hk2
  rw [add_ofNat_zero, Nat.add_zero, show (State.recordAccess _ _ _ _).mem = u1.mem from u1.dropAhead_mem] at hp
  have hr := h.maps.resolve_dropAhead (w := false) h.mode h.alone
  have herr : errorIn (some a) u.pc = none := by
    have := errorIn_before (a := a) (pc := u.pc) (k := 0) (by omega)
    rwa [add_ofNat_zero] at this
  have hfirst : fetchHalfOf 6 (some a) u.dropAhead.pc u.dropAhead =
      .ok (u1.mem.read (realAddress rp u.pc).toNat, b)
        (u1.dropAhead.recordAccess (u.spec 8) (pageOf u.pc) false) := by
    rw [u.dropAhead_pc]
    exact fetchHalfOf_pair hr herr (h.begun.alone h) hp
  have hpcd : u.dropAhead.pc.toNat + lengthOf (u1.mem.read (realAddress rp u.pc).toNat) ≤ 2 ^ 32 := by
    rw [u.dropAhead_pc, ← hn]
    exact hpc
  have hl := lengthOf_cases (u1.mem.read (realAddress rp u.pc).toNat)
  obtain ⟨t, ht, hf, he⟩ := (h.begun.noteFetch n).fetchTail h hmiss hfind hka n (n / 2 - 1) (i := 2) (by omega) hk2
    (by omega)
  refine ⟨t, ht, ?_, ?_⟩
  · rw [hf, State.mem_noteFetch_seen, h.begun.pc h, h.begun.space h]
    exact .inr rfl
  · rw [fetchBytes_of_first hfirst hpcd, ← hn, u.dropAhead_pc]
    exact congrArg (Access.bind · _) he

end

end Sys2Proof.Machine
end

section
/-! SUPPORT. The parts of `Obligations.ParityErrors`, and the theorem that settles it. -/

namespace Sys2Proof.Machine

/-! ### Errors of the fetch-ahead unit -/

/-- In kernel mode an error at one of the six bytes from the pc is raised when the fetch comes to it. -/
theorem runInstruction_error_kernel {u : State} {a : Word} (hm : u.mode = .kernel) (ha : Alone u)
    (hpc : u.pc.toNat + 6 ≤ 2 ^ 32) (hb : u.backed u.pc.toNat 6 = true) (hd : (a - u.pc).toNat < 6)
    (hc : u.ccbUsable 0x408 = true) :
    ∃ u1 t, KernelFetching u u1 ∧ runInstruction (some a) u = .next t ∧ Entered (.parityCodeFetch a) u.pc u1 t := by
  have hP := comesTo_kernel hm ha hpc hb hd
  have hdrop : KernelFetching u u.dropAhead := by
    unfold State.dropAhead; split <;> rfl
  exact hP.runInstruction hpc (hP.half _ 0 hdrop rfl (Nat.zero_le _)) (fun t ht => by rw [ht])
    fun t ht => (State.ccbUsable_congr _ (by rw [ht]) (by rw [ht]) (by rw [ht])).trans hc

/-- In user mode an error in the page of the pc, which is mapped, is raised when the fetch comes to it. -/
theorem runInstruction_error_user {u u1 : State} {a : Word} {rp : Page} (hm : u.mode = .user) (ha : Alone u)
    (hpc : u.pc.toNat + 6 ≤ 2 ^ 32) (hd : (a - u.pc).toNat < 6) (hp : pageOf a = pageOf u.pc)
    (hmap : Maps .code (u.spec 8) u.pc rp u u1)
    (hb : u.backed (realAddress rp u.pc).toNat (a - u.pc).toNat = true) (hc : u.ccbUsable 0x408 = true) :
    ∃ u2 t, UserFetching u1 u2 ∧ runInstruction (some a) u = .next t ∧ Entered (.parityCodeFetch a) u.pc u2 t := by
  have hb1 : u1.backed (realAddress rp u.pc).toNat (a - u.pc).toNat = true := by
    rw [State.backed_congr u u1 _ _ hmap.installed, hb]
  have hP : ComesTo (UserFetching u1) u.pc a := by
    have hpc1 := hmap.pc
    rw [← hpc1] at hmap hpc hd hp hb1 ⊢
    exact comesTo_user (hmap.mode.trans hm) (hmap.alone ha) hpc hd hp hmap hb1
  have hfirst : HalfReached (UserFetching u1) u.pc a 0 u.dropAhead := by
    refine ⟨_, _, by rw [add_ofNat_zero]; exact hmap.resolve_dropAhead hm ha, ?_, fun h2 => ?_⟩
    · unfold State.dropAhead; split <;> rfl
    · obtain ⟨m, hm⟩ := Nat.exists_eq_add_of_le h2
      rw [hm, Nat.zero_add, State.backed_add] at hb1
      exact (State.backed_congr u1 (u1.dropAhead.recordAccess _ _ _) _ _ u1.dropAhead_installed).trans hb1.1
  exact hP.runInstruction hpc hfirst (fun t ht => by rw [ht]; exact hmap.pc)
    fun t ht => (State.ccbUsable_congr _ (by rw [ht]; exact hmap.sr) (by rw [ht]; exact hmap.installed)
      (by rw [ht]; exact hmap.parityEntry)).trans hc

/-- Where the page of the pc is missing, its fault comes before any parity error at the instruction's bytes (R550). -/
theorem runInstruction_missing {u : State} (err : Option Word) (hm : u.mode = .user) (ha : Alone u)
    (htmt : tmtFind u.codeTmt (pageOf u.pc) = none) (hf : Finds (u.spec 8) u.pc none u) (hc : u.ccbUsable 0x410 = true) :
    ∃ f t, runInstruction err u = .next t ∧ Entered (.pageFault (u.spec 8) f) u.pc u.dropAhead t := by
  have he := fetchHalfOf_missing (len := 6) (err := err) (va := u.dropAhead.pc) (s := u.dropAhead)
    (u.dropAhead_mode.trans hm) (u.dropAhead_within.trans ha) (by rw [u.dropAhead_codeTmt, u.dropAhead_pc, htmt])
    (by rw [u.dropAhead_spec, u.dropAhead_pc]; exact hf.congr u.dropAhead_mem u.dropAhead_installed u.dropAhead_sr)
  rw [u.dropAhead_spec] at he
  obtain ⟨t, ht, hent⟩ := raise_entered_at (e := .pageFault (u.spec 8) _) (s := u.dropAhead.drawn) u.dropAhead_pc
    ⟨(State.ccbUsable_congr _ u.dropAhead_sr u.dropAhead_installed u.dropAhead_parityEntry).trans hc,
      u.dropAhead_within.trans ha⟩
  exact ⟨_, t, (runInstruction_of_trap (fetchBytes_of_first_trap he)).trans ht, entered_drawn_iff.mp hent⟩

/-- The first of the bytes at an address is the byte there. -/
theorem State.headD_bytesAt (s : State) (a : Nat) {n : Nat} (hn : 0 < n) : (s.bytesAt a n).headD 0 = s.mem.read a := by
  obtain ⟨n, rfl⟩ := Nat.exists_eq_succ_of_ne_zero hn.ne'
  simp [State.bytesAt, List.range_succ_eq_map]

/-- What the first page of a straddling instruction gives to its fetch. -/
theorem TailMissing.firstPage {k n : Nat} {u u1 : State} (h : TailMissing k n u u1) (hpc : u.pc.toNat % 2 = 0)
    (ha : Alone u) :
    ∃ rp, FirstPage k rp u u1 ∧ n = lengthOf (u1.mem.read (realAddress rp u.pc).toNat) := by
  obtain ⟨hm, hk, hkn, hin, hout, ⟨bytes, ⟨hpage, rp, hmap, hb, hfresh, rfl⟩, hn⟩, hunmixed, -, -⟩ := h
  have h4096 := secondPage_aligned hk (by omega) hpage.symm hout
  refine ⟨rp, ⟨hm, ha, by omega, by omega, fun i hi => ?_, hmap, hb, hfresh, hunmixed⟩, ?_⟩
  · exact pageOf_add_of_le (by omega) hpage.symm (by omega)
  · rw [hn, State.headD_bytesAt _ _ hk]

/-- Where the second page of the instruction is missing, its fault comes before a parity error at the bytes in it. -/
theorem runInstruction_tail_missing {u u1 : State} {a : Word} {k n : Nat} (h : TailMissing k n u u1)
    (hpc : u.pc.toNat % 2 = 0) (ha : Alone u) (hk : k ≤ (a - u.pc).toNat) (hd : (a - u.pc).toNat < 6)
    (hc : u.ccbUsable 0x410 = true) :
    ∃ t, runInstruction (some a) u = .next t ∧ TailFaulted k n u u1 t := by
  obtain ⟨rp, h1, hn⟩ := h.firstPage hpc ha
  obtain ⟨hm, hk0, hkn, hin, hout, -, -, hmiss, hfind⟩ := h
  obtain ⟨u2, h2, hseen, he⟩ := h1.fetchBytes hk0 hmiss hfind hk hn hkn hin
  obtain ⟨j, hkj, hjn, hj⟩ := faultAddress_straddling u2.draws hk0 hkn (by omega) hin (h1.page _ (by omega)) hout
  rw [hj] at he
  have hc2 : CanEnter 0x410 u2 := by
    rw [h2.frame]
    exact h1.maps.canEnter ⟨hc, ha⟩
  obtain ⟨t, ht, hent⟩ := raise_entered_at (e := .pageFault (u.spec 8) (u.pc + BitVec.ofNat 32 j)) (pc := u.pc)
    (s := u2.drawn) (u2.drawn_pc.trans (h2.pc h1)) hc2
  exact ⟨t, (runInstruction_of_trap he).trans ht, j, u2, hkj, hjn, h2.frame, h2.codeNoted h1 hk0, hseen,
    entered_drawn_iff.mp hent⟩

/-! ### Errors of loads and stores -/

/-- In kernel mode a load or a store uses its effective address as it is. -/
theorem parityErrors_kernel {s : State} {n : Nat} (hm : s.mode = .kernel) (hp : s.parityData = true)
    (hc : CanEnter 0x40C s) (hn : n ∈ [1, 2, 4, 8]) (r rx : Reg) (d : Half) (w : Word) :
    (∀ f ∈ loadForms n r rx d w s, f.2.2.2.toNat % n = 0 →
      ∃ s1 t, OnlyRegsDrawing (loadedRegs n r) { s with parityData := false } s1 ∧ exec f.2.1 s = .next t ∧
        Entered (.parityExecute f.2.2.2) s.pc s1 t ∧ t.spec 3 = f.2.2.2) ∧
    (∀ f ∈ storeForms n r rx d w s, f.2.2.toNat % n = 0 →
      ∃ t, exec f.1 s = .next t ∧ Entered (.parityExecute f.2.2) s.pc { s with parityData := false } t ∧
        t.spec 3 = f.2.2) := by
  refine ⟨fun f hf ha => ?_, fun f hf ha => ?_⟩
  · obtain ⟨s1, t, hregs, -, ht, he⟩ := loadForms_parity hn hf ha (resolve_kernel f.1 f.2.2.2 false s hm) hp hc rfl
    exact ⟨s1, t, hregs, ht, he, he.spec_three rfl⟩
  · obtain ⟨t, ht, he⟩ := storeForms_parity hn hf ha (resolve_kernel .data f.2.2 true s hm) hp hc rfl
    exact ⟨t, ht, he, he.spec_three rfl⟩

/-- In user mode a load or a store meets the error once its page is translated. -/
theorem parityErrors_user {s : State} {n : Nat} (hm : s.mode = .user) (hp : s.parityData = true)
    (hc : CanEnter 0x40C s) (hn : n ∈ [1, 2, 4, 8]) (r rx : Reg) (d : Half) (w : Word) :
    (∀ f ∈ loadForms n r rx d w s, ∀ (rp : Page) (s1 : State), f.2.2.2.toNat % n = 0 →
      Maps f.1 (if f.1 = .code then s.spec 8 else s.spec 9) f.2.2.2 rp s s1 →
        ∃ s2 s3 t, s2 = { s1 with parityData := false, accessed := s2.accessed } ∧
          OnlyRegsDrawing (loadedRegs n r) s2 s3 ∧ exec f.2.1 s = .next t ∧
          Entered (.parityExecute f.2.2.2) s.pc s3 t ∧ t.spec 3 = f.2.2.2 ∧ t.spec 15 = s.pc) ∧
    (∀ f ∈ storeForms n r rx d w s, ∀ (rp : Page) (s1 : State), f.2.2.toNat % n = 0 →
      Maps .data (s.spec 9) f.2.2 rp s s1 →
        ∃ s2 t, s2 = { s1 with parityData := false, accessed := s2.accessed } ∧ exec f.1 s = .next t ∧
          Entered (.parityExecute f.2.2) s.pc s2 t ∧ t.spec 3 = f.2.2 ∧ t.spec 15 = s.pc) := by
  refine ⟨fun f hf rp s1 ha hmap => ?_, fun f hf rp s1 ha hmap => ?_⟩
  · rw [← s.segNumber_eq] at hmap
    obtain ⟨s3, t, hregs, hmode, ht, he⟩ := loadForms_parity hn hf ha
      (resolve_maps f.1 f.2.2.2 false s s1 rp hm hc.2 hmap) (hmap.parityData.trans hp) (hmap.canEnter hc) hmap.pc
    exact ⟨_, s3, t, rfl, hregs, ht, he, he.spec_three rfl,
      he.spec_fifteen (hmode.trans (hmap.mode.trans hm))⟩
  · obtain ⟨t, ht, he⟩ := storeForms_parity hn hf ha
      (resolve_maps .data f.2.2 true s s1 rp hm hc.2 hmap) (hmap.parityData.trans hp) (hmap.canEnter hc) hmap.pc
    exact ⟨_, t, rfl, ht, he, he.spec_three rfl, he.spec_fifteen (hmap.mode.trans hm)⟩

/-- Settles O16: the fetch-ahead unit's errors by their distance from the pc and by what the fetch comes to first, those of
loads and stores by the mode. -/
theorem parityErrors : Obligations.ParityErrors := by
  refine ⟨?_, fun s r rx d w hm hp hc n hn => parityErrors_kernel hm hp hc hn r rx d w,
    fun s r rx d w hm hp hc n hn => parityErrors_user hm hp hc hn r rx d w⟩
  rintro s u a rest hw hpc hp rfl
  have near := step_of_near_error hw hpc hp
  refine ⟨fun hd hc => ?_, fun hd hm hin hb hc => ?_, fun rp u1 hd hm hin hpage hmap hb hc => ?_,
    fun hd hm htmt hf hc => ?_, fun k n u1 hk hd htail hc => ?_⟩
  · obtain ⟨t, ht, he⟩ := raise_entered (e := .parityCodeFetch a) (s := { s with world := rest, within := [] })
      ⟨hc, rfl⟩
    exact ⟨t, (step_of_far_error hw hpc hp hd).trans ht, he, he.spec_three rfl⟩
  · obtain ⟨u1, t, h1, ht, he⟩ := runInstruction_error_kernel (u := { s with world := rest, within := [] })
      hm rfl hin hb hd hc
    exact ⟨u1, t, h1, (near hd).trans ht, he, he.spec_three rfl⟩
  · obtain ⟨u2, t, h2, ht, he⟩ := runInstruction_error_user (u := { s with world := rest, within := [] })
      hm rfl hin hd hpage hmap hb hc
    exact ⟨u2, t, h2, (near hd).trans ht, he, he.spec_three rfl,
      he.spec_fifteen (by rw [h2]; exact hmap.mode.trans hm)⟩
  · obtain ⟨f, t, ht, he⟩ := runInstruction_missing (u := { s with world := rest, within := [] }) (some a)
      hm rfl htmt hf hc
    exact ⟨f, t, (near hd).trans ht, he⟩
  · obtain ⟨t, ht, he⟩ := runInstruction_tail_missing htail hpc rfl hk hd hc
    exact ⟨t, (near hd).trans ht, he⟩

end Sys2Proof.Machine
end

section
/-! SUPPORT. What an instruction that stays in user mode leaves alone (R41, R502): each shared operation keeps it, each
shared ending of an instruction keeps it or enters the kernel. With the theorem that settles
`Obligations.UserModeKeepsSpecialRegisters`. -/

namespace Sys2Proof.Machine

/-! ### What is kept -/

/-- From `s` to `t` no special register, no installed memory, no pause and no pending interrupt changed, but for timer
interrupts that other agents make pending between the accesses of the instruction. -/
structure UserKept (s t : State) : Prop where
  sr : t.sr = s.sr
  installed : t.installed = s.installed
  paused : t.paused = s.paused
  pending : t.pending = { s.pending with timer1 := t.pending.timer1, timer2 := t.pending.timer2 }
  alone : Alone s → t.pending = s.pending ∧ Alone t

theorem UserKept.refl (s : State) : UserKept s s := ⟨rfl, rfl, rfl, rfl, fun h => ⟨rfl, h⟩⟩

theorem UserKept.trans {s t u : State} (h : UserKept s t) (k : UserKept t u) : UserKept s u where
  sr := k.sr.trans h.sr
  installed := k.installed.trans h.installed
  paused := k.paused.trans h.paused
  pending := by rw [k.pending, h.pending]
  alone := fun ha =>
    have ⟨hp, ht⟩ := h.alone ha
    have ⟨kp, ku⟩ := k.alone ht
    ⟨kp.trans hp, ku⟩

/-- A change of other fields keeps it. -/
theorem UserKept.congr {s t u : State} (h : UserKept s t) (hs : u.sr = t.sr) (hi : u.installed = t.installed)
    (hp : u.paused = t.paused) (hq : u.pending = t.pending) (hw : u.within = t.within) : UserKept s u :=
  h.trans ⟨hs, hi, hp, by rw [hq], fun ha => ⟨hq, hw.trans ha⟩⟩

theorem UserKept.setReg {s t : State} (h : UserKept s t) (r : Reg) (v : Word) : UserKept s (t.setReg r v) :=
  h.congr rfl rfl rfl rfl rfl

theorem UserKept.setPair {s t : State} (h : UserKept s t) (r : Reg) (v : Double) : UserKept s (t.setPair r v) :=
  (h.setReg _ _).setReg _ _

theorem UserKept.setPc {s t : State} (h : UserKept s t) (pc : Word) : UserKept s (t.setPc pc) :=
  h.congr rfl rfl rfl rfl rfl

theorem UserKept.scrambleReg {s t : State} (h : UserKept s t) (r : Reg) : UserKept s (t.scrambleReg r) :=
  h.congr rfl rfl rfl rfl rfl

theorem UserKept.scramblePair {s t : State} (h : UserKept s t) (r : Reg) : UserKept s (t.scramblePair r) :=
  (h.scrambleReg _).scrambleReg _

theorem UserKept.setMem {s t : State} (h : UserKept s t) (m : Memory) (a n : Nat) : UserKept s (t.setMem m a n) :=
  h.congr rfl rfl rfl rfl rfl

theorem UserKept.markEntry {s t : State} (h : UserKept s t) (ea : Word) (f : Double → Double) :
    UserKept s (t.markEntry ea f) :=
  (h.setMem _ _ _).setMem _ _ _

theorem UserKept.setTmt {s t : State} (h : UserKept s t) (seg : Segment) (l : List TmtEntry) :
    UserKept s (t.setTmt seg l) := by
  cases seg <;> exact h.congr rfl rfl rfl rfl rfl

theorem UserKept.drawn {s t : State} (h : UserKept s t) : UserKept s t.drawn := h.congr rfl rfl rfl rfl rfl

/-! ### Memory accesses -/

/-- What other agents do between two accesses keeps it: only they can make a timer interrupt pending. -/
theorem UserKept.between {s t u : State} (h : UserKept s t) (he : t.between = .ok () u) : UserKept s u := by
  have ho := between_only he
  refine h.trans ⟨ho.sr, ho.installed, ho.paused, congrArg State.pending ho, fun ha => ?_⟩
  rw [between_alone ha] at he
  cases he
  exact ⟨rfl, ha⟩

theorem UserKept.busRead {s t u : State} {a n v : Nat} (h : UserKept s t) (he : busRead a n t = .ok v u) :
    UserKept s u :=
  readParts_keeps (P := UserKept s) (fun _ _ => UserKept.between) h he

theorem UserKept.busWrite {s t u : State} {a n v : Nat} (h : UserKept s t) (he : busWrite a n v t = .ok () u) :
    UserKept s u :=
  writeParts_keeps (P := UserKept s) (fun _ _ => UserKept.between) (fun _ _ _ _ h _ => h.setMem _ _ _) h he

theorem UserKept.loadMapping {s t u : State} {seg : Segment} {va : Word} {found : Option (Word × Double)} {p : Page}
    (h : UserKept s t) (he : loadMapping seg va found t = .ok p u) : UserKept s u := by
  cases found with
  | none => cases he
  | some x =>
    unfold Machine.loadMapping at he
    dsimp only at he
    rw [Access.bind_eq_ok] at he
    obtain ⟨_, t0, h0, he⟩ := he
    cases he
    exact (((h.between h0).markEntry _ _).setTmt _ _).drawn

theorem UserKept.lookupPage {s t u : State} {seg : Segment} {va : Word} {p : Page} (h : UserKept s t)
    (he : lookupPage seg va t = .ok p u) : UserKept s u := by
  unfold Machine.lookupPage at he
  rw [Access.bind_eq_ok] at he
  obtain ⟨_, t0, h0, he⟩ := he
  have hk := h.between h0
  split at he
  · cases he
    exact hk
  · rw [Access.bind_eq_ok] at he
    obtain ⟨_, t1, h1, he⟩ := he
    exact (vrtSearch_keeps (P := UserKept s) (fun _ _ => UserKept.between) hk h1).loadMapping he

theorem UserKept.resolve {s t u : State} {seg : Segment} {va ra : Word} {w : Bool} (h : UserKept s t)
    (he : resolve seg va w t = .ok ra u) : UserKept s u := by
  unfold Machine.resolve translate at he
  split at he
  · cases he
    exact h
  · rw [Access.bind_eq_ok] at he
    obtain ⟨p, t1, h1, he⟩ := he
    cases he
    exact (h.lookupPage h1).congr rfl rfl rfl rfl rfl

theorem UserKept.memRead {s t u : State} {seg : Segment} {va : Word} {n v : Nat} (h : UserKept s t)
    (he : memRead seg va n t = .ok v u) : UserKept s u := by
  unfold Machine.memRead at he
  split at he
  · cases he
  · rw [Access.bind_eq_ok] at he
    obtain ⟨ra, t1, h1, he⟩ := he
    split at he
    · cases he
    · exact (h.resolve h1).busRead he

theorem UserKept.memWrite {s t u : State} {va : Word} {n v : Nat} (h : UserKept s t)
    (he : memWrite va n v t = .ok () u) : UserKept s u := by
  unfold Machine.memWrite at he
  split at he
  · cases he
  · rw [Access.bind_eq_ok] at he
    obtain ⟨ra, t1, h1, he⟩ := he
    split at he
    · cases he
    · exact (h.resolve h1).busWrite he

/-! ### The ends of instructions -/

/-- An outcome that stays in user mode keeps it. -/
def UserKeeps (s : State) (o : Outcome) : Prop := ∀ t, o = .next t → t.mode = .user → UserKept s t

section
variable {s u : State}

/-- An exception leaves user mode. -/
theorem userKeeps_takeException (e : Exception) (ret : Word) : UserKeeps s (takeException e ret u) := by
  intro t he hm
  rw [takeException_mode _ _ _ _ he] at hm
  cases hm

theorem userKeeps_raise (e : Exception) : UserKeeps s (raise e u) := userKeeps_takeException e _

theorem userKeeps_refused (r : Refusal) : UserKeeps s (.refused r) := fun _ he => by cases he

theorem userKeeps_fault (f : Fault) : UserKeeps s (.fault f) := fun _ he => by cases he

theorem UserKept.next (h : UserKept s u) : UserKeeps s (.next u) := fun _ he _ => by cases he; exact h

theorem UserKept.advance (h : UserKept s u) (len : Nat) : UserKeeps s (advance len u) := by
  intro t he _
  rw [((advance_eq_next _ _ _).mp he).2]
  exact h.setPc _

/-- Where an instruction goes on from a state with the same fields. -/
theorem userKeeps_advance_of {len : Nat} (hs : u.sr = s.sr) (hi : u.installed = s.installed) (hp : u.paused = s.paused)
    (hq : u.pending = s.pending) (hw : u.within = s.within) : UserKeeps s (Machine.advance len u) :=
  ((UserKept.refl s).congr hs hi hp hq hw).advance len

theorem UserKept.trapsWordEnd (h : UserKept s u) (code : Nat) : UserKeeps s (trapsWordEnd code u) := by
  unfold Machine.trapsWordEnd
  split
  · exact userKeeps_raise _
  · exact h.advance 2

theorem UserKept.overflowEnd (h : UserKept s u) (o : Bool) : UserKeeps s (overflowEnd o u) := by
  unfold Machine.overflowEnd
  split
  · exact h.trapsWordEnd _
  · exact h.advance 2

theorem UserKept.branchIf (h : UserKept s u) (c : Bool) (disp : Word) (len : Nat) :
    UserKeeps s (branchIf c disp len u) := by
  unfold Machine.branchIf
  split
  · exact (h.setPc _).next
  · exact h.advance len

end

section
variable {s : State} {r r1 r2 : Reg}

theorem userKeeps_plainResult {v : Word} : UserKeeps s (plainResult r v s) := ((UserKept.refl s).setReg _ _).advance 2

theorem userKeeps_pairResult {v : Double} : UserKeeps s (pairResult r v s) := ((UserKept.refl s).setPair _ _).advance 2

theorem userKeeps_integerResult {n : Int} : UserKeeps s (integerResult r n s) :=
  ((UserKept.refl s).setReg _ _).overflowEnd _

theorem userKeeps_arithmeticLeft {n : Nat} : UserKeeps s (arithmeticLeft r n s) :=
  ((UserKept.refl s).setReg _ _).overflowEnd _

theorem userKeeps_neg : UserKeeps s (execNeg r1 r2 s) := by
  unfold execNeg
  split
  · exact (UserKept.refl s).trapsWordEnd _
  · exact userKeeps_plainResult

theorem userKeeps_divideResult {a b : Word} {n : Int} : UserKeeps s (divideResult r a b n s) := by
  unfold divideResult
  split
  · exact (UserKept.refl s).trapsWordEnd _
  split
  · exact (UserKept.refl s).trapsWordEnd _
  · exact ((UserKept.refl s).setReg _ _).advance 2

theorem userKeeps_carryResult {v c : Word} : UserKeeps s (carryResult r v c s) := by
  unfold carryResult
  split
  · exact userKeeps_refused _
  · exact (((UserKept.refl s).setReg _ _).setReg _ _).advance 2

theorem userKeeps_ediv : UserKeeps s (execEdiv r1 r2 s) := by
  unfold execEdiv
  dsimp only
  split
  · exact ((UserKept.refl s).scrambleReg _).trapsWordEnd _
  split
  · exact (UserKept.refl s).trapsWordEnd _
  · exact (((UserKept.refl s).setReg _ _).setReg _ _).advance 2

theorem userKeeps_realEnd {x : Word × RealCond} : UserKeeps s (realEnd r x s) := by
  unfold realEnd
  split
  · exact ((UserKept.refl s).setReg _ _).advance 2
  · exact ((UserKept.refl s).setReg _ _).trapsWordEnd _
  · exact ((UserKept.refl s).setReg _ _).trapsWordEnd _
  · exact ((UserKept.refl s).scrambleReg _).trapsWordEnd _

theorem userKeeps_doubleEnd {x : Double × RealCond} : UserKeeps s (doubleEnd r x s) := by
  unfold doubleEnd
  split
  · exact ((UserKept.refl s).setPair _ _).advance 2
  · exact ((UserKept.refl s).setPair _ _).trapsWordEnd _
  · exact ((UserKept.refl s).setPair _ _).trapsWordEnd _
  · exact ((UserKept.refl s).scramblePair _).trapsWordEnd _

theorem userKeeps_makeRealEnd {x : Word × RealCond} : UserKeeps s (makeRealEnd r x s) := by
  unfold makeRealEnd
  split
  · exact ((UserKept.refl s).setReg _ _).advance 2
  all_goals exact ((UserKept.refl s).scrambleReg _).trapsWordEnd _

theorem userKeeps_fixEnd {x : Word × Bool} : UserKeeps s (fixEnd r x s) := by
  unfold fixEnd
  split
  · exact (UserKept.refl s).trapsWordEnd _
  · exact ((UserKept.refl s).setReg _ _).advance 2

theorem userKeeps_withBitNumber {n : Word} {k : Nat → State → Outcome} (hk : ∀ m, UserKeeps s (k m s)) :
    UserKeeps s (withBitNumber n k s) := by
  unfold withBitNumber
  split
  · exact hk _
  · exact userKeeps_refused _

theorem userKeeps_sbit : UserKeeps s (execSbit r1 r2 s) := userKeeps_withBitNumber fun _ => userKeeps_pairResult

theorem userKeeps_cbit : UserKeeps s (execCbit r1 r2 s) := userKeeps_withBitNumber fun _ => userKeeps_pairResult

theorem userKeeps_checkEnd {fails : Bool} : UserKeeps s (checkEnd fails r1 r2 s) := by
  unfold checkEnd
  split
  · exact userKeeps_raise _
  · exact (UserKept.refl s).advance 2

theorem userKeeps_linkAndGo {target : Word} {len : Nat} : UserKeeps s (linkAndGo r target len s) :=
  (((UserKept.refl s).setReg _ _).setPc _).next

theorem userKeeps_abortLoad {u : State} {f : State → State} {e : Exception} : UserKeeps s (abortLoad f e u) := by
  unfold abortLoad
  split <;> exact userKeeps_raise _

theorem userKeeps_loadTo {seg : Segment} {n len : Nat} {ea : Word} : UserKeeps s (loadTo seg n r ea len s) := by
  unfold loadTo
  split
  · rename_i he
    exact (((UserKept.refl s).memRead he).setReg _ _).advance len
  · exact userKeeps_abortLoad
  · exact userKeeps_fault _
  · exact userKeeps_refused _

theorem userKeeps_loadPairTo {seg : Segment} {len : Nat} {ea : Word} : UserKeeps s (loadPairTo seg r ea len s) := by
  unfold loadPairTo
  split
  · rename_i he
    exact (((UserKept.refl s).memRead he).setPair _ _).advance len
  · exact userKeeps_abortLoad
  · exact userKeeps_fault _
  · exact userKeeps_refused _

theorem userKeeps_storeFrom {n v len : Nat} {ea : Word} : UserKeeps s (storeFrom n v ea len s) := by
  intro t he
  unfold storeFrom at he
  rw [Access.finish_eq_next] at he
  rcases he with ⟨_, s1, h1, he⟩ | ⟨e, s1, -, he⟩
  · exact ((UserKept.refl s).memWrite h1).advance len t he
  · exact userKeeps_raise e t he

theorem userKeeps_loadAddress {ea : Word} {len : Nat} : UserKeeps s (loadAddress r ea len s) :=
  ((UserKept.refl s).setReg _ _).advance len

/-- A kernel-only instruction leaves user mode (R503). -/
theorem userKeeps_kernelOnly {op : Byte} {k : State → Outcome} (hm : s.mode = .user) :
    UserKeeps s (kernelOnly op r1 r2 k s) := by
  rw [kernelOnly_user _ _ _ _ _ hm]
  exact userKeeps_raise _

theorem userKeeps_kcall {n : BitVec 8} : UserKeeps s (execKcall n s) := by
  unfold execKcall
  split
  · exact userKeeps_takeException _ _
  · exact userKeeps_raise _

/-- A privileged instruction without the privilege leaves user mode too (R502, R503). -/
theorem userKeeps_kernelOrPrivileged {op : Byte} {k : State → Outcome} (hk : UserKeeps s (k s)) :
    UserKeeps s (kernelOrPrivileged op r1 r2 k s) := by
  unfold kernelOrPrivileged
  split
  · exact hk
  split
  · exact hk
  · exact userKeeps_raise _

theorem userKeeps_elogr : UserKeeps s (execElogr r1 s) :=
  userKeeps_kernelOrPrivileged (userKeeps_advance_of rfl rfl rfl rfl rfl)

theorem userKeeps_elogw : UserKeeps s (execElogw r1 s) :=
  userKeeps_kernelOrPrivileged (userKeeps_advance_of rfl rfl rfl rfl rfl)

theorem userKeeps_flush : UserKeeps s (execFlush r1 s) :=
  userKeeps_kernelOrPrivileged (userKeeps_advance_of rfl rfl rfl rfl rfl)

theorem userKeeps_read : UserKeeps s (execRead r1 r2 s) :=
  userKeeps_kernelOrPrivileged (userKeeps_advance_of rfl rfl rfl rfl rfl)

theorem userKeeps_write : UserKeeps s (execWrite r1 r2 s) :=
  userKeeps_kernelOrPrivileged (userKeeps_advance_of rfl rfl rfl rfl rfl)

end

/-! ### Every instruction -/

theorem userKeeps_exec (i : Instr) {s : State} (hm : s.mode = .user) : UserKeeps s (exec i s) := by
  cases i
  case move | not | or | xor | and | movei | noti | andi | float | lcomp | rcomp | dcomp | drcomp | testGt | testLt
      | testEq | testLe | testGe | testNe | testiGt | testiLt | testiEq | testiLe | testiGe | testiNe | csl | csli | lsl
      | lsli | lsr | lsri | asr | asri | seb | seh =>
    exact userKeeps_plainResult
  case empy | makerd | dfloat | dlsl | dlsli | dlsr | dlsri => exact userKeeps_pairResult
  case add | sub | mpy | addi | subi | mpyi => exact userKeeps_integerResult
  case neg => exact userKeeps_neg
  case div | rem => exact userKeeps_divideResult
  case eadd | esub => exact userKeeps_carryResult
  case ediv => exact userKeeps_ediv
  case asl | asli => exact userKeeps_arithmeticLeft
  case tbit => exact userKeeps_withBitNumber fun _ => userKeeps_plainResult
  case sbit => exact userKeeps_sbit
  case cbit => exact userKeeps_cbit
  case rneg | radd | rsub | rmpy | rdiv => exact userKeeps_realEnd
  case drneg | dradd | drsub | drmpy | drdiv => exact userKeeps_doubleEnd
  case makedr => exact userKeeps_makeRealEnd
  case fixt | fixr | dfixt | dfixr => exact userKeeps_fixEnd
  case chk | chki => exact userKeeps_checkEnd
  case trap => exact (UserKept.refl s).trapsWordEnd _
  case kcall => exact userKeeps_kcall
  case nop => exact (UserKept.refl s).advance 2
  case brGt | brGtL | brEq | brEqL | brLe | brLeL | brNe | brNeL | briGt | briGtL | briLt | briLtL | briEq | briEqL
      | briLe | briLeL | briGe | briGeL | briNe | briNeL =>
    exact (UserKept.refl s).branchIf _ _ _
  case loop | loopL => exact ((UserKept.refl s).setReg _ _).branchIf _ _ _
  case br | brL => exact ((UserKept.refl s).setPc _).next
  case call | callL | callr | ret => exact userKeeps_linkAndGo
  case loadb | loadbX | loadbL | loadbLX | loadbC | loadbCX | loadbCL | loadbCLX | loadh | loadhX | loadhL | loadhLX
      | loadhC | loadhCX | loadhCL | loadhCLX | load | loadX | loadL | loadLX | loadC | loadCX | loadCL | loadCLX =>
    exact userKeeps_loadTo
  case loadd | loaddX | loaddL | loaddLX | loaddC | loaddCX | loaddCL | loaddCLX => exact userKeeps_loadPairTo
  case storeb | storebX | storebL | storebLX | storeh | storehX | storehL | storehLX | store | storeX | storeL | storeLX
      | stored | storedX | storedL | storedLX =>
    exact userKeeps_storeFrom
  case laddr | laddrX | laddrL | laddrLX | laddrC | laddrCX | laddrCL | laddrCLX => exact userKeeps_loadAddress
  case sus | lus | ldregs | trans | dirt => exact userKeeps_kernelOnly hm
  case rum => exact (userKeeps_kernelOnly hm : UserKeeps s (execRum _ _ s))
  case movesr => exact (userKeeps_kernelOnly hm : UserKeeps s (execMovesr _ _ s))
  case movers => exact (userKeeps_kernelOnly hm : UserKeeps s (execMovers _ _ s))
  case trapexit => exact (userKeeps_kernelOnly hm : UserKeeps s (execTrapexit _ s))
  case itest => exact (userKeeps_kernelOnly hm : UserKeeps s (execItest _ s))
  case elogr => exact userKeeps_elogr
  case elogw => exact userKeeps_elogw
  case flush => exact userKeeps_flush
  case read => exact userKeeps_read
  case write => exact userKeeps_write

theorem UserKept.spec {s t : State} (h : UserKept s t) (k : Reg) : t.spec k = s.spec k := by
  rw [State.spec, State.spec, h.sr]

/-- Settles O20: what an instruction keeps that stays in user mode, read off the ends of all instructions. -/
theorem userModeKeepsSpecialRegisters : Obligations.UserModeKeepsSpecialRegisters := by
  intro i s t hm he ht
  have h := userKeeps_exec i hm t he ht
  exact ⟨h.spec, fun ha => (h.alone ha).1, h.pending, h.installed, h.paused⟩

end Sys2Proof.Machine
end

section
/-! SUPPORT. The search of the VRT by its mask, its first entry and one link, and the theorem that settles
`Obligations.VrtSearchOrder` (R116, R119 to R122). -/

namespace Sys2Proof.Machine

/-! ### The mask -/

/-- A number that shares no bit with its successor is all ones. -/
theorem succ_eq_two_pow_of_and_succ_eq_zero {n : Nat} (hn : n ≠ 0) (h : n &&& (n + 1) = 0) :
    n + 1 = 2 ^ (n.log2 + 1) := by
  by_contra hne
  have hlt : n < 2 ^ (n.log2 + 1) := Nat.lt_log2_self
  have hle := Nat.log2_self_le hn
  have hb : (n &&& (n + 1)).testBit n.log2 = true := by
    rw [Nat.testBit_and, Nat.testBit_of_two_pow_le_and_two_pow_add_one_gt hle hlt,
      Nat.testBit_of_two_pow_le_and_two_pow_add_one_gt (by omega) (by omega), Bool.and_self]
  simp [h] at hb

/-- The masks a search can be made with: at least four ones, right-justified (R116). -/
theorem vrtMaskValid_iff (m : Word) : vrtMaskValid m = true ↔ ∃ k, 4 ≤ k ∧ k ≤ 32 ∧ m.toNat = 2 ^ k - 1 := by
  have hm := m.isLt
  rw [vrtMaskValid, Bool.and_eq_true, decide_eq_true_eq, decide_eq_true_eq, ← BitVec.toNat_inj, BitVec.toNat_and,
    BitVec.toNat_add, show (1 : Word).toNat = 1 from rfl, show (0 : Word).toNat = 0 from rfl]
  constructor
  · rintro ⟨h15, h⟩
    by_cases hmax : m.toNat = 2 ^ 32 - 1
    · exact ⟨32, by omega, le_rfl, hmax⟩
    · rw [Nat.mod_eq_of_lt (by omega)] at h
      have hk := succ_eq_two_pow_of_and_succ_eq_zero (by omega) h
      refine ⟨m.toNat.log2 + 1, ?_, ?_, by omega⟩
      · exact (Nat.pow_le_pow_iff_right (a := 2) (by omega)).mp (by omega)
      · exact (Nat.pow_le_pow_iff_right (a := 2) (by omega)).mp (by omega)
  · rintro ⟨k, h4, h32, h⟩
    have h16 : 2 ^ 4 ≤ 2 ^ k := Nat.pow_le_pow_right (by omega) h4
    refine ⟨by omega, ?_⟩
    obtain rfl | hlt : k = 32 ∨ k < 32 := by omega
    · rw [h]; rfl
    · have := Nat.pow_lt_pow_right (a := 2) (by omega) hlt
      rw [h, Nat.sub_add_cancel (by omega), Nat.mod_eq_of_lt this, Nat.and_comm, Nat.and_two_pow_sub_one_eq_mod,
        Nat.mod_self]

/-- The first entry of a search: eight times the masked sum of segment number and page number past SR12 (R119). -/
theorem vrtHead_eq {s : State} {k : Nat} (hk : k ≤ 32) (hm : (s.spec 13).toNat = 2 ^ k - 1) (segment va : Word) :
    vrtHead segment va s =
      s.spec 12 + BitVec.ofNat 32 (((segment.toNat + va.toNat / 4096) % 2 ^ k) * 8) := by
  have hp : ((pageOf va).zeroExtend 32).toNat = va.toNat / 4096 := by
    rw [BitVec.zeroExtend, BitVec.toNat_setWidth, toNat_pageOf]
    have := va.isLt
    omega
  rw [vrtHead]
  congr 1
  apply BitVec.eq_of_toNat_eq
  rw [BitVec.toNat_shiftLeft, BitVec.toNat_and, BitVec.toNat_add, hp, hm, Nat.and_two_pow_sub_one_eq_mod,
    Nat.mod_mod_of_dvd _ (Nat.pow_dvd_pow 2 hk), Nat.shiftLeft_eq, BitVec.toNat_ofNat]

/-! ### The search -/

theorem vrtSearch_of_mask {s : State} (ha : Alone s) (hm : vrtMaskValid (s.spec 13) = true) (segment va : Word) :
    vrtSearch segment va s = vrtChain noPause segment va 8192 (vrtHead segment va s) s := by
  rw [vrtSearch_alone ha, vrtSearchWith, if_pos hm]

theorem vrtSearch_invalid_mask {s : State} (hm : vrtMaskValid (s.spec 13) = false) (segment va : Word) :
    vrtSearch segment va s = .refused .vrtMaskInvalid := by
  rw [vrtSearch, vrtSearchWith, hm]
  exact if_neg Bool.false_ne_true

theorem vrtChain_misaligned {ea : Word} (h : ea.toNat % 4 ≠ 0) (pause : State → Access Unit) (segment va : Word)
    (n : Nat) (s : State) : vrtChain pause segment va (n + 1) ea s = .refused .vrtEntryMisaligned := by
  rw [vrtChain, if_pos h]

section
variable {segment va ea : Word} {n : Nat} {s : State}

/-- An entry that matches ends the search: it is found, or refused for its VVV (R121). -/
theorem vrtChain_match (h4 : ea.toNat % 4 = 0) (hb : s.entryBacked ea)
    (h : vrtMatches segment va (s.entryAt ea) = true) :
    vrtChain noPause segment va (n + 1) ea s =
      if vrtVvv (s.entryAt ea) = 7 then .ok (some (ea, s.entryAt ea)) s else .refused .vrtMatchInvalid := by
  rw [vrtChain_at segment va ea n s _ h4 hb rfl, if_pos h]

/-- Without a match the link 0 ends the search. -/
theorem vrtChain_end (h4 : ea.toNat % 4 = 0) (hb : s.entryBacked ea)
    (h : ¬vrtMatches segment va (s.entryAt ea) = true) (hl : vrtLink (s.entryAt ea) = 0) :
    vrtChain noPause segment va (n + 1) ea s = .ok none s := by
  rw [vrtChain_at segment va ea n s _ h4 hb rfl, if_neg h, if_pos hl]

/-- Without a match another link leads on. -/
theorem vrtChain_link (h4 : ea.toNat % 4 = 0) (hb : s.entryBacked ea)
    (h : ¬vrtMatches segment va (s.entryAt ea) = true) (hl : vrtLink (s.entryAt ea) ≠ 0) :
    vrtChain noPause segment va (n + 1) ea s =
      vrtChain noPause segment va n (s.spec 12 + (vrtLink (s.entryAt ea)).zeroExtend 32) s := by
  rw [vrtChain_at segment va ea n s _ h4 hb rfl, if_neg h, if_neg hl]

/-- A chain that leads back to its own entry is refused, however many entries are examined (R122, D16). -/
theorem vrtChain_cyclic (h4 : ea.toNat % 4 = 0) (hb : s.entryBacked ea)
    (h : ¬vrtMatches segment va (s.entryAt ea) = true) (hl : vrtLink (s.entryAt ea) ≠ 0)
    (hc : s.spec 12 + (vrtLink (s.entryAt ea)).zeroExtend 32 = ea) :
    vrtChain noPause segment va n ea s = .refused .vrtChainEndless := by
  induction n with
  | zero => rfl
  | succ n ih => rw [vrtChain_link h4 hb h hl, hc, ih]

end

/-- Settles O52: a search with a valid mask is followed from its head over one link, entry by entry. -/
theorem vrtSearchOrder : Obligations.VrtSearchOrder := by
  refine ⟨?_, fun s segment va hk => vrtSearch_invalid_mask ?_ segment va⟩
  · rintro s segment va head k seg ha h4 h32 hm rfl hhead
    have hsearch := vrtSearch_of_mask ha ((vrtMaskValid_iff _).mpr ⟨k, h4, h32, hm⟩) segment va
    rw [vrtHead_eq h32 hm, ← hhead] at hsearch
    rw [hsearch]
    refine ⟨fun hmis => vrtChain_misaligned hmis _ _ _ _ _, ?_⟩
    rintro hal hb e rfl
    simp only [← vrtMatches_iff]
    refine ⟨fun hs ht => vrtChain_match hal hb ((vrtMatches_iff _ _ _).mpr ⟨hs, ht⟩),
      fun hn hl => vrtChain_end hal hb hn hl, ?_⟩
    rintro hn hl next e' rfl hal' hb' rfl
    refine ⟨fun hc => vrtChain_cyclic hal hb hn hl hc, fun hs ht hv => ?_, fun hn' hl' => ?_⟩
    · rw [vrtChain_link hal hb hn hl, vrtChain_match hal' hb' ((vrtMatches_iff _ _ _).mpr ⟨hs, ht⟩), if_pos hv]
    · rw [vrtChain_link hal hb hn hl, vrtChain_end hal' hb' hn' hl']
  · rw [← Bool.not_eq_true, vrtMaskValid_iff]
    rintro ⟨k, h4, h32, h⟩
    exact hk k h4 h32 h

end Sys2Proof.Machine
end

section
/-! SUPPORT. The theorem that settles `Obligations.ResetValues`. -/

namespace Sys2Proof.Machine

/-- Settles O17: the fields of the reset state read off, register by register and address by address. -/
theorem resetValues : Obligations.ResetValues := by
  refine ⟨rfl, rfl, rfl, fun r => ?_, fun k => ?_, rfl, rfl, rfl, rfl, rfl, rfl, rfl, fun a ha => ?_⟩
  · simp [State.reg, State.reset]
  · simp [State.spec, State.reset]
  · simpa [State.installedAt, State.reset] using ha

end Sys2Proof.Machine
end

section
/-! SUPPORT. The length of a decoded instruction is the one its opcode gives (R152). -/

namespace Sys2Proof.Machine

/-! ### The rows of the opcode tables -/

theorem mem_of_lookup {α β : Type} [BEq α] [LawfulBEq α] {l : List (α × β)} {k : α} {b : β} (h : l.lookup k = some b) :
    (k, b) ∈ l := by
  obtain ⟨l1, l2, rfl, -⟩ := List.lookup_eq_some_iff.mp h
  simp

theorem length_encode_registerRows : ∀ row ∈ registerRows, ∀ r1 r2, (encode (row.2 r1 r2)).length = 2 :=
  fun row h r1 r2 =>
    have hl : registerRows.map (fun p => (encode (p.2 r1 r2)).length) = List.replicate registerRows.length 2 := rfl
    List.map_eq_replicate_iff.mp hl row h

theorem length_encode_maintenanceRows : ∀ row ∈ maintenanceRows, ∀ r1, (encode (row.2 r1)).length = 2 :=
  fun row h r1 =>
    have hl : maintenanceRows.map (fun p => (encode (p.2 r1)).length) = List.replicate maintenanceRows.length 2 := rfl
    List.map_eq_replicate_iff.mp hl row h

theorem length_encode_shortRows : ∀ row ∈ shortRows, ∀ r1 r2 d, (encode (row.2 r1 r2 d)).length = 4 :=
  fun row h r1 r2 d =>
    have hl : shortRows.map (fun p => (encode (p.2 r1 r2 d)).length) = List.replicate shortRows.length 4 := rfl
    List.map_eq_replicate_iff.mp hl row h

theorem length_encode_longRows : ∀ row ∈ longRows, ∀ r1 r2 d, (encode (row.2 r1 r2 d)).length = 6 :=
  fun row h r1 r2 d =>
    have hl : longRows.map (fun p => (encode (p.2 r1 r2 d)).length) = List.replicate longRows.length 6 := rfl
    List.map_eq_replicate_iff.mp hl row h

/-! ### Decoding -/

theorem length_encode_of_decodeRegister {op fields : Byte} {i : Instr} (h : decodeRegister op fields = .instr i) :
    (encode i).length = 2 := by
  unfold decodeRegister at h
  split at h
  · cases h; rfl
  split at h
  · split at h
    · rename_i hl
      cases h
      exact length_encode_maintenanceRows _ (mem_of_lookup hl) _
    · cases h
  · split at h
    · rename_i hl
      cases h
      exact length_encode_registerRows _ (mem_of_lookup hl) _ _
    · cases h

theorem length_encode_of_decodeShort {op fields : Byte} {d : Half} {i : Instr} (h : decodeShort op fields d = .instr i) :
    (encode i).length = 4 := by
  unfold decodeShort at h
  split at h
  · rename_i hl
    cases h
    exact length_encode_shortRows _ (mem_of_lookup hl) _ _ _
  · cases h

theorem length_encode_of_decodeLong {op fields : Byte} {d : Word} {i : Instr} (h : decodeLong op fields d = .instr i) :
    (encode i).length = 6 := by
  unfold decodeLong at h
  split at h
  · rename_i hl
    cases h
    exact length_encode_longRows _ (mem_of_lookup hl) _ _ _
  · cases h

/-- The first byte of what decodes to an instruction gives the length of the instruction. -/
theorem length_encode_of_decode {bytes : List Byte} {i : Instr} (h : decode bytes = .instr i) :
    (encode i).length = lengthOf (bytes.headD 0) := by
  unfold decode at h
  split at h
  · rename_i op fields rest
    rw [List.headD_cons]
    split at h
    · rename_i h2
      rw [h2, length_encode_of_decodeRegister h]
    split at h
    · rename_i h4
      split at h
      · rw [h4, length_encode_of_decodeShort h]
      · cases h
    · have h6 := lengthOf_cases op
      split at h
      · rw [length_encode_of_decodeLong h]
        omega
      · cases h
  · cases h

end Sys2Proof.Machine
end

section
/-! SUPPORT. The fetch of an instruction whose bytes are all there, in either mode and in one page or two: first the translation
of one address, then one halfword, then all of them in order (R36, R90, R119, R140, R612). -/

namespace Sys2Proof.Machine

/-! ### Where code lies -/

/-- The code at `va` lies at the real address `ra`: at `va` itself in kernel mode; in user mode in the page that the TMT or
the VRT maps, which leaves the state `v` (R82, R91). -/
def CodeMaps (va ra : Word) (u v : State) : Prop :=
  u.mode = .kernel ∧ ra = va ∧ v = u ∨ u.mode = .user ∧ ∃ rp, Maps .code (u.spec 8) va rp u v ∧ ra = realAddress rp va

theorem OnlyEvents.fetch {s t : State} (h : OnlyEvents s t) : t.fetch = { s.fetch with stale := t.fetch.stale } :=
  congrArg State.fetch (show t = _ from h)

/-- A translation may add old bytes, and does nothing else to the cache and the fetch-ahead. -/
theorem Maps.fetch {seg : Segment} {segment va : Word} {rp : Page} {u v : State} (h : Maps seg segment va rp u v) :
    v.fetch = { u.fetch with stale := v.fetch.stale } := by
  rcases h with ⟨_, -, -, rfl⟩ | ⟨ea, e, -, -, -, rfl⟩
  · rfl
  · rw [State.drawn_fetch]
    exact ((OnlyEvents.markEntry u ea vrtSetR).trans (.setTmt _ seg _)).fetch

section
variable {va ra : Word} {u v : State}

theorem CodeMaps.frame (h : CodeMaps va ra u v) :
    v = { u with mem := v.mem, fetch := v.fetch, codeTmt := v.codeTmt, dataTmt := v.dataTmt, draws := v.draws } := by
  rcases h with ⟨-, -, rfl⟩ | ⟨-, rp, h, -⟩
  · rfl
  · exact h.frame

theorem CodeMaps.fetch (h : CodeMaps va ra u v) : v.fetch = { u.fetch with stale := v.fetch.stale } := by
  rcases h with ⟨-, -, rfl⟩ | ⟨-, rp, h, -⟩
  · rfl
  · exact h.fetch

theorem CodeMaps.pc (h : CodeMaps va ra u v) : v.pc = u.pc := by rw [h.frame]
theorem CodeMaps.mode (h : CodeMaps va ra u v) : v.mode = u.mode := by rw [h.frame]
theorem CodeMaps.sr (h : CodeMaps va ra u v) : v.sr = u.sr := by rw [h.frame]
theorem CodeMaps.installed (h : CodeMaps va ra u v) : v.installed = u.installed := by rw [h.frame]
theorem CodeMaps.alone (h : CodeMaps va ra u v) (ha : Alone u) : Alone v := by rw [h.frame]; exact ha
theorem CodeMaps.seen (h : CodeMaps va ra u v) : v.fetch.seen = u.fetch.seen := by rw [h.fetch]
theorem CodeMaps.ahead (h : CodeMaps va ra u v) : v.fetch.ahead = u.fetch.ahead := by rw [h.fetch]
theorem CodeMaps.aheadPc (h : CodeMaps va ra u v) : v.fetch.aheadPc = u.fetch.aheadPc := by rw [h.fetch]

theorem CodeMaps.spec (h : CodeMaps va ra u v) (k : Reg) : v.spec k = u.spec k := by rw [State.spec, State.spec, h.sr]

theorem CodeMaps.space (h : CodeMaps va ra u v) : v.space = u.space := State.space_congr h.mode h.sr

theorem CodeMaps.mixed (h : CodeMaps va ra u v) (a : Word) : v.fetch.mixed v.space a = u.fetch.mixed u.space a := by
  rw [FetchState.mixed, FetchState.mixed, h.seen, h.space]

/-- The code further on in the page that was translated lies further on in memory, and translating it again changes nothing. -/
theorem CodeMaps.next (h : CodeMaps va ra u v) {k : Nat} (hk : va.toNat + k < 2 ^ 32)
    (hp : u.mode = .user → pageOf (va + BitVec.ofNat 32 k) = pageOf va) :
    ∃ ra', ra'.toNat = ra.toNat + k ∧ CodeMaps (va + BitVec.ofNat 32 k) ra' v v := by
  rcases h with ⟨hm, rfl, rfl⟩ | ⟨hm, rp, h, rfl⟩
  · exact ⟨_, toNat_add_ofNat hk, .inl ⟨hm, rfl, rfl⟩⟩
  · obtain ⟨entry, he, hr⟩ := h.inTmt
    exact ⟨_, toNat_realAddress_add rp hk (hp hm),
      .inr ⟨h.mode.trans hm, rp, .inl ⟨entry, by rw [hp hm, he], hr, rfl⟩, rfl⟩⟩

end

/-! ### The states a fetch passes through -/

/-- A fetch stands at `t` where, but for what it notes, the state is `u`: the fetch-ahead buffer kept or dropped as at its
beginning, and no stretch noted but of the same space. -/
structure FetchingIn (u t : State) : Prop where
  frame : t = { u with fetch := t.fetch, accessed := t.accessed }
  stale : t.fetch.stale = u.fetch.stale
  ahead : t.fetch.ahead = u.dropAhead.fetch.ahead
  seen : ∀ x ∈ t.fetch.seen, x ∈ u.fetch.seen ∨ x.space = u.space

theorem fetchingIn_dropAhead (u : State) : FetchingIn u u.dropAhead where
  frame := by unfold State.dropAhead; split <;> rfl
  stale := u.dropAhead_stale
  ahead := rfl
  seen := fun x hx => .inl (u.dropAhead_seen ▸ hx)

section
variable {u v t : State}

theorem FetchingIn.pc (h : FetchingIn u t) : t.pc = u.pc := by rw [h.frame]
theorem FetchingIn.mode (h : FetchingIn u t) : t.mode = u.mode := by rw [h.frame]
theorem FetchingIn.sr (h : FetchingIn u t) : t.sr = u.sr := by rw [h.frame]
theorem FetchingIn.mem (h : FetchingIn u t) : t.mem = u.mem := by rw [h.frame]
theorem FetchingIn.installed (h : FetchingIn u t) : t.installed = u.installed := by rw [h.frame]
theorem FetchingIn.draws (h : FetchingIn u t) : t.draws = u.draws := by rw [h.frame]
theorem FetchingIn.alone (h : FetchingIn u t) (ha : Alone u) : Alone t := by rw [h.frame]; exact ha

theorem FetchingIn.spec (h : FetchingIn u t) (k : Reg) : t.spec k = u.spec k := by rw [State.spec, State.spec, h.sr]

theorem FetchingIn.space (h : FetchingIn u t) : t.space = u.space := State.space_congr h.mode h.sr

/-- What no fetch from `u` may show of old bytes, none may show on the way. -/
theorem FetchingIn.old_eq_nil (h : FetchingIn u t) {a : Nat} (ho : u.fetch.old a = []) : t.fetch.old a = [] := by
  rw [FetchState.old, List.append_eq_nil_iff] at ho
  rw [FetchState.old, h.stale, ho.1, h.ahead, State.dropAhead_ahead]
  split
  · exact ho.2
  · rfl

/-- Nor of another space. -/
theorem FetchingIn.mixed_eq_false (h : FetchingIn u t) {a : Word} (hm : u.fetch.mixed u.space a = false) :
    t.fetch.mixed t.space a = false := by
  rw [FetchState.mixed, List.any_eq_false] at hm ⊢
  intro x hx
  rcases h.seen x hx with hx | hx
  · rw [h.space]
    exact hm x hx
  · simp [h.space, hx]

theorem FetchingIn.noteFetch (h : FetchingIn u t) (n : Nat) : FetchingIn u (t.noteFetch n) where
  frame := by rw [State.noteFetch, h.frame]
  stale := by rw [State.noteFetch_stale, h.stale]
  ahead := by rw [State.noteFetch_ahead, h.ahead]
  seen := fun x hx => by
    rcases (t.mem_noteFetch_seen n x).mp hx with hx | rfl
    · exact h.seen x hx
    · exact .inr h.space

theorem FetchingIn.recordAccess (h : FetchingIn u t) (segment : Word) (page : Page) (w : Bool) :
    FetchingIn u (t.recordAccess segment page w) where
  frame := by rw [State.recordAccess, h.frame]
  stale := h.stale
  ahead := h.ahead
  seen := h.seen

/-- The state `v` with what a fetch that stands at `t` has noted. -/
def State.notedIn (t v : State) : State :=
  { v with fetch := { t.fetch with stale := v.fetch.stale }, accessed := t.accessed }

theorem FetchingIn.eq_notedIn (h : FetchingIn u t) : t = t.notedIn u := by
  rw [State.notedIn, ← h.stale]
  exact h.frame

theorem State.notedIn_drawn (t u : State) : t.notedIn u.drawn = (t.notedIn u).drawn := rfl

theorem State.notedIn_setTmt (t u : State) (seg : Segment) (l : List TmtEntry) :
    t.notedIn (u.setTmt seg l) = (t.notedIn u).setTmt seg l := by
  cases seg <;> rfl

theorem State.notedIn_setWord (t u : State) (a w : Word) : t.notedIn (u.setWord a w) = (t.notedIn u).setWord a w := rfl

theorem State.notedIn_markEntry (t u : State) (ea : Word) (f : Double → Double) :
    t.notedIn (u.markEntry ea f) = (t.notedIn u).markEntry ea f := by
  unfold State.markEntry
  dsimp only
  rw [State.notedIn_setWord, State.notedIn_setWord]
  rfl

/-- A translation from `u` is one from where the fetch stands. -/
theorem Maps.notedIn {seg : Segment} {segment va : Word} {rp : Page} (h : Maps seg segment va rp u v)
    (ht : FetchingIn u t) : Maps seg segment va rp t (t.notedIn v) := by
  have htmt : t.tmt seg = u.tmt seg := by rw [ht.frame]; cases seg <;> rfl
  rcases h with ⟨entry, h1, hr, rfl⟩ | ⟨ea, e, h1, h2, hr, rfl⟩
  · exact .inl ⟨entry, by rw [htmt, h1], hr, ht.eq_notedIn.symm⟩
  · refine .inr ⟨ea, e, by rw [htmt, h1], h2.congr ht.mem ht.installed ht.sr, hr, ?_⟩
    rw [State.notedIn_drawn, State.notedIn_setTmt, State.notedIn_markEntry, ← ht.eq_notedIn, htmt, ht.draws]

theorem FetchingIn.notedIn {va ra : Word} (ht : FetchingIn u t) (h : CodeMaps va ra u v) :
    FetchingIn v (t.notedIn v) where
  frame := rfl
  stale := rfl
  ahead := by
    rw [State.dropAhead_ahead, h.ahead, h.aheadPc, h.pc, ← State.dropAhead_ahead]
    exact ht.ahead
  seen := fun x hx => by
    rw [h.seen, h.space]
    exact ht.seen x hx

end

/-- From `t` to `t'` the accesses to the pages of `m` bytes at `va` were noted, and no other; in kernel mode none (R123). The mode
and the code segment are those of `u`. -/
structure StretchNoted (va : Word) (m : Nat) (u t t' : State) : Prop where
  kernel : u.mode = .kernel → t'.accessed = t.accessed
  mem : ∀ x, x ∈ t'.accessed ↔ x ∈ t.accessed ∨
    u.mode = .user ∧ ∃ k < m, x = { segment := u.spec 8, page := pageOf (va + BitVec.ofNat 32 k), stored := false }

/-- A fetch of `m` bytes at `va`, whose translations lead from `u` to `v`, took the state from `t` to `t'`: old bytes are as `v`
has them, and the accesses are noted. -/
structure StretchFetched (va : Word) (m : Nat) (u v t t' : State) : Prop where
  fetching : FetchingIn v t'
  fetch : t'.fetch = { t.fetch with stale := v.fetch.stale }
  noted : StretchNoted va m u t t'

/-- The translation of an address of code, wherever the fetch stands. -/
theorem FetchingIn.resolve {va ra : Word} {u v t : State} (ht : FetchingIn u t) (h : CodeMaps va ra u v) (ha : Alone u) :
    ∃ t', Machine.resolve .code va false t = .ok ra t' ∧ StretchFetched va 1 u v t t' := by
  rcases h with ⟨hm, rfl, rfl⟩ | ⟨hm, rp, hmap, rfl⟩
  · refine ⟨t, resolve_kernel _ _ _ _ (ht.mode.trans hm), ht, by rw [← ht.stale], fun _ => rfl, fun x => ?_⟩
    simp [hm]
  · have hs : t.segNumber .code = u.spec 8 := ht.spec 8
    have hv : (t.notedIn v).segNumber .code = u.spec 8 := (CodeMaps.spec (.inr ⟨hm, rp, hmap, rfl⟩) 8 :)
    have hr := resolve_maps .code va false t (t.notedIn v) rp (ht.mode.trans hm) (ht.alone ha)
      (hs.symm ▸ hmap.notedIn ht)
    rw [hv] at hr
    refine ⟨_, hr, (ht.notedIn (.inr ⟨hm, rp, hmap, rfl⟩)).recordAccess _ _ _, rfl, fun hk => ?_, fun x => ?_⟩
    · rw [hm] at hk
      cases hk
    rw [State.mem_recordAccess]
    refine or_congr_right ⟨fun hx => ⟨hm, 0, Nat.one_pos, by rw [hx, add_ofNat_zero]⟩, ?_⟩
    rintro ⟨-, k, hk, rfl⟩
    rw [Nat.lt_one_iff.mp hk, add_ofNat_zero]

/-! ### One halfword -/

/-- The two bytes of a halfword at an even address lie in one page. -/
theorem pageOf_succ_of_even {va : Word} (h : va.toNat % 2 = 0) : pageOf (va + BitVec.ofNat 32 1) = pageOf va := by
  have := va.isLt
  rw [pageOf_eq_iff, toNat_add_ofNat (by omega)]
  omega

theorem Shows.pair {a : Nat} {b0 b1 : Byte} {s : State} (h : Shows a 2 [b0, b1] s) :
    s.backed a 2 = true ∧ s.fetch.old a = [] ∧ s.fetch.old (a + 1) = [] ∧ b0 = s.mem.read a ∧ b1 = s.mem.read (a + 1) := by
  obtain ⟨hb, hf, hbytes⟩ := h
  have hbytes : [b0, b1] = [s.mem.read a, s.mem.read (a + 1)] := hbytes
  simp only [List.cons.injEq, and_true] at hbytes
  exact ⟨hb, hf 0 (by omega), hf 1 (by omega), hbytes.1, hbytes.2⟩

/-- A halfword that is there is fetched as it is. -/
theorem FetchingIn.fetchHalfOf {va ra : Word} {b0 b1 : Byte} {u v t : State} (ht : FetchingIn u t)
    (h : CodeMaps va ra u v) (ha : Alone u) (hev : va.toNat % 2 = 0) (hs : Shows ra.toNat 2 [b0, b1] v)
    (hm0 : u.fetch.mixed u.space va = false) (hm1 : u.fetch.mixed u.space (va + 1) = false) (len : Nat) :
    ∃ t', Machine.fetchHalfOf len none va t = .ok (b0, b1) t' ∧ StretchFetched va 2 u v t t' := by
  obtain ⟨t', hr, hf⟩ := ht.resolve h ha
  obtain ⟨hb, h0, h1, rfl, rfl⟩ := hs.pair
  have ht' := hf.fetching
  have hp := fetchPair_fresh (va := va) (ra := ra) (s := t') (by rw [State.backed_congr v t' _ _ ht'.installed, hb])
    (ht'.old_eq_nil h0) (ht'.old_eq_nil h1) (ht'.mixed_eq_false (by rw [h.mixed, hm0]))
    (ht'.mixed_eq_false (by rw [h.mixed, hm1]))
  rw [ht'.mem] at hp
  refine ⟨t', fetchHalfOf_pair hr rfl (ht'.alone (h.alone ha)) hp, ht', hf.fetch, hf.noted.kernel, fun x => ?_⟩
  rw [hf.noted.mem x]
  refine or_congr_right (and_congr_right fun _ => ⟨?_, ?_⟩)
  · rintro ⟨k, hk, rfl⟩
    exact ⟨k, by omega, rfl⟩
  · rintro ⟨k, hk, rfl⟩
    refine ⟨0, Nat.one_pos, ?_⟩
    obtain rfl | rfl : k = 0 ∨ k = 1 := by omega
    · rfl
    · rw [pageOf_succ_of_even hev, add_ofNat_zero]

/-! ### All of them -/

/-- The code from `va` on is these bytes, halfword by halfword, and translating them leads from `u` to `w`. -/
inductive HalvesShow : Word → List Byte → State → State → Prop
  | nil {va : Word} {u : State} : HalvesShow va [] u u
  | cons {va ra : Word} {b0 b1 : Byte} {rest : List Byte} {u v w : State} (hmap : CodeMaps va ra u v)
      (hshow : Shows ra.toNat 2 [b0, b1] v) (hrest : HalvesShow (va + 2) rest v w) :
      HalvesShow va (b0 :: b1 :: rest) u w

theorem add_ofNat_add (va : Word) (j k : Nat) :
    va + BitVec.ofNat 32 j + BitVec.ofNat 32 k = va + BitVec.ofNat 32 (j + k) := by
  rw [BitVec.ofNat_add, add_assoc]

theorem StretchNoted.trans {va : Word} {j k : Nat} {u v t t1 t2 : State} (h : StretchNoted va j u t t1)
    (hm : v.mode = u.mode) (hs : v.spec 8 = u.spec 8) (h' : StretchNoted (va + BitVec.ofNat 32 j) k v t1 t2) :
    StretchNoted va (j + k) u t t2 := by
  refine ⟨fun hu => (h'.kernel (hm.trans hu)).trans (h.kernel hu), fun x => ?_⟩
  rw [h'.mem x, h.mem x, hm, hs, or_assoc, ← and_or_left]
  refine or_congr_right (and_congr_right fun _ => ⟨?_, ?_⟩)
  · rintro (⟨i, hi, rfl⟩ | ⟨i, hi, rfl⟩)
    · exact ⟨i, by omega, rfl⟩
    · exact ⟨j + i, by omega, by rw [add_ofNat_add]⟩
  · rintro ⟨i, hi, rfl⟩
    by_cases hij : i < j
    · exact .inl ⟨i, hij, rfl⟩
    · exact .inr ⟨i - j, by omega, by rw [add_ofNat_add, Nat.add_sub_cancel' (by omega)]⟩

theorem StretchFetched.trans {va : Word} {j k : Nat} {u v w t t1 t2 : State} (h : StretchFetched va j u v t t1)
    (hm : v.mode = u.mode) (hs : v.spec 8 = u.spec 8)
    (h' : StretchFetched (va + BitVec.ofNat 32 j) k v w t1 t2) : StretchFetched va (j + k) u w t t2 where
  fetching := h'.fetching
  fetch := by rw [h'.fetch, h.fetch]
  noted := h.noted.trans hm hs h'.noted

theorem even_add_two {va : Word} (h : va.toNat % 2 = 0) : (va + 2).toNat % 2 = 0 := by
  rw [BitVec.toNat_add, show (2 : Word).toNat = 2 from rfl]
  omega

/-- The halfwords are fetched as they are. -/
theorem HalvesShow.fetchTail {va : Word} {bytes : List Byte} {u w t : State} (h : HalvesShow va bytes u w)
    (ht : FetchingIn u t) (ha : Alone u) (hev : va.toNat % 2 = 0)
    (hm : ∀ k < bytes.length, u.fetch.mixed u.space (va + BitVec.ofNat 32 k) = false) (len : Nat) :
    ∃ t', Machine.fetchTail len none (bytes.length / 2) va t = .ok bytes t' ∧
      StretchFetched va bytes.length u w t t' := by
  induction h generalizing t with
  | nil => exact ⟨t, rfl, ht, by rw [← ht.stale], fun _ => rfl, fun x => by simp⟩
  | @cons va ra b0 b1 rest u v w hmap hshow hrest ih =>
    have hlen : (b0 :: b1 :: rest).length = 2 + rest.length := by simp only [List.length_cons]; omega
    rw [hlen] at hm ⊢
    have hm0 := hm 0 (by omega)
    rw [add_ofNat_zero] at hm0
    obtain ⟨t1, h1, hf1⟩ := ht.fetchHalfOf hmap ha hev hshow hm0 (hm 1 (by omega)) len
    obtain ⟨t2, h2, hf2⟩ := ih hf1.fetching (hmap.alone ha) (even_add_two hev) fun k hk => by
      rw [hmap.mixed]
      exact add_ofNat_add va 2 k ▸ hm (2 + k) (by omega)
    refine ⟨t2, ?_, hf1.trans hmap.mode (hmap.spec 8) hf2⟩
    rw [show (2 + rest.length) / 2 = rest.length / 2 + 1 by omega, Machine.fetchTail, h1, Access.ok_bind, h2,
      Access.ok_bind]

end Sys2Proof.Machine
end

section
/-! SUPPORT. The bytes at the pc, in the terms of statements, are fetched by a step; and the theorems that settle
`Obligations.StepRunsTranslatedInstruction`, `Obligations.StepRunsDecodedInstruction` and `Obligations.RefusedFetches`. -/

namespace Sys2Proof.Machine

/-! ### Bytes at the pc, halfword by halfword -/

@[simp] theorem State.length_bytesAt (s : State) (a n : Nat) : (s.bytesAt a n).length = n := by simp [State.bytesAt]

theorem State.bytesAt_add (s : State) (a j k : Nat) : s.bytesAt a (j + k) = s.bytesAt a j ++ s.bytesAt (a + j) k := by
  simp [State.bytesAt, List.range_add, Nat.add_assoc, Function.comp_def]

theorem Shows.length {a n : Nat} {bytes : List Byte} {s : State} (h : Shows a n bytes s) : bytes.length = n := by
  obtain ⟨-, -, rfl⟩ := h
  exact s.length_bytesAt a n

/-- Bytes that a fetch shows are its first ones followed by the others. -/
theorem Shows.split {a j k : Nat} {bytes : List Byte} {s : State} (h : Shows a (j + k) bytes s) :
    ∃ rest, bytes = s.bytesAt a j ++ rest ∧ Shows a j (s.bytesAt a j) s ∧ Shows (a + j) k rest s := by
  obtain ⟨hb, hf, rfl⟩ := h
  rw [State.backed_add] at hb
  exact ⟨_, s.bytesAt_add a j k, ⟨hb.1, fun i hi => hf i (by omega), rfl⟩,
    hb.2, fun i hi => by rw [Nat.add_assoc]; exact hf (j + i) (by omega), rfl⟩

/-- Bytes in one page, or in kernel mode anywhere, are there halfword by halfword. -/
theorem HalvesShow.of_shows {m : Nat} {va ra : Word} {bytes : List Byte} {u v : State} (hmap : CodeMaps va ra u v)
    (h : Shows ra.toNat (2 * (m + 1)) bytes v) (hin : va.toNat + 2 * (m + 1) ≤ 2 ^ 32)
    (hp : u.mode = .user → ∀ k < 2 * (m + 1), pageOf (va + BitVec.ofNat 32 k) = pageOf va) :
    HalvesShow va bytes u v := by
  induction m generalizing va ra bytes u with
  | zero =>
    obtain ⟨hb, hf, rfl⟩ := h
    exact .cons hmap ⟨hb, hf, rfl⟩ .nil
  | succ m ih =>
    rw [show 2 * (m + 1 + 1) = 2 + 2 * (m + 1) by omega] at h hin hp
    obtain ⟨rest, rfl, hfirst, hrest⟩ := h.split
    obtain ⟨ra', hra', hmap'⟩ := hmap.next (k := 2) (by omega) fun hu => hp hu 2 (by omega)
    refine .cons hmap hfirst (ih hmap' (by rwa [hra']) ?_ fun hv k hk => ?_)
    · rw [show va + 2 = va + BitVec.ofNat 32 2 from rfl, toNat_add_ofNat (by omega)]
      omega
    · have hu := hmap.mode ▸ hv
      rw [show va + 2 = va + BitVec.ofNat 32 2 from rfl, add_ofNat_add, hp hu (2 + k) (by omega), hp hu 2 (by omega)]

theorem HalvesShow.append {va : Word} {first rest : List Byte} {u v w : State} (h : HalvesShow va first u v)
    (h' : HalvesShow (va + BitVec.ofNat 32 first.length) rest v w) : HalvesShow va (first ++ rest) u w := by
  induction h with
  | nil => rwa [List.length_nil, add_ofNat_zero] at h'
  | @cons va ra b0 b1 bs u v x hmap hshow hrest ih =>
    refine .cons hmap hshow (ih ?_)
    rwa [show (b0 :: b1 :: bs).length = 2 + bs.length by simp only [List.length_cons]; omega, ← add_ofNat_add] at h'

theorem PageShows.halvesShow {va : Word} {n : Nat} {bytes : List Byte} {u v : State} (h : PageShows va n bytes u v)
    (hm : u.mode = .user) (hin : va.toNat + n ≤ 2 ^ 32) (hn : 0 < n) (hn2 : n % 2 = 0) :
    HalvesShow va bytes u v ∧ bytes.length = n := by
  obtain ⟨hpage, rp, hmap, hs⟩ := h
  obtain ⟨m, rfl⟩ : ∃ m, n = 2 * (m + 1) := ⟨n / 2 - 1, by omega⟩
  exact ⟨.of_shows (.inr ⟨hm, rp, hmap, rfl⟩) hs hin
    fun _ k hk => pageOf_add_of_le (by omega) hpage.symm (by omega), hs.length⟩

/-- The bytes at the pc that statements speak of are there halfword by halfword: an instruction that straddles two pages does so
between two halfwords (R90). -/
theorem CodeBytes.halvesShow {n : Nat} {bytes : List Byte} {s s1 : State} (h : CodeBytes n bytes s s1)
    (hpc : s.pc.toNat % 2 = 0) (hn : 0 < n) (hn2 : n % 2 = 0) : HalvesShow s.pc bytes s s1 ∧ bytes.length = n := by
  obtain ⟨hin, ⟨hm, rfl, hs⟩ | ⟨hm, hp⟩ | ⟨hm, k, first, rest, s0, hk, hkn, hout, hp0, hp1, rfl⟩⟩ := h
  · obtain ⟨m, rfl⟩ : ∃ m, n = 2 * (m + 1) := ⟨n / 2 - 1, by omega⟩
    refine ⟨.of_shows (.inl ⟨hm, rfl, rfl⟩) hs hin fun hu => ?_, hs.length⟩
    rw [hm] at hu
    cases hu
  · exact hp.halvesShow hm hin hn hn2
  · have h4096 := secondPage_aligned hk (by omega) hp0.1.symm hout
    obtain ⟨h0, hl0⟩ := hp0.halvesShow hm (by omega) hk (by omega)
    have hm0 : s0.mode = .user := by
      obtain ⟨-, rp, hmap, -⟩ := hp0
      exact hmap.mode.trans hm
    obtain ⟨h1, hl1⟩ := hp1.halvesShow hm0 (by rw [toNat_add_ofNat (by omega)]; omega) (by omega) (by omega)
    rw [← hl0] at h1
    exact ⟨h0.append h1, by rw [List.length_append, hl0, hl1]; omega⟩

/-! ### The fetch -/

/-- The first halfword of those bytes is fetched, and the others are left to fetch. -/
theorem CodeBytes.first {n : Nat} {bytes : List Byte} {s s1 : State} (h : CodeBytes n bytes s s1)
    (hpc : s.pc.toNat % 2 = 0) (hn : 0 < n) (hn2 : n % 2 = 0) (ha : Alone s) (hu : Unmixed n s) :
    ∃ b0 b1 rest ra v t, bytes = b0 :: b1 :: rest ∧ n = 2 + rest.length ∧ CodeMaps s.pc ra s v ∧
      HalvesShow (s.pc + 2) rest v s1 ∧
      Machine.fetchHalfOf 6 none s.dropAhead.pc s.dropAhead = .ok (b0, b1) t ∧
      StretchFetched s.pc 2 s v s.dropAhead t := by
  obtain ⟨hh, hl⟩ := h.halvesShow hpc hn hn2
  generalize hva : s.pc = va at hh
  cases hh with
  | nil => simp at hl; omega
  | @cons va ra b0 b1 rest u v w hmap hshow hrest =>
    subst hva
    rw [List.length_cons, List.length_cons] at hl
    have hm0 := hu 0 (by omega)
    rw [add_ofNat_zero] at hm0
    obtain ⟨t, ht, hf⟩ := (fetchingIn_dropAhead s).fetchHalfOf hmap ha hpc hshow hm0 (hu 1 (by omega)) 6
    exact ⟨b0, b1, rest, ra, v, t, rfl, by omega, hmap, hrest, by rwa [s.dropAhead_pc], hf⟩

/-- What fetching the `n` bytes at the pc leaves: `s1` but for the notes. -/
structure CodeFetched (n : Nat) (s s1 t : State) : Prop where
  frame : t = { s1 with fetch := t.fetch, accessed := t.accessed }
  fetchNoted : FetchNoted n s1 t
  accesses : StretchNoted s.pc n s s t


/-- Translations leave the pc, the space, and of the cache all but the old bytes. -/
theorem HalvesShow.keeps {va : Word} {bytes : List Byte} {u w : State} (h : HalvesShow va bytes u w) :
    w.pc = u.pc ∧ w.fetch = { u.fetch with stale := w.fetch.stale } ∧ w.space = u.space := by
  induction h with
  | nil => exact ⟨rfl, rfl, rfl⟩
  | cons hmap _ _ ih =>
    obtain ⟨hp, hf, hs⟩ := ih
    exact ⟨hp.trans hmap.pc, by rw [hf, hmap.fetch], hs.trans hmap.space⟩

/-- What the first halfword and the others note adds up to what statements say of the whole instruction. -/
theorem HalvesShow.codeFetched {ra : Word} {rest : List Byte} {m : Nat} {s v s1 t1 t2 : State}
    (hmap : CodeMaps s.pc ra s v) (hrest : HalvesShow (s.pc + 2) rest v s1)
    (h1 : StretchFetched s.pc 2 s v s.dropAhead t1)
    (h2 : StretchFetched (s.pc + 2) m v s1 (t1.noteFetch (2 + m)) t2) :
    CodeFetched (2 + m) s s1 (t2.afterFetch (2 + m)) := by
  obtain ⟨hpc, hfetch, hspace⟩ := hrest.keeps
  have ht2 := h2.fetching
  have hseen2 : t2.fetch.seen = (t1.noteFetch (2 + m)).fetch.seen := by rw [h2.fetch]
  have hseen1 : t1.fetch.seen = s1.fetch.seen := by
    rw [h1.fetch, hfetch, hmap.fetch]
    exact s.dropAhead_seen
  have hspace1 : t1.space = s1.space := h1.fetching.space.trans hspace.symm
  have hpc1 : t1.pc = s1.pc := h1.fetching.pc.trans hpc.symm
  refine ⟨?_, ⟨ht2.stale, ?_, ?_, fun x => ?_⟩, ?_⟩
  · rw [State.afterFetch, ht2.frame]
  · rw [State.afterFetch_aheadPc, State.nextPc, ht2.pc]
  · rw [State.afterFetch_ahead, ht2.ahead, State.dropAhead_ahead]
    split <;> rfl
  · rw [State.afterFetch_seen, hseen2, State.mem_noteFetch_seen, hseen1, hspace1, hpc1]
  · have hfirst : StretchNoted s.pc 2 s s.dropAhead (t1.noteFetch (2 + m)) := ⟨h1.noted.kernel, h1.noted.mem⟩
    have hboth := hfirst.trans hmap.mode (hmap.spec 8) h2.noted
    refine ⟨fun hm => (hboth.kernel hm).trans s.dropAhead_accessed, fun x => ?_⟩
    rw [← s.dropAhead_accessed]
    exact hboth.mem x

/-- The bytes at the pc are fetched, and what that leaves, once the buffer has gone on, is `s1` but for the notes. -/
theorem CodeBytes.fetchBytes {n : Nat} {bytes : List Byte} {s s1 : State} (h : CodeBytes n bytes s s1)
    (hpc : s.pc.toNat % 2 = 0) (hn : n = lengthOf (bytes.headD 0)) (ha : Alone s) (hu : Unmixed n s) :
    ∃ t, Machine.fetchBytes none s.dropAhead = .ok bytes t ∧ CodeFetched n s s1 (t.afterFetch bytes.length) := by
  have hl := lengthOf_cases (bytes.headD 0)
  obtain ⟨b0, b1, rest, ra, v, t1, rfl, rfl, hmap, hrest, h1, hf1⟩ := h.first hpc (by omega) (by omega) ha hu
  rw [List.headD_cons] at hn hl
  have hin : s.dropAhead.pc.toNat + lengthOf b0 ≤ 2 ^ 32 := by
    rw [s.dropAhead_pc, ← hn]
    exact h.1
  obtain ⟨t2, h2, hf2⟩ := hrest.fetchTail (hf1.fetching.noteFetch (2 + rest.length)) (hmap.alone ha) (even_add_two hpc)
    (fun k hk => by
      rw [hmap.mixed]
      exact add_ofNat_add s.pc 2 k ▸ hu (2 + k) (by omega)) (2 + rest.length)
  refine ⟨t2, ?_, ?_⟩
  · rw [fetchBytes_of_first h1 hin, ← hn, s.dropAhead_pc, show (2 + rest.length) / 2 - 1 = rest.length / 2 by omega, h2,
      Access.ok_bind]
    rfl
  · rw [show (b0 :: b1 :: rest).length = 2 + rest.length by simp only [List.length_cons]; omega]
    exact hrest.codeFetched hmap hf1 hf2

/-! ### The step -/

theorem nextBoundary_of_quiet {s : State} (hw : s.world = []) (ha : Alone s) : nextBoundary s = (.quiet, s) := by
  have hs : { s with within := [] } = s := by rw [← show s.within = [] from ha]
  unfold nextBoundary
  split
  · rw [hs]
  · rename_i h
    rw [hw] at h
    cases h

theorem closeBoundary_quiet {s : State} (hp : s.paused = false) : closeBoundary .quiet s = .instruction none s := by
  simp [closeBoundary, acceptSource, Boundary.quiet, hp]

/-- A step at a quiet boundary is the instruction at the pc. -/
theorem step_of_quiet {s : State} (h : Quiet s) (hpc : s.pc.toNat % 2 = 0) : step s = runInstruction none s := by
  obtain ⟨hw, hp, ha⟩ := h
  refine step_of_instruction ?_
  rw [openBoundary, if_neg (by omega), nextBoundary_of_quiet hw ha]
  exact closeBoundary_quiet hp

/-- What the bytes at the pc lead to, in the state that fetching them leaves. -/
theorem CodeBytes.fetchInstruction {n : Nat} {bytes : List Byte} {s s1 : State} (h : CodeBytes n bytes s s1)
    (hpc : s.pc.toNat % 2 = 0) (hn : n = lengthOf (bytes.headD 0)) (ha : Alone s) (hu : Unmixed n s) :
    ∃ t, Machine.fetchInstruction none s = dispatchBytes bytes t ∧ CodeFetched n s s1 t := by
  obtain ⟨t, ht, hf⟩ := h.fetchBytes hpc hn ha hu
  exact ⟨_, by rw [Machine.fetchInstruction, ht], hf⟩

/-- Bytes that decode to an instruction are executed. -/
theorem CodeBytes.step_instr {n : Nat} {bytes : List Byte} {i : Instr} {s s1 : State} (h : CodeBytes n bytes s s1)
    (hq : Quiet s) (hpc : s.pc.toNat % 2 = 0) (hn : n = (encode i).length) (hu : Unmixed n s)
    (hd : decode bytes = .instr i) : ∃ t, step s = exec i t ∧ CodeFetched n s s1 t := by
  obtain ⟨t, ht, hf⟩ := h.fetchInstruction hpc (hn.trans (length_encode_of_decode hd)) hq.2.2 hu
  exact ⟨t, by rw [step_of_quiet hq hpc, runInstruction, ht, dispatchBytes, hd], hf⟩

/-- Settles O6: the bytes are fetched halfword by halfword, in one page or across two, and executed. -/
theorem stepRunsTranslatedInstruction : Obligations.StepRunsTranslatedInstruction := by
  intro s s1 i n bytes hq hm hpc hn hb hu hd
  obtain ⟨t, hs, hf⟩ := hb.step_instr hq hpc hn hu hd
  exact ⟨t, hs, fun x => by rw [hf.frame], hf.frame, hf.fetchNoted, hf.accesses.mem⟩

/-- Settles O5: the same in kernel mode, where no access is noted. -/
theorem stepRunsDecodedInstruction : Obligations.StepRunsDecodedInstruction := by
  intro s i n hq hm hpc hn hin hb hf hu hd
  have hbytes : CodeBytes n (s.bytesAt s.pc.toNat n) s s := ⟨hin, .inl ⟨hm, rfl, hb, hf, rfl⟩⟩
  obtain ⟨t, hs, hf⟩ := hbytes.step_instr hq hpc hn hu hd
  refine ⟨t, hs, ?_, hf.fetchNoted⟩
  have hframe := hf.frame
  rwa [hf.accesses.kernel hm] at hframe

/-! ### Refusals -/

theorem advance_past {len : Nat} {s : State} (h : 2 ^ 32 ≤ s.pc.toNat + len) :
    advance len s = .refused .pastLastAddress :=
  if_neg (by omega)

/-- A maintenance opcode with an unlisted subop (R166). -/
theorem decode_unlisted_subop {r1 r2 : Reg} (h : r2 ∉ ([0, 1, 6, 7, 8] : List Reg)) :
    decode [0x4C, r1 ++ r2] = .unassignedSubop r2 := by
  have hfield : fieldR2 (r1 ++ r2) = r2 := BitVec.extractLsb'_append_eq_right
  have hlookup : maintenanceRows.lookup r2 = none := by
    rw [List.lookup_eq_none_iff]
    simpa [maintenanceRows] using h
  have hdecode : decode [0x4C, r1 ++ r2] = decodeRegister 0x4C (r1 ++ r2) := by
    simp only [decode, show lengthOf 0x4C = 2 by decide, if_true]
  rw [hdecode, decodeRegister, if_neg (by decide), if_pos rfl, hfield, hlookup]

/-- An instruction that ends past the last address is refused by the fetch (R39). -/
theorem CodeBytes.fetchBytes_past {op b : Byte} {s s1 : State} (h : CodeBytes 2 [op, b] s s1)
    (hpc : s.pc.toNat % 2 = 0) (ha : Alone s) (hu : Unmixed 2 s) (hl : 2 ^ 32 < s.pc.toNat + lengthOf op) :
    Machine.fetchBytes none s.dropAhead = .refused .pastLastAddress := by
  obtain ⟨b0, b1, rest, ra, v, t, hb, -, -, -, ht, -⟩ := h.first hpc (by omega) (by omega) ha hu
  simp only [List.cons.injEq] at hb
  obtain ⟨rfl, rfl, -⟩ := hb
  rw [Machine.fetchBytes, ht, Access.ok_bind]
  exact if_pos (by rwa [s.dropAhead_pc])

/-- A fetch where no memory is (R94). -/
theorem CodeMaps.fetchBytes_outside {ra : Word} {s s1 : State} (h : CodeMaps s.pc ra s s1) (ha : Alone s)
    (hi : s.installedAt ra.toNat = false) : Machine.fetchBytes none s.dropAhead = .fault (.outsideRealMemory ra.toNat) := by
  obtain ⟨t, hr, hf⟩ := (fetchingIn_dropAhead s).resolve h ha
  have ht := hf.fetching
  have hti : t.installedAt ra.toNat = false := by
    rw [State.installedAt_congr s t _ (ht.installed.trans h.installed), hi]
  have hhalf : Machine.fetchHalf none s.dropAhead.pc s.dropAhead = .fault (.outsideRealMemory ra.toNat) := by
    rw [s.dropAhead_pc, fetchHalf, hr]
    simp [errorIn, between_alone (ht.alone (h.alone ha)), fetchPair, fetchByte, hti]
  rw [Machine.fetchBytes, fetchHalfOf, hhalf, Access.fault_bind]

/-- Settles O8: each refusal by the operation that makes it, the boundary, the fetch, the decoder or the advance of the pc. -/
theorem refusedFetches : Obligations.RefusedFetches := by
  refine ⟨fun s hpc => ?_, fun s s1 r1 r2 hq hpc hb hu hr2 => ?_, fun s s1 op b hq hpc hb hu hl => ?_,
    fun s r1 r2 d w i hi hpc => ?_, fun s hq hpc hm hi => ?_, fun s s1 rp hq hpc hm hmap hi => ?_⟩
  · exact step_of_closed (if_pos (by omega))
  · obtain ⟨t, ht, -⟩ := hb.fetchInstruction hpc (show 2 = lengthOf 0x4C by decide) hq.2.2 hu
    rw [step_of_quiet hq hpc, runInstruction, ht, dispatchBytes, decode_unlisted_subop hr2]
  · rw [step_of_quiet hq hpc, runInstruction, fetchInstruction, hb.fetchBytes_past hpc hq.2.2 hu hl]
  · simp only [List.mem_cons, List.not_mem_nil, or_false] at hi
    rcases hi with rfl | rfl | rfl | rfl | rfl | rfl | rfl | rfl | rfl | rfl | rfl | rfl | rfl
    all_goals exact advance_past hpc
  · have hmap : CodeMaps s.pc s.pc s s := .inl ⟨hm, rfl, rfl⟩
    rw [step_of_quiet hq hpc, runInstruction, fetchInstruction, hmap.fetchBytes_outside hq.2.2 hi]
  · have hmap : CodeMaps s.pc (realAddress rp s.pc) s s1 := .inr ⟨hm, rp, hmap, rfl⟩
    rw [step_of_quiet hq hpc, runInstruction, fetchInstruction, hmap.fetchBytes_outside hq.2.2 hi]

end Sys2Proof.Machine
end

section
/-! SUPPORT. Every step keeps the invariant of Sys2Proof/Safety.lean: the instructions that the shared endings do not cover, all
instructions, the fetch, the boundary. With the theorems that settle `Obligations.StepKeepsInvariant` and
`Obligations.ResetHasInvariant`. -/

namespace Sys2Proof.Machine

/-! ### Instructions with an end of their own -/

section
variable {r1 r2 : Reg} {s t : State}

theorem State.Inv.execNeg (h : s.Inv) (he : Machine.execNeg r1 r2 s = .next t) : t.Inv := by
  unfold Machine.execNeg at he
  split at he
  · exact h.trapsWordEnd he
  · exact h.plainResult he

theorem State.Inv.execEdiv (h : s.Inv) (he : Machine.execEdiv r1 r2 s = .next t) : t.Inv := by
  unfold Machine.execEdiv at he
  dsimp only at he
  split at he
  · exact (h.scrambleReg _).trapsWordEnd he
  split at he
  · exact h.trapsWordEnd he
  · exact ((h.setReg _ _).setReg _ _).advance he

theorem State.Inv.execSbit (h : s.Inv) (he : Machine.execSbit r1 r2 s = .next t) : t.Inv :=
  inv_of_withBitNumber (fun _ => h.pairResult) he

theorem State.Inv.execCbit (h : s.Inv) (he : Machine.execCbit r1 r2 s = .next t) : t.Inv :=
  inv_of_withBitNumber (fun _ => h.pairResult) he

theorem State.Inv.execKcall {n : BitVec 8} (h : s.Inv) (he : Machine.execKcall n s = .next t) : t.Inv := by
  unfold Machine.execKcall at he
  split at he
  · exact h.takeException he
  · exact State.Inv.raise h he

theorem State.Inv.execSus (h : s.Inv) (he : Machine.execSus r1 r2 s = .next t) : t.Inv := by
  refine h.kernelOnly (fun _ => h.withProcess fun he => ?_) he
  rw [Access.finish_eq_next] at he
  rcases he with ⟨_, s2, h2, he⟩ | ⟨e, s2, h2, -⟩
  · rw [Access.bind_eq_ok] at h2
    obtain ⟨_, s1, h1, h2⟩ := h2
    exact ((State.Inv.busWrite h h1).saveRegisters h2).advance he
  · rw [Access.bind_eq_trap] at h2
    rcases h2 with h2 | ⟨_, s1, -, h2⟩
    · exact absurd h2 (busWrite32_ne_trap _ _ _ _ _)
    · exact absurd h2 saveRegisters_ne_trap

theorem State.Inv.execLus (h : s.Inv) (he : Machine.execLus r1 r2 s = .next t) : t.Inv := by
  refine h.kernelOnly (fun _ => h.withProcess fun he => ?_) he
  rw [Access.finish_eq_next] at he
  rcases he with ⟨_, s2, h2, he⟩ | ⟨e, s2, h2, -⟩
  · rw [Access.bind_eq_ok] at h2
    obtain ⟨_, s1, h1, h2⟩ := h2
    exact ((h.loadProcess h1).loadRegisters h2).flushTmt.flushFetch.advance he
  · rw [Access.bind_eq_trap] at h2
    rcases h2 with h2 | ⟨_, s1, -, h2⟩
    · exact absurd h2 loadProcess_ne_trap
    · exact absurd h2 loadRegisters_ne_trap

theorem State.Inv.execLdregs (h : s.Inv) (he : Machine.execLdregs r1 r2 s = .next t) : t.Inv := by
  refine h.kernelOnly (fun _ => h.withProcess fun he => ?_) he
  rw [Access.finish_eq_next] at he
  rcases he with ⟨_, s1, h1, he⟩ | ⟨e, s1, h1, -⟩
  · exact (h.loadRegisters h1).advance he
  · exact absurd h1 loadRegisters_ne_trap

/-- RUM begins a pause in kernel mode, and goes to user mode where no pause is under way (R440, R441). -/
theorem State.Inv.execRum (h : s.Inv) (hp : s.paused = false) (he : Machine.execRum r1 r2 s = .next t) : t.Inv := by
  refine h.kernelOnly (fun hm he => ?_) he
  split at he
  · have hpause : State.Inv { s with paused := true } := h.congr rfl rfl rfl rfl rfl rfl (fun _ => hm) h.ahead
    exact hpause.advance he
  · cases he
    refine h.congr rfl rfl rfl rfl rfl rfl (fun hpaused => ?_) h.ahead
    rw [State.resumeUser_paused, hp] at hpaused
    cases hpaused

theorem State.Inv.execMovesr (h : s.Inv) (he : Machine.execMovesr r1 r2 s = .next t) : t.Inv :=
  h.kernelOnly (fun _ he => (h.setSpec _ _).advance he) he

theorem State.Inv.execMovers (h : s.Inv) (he : Machine.execMovers r1 r2 s = .next t) : t.Inv :=
  h.kernelOnly (fun _ he => (h.setReg _ _).advance he) he

theorem State.Inv.execElogr (h : s.Inv) (he : Machine.execElogr r1 s = .next t) : t.Inv :=
  h.kernelOrPrivileged (fun he => (h.setReg _ _).drawn.advance he) he

theorem State.Inv.execElogw (h : s.Inv) (he : Machine.execElogw r1 s = .next t) : t.Inv :=
  h.kernelOrPrivileged (fun he => h.elogWrite.advance he) he

theorem State.Inv.execFlush (h : s.Inv) (he : Machine.execFlush r1 s = .next t) : t.Inv :=
  h.kernelOrPrivileged (fun he => h.flushTmt.flushCacheOnly.advance he) he

theorem State.Inv.execTrapexit (h : s.Inv) (he : Machine.execTrapexit r1 s = .next t) : t.Inv := by
  refine h.kernelOnly (fun _ he => ?_) he
  cases he
  exact h.flushTmt.flushFetch.setPc _

theorem State.Inv.execItest (h : s.Inv) (he : Machine.execItest r1 s = .next t) : t.Inv := by
  refine h.kernelOnly (fun _ he => ?_) he
  split at he
  · rename_i hx
    exact (((h.takeIoir hx).setReg _ _).setReg _ _).advance he
  · exact (h.setReg _ _).advance he

theorem State.Inv.ioTransaction (h : s.Inv) (x : IoTransaction) (a : Word) : (Machine.ioTransaction x a s).2.Inv :=
  h.congr rfl rfl rfl rfl rfl rfl h.pause h.ahead

theorem State.Inv.drawn3 (h : s.Inv) : s.drawn3.Inv := h.congr rfl rfl rfl rfl rfl rfl h.pause h.ahead

theorem State.Inv.execRead (h : s.Inv) (he : Machine.execRead r1 r2 s = .next t) : t.Inv :=
  h.kernelOrPrivileged
    (fun he => (((h.ioTransaction (.read (s.reg r2)) (s.reg r2)).drawn3.setReg _ _).setReg _ _).advance he) he

theorem State.Inv.execWrite (h : s.Inv) (he : Machine.execWrite r1 r2 s = .next t) : t.Inv :=
  h.kernelOrPrivileged
    (fun he => ((h.ioTransaction (.write (s.reg r2) (s.reg r1)) (s.reg r2)).drawn3.setReg _ _).advance he) he

end

/-! ### Every instruction -/

/-- An instruction executed outside the pause keeps the invariant. -/
theorem State.Inv.exec {i : Instr} {s t : State} (h : s.Inv) (hp : s.paused = false) (he : Machine.exec i s = .next t) :
    t.Inv := by
  cases i
  case move | not | or | xor | and | movei | noti | andi | float | lcomp | rcomp | dcomp | drcomp | testGt | testLt
      | testEq | testLe | testGe | testNe | testiGt | testiLt | testiEq | testiLe | testiGe | testiNe | csl | csli | lsl
      | lsli | lsr | lsri | asr | asri | seb | seh =>
    exact h.plainResult he
  case empy | makerd | dfloat | dlsl | dlsli | dlsr | dlsri => exact h.pairResult he
  case add | sub | mpy | addi | subi | mpyi => exact h.integerResult he
  case neg => exact h.execNeg he
  case div | rem => exact h.divideResult he
  case eadd | esub => exact h.carryResult he
  case ediv => exact h.execEdiv he
  case asl | asli => exact h.arithmeticLeft he
  case tbit => exact inv_of_withBitNumber (fun _ => h.plainResult) he
  case sbit => exact h.execSbit he
  case cbit => exact h.execCbit he
  case rneg | radd | rsub | rmpy | rdiv => exact h.realEnd he
  case drneg | dradd | drsub | drmpy | drdiv => exact h.doubleEnd he
  case makedr => exact h.makeRealEnd he
  case fixt | fixr | dfixt | dfixr => exact h.fixEnd he
  case chk | chki => exact h.checkEnd he
  case trap => exact h.trapsWordEnd he
  case kcall => exact h.execKcall he
  case nop => exact h.advance he
  case brGt | brGtL | brEq | brEqL | brLe | brLeL | brNe | brNeL | briGt | briGtL | briLt | briLtL | briEq | briEqL
      | briLe | briLeL | briGe | briGeL | briNe | briNeL =>
    exact h.branchIf he
  case loop | loopL => exact (h.setReg _ _).branchIf he
  case br | brL => cases he; exact h.setPc _
  case call | callL | callr | ret => exact h.linkAndGo he
  case loadb | loadbX | loadbL | loadbLX | loadbC | loadbCX | loadbCL | loadbCLX | loadh | loadhX | loadhL | loadhLX
      | loadhC | loadhCX | loadhCL | loadhCLX | load | loadX | loadL | loadLX | loadC | loadCX | loadCL | loadCLX =>
    exact h.loadTo he
  case loadd | loaddX | loaddL | loaddLX | loaddC | loaddCX | loaddCL | loaddCLX => exact h.loadPairTo he
  case storeb | storebX | storebL | storebLX | storeh | storehX | storehL | storehLX | store | storeX | storeL | storeLX
      | stored | storedX | storedL | storedLX =>
    exact h.storeFrom he
  case laddr | laddrX | laddrL | laddrLX | laddrC | laddrCX | laddrCL | laddrCLX => exact h.loadAddress he
  case sus => exact h.execSus he
  case lus => exact h.execLus he
  case ldregs => exact h.execLdregs he
  case rum => exact h.execRum hp he
  case movesr => exact h.execMovesr he
  case movers => exact h.execMovers he
  case trans | dirt => exact h.kernelOnly (fun _ he => h.translateExplicit he) he
  case trapexit => exact h.execTrapexit he
  case itest => exact h.execItest he
  case elogr => exact h.execElogr he
  case elogw => exact h.execElogw he
  case flush => exact h.execFlush he
  case read => exact h.execRead he
  case write => exact h.execWrite he

/-! ### The fetch -/

/-- An instruction that was fetched is executed in a state that meets the invariant, and the pause is as it was. -/
theorem State.Inv.fetchInstruction_run {err : Option Word} {i : Instr} {s t : State} (h : s.Inv)
    (he : Machine.fetchInstruction err s = .run i t) : t.Inv ∧ t.paused = s.paused := by
  unfold Machine.fetchInstruction at he
  split at he
  · rename_i bytes s1 hb
    unfold dispatchBytes at he
    split at he
    · cases he
      exact ⟨(h.dropAhead.fetchBytes hb).afterFetch, (fetchBytes_paused hb).trans s.dropAhead_paused⟩
    all_goals cases he
  all_goals cases he

theorem State.Inv.fetchInstruction_closed {err : Option Word} {s t : State} (h : s.Inv)
    (he : Machine.fetchInstruction err s = .closed (.next t)) : t.Inv := by
  unfold Machine.fetchInstruction at he
  split at he
  · rename_i bytes s1 hb
    unfold dispatchBytes at he
    split at he
    · cases he
    · injection he with he
      exact State.Inv.raise (h.dropAhead.fetchBytes hb).afterFetch he
    all_goals cases he
  · rename_i e s1 hb
    injection he with he
    exact State.Inv.raise (h.dropAhead.fetchBytes_trap hb) he
  all_goals cases he

theorem State.Inv.runInstruction {err : Option Word} {s t : State} (h : s.Inv) (hp : s.paused = false)
    (he : Machine.runInstruction err s = .next t) : t.Inv := by
  unfold Machine.runInstruction at he
  split at he
  · rename_i i s1 hf
    obtain ⟨h1, hp1⟩ := h.fetchInstruction_run hf
    exact h1.exec (hp1.trans hp) he
  · rename_i o hf
    subst he
    exact h.fetchInstruction_closed hf

/-! ### The boundary -/

/-- How a boundary keeps the invariant: in an instruction that is to run, outside the pause, or in the outcome of its own. -/
def Opening.Keeps : Opening → Prop
  | .closed o => ∀ t, o = .next t → t.Inv
  | .instruction _ s => s.Inv ∧ s.paused = false

theorem State.Inv.acceptSource {x : Option Source} {e : Exception} {s t : State} (h : s.Inv)
    (he : Machine.acceptSource x s = some (e, t)) : t.Inv := by
  unfold Machine.acceptSource at he
  split at he
  · cases he
  split at he
  · exact h.takeSource he
  · cases he

theorem State.Inv.closeBoundary {s : State} (h : s.Inv) (b : Boundary) : (Machine.closeBoundary b s).Keeps := by
  unfold Machine.closeBoundary
  split
  · rename_i hx
    exact fun t he => (h.acceptSource hx).takeException he
  split
  · rintro t ⟨⟩
    exact h
  · rename_i hp
    split
    · exact fun t he => State.Inv.raise h he
    · exact ⟨h, Bool.eq_false_of_not_eq_true hp⟩

theorem State.Inv.nextBoundary {s : State} (h : s.Inv) : (Machine.nextBoundary s).2.Inv := by
  unfold Machine.nextBoundary
  split <;> exact h.congr rfl rfl rfl rfl rfl rfl h.pause h.ahead

theorem State.Inv.openBoundary {s : State} (h : s.Inv) : (Machine.openBoundary s).Keeps := by
  unfold Machine.openBoundary
  split
  · rintro t ⟨⟩
  dsimp only
  split
  · rename_i he
    exact (h.nextBoundary.applyEvents he).closeBoundary _
  · rename_i he
    exact absurd he applyEvents_ne_trap
  all_goals rintro t ⟨⟩

/-! ### The step -/

/-- Settles O19: the boundary keeps the invariant and leaves an instruction only outside the pause, and the instruction keeps
it. -/
theorem stepKeepsInvariant : Obligations.StepKeepsInvariant := by
  intro s t h he
  have hb := h.openBoundary
  unfold step at he
  split at he
  · rename_i o ho
    rw [ho] at hb
    exact hb t he
  · rename_i err s1 ho
    rw [ho] at hb
    obtain ⟨h1, hp⟩ := hb
    exact h1.runInstruction hp he

/-- Settles O18: no byte, translation, request or buffered instruction is there after reset, and nothing pauses. -/
theorem resetHasInvariant : Obligations.ResetHasInvariant where
  memory := Memory.wf_nil
  backed := fun _ hc => absurd hc List.not_mem_nil
  codeTmt := ⟨Nat.zero_le _, List.nodup_nil⟩
  dataTmt := ⟨Nat.zero_le _, List.nodup_nil⟩
  elog := List.Pairwise.nil
  requests := List.nodup_nil
  pause := fun h => absurd h Bool.false_ne_true
  ahead := Nat.zero_le _

end Sys2Proof.Machine
end

section
/-! SUPPORT. The error logging RAM bit by bit, the status word, the emptied cache; and the theorem that settles
`Obligations.MaintenanceInstructions` (R452, R454, R460, R462). -/

namespace Sys2Proof.Machine

/-! ### The error logging RAM -/

theorem mem_elogInsert {l : List Nat} {a x : Nat} : x ∈ elogInsert l a ↔ x = a ∨ x ∈ l := by
  induction l with
  | nil => simp [elogInsert]
  | cons k l ih =>
    unfold elogInsert
    split
    · exact List.mem_cons
    split
    · rename_i h
      simp [h]
    · rw [List.mem_cons, List.mem_cons, ih, or_left_comm]

/-- A bit of the RAM read after one was written (R454). -/
theorem elogRead_elogWrite (ram : List Nat) (a x : Nat) (bit : Bool) :
    elogRead (elogWrite ram a bit) x = if x = a then bit else elogRead ram x := by
  rw [elogRead, elogRead, Bool.eq_iff_iff]
  cases bit
  · by_cases h : x = a <;> simp [elogWrite, h]
  · by_cases h : x = a <;> simp [elogWrite, mem_elogInsert, h]

/-! ### The status word -/

/-- A bit of a word read after one was replaced. -/
theorem getMsbD_setBit {w : Word} {k j : Nat} (b : Bool) (hk : k < 32) (hj : j < 32) :
    (setBit w k b).getMsbD j = if j = k then b else w.getMsbD j := by
  have hbit : (1#32 <<< (31 - k)).getMsbD j = decide (j = k) := by
    rw [BitVec.getMsbD_shiftLeft, BitVec.getMsbD_one, decide_eq_true (show 0 < 32 by omega), Bool.and_true]
    exact decide_eq_decide.mpr (by omega)
  unfold setBit
  cases b
  · rw [if_neg Bool.false_ne_true, BitVec.getMsbD_and, BitVec.getMsbD_not, hbit]
    by_cases h : j = k <;> simp [h, hj]
  · rw [if_pos rfl, BitVec.getMsbD_or, hbit]
    by_cases h : j = k <;> simp [h]

/-- The described bits of the status word (R452). -/
theorem statusWord_bits (input : Word) (s : State) :
    (statusWord input s).getMsbD 16 = elogRead s.elog (Config.elogAddr input) ∧
      (statusWord input s).getMsbD 27 =
        (if s.pending.external = [] then !Config.externalStatus else Config.externalStatus) ∧
      (statusWord input s).getMsbD 30 = s.bootDeviceSwitch ∧ (statusWord input s).getMsbD 31 = s.loadEnableSwitch := by
  simp [statusWord, getMsbD_setBit]

/-! ### The instructions -/

section
variable {s : State} {r1 : Reg}

theorem elogr_reads (hm : s.mode = .kernel ∨ TrapOn 31 s) (hpc : s.pc.toNat + 2 < 2 ^ 32) :
    ∃ t, exec (.elogr r1) s = .next t ∧ t.pc = s.pc + 2 ∧
      (t.reg r1).getMsbD 16 = elogRead s.elog (Config.elogAddr (s.reg r1)) ∧
      (t.reg r1).getMsbD 27 = (if s.pending.external = [] then !Config.externalStatus else Config.externalStatus) ∧
      (t.reg r1).getMsbD 30 = s.bootDeviceSwitch ∧ (t.reg r1).getMsbD 31 = s.loadEnableSwitch ∧
      OnlyRegsDrawing [r1] s t := by
  have he : exec (.elogr r1) s = advance 2 (s.setReg r1 (statusWord (s.reg r1) s)).drawn :=
    (kernelOrPrivileged_allowed _ _ _ _ _ hm : execElogr r1 s = _)
  obtain ⟨h16, h27, h30, h31⟩ := statusWord_bits (s.reg r1) s
  refine ⟨_, he.trans (advance_of_lt _ _ hpc), rfl, ?_, ?_, ?_, ?_, fun k hk => ?_, fun _ => rfl, fun _ => rfl, rfl⟩
  · rw [State.setPc_reg, State.drawn_reg, State.reg_setReg_same, h16]
  · rw [State.setPc_reg, State.drawn_reg, State.reg_setReg_same, h27]
  · rw [State.setPc_reg, State.drawn_reg, State.reg_setReg_same, h30]
  · rw [State.setPc_reg, State.drawn_reg, State.reg_setReg_same, h31]
  · rw [State.setPc_reg, State.drawn_reg, State.reg_setReg_other _ _ _ _ (by simpa using hk)]

theorem elogw_writes (hm : s.mode = .kernel ∨ TrapOn 31 s) (hpc : s.pc.toNat + 2 < 2 ^ 32) :
    ∃ t, exec (.elogw r1) s = .next t ∧ t.pc = s.pc + 2 ∧
      (∀ x, elogRead t.elog x =
        if x = Config.elogAddr (s.reg r1) then Config.elogData (s.reg r1) else elogRead s.elog x) ∧
      (∀ r, t.reg r = s.reg r) ∧ (∀ k, t.spec k = s.spec k) ∧ (∀ a, t.mem.read a = s.mem.read a) ∧
      t = { s with pc := t.pc, elog := t.elog } := by
  have he : exec (.elogw r1) s =
      advance 2 { s with elog := elogWrite s.elog (Config.elogAddr (s.reg r1)) (Config.elogData (s.reg r1)) } :=
    (kernelOrPrivileged_allowed _ _ _ _ _ hm : execElogw r1 s = _)
  exact ⟨_, he.trans (advance_of_lt _ _ hpc), rfl, fun x => elogRead_elogWrite _ _ _ _, fun _ => rfl, fun _ => rfl,
    fun _ => rfl, rfl⟩

theorem flush_empties (hm : s.mode = .kernel ∨ TrapOn 31 s) (hpc : s.pc.toNat + 2 < 2 ^ 32) :
    ∃ t, exec (.flush r1) s = .next t ∧ t.pc = s.pc + 2 ∧
      t.fetch = {
        stale := [],
        ahead := [(if s.fetch.aheadPc = s.pc + 2 then s.fetch.ahead.headD [] else []) ++ s.fetch.stale, s.fetch.stale],
        aheadPc := s.pc + 2, seen := [] } ∧
      (∀ r, t.reg r = s.reg r) ∧ (∀ k, t.spec k = s.spec k) ∧ (∀ a, t.mem.read a = s.mem.read a) ∧
      t = { s with pc := t.pc, codeTmt := [], dataTmt := [], fetch := t.fetch } := by
  have he : exec (.flush r1) s = advance 2 s.flushTmt.flushCacheOnly :=
    (kernelOrPrivileged_allowed _ _ _ _ _ hm : execFlush r1 s = _)
  exact ⟨_, he.trans (advance_of_lt _ _ hpc), rfl, rfl, fun _ => rfl, fun _ => rfl, fun _ => rfl, rfl⟩

end

/-- Settles O59: the three that the privileged bit allows too, and TRAPEXIT of kernel mode. -/
theorem maintenanceInstructions : Obligations.MaintenanceInstructions := by
  refine fun s r1 => ⟨fun hm hpc => ⟨elogr_reads hm hpc, elogw_writes hm hpc, flush_empties hm hpc⟩, fun hm => ?_⟩
  exact (kernelOnly_kernel _ _ _ _ _ hm : execTrapexit r1 s = _)

end Sys2Proof.Machine
end

section
/-! SUPPORT. A fetched byte against the bytes a cache may still hold, and the theorem that settles
`Obligations.FetchOldOrNew` (R140, R141, R612). -/

namespace Sys2Proof.Machine

/-- Where the cache cannot hold another space's bytes, a fetched byte is that of memory or one of the old ones. -/
theorem fetchByte_old_or_new {a : Nat} {s t : State} {b : Byte} (h : fetchByte false a s = .ok b t) :
    (b = s.mem.read a ∨ b ∈ s.fetch.old a) ∧ (s.fetch.old a = [] → b = s.mem.read a) ∧
      t = { s with draws := t.draws } := by
  unfold fetchByte at h
  split at h
  case isFalse => cases h
  rw [if_neg Bool.false_ne_true] at h
  split at h
  · cases h
    exact ⟨.inl rfl, fun _ => rfl, rfl⟩
  · rename_i c l ho
    cases h
    obtain ⟨x, hx⟩ := chooseFrom_cons s.draws (s.mem.read a) (c :: l)
    have hmem := chooseFrom_mem _ _ _ hx
    rw [hx, Option.getD_some, ho]
    refine ⟨List.mem_cons.mp hmem, fun hnil => ?_, rfl⟩
    cases hnil

/-- Where it can, some byte comes (U32). -/
theorem fetchByte_mixed {a : Nat} {s : State} (h : s.installedAt a = true) : ∃ b, fetchByte true a s = .ok b s.drawn :=
  ⟨_, by rw [fetchByte, if_pos h, if_pos rfl]⟩

/-- Stretches of one space mix with no other. -/
theorem FetchState.mixed_eq_false {f : FetchState} {space : Option Word} (h : ∀ x ∈ f.seen, x.space = space) (va : Word) :
    f.mixed space va = false := by
  rw [FetchState.mixed, List.any_eq_false]
  intro x hx
  simp [h x hx]

/-- The bytes a store changes are recorded as they were. -/
theorem mem_changedBytes {old new : Memory} {a n x : Nat} (hx : a ≤ x ∧ x < a + n) (h : old.read x ≠ new.read x) :
    (x, old.read x) ∈ changedBytes old new a n := by
  rw [changedBytes, List.mem_filterMap]
  refine ⟨x - a, List.mem_range.mpr (by omega), ?_⟩
  rw [Nat.add_sub_cancel' hx.1, if_neg h]

theorem mem_oldBytes {l : List Host.Cell} {a : Nat} {b : Byte} (h : (a, b) ∈ l) : b ∈ oldBytes l a :=
  List.mem_map.mpr ⟨(a, b), List.mem_filter.mpr ⟨h, decide_eq_true rfl⟩, rfl⟩

/-- A byte that a store replaces can still be fetched (R140). -/
theorem realWrite_old {s t : State} {a n v x : Nat} (h : realWrite a n v s = .ok () t)
    (hx : t.mem.read x ≠ s.mem.read x) : s.mem.read x ∈ t.fetch.old x := by
  obtain ⟨-, rfl⟩ := (realWrite_eq_ok _ _ _ _ _).mp h
  have hin : a ≤ x ∧ x < a + n := by
    by_contra hout
    exact hx (Memory.read_store_other _ _ _ _ _ (by omega))
  exact List.mem_append_left _ (mem_oldBytes (List.mem_append_left _ (mem_changedBytes hin hx.symm)))

/-- Settles O10: by the branches of a byte's fetch, and by what a flush and a store leave of the record of old bytes. -/
theorem fetchOldOrNew : Obligations.FetchOldOrNew :=
  ⟨fun _ _ _ _ h => fetchByte_old_or_new h, fun _ _ h => fetchByte_mixed h, fun _ _ _ _ => ⟨rfl, rfl⟩,
    fun _ _ va h => FetchState.mixed_eq_false h va, fun _ _ _ _ _ _ h hx => realWrite_old h hx⟩

end Sys2Proof.Machine
end

section
/-! SUPPORT. Loads and stores that end with a trap before they access memory; and the theorems that settle
`Obligations.MisalignedAccessTraps` and `Obligations.DataPageFault` (R89, R93, R124, R206). -/

namespace Sys2Proof.Machine

/-! ### A trap of an access is that of the instruction -/

/-- A load keeps its destination where the trap is not for a parity error (R205). -/
theorem loadOf_trap {seg : Segment} {n len : Nat} {r : Reg} {ea : Word} {e : Exception} {s s1 : State}
    (h : memRead seg ea n s = .trap e s1) (he : ∀ a, e ≠ .parityExecute a) : loadOf seg n r ea len s = raise e s1 := by
  have abort : ∀ scramble, abortLoad scramble e s1 = raise e s1 := by
    intro scramble
    unfold abortLoad
    split
    · exact absurd rfl (he _)
    · rfl
  unfold loadOf
  split
  · subst n
    simp only [loadPairTo, h, abort]
  · simp only [loadTo, h, abort]

/-- A load in any form whose access traps in the state it began in has no other effect. -/
theorem loadForms_raise {n : Nat} (hn : n ∈ [1, 2, 4, 8]) {r rx : Reg} {d : Half} {w : Word} {s : State}
    {f : Segment × Instr × Nat × Word} (hf : f ∈ loadForms n r rx d w s) {e : Exception}
    (h : memRead f.1 f.2.2.2 n s = .trap e s) (he : ∀ a, e ≠ .parityExecute a) (hc : CanEnter e.ccbOffset s) :
    Raises f.2.1 e s := by
  rw [Raises, exec_loadForms hn hf, loadOf_trap h he]
  exact raise_entered hc

/-- The same for a store. -/
theorem storeForms_raise {n : Nat} (hn : n ∈ [1, 2, 4, 8]) {r rx : Reg} {d : Half} {w : Word} {s : State}
    {f : Instr × Nat × Word} (hf : f ∈ storeForms n r rx d w s) {e : Exception}
    (h : memWrite f.2.2 n (storedValue n r s) s = .trap e s) (hc : CanEnter e.ccbOffset s) : Raises f.1 e s := by
  rw [Raises, exec_storeForms hn hf, storeFrom, h, Access.trap_finish]
  exact raise_entered hc

/-! ### Alignment -/

theorem State.alignmentSegment_eq (s : State) (seg : Segment) :
    s.alignmentSegment seg = if s.mode = .user then some (if seg = .code then s.spec 8 else s.spec 9) else none := by
  rw [← s.segNumber_eq]
  unfold State.alignmentSegment
  split <;> simp [*]

/-- Settles O49: the check of the alignment comes before everything else of an access. -/
theorem misalignedAccessTraps : Obligations.MisalignedAccessTraps := by
  intro s r rx d w hc n hn
  have hn : n ∈ [1, 2, 4, 8] := List.mem_cons_of_mem 1 hn
  refine ⟨fun f hf ha => ?_, fun f hf ha => ?_⟩
  · rw [← s.alignmentSegment_eq]
    exact loadForms_raise hn hf (memRead_misaligned _ _ _ _ ha) (fun _ => Exception.noConfusion) hc
  · have hseg : s.alignmentSegment .data = if s.mode = .user then some (s.spec 9) else none := s.alignmentSegment_eq .data
    rw [← hseg]
    exact storeForms_raise hn hf (memWrite_misaligned _ _ _ _ ha) hc

/-! ### Missing pages -/

theorem memRead_missing {seg : Segment} {va : Word} {n : Nat} {s : State} (hm : s.mode = .user) (ha : Alone s)
    (hal : va.toNat % n = 0) (h : tmtFind (s.tmt seg) (pageOf va) = none) (hf : Finds (s.segNumber seg) va none s) :
    memRead seg va n s = .trap (.pageFault (s.segNumber seg) va) s := by
  rw [memRead, if_neg (by omega), resolve_missing hm ha h hf, Access.trap_bind]

theorem memWrite_missing {va : Word} {n v : Nat} {s : State} (hm : s.mode = .user) (ha : Alone s)
    (hal : va.toNat % n = 0) (h : tmtFind s.dataTmt (pageOf va) = none) (hf : Finds (s.spec 9) va none s) :
    memWrite va n v s = .trap (.pageFault (s.spec 9) va) s := by
  rw [memWrite, if_neg (by omega), resolve_missing (seg := .data) hm ha h hf, Access.trap_bind]
  rfl

/-- The halves of the TMT by name (R110). -/
theorem State.tmt_eq (s : State) (seg : Segment) : s.tmt seg = if seg = .code then s.codeTmt else s.dataTmt := by
  cases seg <;> rfl

/-- Settles O50: the translation of an aligned access raises the fault and nothing has happened before it. -/
theorem dataPageFault : Obligations.DataPageFault := by
  intro s r rx d w hm hc n hn
  refine ⟨fun f hf hal h hfind => ?_, fun f hf hal h hfind => ?_⟩
  · rw [← s.tmt_eq] at h
    rw [← s.segNumber_eq] at hfind ⊢
    exact loadForms_raise hn hf (memRead_missing hm hc.2 hal h hfind) (fun _ => Exception.noConfusion) hc
  · exact storeForms_raise hn hf (memWrite_missing hm hc.2 hal h hfind) hc

end Sys2Proof.Machine
end

section
/-! SUPPORT. What a translation by the VRT leaves: the entry marked, the mapping loaded; TRANS and DIRT; and the theorems that
settle `Obligations.TranslationLoadsTmt` and `Obligations.TransAndDirt` (R119, R127, R465, R466). -/

namespace Sys2Proof.Machine

/-! ### A mapping loaded -/

/-- A search of memory as it stands has one answer. -/
theorem Finds.unique {segment va : Word} {x y : Option (Word × Double)} {s : State} (hx : Finds segment va x s)
    (hy : Finds segment va y s) : x = y := by
  have h := hx.symm.trans hy
  injection h

/-- An entry marked in memory is the one the search found, marked. -/
theorem Finds.entryAt_markEntry {segment va ea : Word} {e : Double} {s : State} (h : Finds segment va (some (ea, e)) s)
    (u : Double → Double) : (s.markEntry ea u).entryAt ea = u e := by
  rw [State.entryAt_markEntry, h.entry]

/-- Where the TMT does not hold the page, a translation marks the entry the VRT has for it and loads its mapping. -/
structure MapsByVrt (seg : Segment) (va ea : Word) (e : Double) (rp : Page) (s s1 : State) : Prop where
  realPage : rp = vrtRealPage e
  entry : s1.entryAt ea = vrtSetR e
  others : ∀ x, OutsideEntry ea x → s1.mem.read x = s.mem.read x
  loaded : tmtFind (s1.tmt seg) (pageOf va) = some { page := pageOf va, realPage := rp, modified := vrtM e }
  gained : ∀ x ∈ s1.tmt seg, x ∈ s.tmt seg ∨ x.page = pageOf va

theorem Maps.byVrt {seg : Segment} {segment va ea : Word} {e : Double} {rp : Page} {s s1 : State}
    (h : Maps seg segment va rp s s1) (hmiss : tmtFind (s.tmt seg) (pageOf va) = none)
    (hf : Finds segment va (some (ea, e)) s) : MapsByVrt seg va ea e rp s s1 := by
  rcases h with ⟨entry, hhit, -, -⟩ | ⟨ea', e', -, hf', rfl, rfl⟩
  · rw [hmiss] at hhit
    cases hhit
  obtain ⟨rfl, rfl⟩ : ea = ea' ∧ e = e' := by simpa using hf.unique hf'
  have hmem : ∀ l, ((s.markEntry ea vrtSetR).setTmt seg l).drawn.mem = (s.markEntry ea vrtSetR).mem :=
    fun l => State.setTmt_mem _ seg l
  have htmt : ∀ l, ((s.markEntry ea vrtSetR).setTmt seg l).drawn.tmt seg = l := fun l => State.tmt_setTmt_same _ seg l
  refine ⟨rfl, ?_, fun x hx => ?_, ?_, fun x hx => ?_⟩
  · rw [← hf.entryAt_markEntry vrtSetR]
    exact State.entryAt_congr _ _ _ fun x _ => by rw [hmem]
  · rw [hmem, State.read_markEntry_other _ _ _ _ hx]
  · rw [htmt]
    exact tmtFind_tmtLoad _ _ { page := pageOf va, realPage := vrtRealPage e, modified := vrtM e }
  · rw [htmt] at hx
    exact (mem_tmtLoad _ _ _ _ hx).symm.imp_right fun h => by rw [h]

/-- Settles O53: the translation is `Maps` by the VRT, and the bits of an entry are those of a bit set in a double word. -/
theorem translationLoadsTmt : Obligations.TranslationLoadsTmt := by
  refine ⟨fun s seg va ea e _ ha hmiss hf => ?_, fun e k _ => ?_⟩
  · have hmap : Maps seg (s.segNumber seg) va (vrtRealPage e) s _ := .inr ⟨ea, e, hmiss, hf, rfl, rfl⟩
    obtain ⟨-, hentry, hothers, hloaded, hgained⟩ := hmap.byVrt hmiss hf
    refine ⟨_, lookupPage_maps seg va s _ _ ha hmap, hloaded, hentry, hothers, fun r => ?_, fun k => ?_, hgained⟩
    · rw [State.drawn_reg, State.setTmt_reg, State.markEntry_reg]
    · rw [State.drawn_spec, State.setTmt_spec, State.markEntry_spec]
  · obtain ⟨⟨hr, hm, -⟩, -⟩ := vrtLayout_apart
    exact ⟨getLsbD_setBit e _ k hr, getLsbD_setBit e _ k hm⟩

/-! ### TRANS and DIRT -/

section
variable {s : State} {r1 r2 : Reg} {u : Double → Double}

/-- The search of TRANS and DIRT, where nothing else acts, is that of memory as it stands. -/
theorem translateExplicit_found (ha : Alone s) {ea : Word} {e : Double}
    (hf : Finds (s.reg r2) (s.reg (r2 + 1)) (some (ea, e)) s) :
    translateExplicit u r1 r2 s =
      advance 2 ((s.markEntry ea u).setReg r1 (realAddress (vrtRealPage e) (s.reg (r2 + 1)))) := by
  have hs : vrtSearch (s.reg r2) (s.reg (r2 + 1)) s = .ok (some (ea, e)) s := (vrtSearch_alone ha _ _).trans hf
  simp only [translateExplicit, hs, between_alone ha, Access.ok_finish]

theorem translateExplicit_none (ha : Alone s) (hf : Finds (s.reg r2) (s.reg (r2 + 1)) none s) :
    translateExplicit u r1 r2 s = advance 2 (s.setReg r1 0xFFFFFFFF) := by
  have hs : vrtSearch (s.reg r2) (s.reg (r2 + 1)) s = .ok none s := (vrtSearch_alone ha _ _).trans hf
  simp only [translateExplicit, hs, Access.ok_finish]

theorem translateExplicit_invalid_mask (hm : vrtMaskValid (s.spec 13) = false) :
    translateExplicit u r1 r2 s = .refused .vrtMaskInvalid := by
  simp only [translateExplicit, vrtSearch_invalid_mask hm, Access.finish]

/-- What an instruction that translates by such a search leaves where an entry is found (R465, R466). -/
theorem exec_translateExplicit_found {i : Instr} (hi : exec i s = translateExplicit u r1 r2 s) (ha : Alone s)
    (hpc : s.pc.toNat + 2 < 2 ^ 32) {ea : Word} {e : Double}
    (hf : Finds (s.reg r2) (s.reg (r2 + 1)) (some (ea, e)) s) :
    ∃ t, exec i s = .next t ∧ t.pc = s.pc + 2 ∧ t.reg r1 = realAddress (vrtRealPage e) (s.reg (r2 + 1)) ∧
      (∀ r, r ≠ r1 → t.reg r = s.reg r) ∧ t.entryAt ea = u e ∧
      (∀ a, OutsideEntry ea a → t.mem.read a = s.mem.read a) ∧
      t = { s with regs := t.regs, pc := t.pc, mem := t.mem, fetch := t.fetch } := by
  rw [translateExplicit_found ha hf] at hi
  refine ⟨_, hi.trans (advance_of_lt _ _ hpc), rfl, ?_, fun r hr => ?_, hf.entryAt_markEntry u,
    fun a h => State.read_markEntry_other s ea u a h, rfl⟩
  · rw [State.setPc_reg, State.reg_setReg_same]
  · rw [State.setPc_reg, State.reg_setReg_other _ _ _ _ hr, State.markEntry_reg]

end

/-- Settles O54: both are the explicit search, TRANS with the mark R and DIRT with the marks R and M. -/
theorem transAndDirt : Obligations.TransAndDirt := by
  rintro s r1 r2 va hm ha hpc rfl
  have htrans : exec (.trans r1 r2) s = translateExplicit vrtSetR r1 r2 s := kernelOnly_kernel _ _ _ _ _ hm
  have hdirt : exec (.dirt r1 r2) s = translateExplicit (fun e => vrtSetM (vrtSetR e)) r1 r2 s :=
    kernelOnly_kernel _ _ _ _ _ hm
  refine ⟨fun ea e hf x hx => ?_, fun hf => ⟨?_, ?_⟩, fun hk => ?_⟩
  · simp only [List.mem_cons, List.not_mem_nil, or_false] at hx
    rcases hx with rfl | rfl
    · exact exec_translateExplicit_found htrans ha hpc hf
    · exact exec_translateExplicit_found hdirt ha hpc hf
  · exact .of_advance (htrans.trans (translateExplicit_none ha hf)) hpc
  · exact .of_advance (hdirt.trans (translateExplicit_none ha hf)) hpc
  · have hmask : vrtMaskValid (s.spec 13) = false := by
      rw [← Bool.not_eq_true, vrtMaskValid_iff]
      rintro ⟨k, h4, h32, h⟩
      exact hk k h4 h32 h
    exact ⟨htrans.trans (translateExplicit_invalid_mask hmask), hdirt.trans (translateExplicit_invalid_mask hmask)⟩

end Sys2Proof.Machine
end

section
/-! SUPPORT. What a load leaves in its destination and a store in memory, once their address is translated; accesses outside
real memory (R88, R94, R210 to R213, R220 to R223). -/

namespace Sys2Proof.Machine

/-! ### The destination of a load -/

/-- Two words side by side as a double word (R88). -/
theorem ofNat_words (x y : Word) : BitVec.ofNat 64 (x.toNat * 2 ^ 32 + y.toNat) = (x ++ y : Double) := by
  rw [← toNat_append', BitVec.ofNat_toNat, BitVec.setWidth_eq]

/-- The registers from `r` after a load of `n` bytes that are the number `v`: one word zero-extended, or a pair. -/
def State.setLoaded (s : State) (n : Nat) (r : Reg) (v : Nat) : State :=
  if n = 8 then s.setPair r (BitVec.ofNat 64 v) else s.setReg r (BitVec.ofNat 32 v)

theorem State.setLoaded_frame (s : State) (n : Nat) (r : Reg) (v : Nat) :
    s.setLoaded n r v = { s with regs := (s.setLoaded n r v).regs } := by
  unfold State.setLoaded
  split <;> rfl

theorem State.reg_setPair_words (s : State) (r : Reg) (x y : Word) :
    (s.setPair r (x ++ y : Double)).reg r = x ∧ (s.setPair r (x ++ y : Double)).reg (r + 1) = y := by
  rw [State.reg_setPair, State.reg_setPair, if_neg (reg_succ_ne r).symm, if_pos rfl, if_pos rfl]
  exact ⟨BitVec.extractLsb'_append_eq_left, BitVec.extractLsb'_append_eq_right⟩

theorem State.reg_setLoaded_other {s : State} {n : Nat} {r i : Reg} (v : Nat) (h : i ∉ loadedRegs n r) :
    (s.setLoaded n r v).reg i = s.reg i := by
  unfold State.setLoaded
  unfold loadedRegs at h
  split at h
  · simp only [List.mem_cons, List.not_mem_nil, or_false, not_or] at h
    rw [if_pos ‹_›, State.reg_setPair, if_neg h.2, if_neg h.1]
  · rw [if_neg ‹_›, State.reg_setReg_other _ _ _ _ (by simpa using h)]

/-- The destination holds the bytes at the address, most significant first (R88). -/
theorem State.setLoaded_loads {n : Nat} (hn : n ∈ [1, 2, 4, 8]) (s u : State) (a : Nat) (r : Reg) (pc : Word) :
    Loaded n a r s ((u.setLoaded n r (s.mem.load a n)).setPc pc) := by
  simp only [List.mem_cons, List.not_mem_nil, or_false] at hn
  rcases hn with rfl | rfl | rfl | rfl
  · show (u.setReg r _).reg r = _
    rw [State.reg_setReg_same, load_one, BitVec.zeroExtend, BitVec.ofNat_toNat]
  · show (u.setReg r _).reg r = _
    rw [State.reg_setReg_same, s.load_half, BitVec.zeroExtend, BitVec.ofNat_toNat]
  · show (u.setReg r _).reg r = _
    rw [State.reg_setReg_same, s.load_word, BitVec.ofNat_toNat, BitVec.setWidth_eq]
  · show (u.setPair r _).reg r = _ ∧ (u.setPair r _).reg (r + 1) = _
    rw [s.load_double, BitVec.ofNat_toNat, BitVec.setWidth_eq]
    exact u.reg_setPair_words r _ _

theorem State.setLoaded_only (s : State) (n : Nat) (r : Reg) (v : Nat) (pc : Word) :
    OnlyRegs (loadedRegs n r) s ((s.setLoaded n r v).setPc pc) := by
  have hframe := s.setLoaded_frame n r v
  refine ⟨fun i hi => State.reg_setLoaded_other v hi, fun k => ?_, fun a => ?_, ?_⟩
  · rw [hframe]; rfl
  · rw [hframe]; rfl
  · rw [hframe]; rfl

/-! ### The ends of loads and stores -/

theorem loadOf_ok {seg : Segment} {n len v : Nat} {r : Reg} {ea : Word} {s s1 : State}
    (h : memRead seg ea n s = .ok v s1) (hpc : s1.pc.toNat + len < 2 ^ 32) :
    loadOf seg n r ea len s = .next ((s1.setLoaded n r v).setPc (s1.pc + BitVec.ofNat 32 len)) := by
  unfold loadOf State.setLoaded
  split
  · subst n
    rw [loadPairTo, h]
    exact advance_of_lt len (s1.setPair r _) hpc
  · rw [loadTo, h]
    exact advance_of_lt len (s1.setReg r _) hpc

theorem loadOf_fault {seg : Segment} {n len : Nat} {r : Reg} {ea : Word} {s : State} {x : Fault}
    (h : memRead seg ea n s = .fault x) : loadOf seg n r ea len s = .fault x := by
  unfold loadOf
  split
  · subst n
    rw [loadPairTo, h]
  · rw [loadTo, h]

theorem storeFrom_ok {n len v : Nat} {ea : Word} {s s1 : State} (h : memWrite ea n v s = .ok () s1)
    (hpc : s1.pc.toNat + len < 2 ^ 32) :
    storeFrom n v ea len s = .next (s1.setPc (s1.pc + BitVec.ofNat 32 len)) := by
  rw [storeFrom, h]
  exact advance_of_lt len s1 hpc

theorem storeFrom_fault {n len v : Nat} {ea : Word} {s : State} {x : Fault} (h : memWrite ea n v s = .fault x) :
    storeFrom n v ea len s = .fault x := by
  rw [storeFrom, h, Access.finish]

/-! ### Accesses outside real memory (R94) -/

theorem realRead_outside {a n : Nat} {s : State} (h : s.backed a n = false) :
    realRead a n s = .fault (.outsideRealMemory a) := by
  rw [realRead, h]
  exact if_neg Bool.false_ne_true

theorem realWrite_outside {a n : Nat} {s : State} (v : Nat) (h : s.backed a n = false) :
    realWrite a n v s = .fault (.outsideRealMemory a) := by
  rw [realWrite, h]
  exact if_neg Bool.false_ne_true

/-- Of eight bytes that are not all there, the first four are not, or they are and the others are not. -/
theorem State.backed_eight_false {s : State} {a : Nat} (h : s.backed a 8 = false) :
    s.backed a 4 = false ∨ s.backed a 4 = true ∧ s.backed (a + 4) 4 = false := by
  rw [show 8 = 4 + 4 from rfl, ← Bool.not_eq_true, State.backed_add, not_and, Bool.not_eq_true] at h
  cases h4 : s.backed a 4
  · exact .inl rfl
  · exact .inr ⟨rfl, h h4⟩

theorem busRead_outside {a n : Nat} {s : State} (ha : Alone s) (h : s.backed a n = false) :
    ∃ x, busRead a n s = .fault (.outsideRealMemory x) := by
  unfold busRead readParts pausedRead
  split
  · subst n
    rw [between_alone ha, Access.ok_bind]
    rcases State.backed_eight_false h with h | ⟨h4, h⟩
    · exact ⟨a, by rw [realRead_outside h, Access.fault_bind]⟩
    · exact ⟨a + 4, by
        rw [realRead_of_backed _ _ _ h4, Access.ok_bind, between_alone ha, Access.ok_bind, realRead_outside h,
          Access.fault_bind]⟩
  · exact ⟨a, by rw [between_alone ha, Access.ok_bind, realRead_outside h]⟩

theorem busWrite_outside {a n : Nat} {s : State} (v : Nat) (ha : Alone s) (h : s.backed a n = false) :
    ∃ x, busWrite a n v s = .fault (.outsideRealMemory x) := by
  unfold busWrite writeParts pausedWrite
  split
  · subst n
    rw [between_alone ha, Access.ok_bind]
    rcases State.backed_eight_false h with h | ⟨h4, h⟩
    · exact ⟨a, by rw [realWrite_outside _ h, Access.fault_bind]⟩
    · refine ⟨a + 4, ?_⟩
      rw [realWrite_of_backed _ _ _ _ h4, Access.ok_bind, between_alone (show Alone (s.setMem _ _ _) from ha),
        Access.ok_bind, realWrite_outside _ ((State.backed_congr s (s.setMem _ _ _) _ _ rfl).trans h)]
  · exact ⟨a, by rw [between_alone ha, Access.ok_bind, realWrite_outside _ h]⟩

end Sys2Proof.Machine
end

section
/-! SUPPORT. Events between the accesses of an instruction, one after the other (R131). -/

namespace Sys2Proof.Machine

/-! ### A mark by a search that finds an entry, or finds none -/

/-- A search of memory as it stands changes nothing. -/
theorem finds_of_vrtFind {segment va : Word} {found : Option (Word × Double)} {s t : State}
    (h : vrtFind segment va s = .ok found t) : Finds segment va found s := by
  have ht : t = s := by
    unfold vrtFind vrtSearchWith at h
    split at h
    · exact vrtChain_keeps (P := fun u => u = s) (fun u w hu hw => by cases hw; exact hu) rfl h
    · cases h
  rw [ht] at h
  exact h

section
variable {s : State} {segment : Word} {page : Page} {modified : Bool}

theorem State.markPage_of_finds (hm : s.mode = .user) (hk : s.mayMark segment page modified = true) {ea : Word}
    {e : Double} (hf : Finds segment (page ++ 0#12) (some (ea, e)) s) :
    s.markPage segment page modified = s.markEntry ea (if modified then vrtSetM else vrtSetR) := by
  have hv : vrtFind segment (page ++ 0#12) s = .ok (some (ea, e)) s := hf
  rw [State.markPage, if_pos ⟨hm, hk⟩, hv]

theorem State.markPage_of_not_allowed (h : s.mode = .kernel ∨ s.mayMark segment page modified = false) :
    s.markPage segment page modified = s := by
  refine if_neg ?_
  rintro ⟨hm, hk⟩
  rcases h with h | h
  · rw [hm] at h; cases h
  · rw [hk] at h; cases h

theorem State.markPage_of_not_finds (h : ∀ ea e, ¬Finds segment (page ++ 0#12) (some (ea, e)) s) :
    s.markPage segment page modified = s := by
  unfold State.markPage
  split
  · split
    · rename_i hv
      exact absurd (finds_of_vrtFind hv) (h _ _)
    · rfl
  · rfl

end

/-! ### What is still to happen plays no part in what happens -/

/-- The state with other events to come before the accesses of the instruction. -/
def State.setWithin (s : State) (w : List (List MemoryEvent)) : State := { s with within := w }

theorem State.markPage_setWithin (s : State) (w : List (List MemoryEvent)) (segment : Word) (page : Page)
    (modified : Bool) :
    (s.setWithin w).markPage segment page modified = (s.markPage segment page modified).setWithin w := by
  by_cases hf : ∃ ea e, Finds segment (page ++ 0#12) (some (ea, e)) s
  · obtain ⟨ea, e, hf⟩ := hf
    have hfw : Finds segment (page ++ 0#12) (some (ea, e)) (s.setWithin w) := hf.congr rfl rfl rfl
    by_cases hc : s.mode = .user ∧ s.mayMark segment page modified = true
    · rw [State.markPage_of_finds hc.1 hc.2 hf, State.markPage_of_finds (s := s.setWithin w) hc.1 hc.2 hfw]
      rfl
    · rw [State.markPage, State.markPage, if_neg hc]
      exact if_neg hc
  · have hno : ∀ ea e, ¬Finds segment (page ++ 0#12) (some (ea, e)) s := fun ea e h => hf ⟨ea, e, h⟩
    rw [State.markPage_of_not_finds hno,
      State.markPage_of_not_finds (s := s.setWithin w) fun ea e h => hno ea e (h.congr (t := s) rfl rfl rfl)]

theorem tickRead_setWithin {a : Word} {stage : Word → TickStage} {s t : State} (w : List (List MemoryEvent))
    (h : tickRead a stage s = .ok () t) : tickRead a stage (s.setWithin w) = .ok () (t.setWithin w) := by
  obtain ⟨hb, rfl⟩ := tickRead_eq_ok.mp h
  exact tickRead_eq_ok.mpr ⟨hb, rfl⟩

theorem tickWrite_setWithin {a v : Word} {stage : TickStage} {s t : State} (w : List (List MemoryEvent))
    (h : tickWrite a v stage s = .ok () t) : tickWrite a v stage (s.setWithin w) = .ok () (t.setWithin w) := by
  obtain ⟨hb, rfl⟩ := tickWrite_eq_ok.mp h
  exact tickWrite_eq_ok.mpr ⟨hb, rfl⟩

theorem tickReadCcb_setWithin {off : Word} {stage : Word → Word → TickStage} {s t : State} (w : List (List MemoryEvent))
    (h : tickReadCcb off stage s = .ok () t) : tickReadCcb off stage (s.setWithin w) = .ok () (t.setWithin w) := by
  unfold tickReadCcb at h
  split at h
  · exact (if_pos ‹_›).trans (tickRead_setWithin w h)
  · cases h

theorem tickAccess_setWithin {s t : State} (w : List (List MemoryEvent)) (h : tickAccess s = .ok () t) :
    tickAccess (s.setWithin w) = .ok () (t.setWithin w) := by
  have hstage : (s.setWithin w).tickStage = s.tickStage := rfl
  unfold tickAccess at h ⊢
  rw [hstage]
  split at h
  · unfold tickBegin at h
    split at h
    · cases h
    split at h
    · cases h
    · exact ((if_neg ‹_›).trans (if_neg ‹_›)).trans (tickRead_setWithin w h)
  · exact tickWrite_setWithin w h
  · exact tickReadCcb_setWithin w h
  · exact tickRead_setWithin w h
  · exact tickWrite_setWithin w h
  · exact tickWrite_setWithin w h
  · exact tickReadCcb_setWithin w h
  · exact tickWrite_setWithin w h
  · exact tickReadCcb_setWithin w h
  · rw [Access.bind_eq_ok] at h
    obtain ⟨_, s1, h1, h⟩ := h
    cases h
    rw [tickWrite_setWithin w h1]
    rfl

theorem applyMemoryEvent_setWithin {e : MemoryEvent} {s t : State} (w : List (List MemoryEvent))
    (h : applyMemoryEvent e s = .ok () t) : applyMemoryEvent e (s.setWithin w) = .ok () (t.setWithin w) := by
  cases e with
  | tickAccess => exact tickAccess_setWithin w h
  | dmaWrite a b =>
    cases h
    show Access.ok () (dmaByte _ _ _) = _
    unfold dmaByte
    split
    · rw [if_pos ‹_›]; rfl
    · rw [if_neg ‹_›]
  | tmtDrop seg page => cases h; cases seg <;> rfl
  | vrtMark segment page modified =>
    cases h
    exact congrArg (Access.ok ()) (s.markPage_setWithin w segment page modified)

/-- An event takes away nothing of what is still to happen. -/
theorem applyMemoryEvent_within {e : MemoryEvent} {s t : State} (h : applyMemoryEvent e s = .ok () t) :
    t.within = s.within := by
  have h' := applyMemoryEvent_setWithin s.within h
  rw [show s.setWithin s.within = s from rfl, h] at h'
  injection h' with _ ht
  rw [ht]
  rfl

/-! ### One event after the other -/

theorem Access.bind_ok {x : Access Unit} : (x.bind fun _ s => .ok () s) = x := by
  cases x <;> rfl

theorem between_cons {s : State} {es : List MemoryEvent} {rest : List (List MemoryEvent)} (h : s.within = es :: rest) :
    s.between = applyMemoryEvents es (s.setWithin rest) := by
  rw [State.between, h]
  rfl

theorem between_of_one_event {s : State} {e : MemoryEvent} {rest : List (List MemoryEvent)} (h : s.within = [e] :: rest) :
    s.between = applyMemoryEvent e (s.setWithin rest) := by
  rw [between_cons h, applyMemoryEvents]
  exact Access.bind_ok

theorem between_of_first_event {s s1 : State} {e : MemoryEvent} {es : List MemoryEvent} {rest : List (List MemoryEvent)}
    (h : s.within = (e :: es) :: rest) (he : applyMemoryEvent e (s.setWithin (es :: rest)) = .ok () s1) :
    s.between = s1.between := by
  have h1 : s1.within = es :: rest := applyMemoryEvent_within he
  have he' := applyMemoryEvent_setWithin rest he
  rw [show (s.setWithin (es :: rest)).setWithin rest = s.setWithin rest from rfl] at he'
  rw [between_cons h, between_cons h1, applyMemoryEvents, he', Access.ok_bind]

/-- A device's write of a byte that falls before an access is that byte of memory, and nothing else. -/
theorem between_of_dmaWrite {s : State} {x : Word} {b : Byte} {rest : List (List MemoryEvent)}
    (h : s.within = [.dmaWrite x b] :: rest) (hi : s.installedAt x.toNat = true) :
    s.between = .ok () ((s.setWithin rest).setMem (s.mem.write x.toNat b) x.toNat 1) := by
  rw [between_of_one_event h, applyMemoryEvent, dmaByte, if_pos (show (s.setWithin rest).installedAt _ = true from hi)]
  rfl

end Sys2Proof.Machine
end

section
/-! SUPPORT. Loads and stores in kernel mode, and the theorems that settle `Obligations.LoadsInKernelMode` and
`Obligations.StoresInKernelMode` (R88, R94, R96, R210 to R214, R220 to R224). -/

namespace Sys2Proof.Machine

/-! ### Loads -/

section
variable {s : State} {n : Nat} {r rx : Reg} {d : Half} {w : Word} {f : Segment × Instr × Nat × Word}

theorem loadForms_kernel (hm : s.mode = .kernel) (hp : s.parityData = false) (ha : Alone s) (hn : n ∈ [1, 2, 4, 8])
    (hf : f ∈ loadForms n r rx d w s) (hpc : s.pc.toNat + f.2.2.1 < 2 ^ 32) (hal : f.2.2.2.toNat % n = 0)
    (hb : s.backed f.2.2.2.toNat n = true) :
    ∃ t, exec f.2.1 s = .next t ∧ t.pc = s.pc + BitVec.ofNat 32 f.2.2.1 ∧ Loaded n f.2.2.2.toNat r s t ∧
      OnlyRegs (loadedRegs n r) s t := by
  have hr := (memRead_kernel f.1 f.2.2.2 n s hm hp hal).trans (busRead_alone ha _ _ hb)
  exact ⟨_, (exec_loadForms hn hf).trans (loadOf_ok hr hpc), rfl, State.setLoaded_loads hn s s _ r _,
    s.setLoaded_only n r _ _⟩

theorem loadForms_kernel_outside (hm : s.mode = .kernel) (hp : s.parityData = false) (ha : Alone s)
    (hn : n ∈ [1, 2, 4, 8]) (hf : f ∈ loadForms n r rx d w s) (hal : f.2.2.2.toNat % n = 0)
    (hb : s.backed f.2.2.2.toNat n = false) : ∃ x, exec f.2.1 s = .fault (.outsideRealMemory x) := by
  obtain ⟨x, hx⟩ := busRead_outside ha hb
  exact ⟨x, (exec_loadForms hn hf).trans (loadOf_fault ((memRead_kernel f.1 f.2.2.2 n s hm hp hal).trans hx))⟩

/-- The two words of LOADD, each read after what happens before it (R96, R131). -/
theorem busRead_eight {a : Nat} {s1 s2 : State} (h1 : s.between = .ok () s1) (h2 : s1.between = .ok () s2)
    (hb : s.backed a 8 = true) :
    busRead a 8 s = .ok ((s1.wordAt a).toNat * 2 ^ 32 + (s2.wordAt (a + 4)).toNat) s2 := by
  rw [show 8 = 4 + 4 from rfl, State.backed_add] at hb
  have hb1 : s1.backed a 4 = true := ((between_only h1).backed a 4).trans hb.1
  have hb2 : s2.backed (a + 4) 4 = true :=
    (((between_only h1).trans (between_only h2)).backed (a + 4) 4).trans hb.2
  rw [busRead, readParts, if_pos rfl, pausedRead_eq_ok.mpr ⟨h1, hb1, rfl⟩, Access.ok_bind,
    pausedRead_eq_ok.mpr ⟨h2, hb2, rfl⟩, Access.ok_bind, s1.load_word, s2.load_word]

theorem loadd_kernel (hm : s.mode = .kernel) (hp : s.parityData = false) (hf : f ∈ loadForms 8 r rx d w s)
    (hpc : s.pc.toNat + f.2.2.1 < 2 ^ 32) (hal : f.2.2.2.toNat % 8 = 0) (hb : s.backed f.2.2.2.toNat 8 = true)
    {s1 s2 : State} (h1 : s.between = .ok () s1) (h2 : s1.between = .ok () s2) :
    ∃ t, exec f.2.1 s = .next t ∧ t.pc = s.pc + BitVec.ofNat 32 f.2.2.1 ∧ t.reg r = s1.wordAt f.2.2.2.toNat ∧
      t.reg (r + 1) = s2.wordAt (f.2.2.2.toNat + 4) ∧ OnlyRegs [r, r + 1] s2 t := by
  have hpc2 : s2.pc = s.pc := (between_only h2).pc.trans (between_only h1).pc
  have hr := (memRead_kernel f.1 f.2.2.2 8 s hm hp hal).trans (busRead_eight h1 h2 hb)
  have he := (exec_loadForms (by simp) hf).trans (loadOf_ok hr (hpc2.symm ▸ hpc))
  have hset : ∀ v, s2.setLoaded 8 r v = s2.setPair r (BitVec.ofNat 64 v) := fun v => if_pos rfl
  obtain ⟨hhigh, hlow⟩ := s2.reg_setPair_words r (s1.wordAt f.2.2.2.toNat) (s2.wordAt (f.2.2.2.toNat + 4))
  refine ⟨_, he, by rw [← hpc2]; rfl, ?_, ?_, s2.setLoaded_only 8 r _ _⟩
  · rw [State.setPc_reg, hset, ofNat_words, hhigh]
  · rw [State.setPc_reg, hset, ofNat_words, hlow]

end

/-- Settles O46: in kernel mode a load reads real memory at its effective address; what falls between the two words of LOADD are
the events before each, in order. -/
theorem loadsInKernelMode : Obligations.LoadsInKernelMode := by
  intro s r rx d w hm hp
  refine ⟨fun ha n hn f hf hpc hal hb => loadForms_kernel hm hp ha hn hf hpc hal hb,
    fun ha n hn f hf hal hb => loadForms_kernel_outside hm hp ha hn hf hal hb,
    fun f hf hpc hal hb s1 s2 h1 h2 => loadd_kernel hm hp hf hpc hal hb h1 h2, fun x b rest hw hi => ?_,
    fun e es rest hw => ⟨?_, fun s1 he => between_of_first_event hw he⟩⟩
  · exact ⟨_, between_of_dmaWrite hw hi, fun y => Memory.read_write _ _ _ _, rfl⟩
  · rintro rfl
    exact between_of_one_event hw

/-! ### Stores -/

section
variable {s : State} {n : Nat} {r rx : Reg} {d : Half} {w : Word} {f : Instr × Nat × Word}

theorem storeForms_kernel (hm : s.mode = .kernel) (hp : s.parityData = false) (ha : Alone s) (hn : n ∈ [1, 2, 4, 8])
    (hf : f ∈ storeForms n r rx d w s) (hpc : s.pc.toNat + f.2.1 < 2 ^ 32) (hal : f.2.2.toNat % n = 0)
    (hb : s.backed f.2.2.toNat n = true) : Stores f.1 f.2.1 f.2.2.toNat n (storedValue n r s) s := by
  obtain ⟨u, hu, hmem, hold, hframe⟩ := busWrite_alone ha f.2.2.toNat n (storedValue n r s) hb
  have hpcu : u.pc = s.pc := by rw [hframe]
  have hw := (memWrite_kernel f.2.2 n (storedValue n r s) s hm hp hal).trans hu
  refine ⟨_, (exec_storeForms hn hf).trans (storeFrom_ok hw (hpcu.symm ▸ hpc)), by rw [← hpcu]; rfl, fun k hk => ?_,
    fun i => ?_, fun k => ?_, fun x hx => ?_, hold, ?_⟩
  · rw [State.setPc_mem, hmem, Memory.read_store _ _ _ _ _ hk]
  · rw [hframe]; rfl
  · rw [hframe]; rfl
  · rw [State.setPc_mem, hmem, Memory.read_store_other _ _ _ _ _ hx]
  · rw [hframe]; rfl

theorem storeForms_kernel_outside (hm : s.mode = .kernel) (hp : s.parityData = false) (ha : Alone s)
    (hn : n ∈ [1, 2, 4, 8]) (hf : f ∈ storeForms n r rx d w s) (hal : f.2.2.toNat % n = 0)
    (hb : s.backed f.2.2.toNat n = false) : ∃ x, exec f.1 s = .fault (.outsideRealMemory x) := by
  obtain ⟨x, hx⟩ := busWrite_outside (storedValue n r s) ha hb
  exact ⟨x, (exec_storeForms hn hf).trans
    (storeFrom_fault ((memWrite_kernel f.2.2 n (storedValue n r s) s hm hp hal).trans hx))⟩

end

/-- Settles O47: in kernel mode a store writes real memory at its effective address. -/
theorem storesInKernelMode : Obligations.StoresInKernelMode := fun _ _ _ _ _ hm hp ha _ hn _ hf hal =>
  ⟨fun hpc hb => storeForms_kernel hm hp ha hn hf hpc hal hb,
    fun hb => storeForms_kernel_outside hm hp ha hn hf hal hb⟩

end Sys2Proof.Machine
end

section
/-! SUPPORT. Loads and stores of user mode in a page that is mapped, the marks that follow them, and the theorem that settles
`Obligations.AccessThroughTmt` (R82, R91, R92, R119, R123). -/

namespace Sys2Proof.Machine

/-! ### The access after the translation -/

/-- The state in which an access of user mode reaches memory: as its translation left it, the access noted. -/
def State.noted (s1 : State) (seg : Segment) (va : Word) (stored : Bool) : State :=
  s1.recordAccess (s1.segNumber seg) (pageOf va) stored

section
variable {seg : Segment} {va : Word} {rp : Page} {n : Nat} {s s1 : State}

theorem Maps.spec {segment : Word} (h : Maps seg segment va rp s s1) (k : Reg) : s1.spec k = s.spec k := by
  rw [State.spec, State.spec, h.sr]

theorem Maps.segNumber {segment : Word} (h : Maps seg segment va rp s s1) (sg : Segment) :
    s1.segNumber sg = s.segNumber sg := by
  cases sg
  · exact h.spec 8
  · exact h.spec 9

theorem Maps.reg {segment : Word} (h : Maps seg segment va rp s s1) (k : Reg) : s1.reg k = s.reg k := by
  rw [h.frame]
  rfl

theorem memRead_user (hm : s.mode = .user) (hp : s.parityData = false) (ha : Alone s) (hal : va.toNat % n = 0)
    (h : Maps seg (s.segNumber seg) va rp s s1) (hb : s.backed (realAddress rp va).toNat n = true) :
    memRead seg va n s = .ok (s1.mem.load (realAddress rp va).toNat n) (s1.noted seg va false) := by
  have hb1 : (s1.noted seg va false).backed (realAddress rp va).toNat n = true :=
    (State.backed_congr s _ _ _ h.installed).trans hb
  rw [memRead, if_neg (by omega), resolve_maps seg va false s s1 rp hm ha h, Access.ok_bind,
    if_neg (by rw [State.recordAccess_parityData, h.parityData, hp]; exact Bool.false_ne_true)]
  exact busRead_alone (s := s1.noted seg va false) (h.alone ha) _ _ hb1

theorem memWrite_user (hm : s.mode = .user) (hp : s.parityData = false) (ha : Alone s) (hal : va.toNat % n = 0)
    (h : Maps .data (s.spec 9) va rp s s1) (v : Nat) :
    memWrite va n v s = busWrite (realAddress rp va).toNat n v (s1.noted .data va true) := by
  rw [memWrite, if_neg (by omega), resolve_maps .data va true s s1 rp hm ha h, Access.ok_bind,
    if_neg (by rw [State.recordAccess_parityData, h.parityData, hp]; exact Bool.false_ne_true)]
  rfl

/-- The access of the translated page is noted, and no other (R123). -/
theorem Maps.noted {segment : Word} (h : Maps seg segment va rp s s1) (hs : segment = s.segNumber seg) (stored : Bool) :
    Noted segment (pageOf va) stored s (s1.noted seg va stored) := by
  rw [hs, ← h.segNumber seg]
  exact Noted.recordAccess s s1 _ _ _ h.accessed

end

/-! ### Loads -/

theorem State.tmt_recordAccess (s : State) (segment : Word) (page : Page) (stored : Bool) (seg : Segment) :
    (s.recordAccess segment page stored).tmt seg = s.tmt seg := by
  cases seg <;> rfl

theorem OnlyRegs.accessed {rs : List Reg} {s t : State} (h : OnlyRegs rs s t) : t.accessed = s.accessed := by
  obtain ⟨-, -, -, hframe⟩ := h
  rw [hframe]

theorem OnlyRegs.tmt {rs : List Reg} {s t : State} (h : OnlyRegs rs s t) (seg : Segment) : t.tmt seg = s.tmt seg := by
  obtain ⟨-, -, -, hframe⟩ := h
  rw [hframe]
  cases seg <;> rfl

theorem Noted.congr {segment : Word} {page : Page} {stored : Bool} {s t u : State} (h : Noted segment page stored s t)
    (hu : u.accessed = t.accessed) : Noted segment page stored s u := fun x => by
  rw [hu]
  exact h x

section
variable {s s1 : State} {n : Nat} {r rx : Reg} {d : Half} {w : Word}

theorem loadForms_user (hm : s.mode = .user) (hp : s.parityData = false) (ha : Alone s) (hn : n ∈ [1, 2, 4, 8])
    {f : Segment × Instr × Nat × Word} (hf : f ∈ loadForms n r rx d w s) {rp : Page}
    (hpc : s.pc.toNat + f.2.2.1 < 2 ^ 32) (hal : f.2.2.2.toNat % n = 0)
    (hmap : Maps f.1 (s.segNumber f.1) f.2.2.2 rp s s1)
    (hb : s.backed (realAddress rp f.2.2.2).toNat n = true) :
    ∃ t, exec f.2.1 s = .next t ∧ t.pc = s.pc + BitVec.ofNat 32 f.2.2.1 ∧
      Loaded n (realAddress rp f.2.2.2).toNat r s1 t ∧ Noted (s.segNumber f.1) (pageOf f.2.2.2) false s t ∧
      OnlyRegs (loadedRegs n r) (s1.noted f.1 f.2.2.2 false) t := by
  have he := (exec_loadForms hn hf).trans
    (loadOf_ok (memRead_user hm hp ha hal hmap hb) (len := f.2.2.1) (r := r) (hmap.pc.symm ▸ hpc))
  have honly := (s1.noted f.1 f.2.2.2 false).setLoaded_only n r (s1.mem.load (realAddress rp f.2.2.2).toNat n)
    ((s1.noted f.1 f.2.2.2 false).pc + BitVec.ofNat 32 f.2.2.1)
  exact ⟨_, he, by rw [← hmap.pc]; rfl, State.setLoaded_loads hn s1 _ _ r _,
    (hmap.noted rfl false).congr honly.accessed, honly⟩

/-- The entry of the page stays marked while its bytes stay. -/
theorem MapsByVrt.entry_of_same {seg : Segment} {va ea : Word} {e : Double} {rp : Page} {t : State}
    (h : MapsByVrt seg va ea e rp s s1) (hmem : ∀ x, ¬OutsideEntry ea x → t.mem.read x = s1.mem.read x) :
    t.entryAt ea = vrtSetR e :=
  (State.entryAt_congr _ _ _ hmem).trans h.entry

theorem accessThroughTmt_load (hm : s.mode = .user) (hp : s.parityData = false) (ha : Alone s) (hn : n ∈ [1, 2, 4, 8])
    {f : Segment × Instr × Nat × Word} (hf : f ∈ loadForms n r rx d w s) {seg : Word} {ra : Nat} {rp : Page}
    (hseg : seg = s.segNumber f.1)
    (hpc : s.pc.toNat + f.2.2.1 < 2 ^ 32) (hal : f.2.2.2.toNat % n = 0) (hmap : Maps f.1 seg f.2.2.2 rp s s1)
    (hra : ra = (realAddress rp f.2.2.2).toNat) (hb : s.backed ra n = true) :
    ∃ t, exec f.2.1 s = .next t ∧ t.pc = s.pc + BitVec.ofNat 32 f.2.2.1 ∧ Loaded n ra r s1 t ∧
      Noted seg (pageOf f.2.2.2) false s t ∧ (∀ i, i ∉ loadedRegs n r → t.reg i = s.reg i) ∧
      (∀ k, t.spec k = s.spec k) ∧ (∀ x, t.mem.read x = s1.mem.read x) ∧
      (∀ ea e, tmtFind (s.tmt f.1) (pageOf f.2.2.2) = none → Finds seg f.2.2.2 (some (ea, e)) s →
        t.entryAt ea = vrtSetR e ∧ (∀ x, OutsideEntry ea x → t.mem.read x = s.mem.read x) ∧
        tmtFind (t.tmt f.1) (pageOf f.2.2.2) =
          some { page := pageOf f.2.2.2, realPage := rp, modified := vrtM e }) ∧
      t = { s1 with regs := t.regs, pc := t.pc, accessed := t.accessed } := by
  subst hseg hra
  obtain ⟨t, he, htpc, hload, hnoted, honly⟩ := loadForms_user hm hp ha hn hf hpc hal hmap hb
  have htmt : t.tmt f.1 = s1.tmt f.1 := (honly.tmt f.1).trans (s1.tmt_recordAccess _ _ _ _)
  obtain ⟨hregs, hspec, hmem, hframe⟩ := honly
  refine ⟨t, he, htpc, hload, hnoted, fun i hi => (hregs i hi).trans (hmap.reg i),
    fun k => (hspec k).trans (hmap.spec k), hmem, fun ea e hmiss hfind => ?_, by rw [hframe]; rfl⟩
  have hv := hmap.byVrt hmiss hfind
  exact ⟨hv.entry_of_same fun x _ => hmem x, fun x hx => (hmem x).trans (hv.others x hx), htmt ▸ hv.loaded⟩

/-! ### Stores -/

/-- A store leaves all but its bytes, the pc, and what a fetch of those bytes may show as the noted translation left it. -/
theorem storeForms_user (hm : s.mode = .user) (hp : s.parityData = false) (ha : Alone s) (hn : n ∈ [1, 2, 4, 8])
    {f : Instr × Nat × Word} (hf : f ∈ storeForms n r rx d w s) {rp : Page}
    (hpc : s.pc.toNat + f.2.1 < 2 ^ 32) (hal : f.2.2.toNat % n = 0) (hmap : Maps .data (s.spec 9) f.2.2 rp s s1)
    (hb : s.backed (realAddress rp f.2.2).toNat n = true) :
    ∃ t, exec f.1 s = .next t ∧ t.pc = s.pc + BitVec.ofNat 32 f.2.1 ∧
      (∀ x, t.mem.read x = (s1.mem.store (realAddress rp f.2.2).toNat n (storedValue n r s)).read x) ∧
      t = { s1.noted .data f.2.2 true with pc := t.pc, mem := t.mem, fetch := t.fetch } := by
  have hb1 : (s1.noted .data f.2.2 true).backed (realAddress rp f.2.2).toNat n = true :=
    (State.backed_congr s _ _ _ hmap.installed).trans hb
  obtain ⟨u, hu, hmem, -, hframe⟩ := busWrite_alone (s := s1.noted .data f.2.2 true) (hmap.alone ha) _ n
    (storedValue n r s) hb1
  have hpcu : u.pc = s.pc := by rw [hframe]; exact hmap.pc
  have hw := (memWrite_user hm hp ha hal hmap (storedValue n r s)).trans hu
  exact ⟨_, (exec_storeForms hn hf).trans (storeFrom_ok hw (hpcu.symm ▸ hpc)), by rw [← hpcu]; rfl, hmem,
    by rw [hframe]; rfl⟩

theorem accessThroughTmt_store (hm : s.mode = .user) (hp : s.parityData = false) (ha : Alone s) (hn : n ∈ [1, 2, 4, 8])
    {f : Instr × Nat × Word} (hf : f ∈ storeForms n r rx d w s) {ra : Nat} {rp : Page}
    (hpc : s.pc.toNat + f.2.1 < 2 ^ 32) (hal : f.2.2.toNat % n = 0) (hmap : Maps .data (s.spec 9) f.2.2 rp s s1)
    (hra : ra = (realAddress rp f.2.2).toNat) (hb : s.backed ra n = true) :
    ∃ t, exec f.1 s = .next t ∧ t.pc = s.pc + BitVec.ofNat 32 f.2.1 ∧
      (∀ k < n, t.mem.read (ra + k) = BitVec.ofNat 8 (storedValue n r s / 256 ^ (n - 1 - k))) ∧
      Noted (s.spec 9) (pageOf f.2.2) true s t ∧ (∀ i, t.reg i = s.reg i) ∧ (∀ k, t.spec k = s.spec k) ∧
      (∀ x, x < ra ∨ ra + n ≤ x → t.mem.read x = s1.mem.read x) ∧
      (∀ ea e, tmtFind s.dataTmt (pageOf f.2.2) = none → Finds (s.spec 9) f.2.2 (some (ea, e)) s →
        ((∀ k < n, OutsideEntry ea (ra + k)) → t.entryAt ea = vrtSetR e) ∧
        (∀ x, x < ra ∨ ra + n ≤ x → OutsideEntry ea x → t.mem.read x = s.mem.read x) ∧
        tmtFind t.dataTmt (pageOf f.2.2) = some { page := pageOf f.2.2, realPage := rp, modified := vrtM e }) ∧
      t = { s1 with pc := t.pc, mem := t.mem, fetch := t.fetch, accessed := t.accessed } := by
  subst hra
  obtain ⟨t, he, htpc, hmem, hframe⟩ := storeForms_user hm hp ha hn hf hpc hal hmap hb
  have hout : ∀ x, x < (realAddress rp f.2.2).toNat ∨ (realAddress rp f.2.2).toNat + n ≤ x →
      t.mem.read x = s1.mem.read x := fun x hx => (hmem x).trans (Memory.read_store_other _ _ _ _ _ hx)
  refine ⟨t, he, htpc, fun k hk => (hmem _).trans (Memory.read_store _ _ _ _ _ hk),
    (hmap.noted (seg := .data) rfl true).congr (by rw [hframe]), fun i => ?_, fun k => ?_, hout,
    fun ea e hmiss hfind => ⟨fun hapart => ?_, fun x hx ho => ?_, ?_⟩, by rw [hframe]; rfl⟩
  · rw [← hmap.reg i, hframe]; rfl
  · rw [← hmap.spec k, hframe]; rfl
  · refine (hmap.byVrt hmiss hfind).entry_of_same fun x hx => hout x ?_
    by_contra hin
    refine hx ?_
    have := hapart (x - (realAddress rp f.2.2).toNat) (by omega)
    rwa [Nat.add_sub_cancel' (by omega)] at this
  · exact (hout x hx).trans ((hmap.byVrt hmiss hfind).others x ho)
  · rw [hframe]
    exact (hmap.byVrt hmiss hfind).loaded

end

/-! ### Marks -/

/-- A mark of R or M changes the entry that maps the page, after an access that allows it in user mode, and nothing else (R123). -/
theorem vrtMark_marks (s : State) (segment : Word) (page : Page) (modified : Bool) :
    ∃ t, applyMemoryEvent (.vrtMark segment page modified) s = .ok () t ∧
      (s.mode = .user → s.mayMark segment page modified = true → ∀ ea e,
        Finds segment (page ++ 0#12) (some (ea, e)) s →
          t.entryAt ea = (if modified then vrtSetM e else vrtSetR e) ∧
          (∀ x, OutsideEntry ea x → t.mem.read x = s.mem.read x) ∧
          t = { s with mem := t.mem, fetch := t.fetch }) ∧
      (s.mode = .kernel ∨ s.mayMark segment page modified = false → t = s) := by
  refine ⟨_, rfl, fun hm hk ea e hf => ?_, State.markPage_of_not_allowed⟩
  rw [State.markPage_of_finds hm hk hf, hf.entryAt_markEntry]
  refine ⟨?_, fun x hx => State.read_markEntry_other _ _ _ _ hx, rfl⟩
  cases modified <;> rfl

/-- Settles O51: a load or a store reaches memory in the state its translation left, the access noted; a mark is that of the
entry found. -/
theorem accessThroughTmt : Obligations.AccessThroughTmt :=
  ⟨fun s _ _ _ _ hm hp ha _ hn =>
    ⟨fun f hf _ _ _ _ hseg hpc hal hmap hra hb =>
      accessThroughTmt_load hm hp ha hn hf (hseg.trans (s.segNumber_eq f.1).symm) hpc hal hmap hra hb,
    fun _ hf _ _ _ hpc hal hmap hra hb => accessThroughTmt_store hm hp ha hn hf hpc hal hmap hra hb⟩,
  vrtMark_marks⟩

end Sys2Proof.Machine
end

section
/-! SUPPORT. A fetch from a page that is missing, of the first halfword or of the others, at a quiet boundary; and the theorem that
settles `Obligations.FetchPageFault` (R90, R124, U14). -/

namespace Sys2Proof.Machine

/-! ### The address a fault of the first halfword reports -/

/-- One of the six bytes from the pc, in its page; the pc itself where the six lie in one page (log 39). -/
theorem faultAddress_first (pc : Word) (n : Nat) :
    ∃ j < 6, faultAddress pc 6 pc n = pc + BitVec.ofNat 32 j ∧ pageOf (faultAddress pc 6 pc n) = pageOf pc ∧
      (pageOf pc = pageOf (pc + 5) → faultAddress pc 6 pc n = pc) := by
  by_cases h5 : pageOf pc = pageOf (pc + 5)
  · have h : faultAddress pc 6 pc n = pc := if_pos h5
    exact ⟨0, by omega, by rw [h, add_ofNat_zero], by rw [h], fun _ => h⟩
  · have hmem : ∀ x, x ∈ missingBytes pc 6 pc ↔ (∃ j < 6, pc + BitVec.ofNat 32 j = x) ∧ pageOf x = pageOf pc := by
      simp [missingBytes]
    obtain ⟨y, l, hl⟩ := List.exists_cons_of_ne_nil
      (List.ne_nil_of_mem ((hmem pc).mpr ⟨⟨0, by omega, add_ofNat_zero pc⟩, rfl⟩))
    obtain ⟨x, hx⟩ := chooseFrom_cons n y l
    rw [← hl] at hx
    have h : faultAddress pc 6 pc n = x := by rw [faultAddress, if_neg h5, hx, Option.getD_some]
    obtain ⟨⟨j, hj, hjx⟩, hp⟩ := (hmem x).mp (chooseFrom_mem _ _ _ hx)
    exact ⟨j, hj, by rw [h, hjx], by rw [h, hp], fun h' => absurd h' h5⟩

theorem Entered.spec_two {e : Exception} {ret v : Word} {s t : State} (h : Entered e ret s t) (hv : e.info2 = some v) :
    t.spec 2 = v := by
  obtain ⟨-, -, -, -, -, -, h2, -⟩ := h
  exact h2 v hv

/-! ### A page fault does not depend on a parity error the fetch has not come to -/

section
variable {err : Option Word} {len : Nat} {va segment f : Word} {s t : State}

theorem fetchHalfOf_eq_ok {b : Byte × Byte} : fetchHalfOf len err va s = .ok b t ↔ fetchHalf err va s = .ok b t := by
  unfold fetchHalfOf
  split
  · rename_i h
    simp [h]
  · exact Iff.rfl

theorem fetchHalfOf_eq_pageFault :
    fetchHalfOf len err va s = .trap (.pageFault segment f) t ↔
      ∃ f' s1, fetchHalf err va s = .trap (.pageFault segment f') s1 ∧ f = faultAddress s.pc len va s1.draws ∧
        t = s1.drawn := by
  unfold fetchHalfOf
  split
  · rename_i seg' f' s1 h
    constructor
    · rintro ⟨⟩
      exact ⟨f', s1, h, rfl, rfl⟩
    · rintro ⟨f'', s1', h', rfl, rfl⟩
      rw [h] at h'
      cases h'
      rfl
  · rename_i h
    constructor
    · intro h'
      exact absurd h' (h _ _ _)
    · rintro ⟨f', s1, h', -⟩
      exact absurd h' (h _ _ _)

theorem fetchHalfOf_ok_without_error {b : Byte × Byte} (h : fetchHalfOf len err va s = .ok b t) :
    fetchHalfOf len none va s = .ok b t := by
  obtain ⟨-, hb⟩ := fetchHalf_eq_ok.mp (fetchHalfOf_eq_ok.mp h)
  exact fetchHalfOf_eq_ok.mpr (fetchHalf_eq_ok.mpr ⟨rfl, hb⟩)

theorem fetchHalfOf_fault_without_error (h : fetchHalfOf len err va s = .trap (.pageFault segment f) t) :
    fetchHalfOf len none va s = .trap (.pageFault segment f) t := by
  obtain ⟨f', s1, h, hf, ht⟩ := fetchHalfOf_eq_pageFault.mp h
  rcases fetchHalf_eq_trap.mp h with hr | ⟨_, _, -, -, he⟩
  · exact fetchHalfOf_eq_pageFault.mpr ⟨f', s1, fetchHalf_eq_trap.mpr (.inl hr), hf, ht⟩
  · cases he

theorem fetchTail_fault_without_error {k : Nat} (h : fetchTail len err k va s = .trap (.pageFault segment f) t) :
    fetchTail len none k va s = .trap (.pageFault segment f) t := by
  induction k generalizing va s with
  | zero => cases h
  | succ k ih =>
    rw [fetchTail, Access.bind_eq_trap] at h
    rcases h with h | ⟨b, s1, h1, h⟩
    · rw [fetchTail, fetchHalfOf_fault_without_error h, Access.trap_bind]
    rw [Access.bind_eq_trap] at h
    rcases h with h | ⟨rest, s2, -, h⟩
    · rw [fetchTail, fetchHalfOf_ok_without_error h1, Access.ok_bind, ih h, Access.trap_bind]
    · cases h

theorem fetchBytes_fault_without_error (h : fetchBytes err s = .trap (.pageFault segment f) t) :
    fetchBytes none s = .trap (.pageFault segment f) t := by
  unfold fetchBytes at h ⊢
  rw [Access.bind_eq_trap] at h
  rcases h with h | ⟨b, s1, h1, h⟩
  · rw [fetchHalfOf_fault_without_error h, Access.trap_bind]
  rw [fetchHalfOf_ok_without_error h1, Access.ok_bind]
  dsimp only at h ⊢
  split at h
  · cases h
  rw [if_neg ‹_›]
  rw [Access.bind_eq_trap] at h
  rcases h with h | ⟨rest, s2, -, h⟩
  · rw [fetchTail_fault_without_error h, Access.trap_bind]
  · obtain ⟨a, -, he, -⟩ := endFetch_eq_trap.mp h
    cases he

theorem runInstruction_fault_without_error (h : fetchBytes err s.dropAhead = .trap (.pageFault segment f) t) :
    runInstruction none s = runInstruction err s := by
  rw [runInstruction_of_trap h, runInstruction_of_trap (fetchBytes_fault_without_error h)]

end

/-! ### The faults -/

/-- The fault of the first halfword, with the address it reports. -/
theorem runInstruction_first_missing {u : State} (hm : u.mode = .user) (ha : Alone u)
    (htmt : tmtFind u.codeTmt (pageOf u.pc) = none) (hf : Finds (u.spec 8) u.pc none u) (hc : u.ccbUsable 0x410 = true) :
    ∃ t, runInstruction none u = .next t ∧
      Entered (.pageFault (u.spec 8) (faultAddress u.pc 6 u.pc u.draws)) u.pc u.dropAhead t := by
  have he := fetchHalfOf_missing (len := 6) (err := none) (va := u.pc) (s := u.dropAhead)
    (u.dropAhead_mode.trans hm) (u.dropAhead_within.trans ha) (u.dropAhead_codeTmt.symm ▸ htmt)
    (by rw [u.dropAhead_spec]; exact hf.congr u.dropAhead_mem u.dropAhead_installed u.dropAhead_sr)
  rw [u.dropAhead_spec, u.dropAhead_pc, u.dropAhead_draws] at he
  obtain ⟨t, ht, hent⟩ := raise_entered_at (e := .pageFault (u.spec 8) (faultAddress u.pc 6 u.pc u.draws))
    (s := u.dropAhead.drawn) u.dropAhead_pc
    ⟨(State.ccbUsable_congr _ u.dropAhead_sr u.dropAhead_installed u.dropAhead_parityEntry).trans hc,
      u.dropAhead_within.trans ha⟩
  have hb : fetchBytes none u.dropAhead = _ := fetchBytes_of_first_trap (by rw [u.dropAhead_pc]; exact he)
  exact ⟨t, (runInstruction_of_trap hb).trans ht, entered_drawn_iff.mp hent⟩

/-- A fetch whose second page is missing faults as one that meets a parity error there does. -/
theorem runInstruction_second_missing {u u1 : State} {k n : Nat} (h : TailMissing k n u u1) (hpc : u.pc.toNat % 2 = 0)
    (ha : Alone u) (hc : u.ccbUsable 0x410 = true) :
    ∃ t, runInstruction none u = .next t ∧ TailFaulted k n u u1 t := by
  obtain ⟨rp, h1, hn⟩ := h.firstPage hpc ha
  obtain ⟨-, hk, hkn, hin, -, -, -, hmiss, hfind⟩ := id h
  have hl := lengthOf_cases (u1.mem.read (realAddress rp u.pc).toNat)
  have hd : (u.pc + BitVec.ofNat 32 k - u.pc).toNat = k := distance_add_ofNat u.pc (by omega)
  obtain ⟨_, -, -, he⟩ := h1.fetchBytes hk hmiss hfind hd.ge hn hkn hin
  rw [runInstruction_fault_without_error he]
  exact runInstruction_tail_missing h hpc ha hd.ge (by omega) hc

/-- A fetch leaves the special registers to the fault that ends it. -/
theorem TailFaulted.saved {k n : Nat} {s s1 t : State} (h : TailFaulted k n s s1 t) (hm : s1.mode = .user) :
    t.spec 2 = s.spec 8 ∧ t.spec 15 = s.pc := by
  obtain ⟨j, s2, -, -, hs2, -, -, hent⟩ := h
  exact ⟨hent.spec_two rfl, hent.spec_fifteen (by rw [hs2]; exact hm)⟩

/-- Settles O9: at a quiet boundary the step is the instruction, whose fetch faults in its first page or in its second. -/
theorem fetchPageFault : Obligations.FetchPageFault := by
  refine ⟨fun s hq hm hpc htmt hf hc => ?_, fun s s1 k n hq hpc htail hc => ?_⟩
  · obtain ⟨j, hj, haddr, hpage, honly⟩ := faultAddress_first s.pc s.draws
    obtain ⟨t, ht, hent⟩ := runInstruction_first_missing hm hc.2 htmt hf hc.1
    exact ⟨j, _, t, hj, haddr, hpage, honly, (step_of_quiet hq hpc).trans ht, hent, hent.spec_two rfl,
      hent.spec_three rfl, hent.spec_fifteen (s.dropAhead_mode.trans hm)⟩
  · obtain ⟨t, ht, hfault⟩ := runInstruction_second_missing htail hpc hc.2 hc.1
    obtain ⟨hm, -, -, -, -, ⟨_, ⟨-, _, hmap, -⟩, -⟩, -⟩ := htail
    exact ⟨t, (step_of_quiet hq hpc).trans ht, hfault, hfault.saved (hmap.mode.trans hm)⟩

end Sys2Proof.Machine
end

section
/-! SUPPORT. The millisecond tick access by access, the four counts that make a whole tick, and the theorem that settles
`Obligations.MillisecondTick` (R96, R131, R540, R541, R546). -/

namespace Sys2Proof.Machine

/-! ### One access -/

section
variable {a v x : Word} {s u : State}

/-- A word read after an aligned word at another address was stored. -/
theorem State.wordAt_setWord_ne (ha : a.toNat % 4 = 0) (hx : x.toNat % 4 = 0) (h : x ≠ a) :
    (s.setWord a v).wordAt x.toNat = s.wordAt x.toNat := by
  have hne : x.toNat ≠ a.toNat := fun h' => h (BitVec.eq_of_toNat_eq h')
  exact State.wordAt_setWord_other _ _ _ _ (by omega)

theorem tickRead_of_backed {f : Word → TickStage} (h : s.backed a.toNat 4 = true) :
    tickRead a f s = .ok () (s.setTick (f (s.wordAt a.toNat))) :=
  tickRead_eq_ok.mpr ⟨h, rfl⟩

theorem tickWrite_of_backed {stage : TickStage} (h : s.backed a.toNat 4 = true) :
    tickWrite a v stage s = .ok () ((s.setWord a v).setTick stage) :=
  tickWrite_eq_ok.mpr ⟨h, rfl⟩

theorem tickRead_setTick {x : TickStage} {f : Word → TickStage} (h : u.backed a.toNat 4 = true) :
    tickRead a f (u.setTick x) = .ok () (u.setTick (f (u.wordAt a.toNat))) :=
  tickRead_of_backed (s := u.setTick x) h

theorem tickWrite_setTick {x y : TickStage} (h : u.backed a.toNat 4 = true) :
    tickWrite a v y (u.setTick x) = .ok () ((u.setWord a v).setTick y) :=
  tickWrite_of_backed (s := u.setTick x) h

theorem State.setWord_installed : (s.setWord a v).installed = s.installed := rfl

theorem TickReads.of_tickRead {f : Word → TickStage} (h : tickAccess s = tickRead a f s) : TickReads a f s :=
  fun hb => h.trans (tickRead_of_backed hb)

/-- An access that stores a word, and leaves `g` of it, writes it, where `g` changes neither memory nor the old bytes. -/
theorem TickWrites.of_setWord {g : State → State} (hmem : ∀ t, (g t).mem = t.mem) (hfetch : ∀ t, (g t).fetch = t.fetch)
    (h : s.backed a.toNat 4 = true → tickAccess s = .ok () (g (s.setWord a v)))
    (hu : g (s.setWord a v) = { u with mem := (s.setWord a v).mem, fetch := (s.setWord a v).fetch }) :
    TickWrites a v s u := by
  intro hb
  refine ⟨_, h hb, ?_, fun y hy => ⟨?_, ?_⟩, ?_⟩
  · rw [State.wordAt_congr (s.setWord a v) _ _ fun k _ => by rw [hmem], State.wordAt_setWord]
  · rw [hmem]; exact Memory.read_store_other _ _ _ _ _ hy
  · rw [hfetch]; exact State.old_setMem _ _ _ _ _ hy
  · rw [hmem, hfetch]; exact hu

theorem TickWrites.of_tickWrite {stage : TickStage} (h : tickAccess s = tickWrite a v stage s) :
    TickWrites a v s { s with tickStage := stage } :=
  .of_setWord (g := fun t => t.setTick stage) (fun _ => rfl) (fun _ => rfl) (fun hb => h.trans (tickWrite_of_backed hb)) rfl

/-! ### The stages -/

theorem tickReadCcb_of_placed {offset : Word} {f : Word → Word → TickStage} (h : s.ccbPlaced = true) :
    tickReadCcb offset f s = tickRead (s.spec 11 + offset) (f (s.spec 11 + offset)) s := if_pos h

/-- A word of the CCB data area read in the middle of a tick. -/
theorem tickReadCcb_setTick {offset : Word} {x : TickStage} {f : Word → Word → TickStage} (hc : u.ccbPlaced = true)
    (ha : u.spec 11 + offset = a) (hb : u.backed a.toNat 4 = true) :
    tickReadCcb offset f (u.setTick x) = .ok () (u.setTick (f a (u.wordAt a.toNat))) := by
  subst ha
  exact (tickReadCcb_of_placed (s := u.setTick x) hc).trans (tickRead_of_backed hb)

theorem tickAccess_idle (h : s.tickStage = .idle) : tickAccess s = tickBegin s := by
  rw [tickAccess, h]

theorem tickAccess_begin (h : s.tickStage = .idle) (hc : s.ccbPlaced = true)
    (h14 : s.spec 14 = 1 ∨ (s.spec 14).toNat % 4 = 0) :
    tickAccess s = tickRead s.clockWord (.clockRead s.clockWord) s := by
  rw [tickAccess_idle h, tickBegin, if_neg (by simp [hc]), if_neg (by rintro ⟨h1, h4⟩; exact h14.elim h1 h4)]

theorem tickAccess_clockRead (h : s.tickStage = .clockRead a v) : tickAccess s = tickWrite a (v + 1) .clockCounted s := by
  rw [tickAccess, h]

theorem tickAccess_clockCounted (h : s.tickStage = .clockCounted) : tickAccess s = tickReadCcb 0x448 .highRead s := by
  rw [tickAccess, h]

theorem tickAccess_highRead (h : s.tickStage = .highRead a v) :
    tickAccess s = tickRead (a + 4) (fun low => .timeRead a (v ++ low)) s := by
  rw [tickAccess, h]

theorem tickAccess_timeRead {d : Double} (h : s.tickStage = .timeRead a d) :
    tickAccess s = tickWrite a ((d + 1000000).extractLsb' 32 32) (.highWritten a ((d + 1000000).extractLsb' 0 32)) s := by
  rw [tickAccess, h]

theorem tickAccess_highWritten (h : s.tickStage = .highWritten a v) :
    tickAccess s = tickWrite (a + 4) v .timeCounted s := by
  rw [tickAccess, h]

theorem tickAccess_timeCounted (h : s.tickStage = .timeCounted) : tickAccess s = tickReadCcb 0x440 .timer1Read s := by
  rw [tickAccess, h]

theorem tickAccess_timer1Read (h : s.tickStage = .timer1Read a v) :
    tickAccess s = tickWrite a (v - 1) (.timer1Counted (v - 1)) s := by
  rw [tickAccess, h]

theorem tickAccess_timer1Counted {t1 : Word} (h : s.tickStage = .timer1Counted t1) :
    tickAccess s = tickReadCcb 0x444 (.timer2Read t1) s := by
  rw [tickAccess, h]

theorem tickAccess_timer2Read {t1 : Word} (h : s.tickStage = .timer2Read t1 a v) (hb : s.backed a.toNat 4 = true) :
    tickAccess s = .ok () (((s.setWord a (v - 1)).setTick .idle).timersPending t1 (v - 1)) := by
  rw [tickAccess, h]
  dsimp only
  rw [tickWrite_of_backed hb, Access.ok_bind]

/-! ### The counts, each a word or two read and written -/

theorem tickAccesses_succ {n : Nat} {t : State} (h : tickAccess s = .ok () t) (ht : t.tickStage ≠ .idle) :
    tickAccesses (n + 1) s = tickAccesses n t := by
  rw [tickAccesses, h, Access.ok_bind, if_neg ht]

/-- The clock word is counted up. -/
theorem tickAccesses_clock {n : Nat} (hs : s.tickStage = .idle) (hc : s.ccbPlaced = true)
    (h14 : s.spec 14 = 1 ∨ (s.spec 14).toNat % 4 = 0) (ha : a = s.clockWord) (hv : v = s.wordAt a.toNat)
    (hb : s.backed a.toNat 4 = true) :
    tickAccesses (n + 2) s = tickAccesses n ((s.setWord a (v + 1)).setTick .clockCounted) := by
  subst ha hv
  have hread := (tickAccess_begin hs hc h14).trans (tickRead_of_backed hb)
  rw [tickAccesses_succ hread (by simp)]
  exact tickAccesses_succ ((tickAccess_clockRead rfl).trans (tickWrite_setTick hb)) (by simp)

/-- The time of day is counted up by a million. -/
theorem tickAccesses_time {n : Nat} (hc : u.ccbPlaced = true) (ha : u.spec 11 + 0x448 = a) (hb : u.entryBacked a) :
    tickAccesses (n + 4) (u.setTick .clockCounted) =
      tickAccesses n ((u.markEntry a (· + 1000000)).setTick .timeCounted) := by
  obtain ⟨hb0, hb4⟩ := hb
  rw [State.markEntry, u.vrtWords_load]
  generalize hd : u.entryAt a + 1000000 = d
  have hhigh : tickAccess (u.setTick .clockCounted) = .ok () (u.setTick (.highRead a (u.wordAt a.toNat))) :=
    (tickAccess_clockCounted rfl).trans (tickReadCcb_setTick hc ha hb0)
  have hlow : tickAccess (u.setTick (.highRead a (u.wordAt a.toNat))) = .ok () (u.setTick (.timeRead a (u.entryAt a))) := by
    rw [tickAccess_highRead rfl, tickRead_setTick hb4, State.entryAt]
  have hnewHigh : tickAccess (u.setTick (.timeRead a (u.entryAt a))) =
      .ok () ((u.setWord a (d.extractLsb' 32 32)).setTick (.highWritten a (d.extractLsb' 0 32))) := by
    rw [tickAccess_timeRead rfl, hd, tickWrite_setTick hb0]
  have hb4' : (u.setWord a (d.extractLsb' 32 32)).backed (a + 4).toNat 4 = true := by
    rw [State.backed_congr u _ _ _ State.setWord_installed, hb4]
  rw [tickAccesses_succ hhigh (by simp), tickAccesses_succ hlow (by simp), tickAccesses_succ hnewHigh (by simp)]
  exact tickAccesses_succ ((tickAccess_highWritten rfl).trans (tickWrite_setTick hb4')) (by simp)

/-- The first timer is counted down. -/
theorem tickAccesses_timer1 {n : Nat} (hc : u.ccbPlaced = true) (ha : u.spec 11 + 0x440 = a)
    (hv : u.wordAt a.toNat = v) (hb : u.backed a.toNat 4 = true) :
    tickAccesses (n + 2) (u.setTick .timeCounted) =
      tickAccesses n ((u.setWord a (v - 1)).setTick (.timer1Counted (v - 1))) := by
  have hread : tickAccess (u.setTick .timeCounted) = .ok () (u.setTick (.timer1Read a v)) := by
    rw [← hv]
    exact (tickAccess_timeCounted rfl).trans (tickReadCcb_setTick hc ha hb)
  rw [tickAccesses_succ hread (by simp)]
  exact tickAccesses_succ ((tickAccess_timer1Read rfl).trans (tickWrite_setTick hb)) (by simp)

/-- The second timer is counted down, and negative counts make their interrupts pending. -/
theorem tickAccesses_timer2 {n : Nat} {t1 : Word} (hc : u.ccbPlaced = true) (ha : u.spec 11 + 0x444 = a)
    (hv : u.wordAt a.toNat = v) (hb : u.backed a.toNat 4 = true) :
    tickAccesses (n + 2) (u.setTick (.timer1Counted t1)) =
      .ok () (((u.setWord a (v - 1)).setTick .idle).timersPending t1 (v - 1)) := by
  have hread : tickAccess (u.setTick (.timer1Counted t1)) = .ok () (u.setTick (.timer2Read t1 a v)) := by
    rw [← hv]
    exact (tickAccess_timer1Counted rfl).trans (tickReadCcb_setTick hc ha hb)
  have hwrite : tickAccess (u.setTick (.timer2Read t1 a v)) =
      .ok () (((u.setWord a (v - 1)).setTick .idle).timersPending t1 (v - 1)) := tickAccess_timer2Read rfl hb
  rw [tickAccesses_succ hread (by simp), tickAccesses, hwrite, Access.ok_bind]
  exact if_pos rfl

/-! ### The whole tick -/

/-- The state with the clock word and the time of day counted. -/
def State.timed (s : State) (clock ccb : Word) : State :=
  (s.setWord clock (s.wordAt clock.toNat + 1)).markEntry (ccb + 0x448) (· + 1000000)

/-- The state with the five words of a whole tick counted. -/
def State.ticked (s : State) (clock ccb : Word) : State :=
  ((s.timed clock ccb).setWord (ccb + 0x440) (s.wordAt (ccb + 0x440).toNat - 1)).setWord (ccb + 0x444)
    (s.wordAt (ccb + 0x444).toNat - 1)

theorem State.setWord_spec (i : Reg) : (s.setWord a v).spec i = s.spec i := rfl

theorem State.setWord_frame :
    s.setWord a v = { s with mem := (s.setWord a v).mem, fetch := (s.setWord a v).fetch } := rfl

theorem State.markEntry_frame (f : Double → Double) :
    s.markEntry a f = { s with mem := (s.markEntry a f).mem, fetch := (s.markEntry a f).fetch } := rfl

/-- Whether SR11 points at a CCB depends on nothing but SR11 and which memory is installed. -/
theorem State.ccbPlaced_congr (h11 : u.spec 11 = s.spec 11) (hi : u.installed = s.installed) :
    u.ccbPlaced = s.ccbPlaced := by
  rw [State.ccbPlaced, State.ccbPlaced, h11, State.installedAt_congr s u _ hi]

/-- An aligned word read after a change of the double word at another aligned address. -/
theorem State.wordAt_markEntry_ne {f : Double → Double} (ha : a.toNat % 4 = 0) (hx : x.toNat % 4 = 0) (h : x ≠ a)
    (h4 : x ≠ a + 4) : (s.markEntry a f).wordAt x.toNat = s.wordAt x.toNat := by
  have ha4 : (a + 4).toNat % 4 = 0 := by rw [BitVec.toNat_add, show (4 : Word).toNat = 4 from rfl]; omega
  rw [State.markEntry, State.wordAt_setWord_ne ha4 hx h4, State.wordAt_setWord_ne ha hx h]

/-- An aligned double word read after an aligned word outside it was stored. -/
theorem State.entryAt_setWord_ne (ha : a.toNat % 4 = 0) (hx : x.toNat % 4 = 0) (h : x ≠ a) (h4 : x + 4 ≠ a) :
    (s.setWord a v).entryAt x = s.entryAt x := by
  have hx4 : (x + 4).toNat % 4 = 0 := by rw [BitVec.toNat_add, show (4 : Word).toNat = 4 from rfl]; omega
  rw [State.entryAt, State.wordAt_setWord_ne ha hx h, State.wordAt_setWord_ne ha hx4 h4, State.entryAt]

end

/-- The clock word of a tick is a multiple of 4, as SR11 is, and none of the other four words. -/
structure TickWords (clock ccb : Word) : Prop where
  ccb_aligned : ccb.toNat % 4 = 0
  clock_aligned : clock.toNat % 4 = 0
  ne_timer1 : clock ≠ ccb + 0x440
  ne_timer2 : clock ≠ ccb + 0x444
  ne_high : clock ≠ ccb + 0x448
  ne_low : clock ≠ ccb + 0x448 + 4

section
variable {clock ccb : Word} {s : State}

theorem ccbOffset_ne {x y : Word} (h : x ≠ y) : ccb + x ≠ ccb + y := fun h' => h ((BitVec.add_right_inj _).mp h')

theorem TickWords.offset_aligned (h : TickWords clock ccb) {x : Word} (hx : x.toNat % 4 = 0) :
    (ccb + x).toNat % 4 = 0 := by
  have := h.ccb_aligned
  rw [BitVec.toNat_add]; omega

theorem TickWords.timer1_aligned (h : TickWords clock ccb) : (ccb + 0x440).toNat % 4 = 0 := h.offset_aligned (by decide)
theorem TickWords.timer2_aligned (h : TickWords clock ccb) : (ccb + 0x444).toNat % 4 = 0 := h.offset_aligned (by decide)
theorem TickWords.time_aligned (h : TickWords clock ccb) : (ccb + 0x448).toNat % 4 = 0 := h.offset_aligned (by decide)

/-- The second word of the time of day. -/
theorem timeLow_eq (ccb : Word) : ccb + 0x448 + 4 = ccb + 0x44C := by rw [BitVec.add_assoc]; rfl

theorem timeLow_ne {x : Word} (h : x ≠ 0x44C) : ccb + x ≠ ccb + 0x448 + 4 := by
  rw [timeLow_eq]
  exact ccbOffset_ne h

theorem State.timed_spec (i : Reg) : (s.timed clock ccb).spec i = s.spec i := by
  rw [State.timed, State.markEntry_spec, State.setWord_spec]

theorem State.timed_installed : (s.timed clock ccb).installed = s.installed := by
  rw [State.timed, State.markEntry_installed, State.setWord_installed]

theorem State.timed_frame :
    s.timed clock ccb = { s with mem := (s.timed clock ccb).mem, fetch := (s.timed clock ccb).fetch } := by
  rw [State.timed, State.markEntry_frame]
  rfl

theorem State.wordAt_timed_ne {x : Word} (h : TickWords clock ccb) (hx : x.toNat % 4 = 0) (hne : x ≠ clock)
    (hne0 : x ≠ ccb + 0x448) (hne4 : x ≠ ccb + 0x448 + 4) : (s.timed clock ccb).wordAt x.toNat = s.wordAt x.toNat := by
  rw [State.timed, State.wordAt_markEntry_ne h.time_aligned hx hne0 hne4, State.wordAt_setWord_ne h.clock_aligned hx hne]

theorem State.wordAt_ticked_clock (h : TickWords clock ccb) :
    (s.ticked clock ccb).wordAt clock.toNat = s.wordAt clock.toNat + 1 := by
  rw [State.ticked, State.wordAt_setWord_ne h.timer2_aligned h.clock_aligned h.ne_timer2,
    State.wordAt_setWord_ne h.timer1_aligned h.clock_aligned h.ne_timer1, State.timed,
    State.wordAt_markEntry_ne h.time_aligned h.clock_aligned h.ne_high h.ne_low, State.wordAt_setWord]

theorem State.entryAt_ticked (h : TickWords clock ccb) :
    (s.ticked clock ccb).entryAt (ccb + 0x448) = s.entryAt (ccb + 0x448) + 1000000 := by
  rw [State.ticked,
    State.entryAt_setWord_ne h.timer2_aligned h.time_aligned (ccbOffset_ne (by decide)) (timeLow_ne (by decide)).symm,
    State.entryAt_setWord_ne h.timer1_aligned h.time_aligned (ccbOffset_ne (by decide)) (timeLow_ne (by decide)).symm,
    State.timed, State.entryAt_markEntry, State.entryAt_setWord_ne h.clock_aligned h.time_aligned h.ne_high.symm h.ne_low.symm]

theorem State.wordAt_ticked_timer1 (h : TickWords clock ccb) :
    (s.ticked clock ccb).wordAt (ccb + 0x440).toNat = s.wordAt (ccb + 0x440).toNat - 1 := by
  rw [State.ticked, State.wordAt_setWord_ne h.timer2_aligned h.timer1_aligned (ccbOffset_ne (by decide)),
    State.wordAt_setWord]

theorem State.wordAt_ticked_timer2 :
    (s.ticked clock ccb).wordAt (ccb + 0x444).toNat = s.wordAt (ccb + 0x444).toNat - 1 :=
  State.wordAt_setWord _ _ _

theorem State.read_ticked_other {x : Nat}
    (h : ∀ w ∈ [ccb + 0x440, ccb + 0x444, ccb + 0x448, ccb + 0x44C, clock], OutsideWord w x) :
    (s.ticked clock ccb).mem.read x = s.mem.read x := by
  have ht : OutsideEntry (ccb + 0x448) x := ⟨h _ (by simp), h _ (by rw [timeLow_eq]; simp)⟩
  calc (s.ticked clock ccb).mem.read x
      = _ := Memory.read_store_other _ _ _ _ _ (h (ccb + 0x444) (by simp))
    _ = _ := Memory.read_store_other _ _ _ _ _ (h (ccb + 0x440) (by simp))
    _ = _ := State.read_markEntry_other _ _ _ _ ht
    _ = _ := Memory.read_store_other _ _ _ _ _ (h clock (by simp))

/-- A whole tick makes its four counts, and negative timer counts make their interrupts pending. -/
theorem tick_eq (h : TickWords clock ccb) (hs : s.tickStage = .idle) (hccb : s.spec 11 = ccb) (hc : s.ccbPlaced = true)
    (h14 : s.spec 14 = 1 ∨ (s.spec 14).toNat % 4 = 0) (hclock : clock = s.clockWord)
    (hb : ∀ w ∈ [ccb + 0x440, ccb + 0x444, ccb + 0x448, ccb + 0x44C, clock], s.backed w.toNat 4 = true) :
    tick s = .ok () (((s.ticked clock ccb).setTick .idle).timersPending
      (s.wordAt (ccb + 0x440).toNat - 1) (s.wordAt (ccb + 0x444).toNat - 1)) := by
  have htimer1 : (s.timed clock ccb).wordAt (ccb + 0x440).toNat = s.wordAt (ccb + 0x440).toNat :=
    State.wordAt_timed_ne h h.timer1_aligned h.ne_timer1.symm (ccbOffset_ne (by decide)) (timeLow_ne (by decide))
  have htimer2 : ((s.timed clock ccb).setWord (ccb + 0x440) (s.wordAt (ccb + 0x440).toNat - 1)).wordAt
      (ccb + 0x444).toNat = s.wordAt (ccb + 0x444).toNat := by
    rw [State.wordAt_setWord_ne h.timer1_aligned h.timer2_aligned (ccbOffset_ne (by decide)),
      State.wordAt_timed_ne h h.timer2_aligned h.ne_timer2.symm (ccbOffset_ne (by decide)) (timeLow_ne (by decide))]
  have hkept : ∀ u : State, u.spec 11 = s.spec 11 → u.installed = s.installed → u.ccbPlaced = true ∧
      ∀ w ∈ [ccb + 0x440, ccb + 0x444, ccb + 0x448, ccb + 0x44C, clock], u.backed w.toNat 4 = true := fun u h11 hi =>
    ⟨(State.ccbPlaced_congr h11 hi).trans hc, fun w hw => (State.backed_congr s u _ _ hi).trans (hb w hw)⟩
  obtain ⟨hcClock, hbClock⟩ := hkept (s.setWord clock (s.wordAt clock.toNat + 1)) (State.setWord_spec _)
    State.setWord_installed
  obtain ⟨hcTime, hbTime⟩ := hkept (s.timed clock ccb) (State.timed_spec _) State.timed_installed
  obtain ⟨hcTimer1, hbTimer1⟩ := hkept ((s.timed clock ccb).setWord (ccb + 0x440) (s.wordAt (ccb + 0x440).toNat - 1))
    ((State.setWord_spec _).trans (State.timed_spec _)) (State.setWord_installed.trans State.timed_installed)
  rw [tick, tickAccesses_clock hs hc h14 hclock rfl (hb _ (by simp)),
    tickAccesses_time hcClock (by rw [State.setWord_spec, hccb])
      ⟨hbClock (ccb + 0x448) (by simp), hbClock _ (by rw [timeLow_eq]; simp)⟩, ← State.timed,
    tickAccesses_timer1 hcTime (by rw [State.timed_spec, hccb]) htimer1 (hbTime _ (by simp)),
    tickAccesses_timer2 hcTimer1 (by rw [State.setWord_spec, State.timed_spec, hccb]) htimer2 (hbTimer1 _ (by simp)),
    State.ticked]

/-- The last word of the CCB data area has memory only where the CCB lies in real memory. -/
theorem State.ccbPlaced_of_backed (h4 : (s.spec 11).toNat % 4 = 0) (hb : s.backed (s.spec 11 + 0x44C).toNat 4 = true) :
    s.ccbPlaced = true := by
  refine s.ccbPlaced_iff.mpr ⟨h4, ?_⟩
  have hlast : (s.spec 11 + 0x44F).toNat = (s.spec 11 + 0x44C).toNat + 3 := by
    rw [BitVec.toNat_add, BitVec.toNat_add, show (0x44F : Word).toNat = 0x44F from rfl,
      show (0x44C : Word).toNat = 0x44C from rfl]
    omega
  rw [hlast]
  exact s.installedAt_of_backed _ 4 3 hb (by omega)

theorem pcbClock_aligned (h : (s.spec 14).toNat % 4 = 0) : (s.spec 14 + Config.pcbLayout.clock).toNat % 4 = 0 := by
  have := pcbOffset_aligned Config.pcbLayout.clock (by simp [PcbLayout.offsets])
  rw [BitVec.toNat_add]; omega

theorem State.clockWord_of_one (h : s.spec 14 = 1) : s.clockWord = s.spec 11 + 0x43C := if_pos h

theorem State.clockWord_of_ne_one (h : s.spec 14 ≠ 1) : s.clockWord = s.spec 14 + Config.pcbLayout.clock := if_neg h

theorem decide_or_eq_true {p : Bool} {x : Word} : (p || decide (x.toInt < 0)) = true ↔ p = true ∨ x.toInt < 0 := by
  rw [Bool.or_eq_true, decide_eq_true_eq]

/-- Before SR11 and SR14 are valid a tick is refused as its first access is. -/
theorem tick_refused {e : Refusal} (h : tickAccess s = .refused e) : tick s = .refused e := by
  rw [tick, tickAccesses, h]; rfl

/-- The state with the stage and the pending interrupts of the end of a tick has the same memory. -/
theorem State.wordAt_tickEnd (t : State) (t1 t2 : Word) (x : Nat) :
    ((t.setTick .idle).timersPending t1 t2).wordAt x = t.wordAt x :=
  State.wordAt_congr _ _ _ fun _ _ => rfl

theorem State.read_tickEnd (t : State) (t1 t2 : Word) (x : Nat) :
    ((t.setTick .idle).timersPending t1 t2).mem.read x = t.mem.read x := rfl

theorem State.ticked_frame :
    s.ticked clock ccb = { s with mem := (s.ticked clock ccb).mem, fetch := (s.ticked clock ccb).fetch } := by
  rw [State.ticked, State.setWord_frame, State.setWord_frame (s := s.timed _ _), State.timed_frame]

theorem State.ticked_pending : (s.ticked clock ccb).pending = s.pending := by rw [State.ticked_frame]

theorem State.tickEnd_frame {t t0 : State} {t1 t2 : Word} (hs : s.tickStage = .idle)
    (h0 : t0 = { s with mem := t0.mem, fetch := t0.fetch }) (ht : t = (t0.setTick .idle).timersPending t1 t2) :
    t = { s with
      mem := t.mem, fetch := t.fetch,
      pending := { s.pending with timer1 := t.pending.timer1, timer2 := t.pending.timer2 } } := by
  obtain ⟨m, f, rfl⟩ : ∃ m f, t0 = { s with mem := m, fetch := f } := ⟨_, _, h0⟩
  subst ht
  rw [← hs]
  rfl

theorem State.timer1_tickEnd (t : State) (t1 t2 : Word) :
    ((t.setTick .idle).timersPending t1 t2).pending.timer1 = true ↔ t.pending.timer1 = true ∨ t1.toInt < 0 :=
  decide_or_eq_true

theorem State.timer2_tickEnd (t : State) (t1 t2 : Word) :
    ((t.setTick .idle).timersPending t1 t2).pending.timer2 = true ↔ t.pending.timer2 = true ∨ t2.toInt < 0 :=
  decide_or_eq_true

/-- The clock word of an aligned PCB, or of the CCB data area. -/
theorem State.clockWord_cases {ccb : Word} (hccb : ccb.toNat % 4 = 0) (hc : ccb = s.spec 11)
    (h1 : s.spec 14 = 1 → clock = ccb + 0x43C)
    (h14 : s.spec 14 ≠ 1 → (s.spec 14).toNat % 4 = 0 ∧ clock = s.spec 14 + Config.pcbLayout.clock) :
    clock = s.clockWord ∧ clock.toNat % 4 = 0 ∧ (s.spec 14 = 1 ∨ (s.spec 14).toNat % 4 = 0) := by
  by_cases h : s.spec 14 = 1
  · rw [h1 h, State.clockWord_of_one h, ← hc, BitVec.toNat_add, show (0x43C : Word).toNat = 0x43C from rfl]
    exact ⟨rfl, by omega, .inl h⟩
  · obtain ⟨ha, rfl⟩ := h14 h
    exact ⟨(State.clockWord_of_ne_one h).symm, pcbClock_aligned ha, .inr ha⟩

end

/-- Settles O15: a whole tick is its four counts in turn, and each access is its stage's read or write. -/
theorem millisecondTick : Obligations.MillisecondTick := by
  refine ⟨?_, fun s hs => ⟨fun hccb => ?_, fun h4 hi h1 h14 => ?_⟩, ?_, fun s a v v1 d => ⟨?_, ?_, ?_, ?_, ?_, ?_⟩⟩
  · rintro s ccb clock hs rfl h4 hb hne h1 h14
    simp only [List.mem_cons, List.not_mem_nil, or_false, not_or] at hne
    obtain ⟨hne1, hne2, hneHigh, hneLow⟩ := hne
    obtain ⟨hword, hca, h14⟩ := State.clockWord_cases h4 rfl h1 h14
    have hw : TickWords clock (s.spec 11) := ⟨h4, hca, hne1, hne2, hneHigh, by rwa [timeLow_eq]⟩
    have htime := s.entryAt_ticked hw
    rw [State.entryAt, State.entryAt, timeLow_eq] at htime
    have htick := tick_eq hw hs rfl (State.ccbPlaced_of_backed h4 (hb _ (by simp))) h14 hword hb
    refine ⟨_, htick, ?_⟩
    simp only [State.wordAt_tickEnd, State.read_tickEnd]
    refine ⟨State.wordAt_ticked_clock hw, htime, State.wordAt_ticked_timer1 hw, State.wordAt_ticked_timer2, ?_, ?_,
      fun x hx => State.read_ticked_other hx, State.tickEnd_frame hs State.ticked_frame rfl⟩
    · rw [State.timer1_tickEnd, State.ticked_pending, State.wordAt_ticked_timer1 hw]
    · rw [State.timer2_tickEnd, State.ticked_pending, State.wordAt_ticked_timer2]
  · have hc : s.ccbPlaced = false := by
      rw [← Bool.not_eq_true, s.ccbPlaced_iff]
      rintro ⟨h4, hi⟩
      exact hccb.elim (· h4) (by rw [hi]; decide)
    have he : tickAccess s = .refused .ccbUnusable := by rw [tickAccess_idle hs, tickBegin, if_pos hc]
    exact ⟨tick_refused he, he⟩
  · have hc : s.ccbPlaced = true := s.ccbPlaced_iff.mpr ⟨h4, hi⟩
    have he : tickAccess s = .refused .pcbMisaligned := by
      rw [tickAccess_idle hs, tickBegin, if_neg (by simp [hc]), if_pos ⟨h1, h14⟩]
    exact ⟨tick_refused he, he⟩
  · rintro s ccb rfl h4 hi
    have hc : s.ccbPlaced = true := s.ccbPlaced_iff.mpr ⟨h4, hi⟩
    refine ⟨fun hs h1 => ?_, fun w hs h1 ha hw => ?_, fun hs => ?_, fun hs => ?_, fun t1 hs => ?_⟩
    · rw [← State.clockWord_of_one h1]
      exact .of_tickRead (tickAccess_begin hs hc (.inl h1))
    · rw [hw, ← State.clockWord_of_ne_one h1]
      exact .of_tickRead (tickAccess_begin hs hc (.inr ha))
    · exact .of_tickRead ((tickAccess_clockCounted hs).trans (tickReadCcb_of_placed hc))
    · exact .of_tickRead ((tickAccess_timeCounted hs).trans (tickReadCcb_of_placed hc))
    · exact .of_tickRead ((tickAccess_timer1Counted hs).trans (tickReadCcb_of_placed hc))
  · exact fun hs => .of_tickWrite (tickAccess_clockRead hs)
  · exact fun hs => .of_tickRead (tickAccess_highRead hs)
  · exact fun hs => .of_tickWrite (tickAccess_timeRead hs)
  · exact fun hs => .of_tickWrite (tickAccess_highWritten hs)
  · exact fun hs => .of_tickWrite (tickAccess_timer1Read hs)
  · exact fun hs => .of_setWord (g := fun t => (t.setTick .idle).timersPending v1 (v - 1)) (fun _ => rfl) (fun _ => rfl)
      (tickAccess_timer2Read hs) rfl

end Sys2Proof.Machine
end

section
/-! SUPPORT. The decoder and the encoder are inverse to each other, and the decoder's answer for an opcode of no row; the theorems
that settle `Obligations.EncodeThenDecode`, `Obligations.DecodeThenEncode`, `Obligations.UnassignedOpcodesAreIllegal` and
`Obligations.DecodeSampleWords` (R150 to R165). -/

namespace Sys2Proof.Machine

/-! ### Fields and displacements -/

@[simp] theorem fieldR1_fieldsByte (r1 r2 : Reg) : fieldR1 (fieldsByte r1 r2) = r1 := BitVec.extractLsb'_append_eq_left

@[simp] theorem fieldR2_fieldsByte (r1 r2 : Reg) : fieldR2 (fieldsByte r1 r2) = r2 := BitVec.extractLsb'_append_eq_right

@[simp] theorem fieldsByte_fields (b : Byte) : fieldsByte (fieldR1 b) (fieldR2 b) = b :=
  BitVec.extractLsb'_append_extractLsb'

theorem halfOfBytes_extract (d : Half) : halfOfBytes (d.extractLsb' 8 8) (d.extractLsb' 0 8) = d :=
  BitVec.extractLsb'_append_extractLsb'

theorem bytesOfHalf_halfOfBytes (d0 d1 : Byte) : bytesOfHalf (halfOfBytes d0 d1) = [d0, d1] := by
  rw [bytesOfHalf, halfOfBytes, BitVec.extractLsb'_append_eq_left, BitVec.extractLsb'_append_eq_right]

theorem wordOfBytes_extract (d : Word) :
    wordOfBytes (d.extractLsb' 24 8) (d.extractLsb' 16 8) (d.extractLsb' 8 8) (d.extractLsb' 0 8) = d := by
  have hhigh : d.extractLsb' 24 8 ++ d.extractLsb' 16 8 = d.extractLsb' 16 16 :=
    BitVec.extractLsb'_append_extractLsb'_eq_extractLsb' rfl
  have hlow : d.extractLsb' 8 8 ++ d.extractLsb' 0 8 = d.extractLsb' 0 16 :=
    BitVec.extractLsb'_append_extractLsb'_eq_extractLsb' rfl
  rw [wordOfBytes, hhigh, hlow]
  exact BitVec.extractLsb'_append_extractLsb'

theorem bytesOfWord_wordOfBytes (d0 d1 d2 d3 : Byte) : bytesOfWord (wordOfBytes d0 d1 d2 d3) = [d0, d1, d2, d3] := by
  have hhigh (k : Nat) : (d0 ++ d1 ++ (d2 ++ d3)).extractLsb' (16 + k) 8 = (d0 ++ d1).extractLsb' k 8 := by
    rw [BitVec.extractLsb'_append_eq_of_le (by omega), show 16 + k - (8 + 8) = k by omega]
  have hlow (k : Nat) (hk : k + 8 ≤ 16) : (d0 ++ d1 ++ (d2 ++ d3)).extractLsb' k 8 = (d2 ++ d3).extractLsb' k 8 :=
    BitVec.extractLsb'_append_eq_of_add_le hk
  rw [bytesOfWord, wordOfBytes, hhigh 8, hhigh 0, hlow 8 (by omega), hlow 0 (by omega)]
  simp only [BitVec.extractLsb'_append_eq_left, BitVec.extractLsb'_append_eq_right]

/-! ### The decoder by the length of the opcode (R152) -/

theorem decode_of_length_two {op : Byte} (h : lengthOf op = 2) (fields : Byte) (rest : List Byte) :
    decode (op :: fields :: rest) = decodeRegister op fields := by
  simp [decode, h]

theorem decode_of_length_four {op : Byte} (h : lengthOf op = 4) (fields d0 d1 : Byte) (rest : List Byte) :
    decode (op :: fields :: d0 :: d1 :: rest) = decodeShort op fields (halfOfBytes d0 d1) := by
  simp [decode, h]

theorem decode_of_length_six {op : Byte} (h : lengthOf op = 6) (fields d0 d1 d2 d3 : Byte) (rest : List Byte) :
    decode (op :: fields :: d0 :: d1 :: d2 :: d3 :: rest) = decodeLong op fields (wordOfBytes d0 d1 d2 d3) := by
  simp [decode, h]

/-! ### The rows of the opcode tables

The opcode of a row has the length of the row's format, and the encoder gives it to the row's instruction. -/

theorem registerRows_opcode : ∀ row ∈ registerRows, lengthOf row.1 = 2 ∧ row.1 ≠ 0x5B ∧ row.1 ≠ 0x4C := by decide

theorem shortRows_opcode : ∀ row ∈ shortRows, lengthOf row.1 = 4 := by decide

theorem longRows_opcode : ∀ row ∈ longRows, lengthOf row.1 = 6 := by decide

theorem encode_registerRows : ∀ row ∈ registerRows, ∀ r1 r2, encode (row.2 r1 r2) = encodeRegister row.1 r1 r2 :=
  fun row h r1 r2 =>
    have hl : registerRows.map (fun p => encode (p.2 r1 r2)) = registerRows.map (fun p => encodeRegister p.1 r1 r2) := rfl
    List.map_inj_left.mp hl row h

theorem encode_maintenanceRows : ∀ row ∈ maintenanceRows, ∀ r1, encode (row.2 r1) = encodeRegister 0x4C r1 row.1 :=
  fun row h r1 =>
    have hl : maintenanceRows.map (fun p => encode (p.2 r1)) =
      maintenanceRows.map (fun p => encodeRegister 0x4C r1 p.1) := rfl
    List.map_inj_left.mp hl row h

theorem encode_shortRows : ∀ row ∈ shortRows, ∀ r1 r2 d, encode (row.2 r1 r2 d) = encodeShort row.1 r1 r2 d :=
  fun row h r1 r2 d =>
    have hl : shortRows.map (fun p => encode (p.2 r1 r2 d)) = shortRows.map (fun p => encodeShort p.1 r1 r2 d) := rfl
    List.map_inj_left.mp hl row h

theorem encode_longRows : ∀ row ∈ longRows, ∀ r1 r2 d, encode (row.2 r1 r2 d) = encodeLong row.1 r1 r2 d :=
  fun row h r1 r2 d =>
    have hl : longRows.map (fun p => encode (p.2 r1 r2 d)) = longRows.map (fun p => encodeLong p.1 r1 r2 d) := rfl
    List.map_inj_left.mp hl row h

/-! ### From an instruction to its bytes and back -/

/-- An instruction is KCALL, or a row of one of the four tables gives it under the opcode, or the subop, that it is encoded with
(R158, R159, R163, R164). -/
inductive HasRow : Instr → Prop
  | register (op : Byte) (mk : Reg → Reg → Instr) (r1 r2 : Reg) (he : encode (mk r1 r2) = encodeRegister op r1 r2)
      (h : registerRows.lookup op = some mk) : HasRow (mk r1 r2)
  | short (op : Byte) (mk : Reg → Reg → Half → Instr) (r1 r2 : Reg) (d : Half)
      (he : encode (mk r1 r2 d) = encodeShort op r1 r2 d) (h : shortRows.lookup op = some mk) : HasRow (mk r1 r2 d)
  | long (op : Byte) (mk : Reg → Reg → Word → Instr) (r1 r2 : Reg) (d : Word)
      (he : encode (mk r1 r2 d) = encodeLong op r1 r2 d) (h : longRows.lookup op = some mk) : HasRow (mk r1 r2 d)
  | maintenance (subop : Reg) (mk : Reg → Instr) (r1 : Reg) (he : encode (mk r1) = encodeRegister 0x4C r1 subop)
      (h : maintenanceRows.lookup subop = some mk) : HasRow (mk r1)
  | kcall (n : BitVec 8) : HasRow (.kcall n)

/-- No instruction is missing from the tables: the types of the operands tell which of the three large ones it stands in. -/
theorem hasRow (i : Instr) : HasRow i := by
  cases i
  case kcall n => exact .kcall n
  case elogr r1 => exact .maintenance 0 _ r1 rfl rfl
  case elogw r1 => exact .maintenance 1 _ r1 rfl rfl
  case flush r1 => exact .maintenance 6 _ r1 rfl rfl
  case trapexit r1 => exact .maintenance 7 _ r1 rfl rfl
  case itest r1 => exact .maintenance 8 _ r1 rfl rfl
  all_goals
    constructor
    · exact rfl
    · exact rfl

theorem decode_registerRow {op : Byte} {mk : Reg → Reg → Instr} (h : registerRows.lookup op = some mk) (r1 r2 : Reg)
    (rest : List Byte) : decode (encodeRegister op r1 r2 ++ rest) = .instr (mk r1 r2) := by
  obtain ⟨hl, hk, hm⟩ := registerRows_opcode _ (mem_of_lookup h)
  refine (decode_of_length_two hl _ _).trans ?_
  rw [decodeRegister, if_neg hk, if_neg hm, h]
  simp only [fieldR1_fieldsByte, fieldR2_fieldsByte]

theorem decode_shortRow {op : Byte} {mk : Reg → Reg → Half → Instr} (h : shortRows.lookup op = some mk) (r1 r2 : Reg)
    (d : Half) (rest : List Byte) : decode (encodeShort op r1 r2 d ++ rest) = .instr (mk r1 r2 d) := by
  refine (decode_of_length_four (shortRows_opcode _ (mem_of_lookup h)) _ _ _ _).trans ?_
  simp only [decodeShort, h, fieldR1_fieldsByte, fieldR2_fieldsByte, halfOfBytes_extract]

theorem decode_longRow {op : Byte} {mk : Reg → Reg → Word → Instr} (h : longRows.lookup op = some mk) (r1 r2 : Reg)
    (d : Word) (rest : List Byte) : decode (encodeLong op r1 r2 d ++ rest) = .instr (mk r1 r2 d) := by
  refine (decode_of_length_six (longRows_opcode _ (mem_of_lookup h)) _ _ _ _ _ _).trans ?_
  simp only [decodeLong, h, fieldR1_fieldsByte, fieldR2_fieldsByte, wordOfBytes_extract]

theorem decode_maintenanceRow {subop : Reg} {mk : Reg → Instr} (h : maintenanceRows.lookup subop = some mk) (r1 : Reg)
    (rest : List Byte) : decode (encodeRegister 0x4C r1 subop ++ rest) = .instr (mk r1) := by
  refine (decode_of_length_two (by decide) _ _).trans ?_
  rw [decodeRegister, if_neg (by decide), if_pos rfl, fieldR1_fieldsByte, fieldR2_fieldsByte, h]

/-- Settles O1: the row that gives the instruction is found again under the opcode, or the subop, of its encoding. -/
theorem encodeThenDecode : Obligations.EncodeThenDecode := by
  intro i rest
  cases hasRow i with
  | register op mk r1 r2 he h => exact he ▸ decode_registerRow h r1 r2 rest
  | short op mk r1 r2 d he h => exact he ▸ decode_shortRow h r1 r2 d rest
  | long op mk r1 r2 d he h => exact he ▸ decode_longRow h r1 r2 d rest
  | maintenance subop mk r1 he h => exact he ▸ decode_maintenanceRow h r1 rest
  | kcall n => exact decode_of_length_two (by decide) n rest

/-! ### From bytes to an instruction and back -/

theorem encode_of_decodeRegister {op fields : Byte} {i : Instr} (h : decodeRegister op fields = .instr i) :
    encode i = [op, fields] := by
  unfold decodeRegister at h
  split at h
  · rename_i hop
    cases h
    rw [hop]
    rfl
  split at h
  · rename_i hop
    split at h
    · rename_i hl
      cases h
      rw [encode_maintenanceRows _ (mem_of_lookup hl), encodeRegister, fieldsByte_fields, hop]
    · cases h
  · split at h
    · rename_i hl
      cases h
      rw [encode_registerRows _ (mem_of_lookup hl), encodeRegister, fieldsByte_fields]
    · cases h

theorem encode_of_decodeShort {op fields : Byte} {d : Half} {i : Instr} (h : decodeShort op fields d = .instr i) :
    encode i = op :: fields :: bytesOfHalf d := by
  unfold decodeShort at h
  split at h
  · rename_i hl
    cases h
    rw [encode_shortRows _ (mem_of_lookup hl), encodeShort, fieldsByte_fields]
  · cases h

theorem encode_of_decodeLong {op fields : Byte} {d : Word} {i : Instr} (h : decodeLong op fields d = .instr i) :
    encode i = op :: fields :: bytesOfWord d := by
  unfold decodeLong at h
  split at h
  · rename_i hl
    cases h
    rw [encode_longRows _ (mem_of_lookup hl), encodeLong, fieldsByte_fields]
  · cases h

/-- Settles O2: each table gives back the opcode and the fields of the row that was looked up, and the displacement is the bytes
it was put together from. -/
theorem decodeThenEncode : Obligations.DecodeThenEncode := by
  intro bytes i h
  unfold decode at h
  split at h
  · split at h
    · exact ⟨_, by rw [encode_of_decodeRegister h]; rfl⟩
    split at h
    · split at h
      · exact ⟨_, by rw [encode_of_decodeShort h, bytesOfHalf_halfOfBytes]; rfl⟩
      · cases h
    · split at h
      · exact ⟨_, by rw [encode_of_decodeLong h, bytesOfWord_wordOfBytes]; rfl⟩
      · cases h
  · cases h

/-! ### Opcodes of no row -/

/-- KCALL's opcode, the maintenance opcode, and those of the rows of the opcode tables. -/
def assignedOpcodes : List Byte :=
  0x5B :: 0x4C :: (registerRows.map Prod.fst ++ shortRows.map Prod.fst ++ longRows.map Prod.fst)

theorem lookup_eq_none_of_notMem {α β : Type} [BEq α] [LawfulBEq α] {l : List (α × β)} {k : α} (h : k ∉ l.map Prod.fst) :
    l.lookup k = none := by
  simp only [List.lookup_eq_none_iff, bne_iff_ne]
  rintro row hrow rfl
  exact h (List.mem_map_of_mem hrow)

/-- Such an opcode is illegal whatever its length, with the fields of the second byte. -/
theorem decode_of_unassigned {op : Byte} (h : op ∉ assignedOpcodes) (fields b2 b3 b4 b5 : Byte) (rest : List Byte) :
    decode (op :: fields :: b2 :: b3 :: b4 :: b5 :: rest) = .illegal op (fieldR1 fields) (fieldR2 fields) := by
  simp only [assignedOpcodes, List.mem_cons, List.mem_append, not_or] at h
  obtain ⟨hkcall, hmaintenance, ⟨hregister, hshort⟩, hlong⟩ := h
  rcases lengthOf_cases op with hl | hl | hl
  · rw [decode_of_length_two hl, decodeRegister, if_neg hkcall, if_neg hmaintenance, lookup_eq_none_of_notMem hregister]
  · rw [decode_of_length_four hl, decodeShort, lookup_eq_none_of_notMem hshort]
  · rw [decode_of_length_six hl, decodeLong, lookup_eq_none_of_notMem hlong]

theorem notMem_assignedOpcodes_of_all {l : List Byte} (hl : (l.all fun op => op ∉ assignedOpcodes) = true) {op : Byte}
    (h : op ∈ l) : op ∉ assignedOpcodes :=
  of_decide_eq_true (List.all_eq_true.mp hl op h)

/-- Settles O4: no opcode of the rule's table is assigned. -/
theorem unassignedOpcodesAreIllegal : Obligations.UnassignedOpcodesAreIllegal := by
  intro op r1 r2 b2 b3 b4 b5 rest h
  have hop : op ∉ assignedOpcodes := notMem_assignedOpcodes_of_all (by decide) h
  have hd := decode_of_unassigned hop (fieldsByte r1 r2) b2 b3 b4 b5 rest
  rwa [fieldR1_fieldsByte, fieldR2_fieldsByte] at hd

/-- Settles O3: the seven words are decoded. -/
theorem decodeSampleWords : Obligations.DecodeSampleWords := by
  unfold Obligations.DecodeSampleWords
  decide

end Sys2Proof.Machine
end

section
/-! SUPPORT. The illegal instruction trap of a fetched opcode of no row, and the theorem that settles
`Obligations.IllegalInstructionTraps` (R165, R510, R524). -/

namespace Sys2Proof.Machine

/-! ### The opcode of an illegal instruction -/

theorem opcode_of_decodeRegister_illegal {op fields op' : Byte} {r1 r2 : Reg}
    (h : decodeRegister op fields = .illegal op' r1 r2) : op = op' := by
  unfold decodeRegister at h
  split at h
  · cases h
  split at h
  · split at h <;> cases h
  · split at h
    · cases h
    · cases h
      rfl

theorem opcode_of_decodeShort_illegal {op fields op' : Byte} {d : Half} {r1 r2 : Reg}
    (h : decodeShort op fields d = .illegal op' r1 r2) : op = op' := by
  unfold decodeShort at h
  split at h
  · cases h
  · cases h
    rfl

theorem opcode_of_decodeLong_illegal {op fields op' : Byte} {d : Word} {r1 r2 : Reg}
    (h : decodeLong op fields d = .illegal op' r1 r2) : op = op' := by
  unfold decodeLong at h
  split at h
  · cases h
  · cases h
    rfl

/-- The opcode that is reported is the first byte. -/
theorem headD_of_decode_illegal {bytes : List Byte} {op : Byte} {r1 r2 : Reg} (h : decode bytes = .illegal op r1 r2) :
    bytes.headD 0 = op := by
  unfold decode at h
  split at h
  · rw [List.headD_cons]
    split at h
    · exact opcode_of_decodeRegister_illegal h
    split at h
    · split at h
      · exact opcode_of_decodeShort_illegal h
      · cases h
    · split at h
      · exact opcode_of_decodeLong_illegal h
      · cases h
  · cases h

/-- A register format opcode is one below 128 (R152). -/
theorem getMsbD_zero_eq_true_iff (op : Byte) : op.getMsbD 0 = true ↔ ¬op.toNat < 128 := by
  rw [← BitVec.msb_eq_getMsbD_zero, BitVec.msb_eq_decide, decide_eq_true_eq, Nat.not_lt]

/-! ### The trap -/

theorem CodeMaps.parityEntry {va ra : Word} {u v : State} (h : CodeMaps va ra u v) : v.parityEntry = u.parityEntry := by
  rw [h.frame]

theorem CodeMaps.canEnter {va ra : Word} {u v : State} (h : CodeMaps va ra u v) {off : Nat} (hc : CanEnter off u) :
    CanEnter off v :=
  ⟨(State.ccbUsable_congr off h.sr h.installed h.parityEntry).trans hc.1, h.alone hc.2⟩

/-- Translations have no part in whether an exception can be entered. -/
theorem HalvesShow.canEnter {va : Word} {bytes : List Byte} {u w : State} (h : HalvesShow va bytes u w) {off : Nat}
    (hc : CanEnter off u) : CanEnter off w := by
  induction h with
  | nil => exact hc
  | cons hmap _ _ ih => exact ih (hmap.canEnter hc)

/-- Bytes that decode to no instruction raise the illegal instruction trap in the state that fetching them leaves. -/
theorem CodeBytes.step_illegal {n : Nat} {bytes : List Byte} {op : Byte} {r1 r2 : Reg} {s s1 : State}
    (h : CodeBytes n bytes s s1) (hq : Quiet s) (hpc : s.pc.toNat % 2 = 0) (hn : n = lengthOf op) (hu : Unmixed n s)
    (hd : decode bytes = .illegal op r1 r2) :
    ∃ s2, step s = raise (.illegalInstruction op r1 (if op.toNat < 128 then some r2 else none)) s2 ∧
      CodeFetched n s s1 s2 := by
  obtain ⟨-, -, ha⟩ := id hq
  obtain ⟨s2, hs2, hf⟩ := h.fetchInstruction hpc (by rw [headD_of_decode_illegal hd, hn]) ha hu
  refine ⟨s2, ?_, hf⟩
  rw [step_of_quiet hq hpc, runInstruction, hs2, dispatchBytes, hd]
  simp only [getMsbD_zero_eq_true_iff, ite_not]

/-- What a fetch notes has no part in whether an exception can be entered. -/
theorem CodeFetched.canEnter {n off : Nat} {s s1 t : State} (h : CodeFetched n s s1 t) (hc : CanEnter off s1) :
    CanEnter off t := by
  rw [h.frame]
  exact hc

theorem Entered.spec_one {e : Exception} {ret v : Word} {s t : State} (h : Entered e ret s t) (hv : e.info1 = some v) :
    t.spec 1 = v := by
  obtain ⟨-, -, -, -, -, h1, -⟩ := h
  exact h1 v hv

/-- Settles O7: the trap is entered from the state that the fetch leaves, which has the pc and the CCB of the first state. -/
theorem illegalInstructionTraps : Obligations.IllegalInstructionTraps := by
  intro s s1 op r1 r2 n bytes hq hpc hb hn hu hd hc
  obtain ⟨s2, hstep, hf⟩ := hb.step_illegal hq hpc hn hu hd
  have hl := lengthOf_cases op
  obtain ⟨hhalves, -⟩ := hb.halvesShow hpc (by omega) (by omega)
  obtain ⟨hpc1, -, -⟩ := hhalves.keeps
  have hpc2 : s2.pc = s.pc := by rw [hf.frame, ← hpc1]
  obtain ⟨t, ht, hent⟩ := raise_entered_at (e := .illegalInstruction op r1 (if op.toNat < 128 then some r2 else none)) hpc2
    (hf.canEnter (hhalves.canEnter hc))
  refine ⟨s2, t, hstep.trans ht, hf.frame, hf.accesses.mem, hent, hent.spec_one rfl, hent.spec_two rfl, fun h128 => ?_⟩
  rw [if_pos h128] at hent
  exact hent.spec_three rfl

end Sys2Proof.Machine
end

section
/-! SUPPORT. LADDR in its eight forms, and the theorem that settles `Obligations.LoadAddress` (R201 to R203, R230). -/

namespace Sys2Proof.Machine.AddressForms

/-- LADDR with a data segment address puts that address, from the displacement and the index register, into its register. -/
theorem exec_laddr_dataForms {r rx : Reg} {d : Half} {w : Word} {s : State} {f : Instr × Nat × Word}
    (hf : f ∈ dataForms .laddr .laddrX .laddrL .laddrLX r rx d w s) :
    exec f.1 s = Machine.loadAddress r f.2.2 f.2.1 s := by
  simp only [dataForms, List.mem_cons, List.not_mem_nil, or_false] at hf
  obtain rfl | rfl | rfl | rfl := hf <;> rfl

/-- LADDR with a code segment address adds the instruction's own address (log 4). -/
theorem exec_laddr_codeForms {r rx : Reg} {d : Half} {w : Word} {s : State} {f : Instr × Nat × Word}
    (hf : f ∈ codeForms .laddrC .laddrCX .laddrCL .laddrCLX r rx d w s) :
    exec f.1 s = Machine.loadAddress r f.2.2 f.2.1 s := by
  simp only [codeForms, List.mem_cons, List.not_mem_nil, or_false] at hf
  obtain rfl | rfl | rfl | rfl := hf <;> rfl

/-- Settles O48: every form writes its address and goes on, with no access to memory that alignment or mode could bear on. -/
theorem loadAddress : Obligations.LoadAddress := by
  intro s r rx d w f hf hpc
  have hexec : exec f.1 s = Machine.loadAddress r f.2.2 f.2.1 s :=
    (List.mem_append.mp hf).elim exec_laddr_dataForms exec_laddr_codeForms
  exact Writes.of_advance hexec hpc

end Sys2Proof.Machine.AddressForms
end

section
/-! SUPPORT. Which registers an instruction may change, update by update, and the ends of instructions that meet a condition of
the traps word, in the shapes of statements (R237, R238, R284). -/

namespace Sys2Proof.Machine

/-! ### Frames, one update at a time -/

theorem OnlyRegsDrawing.refl (rs : List Reg) (s : State) : OnlyRegsDrawing rs s s :=
  ⟨fun _ _ => rfl, fun _ => rfl, fun _ => rfl, rfl⟩

theorem OnlyRegsDrawing.setReg {rs : List Reg} {s u : State} {r : Reg} (h : OnlyRegsDrawing rs s u) (hr : r ∈ rs)
    (v : Word) : OnlyRegsDrawing rs s (u.setReg r v) := by
  obtain ⟨hreg, hspec, hmem, hframe⟩ := h
  refine ⟨fun i hi => ?_, hspec, hmem, congrArg (fun x : State => x.setReg r v) hframe⟩
  rw [State.reg_setReg_other _ _ _ _ (ne_of_mem_of_not_mem hr hi).symm, hreg i hi]

theorem OnlyRegsDrawing.setPc {rs : List Reg} {s u : State} (h : OnlyRegsDrawing rs s u) (a : Word) :
    OnlyRegsDrawing rs s (u.setPc a) := by
  obtain ⟨hreg, hspec, hmem, hframe⟩ := h
  exact ⟨hreg, hspec, hmem, congrArg (fun x : State => x.setPc a) hframe⟩

theorem OnlyRegsDrawing.drawn {rs : List Reg} {s u : State} (h : OnlyRegsDrawing rs s u) :
    OnlyRegsDrawing rs s u.drawn := by
  obtain ⟨hreg, hspec, hmem, hframe⟩ := h
  exact ⟨hreg, hspec, hmem, congrArg State.drawn hframe⟩

theorem OnlyRegsDrawing.scrambleReg {rs : List Reg} {s u : State} {r : Reg} (h : OnlyRegsDrawing rs s u) (hr : r ∈ rs) :
    OnlyRegsDrawing rs s (u.scrambleReg r) :=
  (h.setReg hr _).drawn

theorem OnlyRegsDrawing.setPair {s u : State} {r : Reg} (h : OnlyRegsDrawing [r, r + 1] s u) (v : Double) :
    OnlyRegsDrawing [r, r + 1] s (u.setPair r v) :=
  (h.setReg (by simp) _).setReg (by simp) _

theorem OnlyRegsDrawing.scramblePair {s u : State} {r : Reg} (h : OnlyRegsDrawing [r, r + 1] s u) :
    OnlyRegsDrawing [r, r + 1] s (u.scramblePair r) :=
  (h.scrambleReg (by simp)).scrambleReg (by simp)

/-- Where no free value was drawn, the frame is the stricter one. -/
theorem OnlyRegsDrawing.onlyRegs {rs : List Reg} {s u : State} (h : OnlyRegsDrawing rs s u) (hd : u.draws = s.draws) :
    OnlyRegs rs s u := by
  obtain ⟨hreg, hspec, hmem, hframe⟩ := h
  exact ⟨hreg, hspec, hmem, hframe.trans (by rw [hd])⟩

/-- The traps word is no general register. -/
theorem OnlyRegsDrawing.trapOn_iff {rs : List Reg} {s u : State} (h : OnlyRegsDrawing rs s u) (code : Nat) :
    TrapOn code u ↔ TrapOn code s := by
  obtain ⟨-, hspec, -⟩ := h
  rw [TrapOn, TrapOn, hspec]

/-- Whether an exception can be entered does not depend on the general registers. -/
theorem OnlyRegsDrawing.canEnter_iff {rs : List Reg} {s u : State} (h : OnlyRegsDrawing rs s u) (off : Nat) :
    CanEnter off u ↔ CanEnter off s := by
  obtain ⟨-, -, -, hframe⟩ := h
  have husable : u.ccbUsable off = s.ccbUsable off :=
    State.ccbUsable_congr off (by rw [hframe]) (by rw [hframe]) (by rw [hframe])
  have hwithin : u.within = s.within := by rw [hframe]
  rw [CanEnter, CanEnter, Alone, Alone, husable, hwithin]

/-! ### Instructions that go on -/

/-- An instruction of 2 bytes goes on to the next one and may have changed the registers of a list, and drawn free values. -/
def Completes (o : Outcome) (rs : List Reg) (s : State) : Prop :=
  ∃ t, o = .next t ∧ t.pc = s.pc + 2 ∧ OnlyRegsDrawing rs s t

theorem OnlyRegsDrawing.advance {rs : List Reg} {s u : State} (h : OnlyRegsDrawing rs s u) (hu : u.pc = s.pc)
    (hpc : s.pc.toNat + 2 < 2 ^ 32) : Completes (advance 2 u) rs s :=
  ⟨_, advance_of_lt 2 u (hu ▸ hpc), congrArg (· + 2) hu, h.setPc _⟩

theorem OnlyRegsDrawing.trapsWordEnd_off {rs : List Reg} {s u : State} {code : Nat} (h : OnlyRegsDrawing rs s u)
    (hu : u.pc = s.pc) (hpc : s.pc.toNat + 2 < 2 ^ 32) (hoff : ¬TrapOn code s) : Completes (trapsWordEnd code u) rs s := by
  rw [Machine.trapsWordEnd_off (mt (h.trapOn_iff code).mp hoff)]
  exact h.advance hu hpc

/-! ### Conditions of the traps word -/

/-- An instruction that meets a condition and writes nothing has the shape `UnchangedEnd`. -/
theorem UnchangedEnd.of_trapsWordEnd {i : Instr} {code : Nat} {s : State} (h : exec i s = trapsWordEnd code s) :
    UnchangedEnd i code s := by
  refine ⟨fun hpc hoff => Goes.of_advance (h.trans (trapsWordEnd_off hoff)) hpc, fun hon hc => ?_⟩
  rw [Raises, h, trapsWordEnd_on hon]
  exact raise_entered hc

/-- An instruction that meets a condition after it has changed registers of a list at most has the shape `ScrambledEnd`. -/
theorem ScrambledEnd.of_trapsWordEnd {i : Instr} {rs : List Reg} {code : Nat} {s u : State}
    (h : exec i s = trapsWordEnd code u) (hu : OnlyRegsDrawing rs s u) (hpc : u.pc = s.pc) : ScrambledEnd i rs code s := by
  rw [ScrambledEnd, h]
  refine ⟨fun hlt hoff => hu.trapsWordEnd_off hpc hlt hoff, fun hon hc => ⟨u, ?_⟩⟩
  rw [trapsWordEnd_on ((hu.trapOn_iff code).mpr hon)]
  obtain ⟨t, ht, he⟩ := raise_entered_at (e := .trapsWord code) hpc ((hu.canEnter_iff 0x41C).mpr hc)
  exact ⟨t, hu, ht, he⟩

end Sys2Proof.Machine
end

section
/-! SUPPORT. Integer, logical and extended precision instructions by the operation they end with, and the theorems that settle
`Obligations.LogicalInstructions`, `Obligations.AddSubtractMultiply`, `Obligations.Negate`, `Obligations.DivideRemainder`,
`Obligations.ExtendedAddSubtract` and `Obligations.ExtendedMultiplyDivide`. -/

namespace Sys2Proof.Machine

/-! ### Immediates -/

theorem immediate_eq_ofNat (r : Reg) : immediate r = BitVec.ofNat 32 r.toNat :=
  (BitVec.ofNat_toNat 32 r).symm

theorem toInt_immediate (r : Reg) : (immediate r).toInt = r.toNat := by
  have hr := r.isLt
  rw [immediate_eq_ofNat, BitVec.toInt_eq_toNat_of_lt] <;> rw [BitVec.toNat_ofNat] <;> omega

/-- The complement of an immediate is the number -imm - 1 (R321). -/
theorem not_immediate (r : Reg) : ~~~(immediate r) = BitVec.ofInt 32 (-(r.toNat : Int) - 1) := by
  rw [BitVec.not_eq_neg_add, sub_eq_add_neg (-(r.toNat : Int)), BitVec.ofInt_add, BitVec.ofInt_neg, BitVec.ofInt_natCast,
    ← immediate_eq_ofNat, BitVec.sub_eq_add_neg]
  rfl

/-! ### Logical instructions -/

theorem Writes.of_plainResult {i : Instr} {r : Reg} {v : Word} {s : State} (h : exec i s = plainResult r v s)
    (hpc : s.pc.toNat + 2 < 2 ^ 32) : Writes i 2 r v s :=
  Writes.of_advance h hpc

/-- Settles O22: each of the eight ends by writing its result and going on. -/
theorem logicalInstructions : Obligations.LogicalInstructions := by
  intro s r1 r2 hpc
  rw [← not_immediate, ← immediate_eq_ofNat]
  exact ⟨.of_plainResult rfl hpc, .of_plainResult rfl hpc, .of_plainResult rfl hpc, .of_plainResult rfl hpc,
    .of_plainResult rfl hpc, .of_plainResult rfl hpc, .of_plainResult rfl hpc, .of_plainResult rfl hpc⟩

/-! ### Exact results -/

theorem fits_toInt (a : Word) : Fits a.toInt := ⟨a.le_toInt, a.toInt_lt⟩

/-- The end of an exact result where no trap follows (R237, R241). -/
theorem integerResult_of_fits_or_off {r : Reg} {n : Int} {s : State} (h : Fits n ∨ ¬TrapOn 16 s) :
    integerResult r n s = advance 2 (s.setReg r (BitVec.ofInt 32 n)) := by
  unfold integerResult overflowEnd
  split
  · next ho => exact trapsWordEnd_off (h.resolve_left ((overflows_iff n).mp ho))
  · rfl

/-- The end of an exact result that does not fit, where the trap is on: the register is written first (R237). -/
theorem integerResult_of_not_fits {r : Reg} {n : Int} {s : State} (h : ¬Fits n) (hon : TrapOn 16 s) :
    integerResult r n s = raise (.trapsWord 16) (s.setReg r (BitVec.ofInt 32 n)) := by
  unfold integerResult overflowEnd
  rw [if_pos ((overflows_iff n).mpr h)]
  exact trapsWordEnd_on hon

theorem ArithmeticResult.of_integerResult {i : Instr} {r : Reg} {n : Int} {s : State} (h : exec i s = integerResult r n s) :
    ArithmeticResult i r n s := by
  refine ⟨fun hpc hgo => Writes.of_advance (h.trans (integerResult_of_fits_or_off hgo)) hpc, fun hn hon hc => ?_⟩
  rw [WritesAndRaises, h, integerResult_of_not_fits hn hon]
  exact raise_entered_at (e := .trapsWord 16) rfl ((canEnter_setReg s r _ 0x41C).mpr hc)

/-- Settles O23: each of the six ends as an exact result does, the immediate ones with the number in their R2 field. -/
theorem addSubtractMultiply : Obligations.AddSubtractMultiply := by
  intro s r1 r2
  rw [← toInt_immediate]
  exact ⟨.of_integerResult rfl, .of_integerResult rfl, .of_integerResult rfl, .of_integerResult rfl, .of_integerResult rfl,
    .of_integerResult rfl⟩

/-- Settles O24: the one operand without a negative in a word is told apart. -/
theorem negate : Obligations.Negate := by
  intro s r1 r2
  exact ⟨fun hpc hne => .of_plainResult (if_neg hne) hpc, fun he => .of_trapsWordEnd (if_pos he)⟩

/-! ### Division -/

theorem toInt_eq_zero_iff (b : Word) : b.toInt = 0 ↔ b = 0 := by
  rw [← BitVec.toInt_inj]
  rfl

theorem divOverflows_iff (a b : Word) : divOverflows a b = true ↔ a.toInt = -(2 ^ 31) ∧ b.toInt = -1 := by
  rw [divOverflows, Bool.and_eq_true, decide_eq_true_eq, decide_eq_true_eq]

theorem divideResult_zero {r : Reg} {a b : Word} {n : Int} {s : State} (hb : b.toInt = 0) :
    divideResult r a b n s = trapsWordEnd 17 s :=
  if_pos ((toInt_eq_zero_iff b).mp hb)

theorem divideResult_overflow {r : Reg} {a b : Word} {n : Int} {s : State} (ha : a.toInt = -(2 ^ 31)) (hb : b.toInt = -1) :
    divideResult r a b n s = trapsWordEnd 16 s := by
  have hb0 : b ≠ 0 := fun h => by simp [h] at hb
  rw [divideResult, if_neg hb0, if_pos ((divOverflows_iff a b).mpr ⟨ha, hb⟩), codeO]

theorem divideResult_of_ne {r : Reg} {a b : Word} {n : Int} {s : State} (hb : b.toInt ≠ 0)
    (ho : ¬(a.toInt = -(2 ^ 31) ∧ b.toInt = -1)) :
    divideResult r a b n s = advance 2 (s.setReg r (BitVec.ofInt 32 n)) := by
  rw [divideResult, if_neg (mt (toInt_eq_zero_iff b).mpr hb), if_neg (mt (divOverflows_iff a b).mp ho), trunc32]

/-- But for the one overflow, the quotient is a word (R244). -/
theorem fits_exactDiv {a b : Word} (ho : ¬(a.toInt = -(2 ^ 31) ∧ b.toInt = -1)) : Fits (exactDiv a b) := by
  have hne : a ≠ BitVec.intMin 32 ∨ b ≠ -1#32 := by
    by_contra hboth
    obtain ⟨rfl, rfl⟩ : a = BitVec.intMin 32 ∧ b = -1#32 := by simpa only [not_or, not_not] using hboth
    exact ho (by decide)
  rw [exactDiv, ← BitVec.toInt_sdiv_of_ne_or_ne a b hne]
  exact fits_toInt _

theorem exactRem_eq_tmod (a b : Word) : exactRem a b = a.toInt.tmod b.toInt := by
  rw [exactRem, Int.tmod_def, mul_comm]

theorem abs_exactRem_lt {a b : Word} (hb : b.toInt ≠ 0) : |exactRem a b| < |b.toInt| := by
  rw [exactRem_eq_tmod, Int.abs_eq_natAbs, Int.abs_eq_natAbs, Int.natAbs_tmod, Int.ofNat_lt]
  exact Nat.mod_lt _ (Int.natAbs_pos.mpr hb)

theorem exactRem_nonneg {a b : Word} (ha : 0 ≤ a.toInt) : 0 ≤ exactRem a b := by
  rw [exactRem_eq_tmod]
  exact Int.tmod_nonneg _ ha

theorem exactRem_nonpos {a b : Word} (ha : a.toInt ≤ 0) : exactRem a b ≤ 0 := by
  have h := Int.tmod_nonneg b.toInt (neg_nonneg.mpr ha)
  rw [Int.neg_tmod] at h
  rw [exactRem_eq_tmod]
  exact neg_nonneg.mp h

/-- Settles O25: the exact quotient and remainder are the two of the statement, and each case is its branch. -/
theorem divideRemainder : Obligations.DivideRemainder := by
  intro s r1 r2
  refine ⟨fun hb ho hpc => ?_, fun hb => ?_, fun ha hb => ?_⟩
  · exact ⟨exactDiv (s.reg r1) (s.reg r2), exactRem (s.reg r1) (s.reg r2), (add_sub_cancel _ _).symm, abs_exactRem_lt hb,
      exactRem_nonneg, exactRem_nonpos, fits_exactDiv ho, .of_advance (divideResult_of_ne hb ho) hpc,
      .of_advance (divideResult_of_ne hb ho) hpc⟩
  · exact ⟨.of_trapsWordEnd (divideResult_zero hb), .of_trapsWordEnd (divideResult_zero hb)⟩
  · exact ⟨.of_trapsWordEnd (divideResult_overflow ha hb), .of_trapsWordEnd (divideResult_overflow ha hb)⟩

/-! ### Extended precision -/

/-- A result with a carry: two different registers are written (R260). -/
theorem carryResult_of_ne {r : Reg} {v c : Word} {s : State} (hr : r ≠ 0) (hpc : s.pc.toNat + 2 < 2 ^ 32) :
    ∃ t, carryResult r v c s = .next t ∧ t.reg r = v ∧ t.reg 0 = c ∧ t.pc = s.pc + 2 ∧ OnlyRegs [r, 0] s t := by
  refine ⟨((s.setReg r v).setReg 0 c).setPc (s.pc + 2), ?_, ?_, State.reg_setReg_same _ _ _, rfl, ?_⟩
  · rw [carryResult, if_neg hr]
    exact advance_of_lt 2 _ hpc
  · rw [State.setPc_reg, State.reg_setReg_other _ _ _ _ hr, State.reg_setReg_same]
  · have hregs : OnlyRegsDrawing [r, 0] s ((s.setReg r v).setReg 0 c) :=
      ((OnlyRegsDrawing.refl _ s).setReg (by simp) v).setReg (by simp) c
    exact (hregs.setPc _).onlyRegs rfl

theorem addCarry_eq (a b : Word) : addCarry a b = if 2 ^ 32 ≤ a.toNat + b.toNat then 1 else 0 := by
  simp only [addCarry, wordOfBool, decide_eq_true_eq]

theorem subCarry_eq (a b : Word) :
    subCarry a b = if Config.esubCarryIsBorrow then (if a.toNat < b.toNat then 1 else 0)
      else (if b.toNat ≤ a.toNat then 1 else 0) := by
  unfold subCarry wordOfBool
  cases Config.esubCarryIsBorrow <;> simp

/-- Settles O26: both end by writing a result and a carry, which are two registers unless R1 is register 0. -/
theorem extendedAddSubtract : Obligations.ExtendedAddSubtract := by
  refine ⟨fun s r1 r2 hr hpc => ?_, fun s r2 => ⟨rfl, rfl⟩⟩
  rw [← addCarry_eq, ← subCarry_eq]
  exact ⟨carryResult_of_ne hr hpc, carryResult_of_ne hr hpc⟩

/-- The number a pair holds (R10, R32). -/
theorem State.toNat_pair (s : State) (r : Reg) : (s.pair r).toNat = (s.reg r).toNat * 2 ^ 32 + (s.reg (r + 1)).toNat :=
  toNat_append' _ _

/-- Two words written one after the other are a pair written (R10). -/
theorem State.setPair_append (s : State) (r : Reg) (x y : Word) :
    s.setPair r (x ++ y : Double) = (s.setReg r x).setReg (r + 1) y := by
  rw [State.setPair, BitVec.extractLsb'_append_eq_left, BitVec.extractLsb'_append_eq_right]

section
variable {r1 r2 : Reg} {s : State}

theorem execEdiv_zero (hd : (s.reg r2).toNat = 0) : execEdiv r1 r2 s = trapsWordEnd 17 (s.scrambleReg (r1 + 1)) :=
  if_pos hd

theorem execEdiv_overflow (hd : (s.reg r2).toNat ≠ 0) (hq : 2 ^ 32 ≤ (s.pair r1).toNat / (s.reg r2).toNat) :
    execEdiv r1 r2 s = trapsWordEnd 16 s := by
  simp only [execEdiv, if_neg hd, if_pos hq, codeO]

theorem execEdiv_of_lt (hd : (s.reg r2).toNat ≠ 0) (hq : (s.pair r1).toNat / (s.reg r2).toNat < 2 ^ 32) :
    execEdiv r1 r2 s = advance 2 (s.setPair r1 (BitVec.ofNat 32 ((s.pair r1).toNat / (s.reg r2).toNat) ++
      BitVec.ofNat 32 ((s.pair r1).toNat % (s.reg r2).toNat))) := by
  simp only [execEdiv, if_neg hd, if_neg hq.not_ge, State.setPair_append]

end

/-- Settles O27: EMPY ends by writing its pair, EDIV has one end for each of the three cases. -/
theorem extendedMultiplyDivide : Obligations.ExtendedMultiplyDivide := by
  rintro s r1 r2 n d hn rfl
  rw [← s.toNat_pair] at hn
  subst hn
  refine ⟨fun hpc => .of_advance rfl hpc, fun hpc hd hq => .of_advance (execEdiv_of_lt hd hq) hpc,
    fun hd hq => .of_trapsWordEnd (execEdiv_overflow hd hq), fun hd => ?_⟩
  exact .of_trapsWordEnd (execEdiv_zero hd) ((OnlyRegsDrawing.refl _ s).scrambleReg (by simp)) rfl

end Sys2Proof.Machine
end

section
/-! SUPPORT. The real instructions with their traps off, and the theorem that settles
`Obligations.RealInstructionsComplete` (R237, R284, R289, R299, R352, R353). -/

namespace Sys2Proof.Machine

/-! ### The ends of instructions with the traps off -/

section
variable {r : Reg} {s : State}

theorem plainResult_completes (v : Word) (hpc : s.pc.toNat + 2 < 2 ^ 32) : Completes (plainResult r v s) [r] s :=
  ((OnlyRegsDrawing.refl _ s).setReg (by simp) v).advance rfl hpc

theorem pairResult_completes (v : Double) (hpc : s.pc.toNat + 2 < 2 ^ 32) :
    Completes (pairResult r v s) [r, r + 1] s :=
  ((OnlyRegsDrawing.refl _ s).setPair v).advance rfl hpc

theorem fixEnd_completes (x : Word × Bool) (hpc : s.pc.toNat + 2 < 2 ^ 32) (hO : ¬TrapOn 16 s) :
    Completes (fixEnd r x s) [r] s := by
  unfold fixEnd
  split
  · exact (OnlyRegsDrawing.refl _ s).trapsWordEnd_off rfl hpc hO
  · exact plainResult_completes x.1 hpc

variable (hpc : s.pc.toNat + 2 < 2 ^ 32) (hRO : ¬TrapOn 18 s) (hRU : ¬TrapOn 19 s) (hRD0 : ¬TrapOn 20 s)
include hpc hRO hRU hRD0

theorem realEnd_completes (x : Word × RealCond) : Completes (realEnd r x s) [r] s := by
  have hrefl := OnlyRegsDrawing.refl [r] s
  unfold realEnd
  split
  · exact plainResult_completes x.1 hpc
  · exact (hrefl.setReg (by simp) _).trapsWordEnd_off rfl hpc hRO
  · exact (hrefl.setReg (by simp) _).trapsWordEnd_off rfl hpc hRU
  · exact (hrefl.scrambleReg (by simp)).trapsWordEnd_off rfl hpc hRD0

theorem doubleEnd_completes (x : Double × RealCond) : Completes (doubleEnd r x s) [r, r + 1] s := by
  have hrefl := OnlyRegsDrawing.refl [r, r + 1] s
  unfold doubleEnd
  split
  · exact pairResult_completes x.1 hpc
  · exact (hrefl.setPair _).trapsWordEnd_off rfl hpc hRO
  · exact (hrefl.setPair _).trapsWordEnd_off rfl hpc hRU
  · exact hrefl.scramblePair.trapsWordEnd_off rfl hpc hRD0

theorem makeRealEnd_completes (x : Word × RealCond) : Completes (makeRealEnd r x s) [r] s := by
  have hscrambled : OnlyRegsDrawing [r] s (s.scrambleReg r) := (OnlyRegsDrawing.refl _ s).scrambleReg (by simp)
  unfold makeRealEnd
  split
  · exact plainResult_completes x.1 hpc
  · exact hscrambled.trapsWordEnd_off rfl hpc hRO
  · exact hscrambled.trapsWordEnd_off rfl hpc hRU
  · exact hscrambled.trapsWordEnd_off rfl hpc hRD0

end

/-! ### The twenty instructions -/

/-- Settles O34: each of the twenty has one of six ends, all of which go on with the traps off. -/
theorem realInstructionsComplete : Obligations.RealInstructionsComplete := by
  intro s r1 r2 hpc hO hRO hRU hRD0
  have hreal := realEnd_completes (r := r1) hpc hRO hRU hRD0
  have hdouble := doubleEnd_completes (r := r1) hpc hRO hRU hRD0
  have hfix : ∀ x, Completes (fixEnd r1 x s) [r1] s := fun x => fixEnd_completes x hpc hO
  have hplain : ∀ v, Completes (plainResult r1 v s) [r1] s := fun v => plainResult_completes v hpc
  have hpair : ∀ v, Completes (pairResult r1 v s) [r1, r1 + 1] s := fun v => pairResult_completes v hpc
  constructor
  · simp only [List.forall_mem_cons]
    exact ⟨hreal _, hreal _, hreal _, hreal _, hreal _, hplain _, hfix _, hfix _, hfix _, hfix _,
      makeRealEnd_completes hpc hRO hRU hRD0 _, hplain _, hplain _, List.forall_mem_nil _⟩
  · simp only [List.forall_mem_cons]
    exact ⟨hdouble _, hdouble _, hdouble _, hdouble _, hdouble _, hpair _, hpair _, List.forall_mem_nil _⟩

end Sys2Proof.Machine
end

section
/-! SUPPORT. The real formats: what numbers well-formed patterns are, their order, and the pattern of a number (R280 to
R283). -/

namespace Sys2Proof.Machine

/-! ### Signs, exponents and fractions -/

theorem scaled_eq (m e : Int) : scaled m e = m * (2 : Rat) ^ e := by
  unfold scaled
  split
  · next he =>
    obtain ⟨n, rfl⟩ := Int.eq_ofNat_of_zero_le he
    rw [Rat.mkRat_eq_div]
    simp
  · next he =>
    obtain ⟨n, hn⟩ := Int.eq_ofNat_of_zero_le (show 0 ≤ -e by omega)
    obtain rfl : e = -(n : Int) := by omega
    rw [Rat.mkRat_eq_div]
    simp [div_eq_mul_inv]

section
variable (f : RealFormat)

theorem RealFormat.two_pow_magBits : 2 ^ f.magBits = 2 ^ f.expBits * 2 ^ f.fracBits := pow_add _ _ _

theorem RealFormat.fraction_magnitude (b : Nat) : f.fraction (f.magnitude b) = f.fraction b :=
  Nat.mod_mod_of_dvd _ ⟨2 ^ f.expBits, by rw [f.two_pow_magBits, mul_comm]⟩

/-- A pattern is its sign above its magnitude. -/
theorem RealFormat.eq_signBit_add_magnitude {b : Nat} (hb : b < 2 ^ (f.magBits + 1)) :
    b = f.signBit (f.negative b) + f.magnitude b := by
  rw [RealFormat.magnitude, RealFormat.signBit, RealFormat.negative]
  rw [pow_succ] at hb
  by_cases h : 2 ^ f.magBits ≤ b
  · rw [if_pos (decide_eq_true h), Nat.mod_eq_sub_mod h, Nat.mod_eq_of_lt] <;> omega
  · rw [if_neg (by simpa using h), Nat.mod_eq_of_lt] <;> omega

theorem RealFormat.magnitude_signBit_add (n : Bool) {m : Nat} (hm : m < 2 ^ f.magBits) :
    f.magnitude (f.signBit n + m) = m := by
  cases n <;> simp [RealFormat.magnitude, RealFormat.signBit, Nat.mod_eq_of_lt hm]

theorem RealFormat.negative_signBit_add (n : Bool) {m : Nat} (hm : m < 2 ^ f.magBits) :
    f.negative (f.signBit n + m) = n := by
  cases n <;> simp [RealFormat.negative, RealFormat.signBit, hm]

theorem RealFormat.signBit_add_lt (n : Bool) {m : Nat} (hm : m < 2 ^ f.magBits) :
    f.signBit n + m < 2 ^ (f.magBits + 1) := by
  have hs : f.signBit n ≤ 2 ^ f.magBits := by cases n <;> simp [RealFormat.signBit]
  rw [pow_succ]
  omega

theorem RealFormat.maxMagnitude_lt : f.maxMagnitude < 2 ^ f.magBits := by
  have hM := Nat.two_pow_pos f.magBits
  have hF := Nat.two_pow_pos f.fracBits
  unfold RealFormat.maxMagnitude
  split <;> omega

/-- The magnitudes whose exponent is that of a number (R283). -/
theorem RealFormat.exponentOk_iff (m : Nat) :
    f.exponentOk (m / 2 ^ f.fracBits) = true ↔ 2 ^ f.fracBits ≤ m ∧ m ≤ f.maxMagnitude := by
  have hF := Nat.two_pow_pos f.fracBits
  have hone : 1 ≤ m / 2 ^ f.fracBits ↔ 2 ^ f.fracBits ≤ m := by rw [Nat.le_div_iff_mul_le hF, one_mul]
  have htop : m / 2 ^ f.fracBits < 2 ^ f.expBits ↔ m < 2 ^ f.magBits := by
    rw [Nat.div_lt_iff_lt_mul hF, f.two_pow_magBits]
  have hsub : m / 2 ^ f.fracBits < 2 ^ f.expBits - 1 ↔ m < 2 ^ f.magBits - 2 ^ f.fracBits := by
    rw [Nat.div_lt_iff_lt_mul hF, f.two_pow_magBits, Nat.sub_mul, one_mul]
  simp only [RealFormat.exponentOk, RealFormat.maxMagnitude, Bool.and_eq_true, Bool.or_eq_true, decide_eq_true_eq,
    Bool.not_eq_true']
  cases f.topReserved
  · simp only [and_true, Bool.false_eq_true, if_false]
    omega
  · simp only [Bool.true_eq_false, and_false, or_false, if_true]
    omega

theorem RealFormat.wellFormed_iff (b : Nat) :
    f.wellFormed b = true ↔ b = 0 ∨ 2 ^ f.fracBits ≤ f.magnitude b ∧ f.magnitude b ≤ f.maxMagnitude := by
  rw [RealFormat.wellFormed, Bool.or_eq_true, decide_eq_true_eq, RealFormat.exponent, f.exponentOk_iff]

theorem RealFormat.magnitude_eq_zero_iff {b : Nat} (hb : f.wellFormed b = true) : f.magnitude b = 0 ↔ b = 0 := by
  have hF := Nat.two_pow_pos f.fracBits
  refine ⟨fun h => ?_, fun h => by rw [h, RealFormat.magnitude, Nat.zero_mod]⟩
  rcases (f.wellFormed_iff b).mp hb with h0 | hm
  · exact h0
  · omega

/-! ### The order of values is that of the keys -/

/-- The number of a magnitude: (1 + F/2^fracBits) 2^(E - bias), also where E is 0. -/
def RealFormat.magnitudeValue (m : Nat) : Rat :=
  ((2 ^ f.fracBits + f.fraction m : Nat) : Rat) * 2 ^ (((m / 2 ^ f.fracBits : Nat) : Int) - f.bias - f.fracBits)

/-- The number of a key of sign-magnitude comparison. -/
def RealFormat.keyValue (k : Int) : Rat := k.sign * f.magnitudeValue k.natAbs

theorem RealFormat.magnitudeValue_pos (m : Nat) : 0 < f.magnitudeValue m := by
  unfold RealFormat.magnitudeValue
  positivity

theorem RealFormat.value_of_ne_zero {b : Nat} (hb : b ≠ 0) :
    f.value b = if f.negative b then -f.magnitudeValue (f.magnitude b) else f.magnitudeValue (f.magnitude b) := by
  simp only [RealFormat.value, if_neg hb, scaled_eq, RealFormat.magnitudeValue, f.fraction_magnitude, RealFormat.exponent]
  split <;> push_cast <;> ring

/-- A number between 2^i and 2^(i+1) has no other such exponent. -/
theorem binaryExponent_unique {x : Rat} {i j : Int} (hi : (2 : Rat) ^ i ≤ x) (hi' : x < 2 ^ (i + 1))
    (hj : (2 : Rat) ^ j ≤ x) (hj' : x < 2 ^ (j + 1)) : i = j := by
  have hij := (zpow_lt_zpow_iff_right₀ (one_lt_two (α := Rat))).mp (hi.trans_lt hj')
  have hji := (zpow_lt_zpow_iff_right₀ (one_lt_two (α := Rat))).mp (hj.trans_lt hi')
  omega

/-- A mantissa of `fracBits` + 1 bits, scaled, lies between two powers of 2. -/
theorem RealFormat.scaled_mantissa_bounds {M : Nat} (h : 2 ^ f.fracBits ≤ M) (h' : M < 2 ^ (f.fracBits + 1)) (e : Int) :
    (2 : Rat) ^ e ≤ M * 2 ^ (e - f.fracBits) ∧ (M : Rat) * 2 ^ (e - f.fracBits) < 2 ^ (e + 1) := by
  have hpos : (0 : Rat) < 2 ^ (e - f.fracBits) := by positivity
  have hlow : (2 : Rat) ^ e = (2 ^ f.fracBits : Nat) * 2 ^ (e - f.fracBits) := by
    push_cast
    rw [← zpow_natCast, ← zpow_add₀ two_ne_zero]
    congr 1
    ring
  have hhigh : (2 : Rat) ^ (e + 1) = (2 ^ (f.fracBits + 1) : Nat) * 2 ^ (e - f.fracBits) := by
    rw [zpow_add_one₀ two_ne_zero, hlow]
    push_cast
    ring
  rw [hhigh, hlow]
  exact ⟨mul_le_mul_of_nonneg_right (by exact_mod_cast h) hpos.le, mul_lt_mul_of_pos_right (by exact_mod_cast h') hpos⟩

theorem RealFormat.mantissa_bounds (m : Nat) :
    2 ^ f.fracBits ≤ 2 ^ f.fracBits + f.fraction m ∧ 2 ^ f.fracBits + f.fraction m < 2 ^ (f.fracBits + 1) := by
  have := Nat.mod_lt m (Nat.two_pow_pos f.fracBits)
  rw [RealFormat.fraction, pow_succ]
  omega

theorem RealFormat.magnitudeValue_bounds (m : Nat) :
    (2 : Rat) ^ (((m / 2 ^ f.fracBits : Nat) : Int) - f.bias) ≤ f.magnitudeValue m ∧
      f.magnitudeValue m < 2 ^ (((m / 2 ^ f.fracBits : Nat) : Int) - f.bias + 1) :=
  f.scaled_mantissa_bounds (f.mantissa_bounds m).1 (f.mantissa_bounds m).2 _

/-- Magnitudes are ordered as numbers are: by exponent, then by fraction. -/
theorem RealFormat.magnitudeValue_strictMono : StrictMono f.magnitudeValue := by
  intro m n hmn
  rcases (Nat.div_le_div_right (c := 2 ^ f.fracBits) hmn.le).lt_or_eq with hlt | heq
  · calc f.magnitudeValue m < 2 ^ (((m / 2 ^ f.fracBits : Nat) : Int) - f.bias + 1) := (f.magnitudeValue_bounds m).2
      _ ≤ 2 ^ (((n / 2 ^ f.fracBits : Nat) : Int) - f.bias) := zpow_le_zpow_right₀ one_le_two (by omega)
      _ ≤ f.magnitudeValue n := (f.magnitudeValue_bounds n).1
  · have hfrac : f.fraction m < f.fraction n := by
      have hm := Nat.div_add_mod m (2 ^ f.fracBits)
      have hn := Nat.div_add_mod n (2 ^ f.fracBits)
      rw [heq] at hm
      unfold RealFormat.fraction
      omega
    unfold RealFormat.magnitudeValue
    rw [heq]
    have hlt : 2 ^ f.fracBits + f.fraction m < 2 ^ f.fracBits + f.fraction n := by omega
    exact mul_lt_mul_of_pos_right (by exact_mod_cast hlt) (by positivity)

theorem RealFormat.keyValue_neg (k : Int) : f.keyValue (-k) = -f.keyValue k := by
  rw [RealFormat.keyValue, RealFormat.keyValue, Int.sign_neg, Int.natAbs_neg, Int.cast_neg, neg_mul]

theorem RealFormat.keyValue_zero : f.keyValue 0 = 0 := by simp [RealFormat.keyValue]

theorem RealFormat.keyValue_natCast {m : Nat} (hm : m ≠ 0) : f.keyValue m = f.magnitudeValue m := by
  rw [RealFormat.keyValue, Int.sign_natCast_of_ne_zero hm, Int.natAbs_natCast, Int.cast_one, one_mul]

theorem RealFormat.keyValue_strictMono : StrictMono f.keyValue := by
  refine strictMono_of_odd_strictMonoOn_nonneg f.keyValue_neg fun a ha b hb hab => ?_
  obtain ⟨m, rfl⟩ := Int.eq_ofNat_of_zero_le (Set.mem_Ici.mp ha)
  obtain ⟨n, rfl⟩ := Int.eq_ofNat_of_zero_le (Set.mem_Ici.mp hb)
  have hmn : m < n := Int.ofNat_lt.mp hab
  have hn : n ≠ 0 := by omega
  rw [f.keyValue_natCast hn]
  rcases eq_or_ne m 0 with rfl | hm
  · rw [Nat.cast_zero, f.keyValue_zero]
    exact f.magnitudeValue_pos n
  · rw [f.keyValue_natCast hm]
    exact f.magnitudeValue_strictMono hmn

theorem RealFormat.abs_key (b : Nat) : |f.key b| = f.magnitude b := by
  unfold RealFormat.key
  split <;> simp

/-- The sign of a magnitude that is not zero is that of the key. -/
theorem RealFormat.negative_eq_of_magnitude {b : Nat} (hb : f.magnitude b ≠ 0) :
    f.negative b = decide (f.key b < 0) := by
  unfold RealFormat.key
  cases f.negative b
  · simp
  · simpa using Nat.pos_of_ne_zero hb

/-- The value of a well-formed pattern is a function of its key (R352). -/
theorem RealFormat.value_eq_keyValue {b : Nat} (hb : f.wellFormed b = true) : f.value b = f.keyValue (f.key b) := by
  rcases eq_or_ne b 0 with rfl | hne
  · simp [RealFormat.value, RealFormat.key, RealFormat.magnitude, f.keyValue_zero]
  · have hm : f.magnitude b ≠ 0 := mt (f.magnitude_eq_zero_iff hb).mp hne
    rw [f.value_of_ne_zero hne, RealFormat.key]
    split
    · rw [f.keyValue_neg, f.keyValue_natCast hm]
    · rw [f.keyValue_natCast hm]

section
variable {a b : Nat} (ha : f.wellFormed a = true) (hb : f.wellFormed b = true)
include ha hb

theorem RealFormat.value_lt_iff_key : f.value a < f.value b ↔ f.key a < f.key b := by
  rw [f.value_eq_keyValue ha, f.value_eq_keyValue hb, f.keyValue_strictMono.lt_iff_lt]

theorem RealFormat.value_eq_iff_key : f.value a = f.value b ↔ f.key a = f.key b := by
  rw [f.value_eq_keyValue ha, f.value_eq_keyValue hb, f.keyValue_strictMono.injective.eq_iff]

/-- No two well-formed patterns have the same value. -/
theorem RealFormat.eq_of_value_eq (hlta : a < 2 ^ (f.magBits + 1)) (hltb : b < 2 ^ (f.magBits + 1))
    (h : f.value a = f.value b) : a = b := by
  have hkey := (f.value_eq_iff_key ha hb).mp h
  have hmag : f.magnitude a = f.magnitude b := by
    rw [← Int.ofNat_inj, ← f.abs_key, ← f.abs_key, hkey]
  rcases eq_or_ne (f.magnitude a) 0 with h0 | h0
  · rw [(f.magnitude_eq_zero_iff ha).mp h0, (f.magnitude_eq_zero_iff hb).mp (hmag ▸ h0)]
  · rw [f.eq_signBit_add_magnitude hlta, f.eq_signBit_add_magnitude hltb, f.negative_eq_of_magnitude h0,
      f.negative_eq_of_magnitude (hmag ▸ h0), hkey, hmag]

end

theorem RealFormat.value_zero : f.value 0 = 0 := if_pos rfl

theorem RealFormat.value_eq_zero_iff (b : Nat) : f.value b = 0 ↔ b = 0 := by
  refine ⟨fun h => ?_, fun h => by rw [h, f.value_zero]⟩
  by_contra hb
  have hpos := f.magnitudeValue_pos (f.magnitude b)
  rw [f.value_of_ne_zero hb] at h
  split at h <;> linarith

end

end Sys2Proof.Machine
end

section
/-! SUPPORT. The pattern of a number, and what a real operation makes of an exact result (R283, P1 and P4). -/

namespace Sys2Proof.Machine

/-! ### The pattern of a number -/

theorem abs_eq_natAbs_num_div (q : Rat) : |q| = (q.num.natAbs : Rat) / q.den := by
  rw [Rat.abs_def, Rat.divInt_eq_div, Int.cast_natCast, Int.cast_natCast]

/-- A number with a power of 2 as its denominator lies where its numerator's length says. -/
theorem abs_bounds_of_den {q : Rat} {k : Nat} (hq : q ≠ 0) (hden : q.den = 2 ^ k) :
    (2 : Rat) ^ ((q.num.natAbs.log2 : Int) - k) ≤ |q| ∧ |q| < 2 ^ ((q.num.natAbs.log2 : Int) - k + 1) := by
  have hn : q.num.natAbs ≠ 0 := Int.natAbs_ne_zero.mpr (Rat.num_ne_zero.mpr hq)
  have hlow := Nat.log2_self_le hn
  have hhigh := Nat.lt_log2_self (n := q.num.natAbs)
  have hk : (0 : Rat) < 2 ^ k := by positivity
  rw [abs_eq_natAbs_num_div, hden, Nat.cast_pow, Nat.cast_ofNat, ← add_sub_right_comm, zpow_sub₀ two_ne_zero,
    zpow_sub₀ two_ne_zero, ← Nat.cast_add_one, zpow_natCast, zpow_natCast, zpow_natCast]
  exact ⟨div_le_div_of_nonneg_right (by exact_mod_cast hlow) hk.le, div_lt_div_of_pos_right (by exact_mod_cast hhigh) hk⟩

/-- The denominator of an integer scaled is a power of 2. -/
theorem den_scaled (m e : Int) : (scaled m e).den = 2 ^ (scaled m e).den.log2 := by
  suffices h : ∃ k, ((m : Rat) * 2 ^ e).den = 2 ^ k by
    obtain ⟨k, hk⟩ := h
    rw [scaled_eq, hk, Nat.log2_two_pow]
  rcases e.eq_nat_or_neg with ⟨n, rfl | rfl⟩
  · refine ⟨0, ?_⟩
    rw [zpow_natCast, show (m : Rat) * 2 ^ n = ((m * 2 ^ n : Int) : Rat) by push_cast; rfl, Rat.den_intCast, pow_zero]
  · have hdvd := Rat.den_dvd m (2 ^ n)
    rw [Rat.divInt_eq_div, Int.cast_pow, Int.cast_ofNat, div_eq_mul_inv, ← zpow_natCast, ← zpow_neg] at hdvd
    obtain ⟨k, -, hk⟩ := (Nat.dvd_prime_pow Nat.prime_two).mp (show _ ∣ 2 ^ n by exact_mod_cast hdvd)
    exact ⟨k, hk⟩

/-- A numerator that is a mantissa `M` shifted left has zeros below it. -/
theorem two_pow_dvd_of_div_eq {n M k l F : Nat} (h : (n : Rat) / 2 ^ k = M * 2 ^ ((l : Int) - k - F)) :
    2 ^ (l - F) ∣ n := by
  rcases le_total l F with hle | hle
  · rw [Nat.sub_eq_zero_of_le hle, pow_zero]
    exact one_dvd n
  · have hexp : ((l : Int) - k - F) = ((l - F : Nat) : Int) - k := by omega
    rw [hexp, zpow_sub₀ two_ne_zero, zpow_natCast, zpow_natCast, mul_div_assoc', div_left_inj' (by positivity)] at h
    exact ⟨M, by rw [mul_comm]; exact_mod_cast h⟩

section
variable (f : RealFormat)

/-- The magnitude with an exponent and a mantissa, and its number. -/
theorem RealFormat.magnitudeValue_of_parts (e : Nat) {M : Nat} (h : 2 ^ f.fracBits ≤ M) (h' : M < 2 ^ (f.fracBits + 1)) :
    (e * 2 ^ f.fracBits + (M - 2 ^ f.fracBits)) / 2 ^ f.fracBits = e ∧
      f.magnitudeValue (e * 2 ^ f.fracBits + (M - 2 ^ f.fracBits)) = M * 2 ^ ((e : Int) - f.bias - f.fracBits) := by
  have hlt : M - 2 ^ f.fracBits < 2 ^ f.fracBits := by
    rw [pow_succ] at h'
    omega
  have hdiv : (e * 2 ^ f.fracBits + (M - 2 ^ f.fracBits)) / 2 ^ f.fracBits = e := by
    rw [add_comm, Nat.add_mul_div_right _ _ (Nat.two_pow_pos _), Nat.div_eq_of_lt hlt, zero_add]
  refine ⟨hdiv, ?_⟩
  rw [RealFormat.magnitudeValue, hdiv, RealFormat.fraction, add_comm (e * _), Nat.add_mul_mod_self_right,
    Nat.mod_eq_of_lt hlt, Nat.add_sub_cancel' h]

/-- The mantissa of a numerator: its leading `fracBits` + 1 bits, where no others are set. -/
theorem mantissa_spec {F n : Nat} (hn : n ≠ 0) (hdvd : 2 ^ (n.log2 - F) ∣ n) :
    n * 2 ^ F / 2 ^ n.log2 * 2 ^ n.log2 = n * 2 ^ F ∧ 2 ^ F ≤ n * 2 ^ F / 2 ^ n.log2 ∧
      n * 2 ^ F / 2 ^ n.log2 < 2 ^ (F + 1) := by
  have hl := Nat.two_pow_pos n.log2
  have hall : 2 ^ n.log2 ∣ n * 2 ^ F := by
    calc 2 ^ n.log2 ∣ 2 ^ (n.log2 - F + F) := pow_dvd_pow 2 (by omega)
      _ = 2 ^ (n.log2 - F) * 2 ^ F := pow_add _ _ _
      _ ∣ n * 2 ^ F := mul_dvd_mul_right hdvd _
  refine ⟨Nat.div_mul_cancel hall, ?_, ?_⟩
  · rw [Nat.le_div_iff_mul_le hl, mul_comm]
    exact Nat.mul_le_mul_right _ (Nat.log2_self_le hn)
  · rw [Nat.div_lt_iff_lt_mul hl, ← pow_add, show F + 1 + n.log2 = n.log2 + 1 + F by ring, pow_add]
    exact Nat.mul_lt_mul_of_pos_right Nat.lt_log2_self (Nat.two_pow_pos F)

/-- A sign above a magnitude of the range is a well-formed pattern, of the number with that sign and magnitude. -/
theorem RealFormat.pattern_spec {q : Rat} {m : Nat} (hlow : 2 ^ f.fracBits ≤ m) (hhigh : m ≤ f.maxMagnitude)
    (hm : f.magnitudeValue m = |q|) :
    f.signBit (decide (q < 0)) + m < 2 ^ (f.magBits + 1) ∧ f.wellFormed (f.signBit (decide (q < 0)) + m) = true ∧
      f.value (f.signBit (decide (q < 0)) + m) = q := by
  have hlt := hhigh.trans_lt f.maxMagnitude_lt
  have hF := Nat.two_pow_pos f.fracBits
  refine ⟨f.signBit_add_lt _ hlt, (f.wellFormed_iff _).mpr (.inr ?_), ?_⟩
  · rw [f.magnitude_signBit_add _ hlt]
    exact ⟨hlow, hhigh⟩
  · rw [f.value_of_ne_zero (by omega), f.negative_signBit_add _ hlt, f.magnitude_signBit_add _ hlt, hm]
    rcases lt_or_ge q 0 with hneg | hneg
    · rw [if_pos (decide_eq_true hneg), abs_of_neg hneg, neg_neg]
    · rw [if_neg (by simpa using hneg), abs_of_nonneg hneg]

/-- The exponent of a number with a power of 2 as its denominator, in excess `bias`. -/
def RealFormat.exponentOf (q : Rat) : Int := (q.num.natAbs.log2 : Int) - q.den.log2 + f.bias

/-- The mantissa of a number: its numerator aligned to `fracBits` + 1 bits. -/
def RealFormat.mantissaOf (q : Rat) : Nat := q.num.natAbs * 2 ^ f.fracBits / 2 ^ q.num.natAbs.log2

/-- Where a number has a pattern, and which. -/
theorem RealFormat.represent_of_ne_zero {q : Rat} (hq : q ≠ 0) (b : Nat) :
    f.represent q = some b ↔ (q.den = 2 ^ q.den.log2 ∧ f.exponentOk (f.exponentOf q).toNat = true ∧
        2 ^ (q.num.natAbs.log2 - f.fracBits) ∣ q.num.natAbs) ∧
      f.signBit (decide (q < 0)) + ((f.exponentOf q).toNat * 2 ^ f.fracBits + (f.mantissaOf q - 2 ^ f.fracBits)) = b := by
  rw [RealFormat.represent, if_neg hq, ← add_assoc]
  dsimp only
  split
  · next h => exact ⟨fun hb => ⟨h, Option.some_inj.mp hb⟩, fun hb => congrArg some hb.2⟩
  · next h => exact ⟨fun hb => absurd hb (by simp), fun hb => absurd hb.1 h⟩

/-- The number of the mantissa and the exponent. -/
theorem RealFormat.mantissaOf_mul_zpow {q : Rat} (hden : q.den = 2 ^ q.den.log2)
    (hM : f.mantissaOf q * 2 ^ q.num.natAbs.log2 = q.num.natAbs * 2 ^ f.fracBits) :
    (f.mantissaOf q : Rat) * 2 ^ (f.exponentOf q - f.bias - f.fracBits) = |q| := by
  have hcast : (f.mantissaOf q : Rat) * 2 ^ q.num.natAbs.log2 = q.num.natAbs * 2 ^ f.fracBits := by exact_mod_cast hM
  have hk : (q.den : Rat) = 2 ^ q.den.log2 := by exact_mod_cast hden
  rw [abs_eq_natAbs_num_div, hk, RealFormat.exponentOf, add_sub_cancel_right, zpow_sub₀ two_ne_zero,
    zpow_sub₀ two_ne_zero, zpow_natCast, zpow_natCast, zpow_natCast, div_div, mul_div_assoc', hcast,
    mul_div_mul_right _ _ (by positivity)]

/-- What `represent` answers is a well-formed pattern of that value. -/
theorem RealFormat.represent_sound {q : Rat} {b : Nat} (h : f.represent q = some b) :
    b < 2 ^ (f.magBits + 1) ∧ f.wellFormed b = true ∧ f.value b = q := by
  rcases eq_or_ne q 0 with rfl | hq
  · obtain rfl : 0 = b := by simpa [RealFormat.represent] using h
    exact ⟨Nat.two_pow_pos _, (f.wellFormed_iff 0).mpr (.inl rfl), f.value_zero⟩
  · obtain ⟨⟨hden, hok, hdvd⟩, rfl⟩ := (f.represent_of_ne_zero hq b).mp h
    obtain ⟨hM, hMlow, hMhigh⟩ := mantissa_spec (Int.natAbs_ne_zero.mpr (Rat.num_ne_zero.mpr hq)) hdvd
    obtain ⟨hexp, hval⟩ := f.magnitudeValue_of_parts (f.exponentOf q).toNat hMlow hMhigh
    obtain ⟨hlow, hhigh⟩ := (f.exponentOk_iff _).mp (hexp ▸ hok)
    refine f.pattern_spec hlow hhigh ?_
    have hpos : 0 ≤ f.exponentOf q := by
      by_contra hneg
      rw [Int.toNat_of_nonpos (by omega)] at hok
      exact absurd hok (by simp [RealFormat.exponentOk])
    rw [← f.mantissaOf_mul_zpow hden hM, ← Int.toNat_of_nonneg hpos]
    exact hval

/-- But for its sign a value is the number of the pattern's magnitude. -/
theorem RealFormat.abs_value {b : Nat} (hb : b ≠ 0) : |f.value b| = f.magnitudeValue (f.magnitude b) := by
  have hpos := f.magnitudeValue_pos (f.magnitude b)
  rw [f.value_of_ne_zero hb]
  split
  · rw [abs_neg, abs_of_pos hpos]
  · exact abs_of_pos hpos

/-- The value of a well-formed pattern has a pattern. -/
theorem RealFormat.represent_complete {b : Nat} (hb : f.wellFormed b = true) : ∃ b', f.represent (f.value b) = some b' := by
  rcases eq_or_ne b 0 with rfl | hne
  · exact ⟨0, by rw [f.value_zero]; rfl⟩
  have hq : f.value b ≠ 0 := mt (f.value_eq_zero_iff b).mp hne
  have habs := f.abs_value hne
  have hden : (f.value b).den = 2 ^ (f.value b).den.log2 := by
    rw [RealFormat.value, if_neg hne]
    exact den_scaled _ _
  have hexp : f.exponentOf (f.value b) = (f.exponent b : Int) := by
    obtain ⟨hlow, hhigh⟩ := abs_bounds_of_den hq hden
    obtain ⟨hlow', hhigh'⟩ := f.magnitudeValue_bounds (f.magnitude b)
    rw [habs] at hlow hhigh
    have hunique := binaryExponent_unique hlow hhigh hlow' hhigh'
    rw [RealFormat.exponentOf, RealFormat.exponent]
    omega
  have hok : f.exponentOk (f.exponentOf (f.value b)).toNat = true := by
    rw [hexp, Int.toNat_natCast]
    exact (f.exponentOk_iff _).mpr (((f.wellFormed_iff b).mp hb).resolve_left hne)
  have hdvd : 2 ^ ((f.value b).num.natAbs.log2 - f.fracBits) ∣ (f.value b).num.natAbs := by
    refine two_pow_dvd_of_div_eq (k := (f.value b).den.log2) (M := 2 ^ f.fracBits + f.fraction (f.magnitude b)) ?_
    have hk : ((f.value b).den : Rat) = 2 ^ (f.value b).den.log2 := by exact_mod_cast hden
    rw [← hk, ← abs_eq_natAbs_num_div, habs, RealFormat.magnitudeValue, ← RealFormat.exponent, ← hexp,
      RealFormat.exponentOf, add_sub_cancel_right]
  exact ⟨_, (f.represent_of_ne_zero hq _).mpr ⟨⟨hden, hok, hdvd⟩, rfl⟩⟩

/-- `represent` answers the one well-formed pattern with a value, where there is one (P1 of R283). -/
theorem RealFormat.represent_eq_some_iff {q : Rat} {b : Nat} :
    f.represent q = some b ↔ b < 2 ^ (f.magBits + 1) ∧ f.wellFormed b = true ∧ f.value b = q := by
  refine ⟨f.represent_sound, ?_⟩
  rintro ⟨hlt, hwf, rfl⟩
  obtain ⟨b', hb'⟩ := f.represent_complete hwf
  obtain ⟨hlt', hwf', hval⟩ := f.represent_sound hb'
  rw [hb', f.eq_of_value_eq hwf' hwf hlt' hlt hval]

theorem RealFormat.represent_value {b : Nat} (hlt : b < 2 ^ (f.magBits + 1)) (hb : f.wellFormed b = true) :
    f.represent (f.value b) = some b :=
  f.represent_eq_some_iff.mpr ⟨hlt, hb, rfl⟩

end

/-! ### What becomes of an exact result -/

section
variable (f : RealFormat)

theorem RealFormat.value_of_magnitude {m : Nat} (hlow : 2 ^ f.fracBits ≤ m) (hlt : m < 2 ^ f.magBits) :
    f.value m = f.magnitudeValue m := by
  have hF := Nat.two_pow_pos f.fracBits
  rw [f.value_of_ne_zero (by omega), RealFormat.negative, decide_eq_false hlt.not_ge, if_neg Bool.false_ne_true,
    RealFormat.magnitude, Nat.mod_eq_of_lt hlt]

/-- P1: a result that a well-formed pattern has is that pattern. -/
theorem RealFormat.result_value {v : Nat} (hlt : v < 2 ^ (f.magBits + 1)) (hv : f.wellFormed v = true)
    (other : Nat × RealCond) : f.result (f.value v) other = (v, .ok) := by
  rw [RealFormat.result, f.represent_value hlt hv]

/-- A number that is no well-formed pattern's has no pattern. -/
theorem RealFormat.represent_eq_none {q : Rat} (h : ∀ b, f.wellFormed b = true → f.value b ≠ q) : f.represent q = none := by
  rw [Option.eq_none_iff_forall_ne_some]
  intro b hb
  obtain ⟨-, hwf, hval⟩ := f.represent_sound hb
  exact h b hwf hval

variable (hf : 2 ≤ f.expBits)
include hf

/-- A format of at least two exponent bits has magnitudes of numbers. -/
theorem RealFormat.two_pow_fracBits_le_maxMagnitude : 2 ^ f.fracBits ≤ f.maxMagnitude := by
  have hM : 2 ^ 2 * 2 ^ f.fracBits ≤ 2 ^ f.magBits := by
    rw [f.two_pow_magBits]
    exact Nat.mul_le_mul_right _ (Nat.pow_le_pow_right two_pos hf)
  have hF := Nat.two_pow_pos f.fracBits
  unfold RealFormat.maxMagnitude
  split <;> omega

theorem RealFormat.largest_eq : f.largest = f.magnitudeValue f.maxMagnitude :=
  f.value_of_magnitude (f.two_pow_fracBits_le_maxMagnitude hf) f.maxMagnitude_lt

theorem RealFormat.smallest_eq : f.smallest = f.magnitudeValue (2 ^ f.fracBits) :=
  f.value_of_magnitude le_rfl ((f.two_pow_fracBits_le_maxMagnitude hf).trans_lt f.maxMagnitude_lt)

theorem RealFormat.smallest_le_largest : f.smallest ≤ f.largest := by
  rw [f.smallest_eq hf, f.largest_eq hf]
  exact f.magnitudeValue_strictMono.monotone (f.two_pow_fracBits_le_maxMagnitude hf)

/-- The non-zero numbers of a format lie between its smallest and its largest. -/
theorem RealFormat.abs_value_mem_range {b : Nat} (hb : f.wellFormed b = true) (hne : b ≠ 0) :
    f.smallest ≤ |f.value b| ∧ |f.value b| ≤ f.largest := by
  obtain ⟨hlow, hhigh⟩ := ((f.wellFormed_iff b).mp hb).resolve_left hne
  rw [f.smallest_eq hf, f.largest_eq hf, f.abs_value hne]
  exact ⟨f.magnitudeValue_strictMono.monotone hlow, f.magnitudeValue_strictMono.monotone hhigh⟩

/-- P4: a result above the largest number overflows, with its sign (R289). -/
theorem RealFormat.result_of_largest_lt {q : Rat} (h : f.largest < |q|) (other : Nat × RealCond) :
    f.result q other = (f.signBit (decide (q < 0)), .overflow) := by
  have hnone : f.represent q = none := by
    refine f.represent_eq_none fun b hb hval => ?_
    rcases eq_or_ne b 0 with rfl | hne
    · have hpos := f.magnitudeValue_pos f.maxMagnitude
      rw [← hval, f.value_zero, abs_zero, f.largest_eq hf] at h
      exact h.not_gt hpos
    · exact h.not_ge (hval ▸ (f.abs_value_mem_range hf hb hne).2)
  rw [RealFormat.result, hnone]
  exact if_pos (.inl h)

/-- P4: a result below the smallest number, but not 0, underflows. -/
theorem RealFormat.result_of_lt_smallest {q : Rat} (hq : q ≠ 0) (h : |q| < f.smallest) (other : Nat × RealCond) :
    f.result q other = (0, .underflow) := by
  have hnone : f.represent q = none := by
    refine f.represent_eq_none fun b hb hval => ?_
    have hne : b ≠ 0 := mt (f.value_eq_zero_iff b).mpr (hval ▸ hq)
    exact h.not_ge (hval ▸ (f.abs_value_mem_range hf hb hne).1)
  have hlarge : ¬(f.largest < |q| ∨ f.smallest ≤ |q| ∧ other.2 = .overflow) := by
    rintro (hl | ⟨hs, -⟩)
    · exact (h.trans_le (f.smallest_le_largest hf)).not_gt hl
    · exact h.not_ge hs
  rw [RealFormat.result, hnone]
  exact (if_neg hlarge).trans (if_pos h)

end

theorem RealFormat.binary_of_wellFormed {f : RealFormat} {op : Rat → Rat → Rat} {a b : Nat} (ha : f.wellFormed a = true)
    (hb : f.wellFormed b = true) (other : Nat × RealCond) :
    f.binary op a b other = f.result (op (f.value a) (f.value b)) other := by
  rw [RealFormat.binary, ha, hb, Bool.and_self, if_pos rfl]

/-- A well-formed divisor that is not zero has a magnitude (R285). -/
theorem RealFormat.magnitude_ne_zero_of_value {f : RealFormat} {b : Nat} (hb : f.wellFormed b = true)
    (hne : f.value b ≠ 0) : f.magnitude b ≠ 0 :=
  mt (fun h => (f.value_eq_zero_iff b).mpr ((f.magnitude_eq_zero_iff hb).mp h)) hne

theorem RealFormat.magnitude_eq_zero_of_value {f : RealFormat} {b : Nat} (h : f.value b = 0) : f.magnitude b = 0 := by
  rw [(f.value_eq_zero_iff b).mp h, RealFormat.magnitude, Nat.zero_mod]

end Sys2Proof.Machine
end

section
/-! SUPPORT. The real and compare instructions by the operation they end with, and the theorems that settle
`Obligations.RealArithmeticExact`, `Obligations.DoubleRealArithmeticExact`, `Obligations.RealConversionsExact`,
`Obligations.FixConversions`, `Obligations.RealRangeEnds`, `Obligations.DoubleRealRangeEnds` and
`Obligations.CompareInstructions` (R283 to R308, R350 to R353). -/

namespace Sys2Proof.Machine

/-! ### Ends of instructions in the shapes of statements -/

/-- An instruction that meets a condition after it has written a register has the shape `WrittenEnd`. -/
theorem WrittenEnd.of_trapsWordEnd {i : Instr} {r : Reg} {v : Word} {code : Nat} {s : State}
    (h : exec i s = trapsWordEnd code (s.setReg r v)) : WrittenEnd i r v code s := by
  refine ⟨fun hpc hoff => Writes.of_advance (h.trans (trapsWordEnd_off hoff)) hpc, fun hon hc => ?_⟩
  rw [WritesAndRaises, h, trapsWordEnd_on (s := s.setReg r v) hon]
  exact raise_entered_at (e := .trapsWord code) rfl ((canEnter_setReg s r v 0x41C).mpr hc)

/-- The same for a pair. -/
theorem WrittenPairEnd.of_trapsWordEnd {i : Instr} {r : Reg} {v : Double} {code : Nat} {s : State}
    (h : exec i s = trapsWordEnd code (s.setPair r v)) : WrittenPairEnd i r v code s := by
  refine ⟨fun hpc hoff => WritesPair.of_advance (h.trans (trapsWordEnd_off hoff)) hpc, fun hon hc => ?_⟩
  rw [WritesPairAndRaises, h, trapsWordEnd_on (s := s.setPair r v) hon]
  exact raise_entered_at (e := .trapsWord code) rfl ((canEnter_setPair s r v 0x41C).mpr hc)

/-- A free value in a register before the condition is met. -/
theorem ScrambledEnd.of_scrambleReg {i : Instr} {r : Reg} {code : Nat} {s : State}
    (h : exec i s = trapsWordEnd code (s.scrambleReg r)) : ScrambledEnd i [r] code s :=
  .of_trapsWordEnd h ((OnlyRegsDrawing.refl _ s).scrambleReg (List.mem_singleton_self r)) rfl

theorem ScrambledEnd.of_scramblePair {i : Instr} {r : Reg} {code : Nat} {s : State}
    (h : exec i s = trapsWordEnd code (s.scramblePair r)) : ScrambledEnd i [r, r + 1] code s :=
  .of_trapsWordEnd h (OnlyRegsDrawing.refl _ s).scramblePair rfl

/-! ### The two formats -/

theorem realFormat_maxMagnitude {big : Word} (h : big = if Config.realTopReserved then 0x7F7FFFFF else 0x7FFFFFFF) :
    realFormat.maxMagnitude = big.toNat := by
  have hmax : realFormat.maxMagnitude = if Config.realTopReserved then 0x7F7FFFFF else 0x7FFFFFFF := rfl
  rw [hmax, h]
  split <;> rfl

theorem doubleFormat_maxMagnitude {big : Double}
    (h : big = if Config.doubleTopReserved then 0x7FEFFFFFFFFFFFFF else 0x7FFFFFFFFFFFFFFF) :
    doubleFormat.maxMagnitude = big.toNat := by
  have hmax : doubleFormat.maxMagnitude = if Config.doubleTopReserved then 0x7FEFFFFFFFFFFFFF else 0x7FFFFFFFFFFFFFFF := rfl
  rw [hmax, h]
  split <;> rfl

/-- The largest real with the sign of the result (R289). -/
theorem largestReal_signBit {big : Word} (h : big = if Config.realTopReserved then 0x7F7FFFFF else 0x7FFFFFFF) (q : Rat) :
    largestReal (BitVec.ofNat 32 (realFormat.signBit (decide (q < 0)))) = if q < 0 then big ||| 0x80000000 else big := by
  have hsign : ∀ n : Bool, (BitVec.ofNat 32 (realFormat.signBit n)).getLsbD 31 = n := by decide
  rw [largestReal, hsign, realFormat_maxMagnitude h, h]
  by_cases hq : q < 0
  · rw [decide_eq_true hq, if_pos hq]
    split <;> rfl
  · rw [decide_eq_false hq, if_neg hq]
    split <;> rfl

/-- The largest double real with the sign of the result (R299). -/
theorem largestDouble_signBit {big : Double}
    (h : big = if Config.doubleTopReserved then 0x7FEFFFFFFFFFFFFF else 0x7FFFFFFFFFFFFFFF) (q : Rat) :
    largestDouble (BitVec.ofNat 64 (doubleFormat.signBit (decide (q < 0)))) =
      if q < 0 then big ||| 0x8000000000000000 else big := by
  have hsign : ∀ n : Bool, (BitVec.ofNat 64 (doubleFormat.signBit n)).getLsbD 63 = n := by decide
  rw [largestDouble, hsign, doubleFormat_maxMagnitude h, h]
  by_cases hq : q < 0
  · rw [decide_eq_true hq, if_pos hq]
    split <;> rfl
  · rw [decide_eq_false hq, if_neg hq]
    split <;> rfl

/-! ### Instructions with an exact real result -/

/-- The instruction makes a real of an exact result (P1 and P4 of R283) and ends as R289 says. -/
def EndsWithReal (i : Instr) (r : Reg) (q : Rat) (s : State) : Prop :=
  ∃ other, exec i s = realEnd r (wordResult (realFormat.result q other)) s

/-- The same for double reals (R299). -/
def EndsWithDouble (i : Instr) (r : Reg) (q : Rat) (s : State) : Prop :=
  ∃ other, exec i s = doubleEnd r (doubleResult (doubleFormat.result q other)) s

theorem realFormat_result_value {v : Word} (hv : realFormat.wellFormed v.toNat = true) (other : Nat × RealCond) :
    wordResult (realFormat.result (realFormat.value v.toNat) other) = (v, .ok) := by
  rw [realFormat.result_value v.isLt hv, wordResult, BitVec.ofNat_toNat, BitVec.setWidth_eq]

theorem doubleFormat_result_value {v : Double} (hv : doubleFormat.wellFormed v.toNat = true) (other : Nat × RealCond) :
    doubleResult (doubleFormat.result (doubleFormat.value v.toNat) other) = (v, .ok) := by
  rw [doubleFormat.result_value v.isLt hv, doubleResult, BitVec.ofNat_toNat, BitVec.setWidth_eq]

section
variable {i : Instr} {r : Reg} {q : Rat} {s : State}

theorem EndsWithReal.writes {v : Word} (h : EndsWithReal i r q s) (hpc : s.pc.toNat + 2 < 2 ^ 32)
    (hv : realFormat.wellFormed v.toNat = true) (hq : realFormat.value v.toNat = q) : Writes i 2 r v s := by
  obtain ⟨other, h⟩ := h
  rw [← hq, realFormat_result_value hv] at h
  exact .of_advance h hpc

theorem EndsWithReal.overflow {big : Word} (h : EndsWithReal i r q s)
    (hbig : big = if Config.realTopReserved then 0x7F7FFFFF else 0x7FFFFFFF) (hq : realFormat.value big.toNat < |q|) :
    WrittenEnd i r (if q < 0 then big ||| 0x80000000 else big) 18 s := by
  obtain ⟨other, h⟩ := h
  rw [← realFormat_maxMagnitude hbig] at hq
  rw [realFormat.result_of_largest_lt (by decide) hq] at h
  rw [← largestReal_signBit hbig]
  exact .of_trapsWordEnd h

theorem EndsWithReal.underflow (h : EndsWithReal i r q s) (hne : q ≠ 0) (hq : |q| < realFormat.value 0x00800000) :
    WrittenEnd i r 0 19 s := by
  obtain ⟨other, h⟩ := h
  rw [realFormat.result_of_lt_smallest (by decide) hne hq] at h
  exact .of_trapsWordEnd h

theorem EndsWithDouble.writes {v : Double} (h : EndsWithDouble i r q s) (hpc : s.pc.toNat + 2 < 2 ^ 32)
    (hv : doubleFormat.wellFormed v.toNat = true) (hq : doubleFormat.value v.toNat = q) : WritesPair i 2 r v s := by
  obtain ⟨other, h⟩ := h
  rw [← hq, doubleFormat_result_value hv] at h
  exact .of_advance h hpc

theorem EndsWithDouble.overflow {big : Double} (h : EndsWithDouble i r q s)
    (hbig : big = if Config.doubleTopReserved then 0x7FEFFFFFFFFFFFFF else 0x7FFFFFFFFFFFFFFF)
    (hq : doubleFormat.value big.toNat < |q|) :
    WrittenPairEnd i r (if q < 0 then big ||| 0x8000000000000000 else big) 18 s := by
  obtain ⟨other, h⟩ := h
  rw [← doubleFormat_maxMagnitude hbig] at hq
  rw [doubleFormat.result_of_largest_lt (by decide) hq] at h
  rw [← largestDouble_signBit hbig]
  exact .of_trapsWordEnd h

theorem EndsWithDouble.underflow (h : EndsWithDouble i r q s) (hne : q ≠ 0)
    (hq : |q| < doubleFormat.value 0x0010000000000000) : WrittenPairEnd i r 0 19 s := by
  obtain ⟨other, h⟩ := h
  rw [doubleFormat.result_of_lt_smallest (by decide) hne hq] at h
  exact .of_trapsWordEnd h

end

/-! ### The arithmetic instructions -/

section
variable {a b : Word} (ha : realFormat.wellFormed a.toNat = true) (hb : realFormat.wellFormed b.toNat = true)
include ha hb

theorem realArith_of_wellFormed (op : RealOp) :
    realArith op a b = wordResult (realFormat.result
      (exactReal op (realFormat.value a.toNat) (realFormat.value b.toNat)) (openReal (Config.otherReal op a b))) := by
  rw [realArith, RealFormat.binary_of_wellFormed ha hb]

theorem realDivide_of_wellFormed (hne : realFormat.value b.toNat ≠ 0) :
    realDivide a b = wordResult (realFormat.result (realFormat.value a.toNat / realFormat.value b.toNat)
      ((Config.otherQuotient a b).1.toNat, (Config.otherQuotient a b).2)) := by
  rw [realDivide, if_neg (RealFormat.magnitude_ne_zero_of_value hb hne)]
  exact congrArg wordResult (RealFormat.binary_of_wellFormed ha hb _)

end

theorem realDivide_of_zero (a : Word) {b : Word} (h : realFormat.value b.toNat = 0) : realDivide a b = (0, .divZero) :=
  if_pos (RealFormat.magnitude_eq_zero_of_value h)

section
variable {a b : Double} (ha : doubleFormat.wellFormed a.toNat = true) (hb : doubleFormat.wellFormed b.toNat = true)
include ha hb

theorem doubleArith_of_wellFormed (op : RealOp) :
    doubleArith op a b = doubleResult (doubleFormat.result
      (exactReal op (doubleFormat.value a.toNat) (doubleFormat.value b.toNat)) (openDouble (Config.otherDouble op a b))) := by
  rw [doubleArith, RealFormat.binary_of_wellFormed ha hb]

theorem doubleDivide_of_wellFormed (hne : doubleFormat.value b.toNat ≠ 0) :
    doubleDivide a b = doubleResult (doubleFormat.result (doubleFormat.value a.toNat / doubleFormat.value b.toNat)
      ((Config.otherDoubleQuotient a b).1.toNat, (Config.otherDoubleQuotient a b).2)) := by
  rw [doubleDivide, if_neg (RealFormat.magnitude_ne_zero_of_value hb hne)]
  exact congrArg doubleResult (RealFormat.binary_of_wellFormed ha hb _)

end

theorem doubleDivide_of_zero (a : Double) {b : Double} (h : doubleFormat.value b.toNat = 0) :
    doubleDivide a b = (0, .divZero) :=
  if_pos (RealFormat.magnitude_eq_zero_of_value h)

section
variable {s : State} {r1 r2 : Reg}

theorem endsWithReal_neg (hb : realFormat.wellFormed (s.reg r2).toNat = true) :
    EndsWithReal (.rneg r1 r2) r1 (-realFormat.value (s.reg r2).toNat) s :=
  ⟨_, congrArg (realEnd r1 · s) (realArith_of_wellFormed hb hb .neg)⟩

/-- The exact results of the two-operand real instructions on well-formed operands. -/
theorem endsWithReal_of_mem (ha : realFormat.wellFormed (s.reg r1).toNat = true)
    (hb : realFormat.wellFormed (s.reg r2).toNat = true) {x y : Rat} (hx : x = realFormat.value (s.reg r1).toNat)
    (hy : y = realFormat.value (s.reg r2).toNat) {i : Instr} {z : Rat}
    (h : (i, z) ∈ [(.radd r1 r2, x + y), (.rsub r1 r2, x - y), (.rmpy r1 r2, x * y)] ∨
      (y ≠ 0 ∧ (i, z) = (.rdiv r1 r2, x / y))) : EndsWithReal i r1 z s := by
  subst hx hy
  simp only [List.mem_cons, List.not_mem_nil, or_false, Prod.mk.injEq] at h
  obtain (⟨rfl, rfl⟩ | ⟨rfl, rfl⟩ | ⟨rfl, rfl⟩) | ⟨hne, rfl, rfl⟩ := h
  · exact ⟨_, congrArg (realEnd r1 · s) (realArith_of_wellFormed ha hb .add)⟩
  · exact ⟨_, congrArg (realEnd r1 · s) (realArith_of_wellFormed ha hb .sub)⟩
  · exact ⟨_, congrArg (realEnd r1 · s) (realArith_of_wellFormed ha hb .mpy)⟩
  · exact ⟨_, congrArg (realEnd r1 · s) (realDivide_of_wellFormed ha hb hne)⟩

theorem endsWithDouble_neg (hb : doubleFormat.wellFormed (s.pair r2).toNat = true) :
    EndsWithDouble (.drneg r1 r2) r1 (-doubleFormat.value (s.pair r2).toNat) s :=
  ⟨_, congrArg (doubleEnd r1 · s) (doubleArith_of_wellFormed hb hb .neg)⟩

/-- The exact results of the two-operand double real instructions on well-formed operands. -/
theorem endsWithDouble_of_mem (ha : doubleFormat.wellFormed (s.pair r1).toNat = true)
    (hb : doubleFormat.wellFormed (s.pair r2).toNat = true) {x y : Rat} (hx : x = doubleFormat.value (s.pair r1).toNat)
    (hy : y = doubleFormat.value (s.pair r2).toNat) {i : Instr} {z : Rat}
    (h : (i, z) ∈ [(.dradd r1 r2, x + y), (.drsub r1 r2, x - y), (.drmpy r1 r2, x * y)] ∨
      (y ≠ 0 ∧ (i, z) = (.drdiv r1 r2, x / y))) : EndsWithDouble i r1 z s := by
  subst hx hy
  simp only [List.mem_cons, List.not_mem_nil, or_false, Prod.mk.injEq] at h
  obtain (⟨rfl, rfl⟩ | ⟨rfl, rfl⟩ | ⟨rfl, rfl⟩) | ⟨hne, rfl, rfl⟩ := h
  · exact ⟨_, congrArg (doubleEnd r1 · s) (doubleArith_of_wellFormed ha hb .add)⟩
  · exact ⟨_, congrArg (doubleEnd r1 · s) (doubleArith_of_wellFormed ha hb .sub)⟩
  · exact ⟨_, congrArg (doubleEnd r1 · s) (doubleArith_of_wellFormed ha hb .mpy)⟩
  · exact ⟨_, congrArg (doubleEnd r1 · s) (doubleDivide_of_wellFormed ha hb hne)⟩

end

/-- Settles O28: each of the five makes a real of its exact result, which is the pattern that has it. -/
theorem realArithmeticExact : Obligations.RealArithmeticExact := by
  intro s r1 r2 v x y z hpc hb hv hx hy hz
  subst hz
  refine ⟨fun ha => ?_, fun h => (endsWithReal_neg hb).writes hpc hv (hy ▸ h)⟩
  have hend {i : Instr} {q : Rat} := endsWithReal_of_mem (i := i) (z := q) ha hb hx hy
  exact ⟨(hend (.inl (by simp))).writes hpc hv, (hend (.inl (by simp))).writes hpc hv,
    (hend (.inl (by simp))).writes hpc hv, fun hne => (hend (.inr ⟨hne, rfl⟩)).writes hpc hv⟩

/-- Settles O29, in the same way for pairs. -/
theorem doubleRealArithmeticExact : Obligations.DoubleRealArithmeticExact := by
  intro s r1 r2 v x y z hpc hb hv hx hy hz
  subst hz
  refine ⟨fun ha => ?_, fun h => (endsWithDouble_neg hb).writes hpc hv (hy ▸ h)⟩
  have hend {i : Instr} {q : Rat} := endsWithDouble_of_mem (i := i) (z := q) ha hb hx hy
  exact ⟨(hend (.inl (by simp))).writes hpc hv, (hend (.inl (by simp))).writes hpc hv,
    (hend (.inl (by simp))).writes hpc hv, fun hne => (hend (.inr ⟨hne, rfl⟩)).writes hpc hv⟩

/-! ### Conversions -/

theorem makeReal_of_wellFormed {a : Double} (ha : doubleFormat.wellFormed a.toNat = true) :
    makeReal a = wordResult (realFormat.result (doubleFormat.value a.toNat) (openReal (Config.otherMakedr a))) := by
  rw [makeReal, if_pos ha]

theorem mkRat_one (n : Int) : mkRat n 1 = n := by rw [Rat.mkRat_eq_div, Nat.cast_one, div_one]

theorem floatWord_of_value {a v : Word} (hv : realFormat.wellFormed v.toNat = true)
    (h : realFormat.value v.toNat = a.toInt) : floatWord a = v := by
  rw [floatWord, mkRat_one, ← h, realFormat.represent_value v.isLt hv]
  exact BitVec.ofNat_toNat _ _ |>.trans (BitVec.setWidth_eq v)

theorem floatDouble_of_value {a : Word} {w : Double} (hw : doubleFormat.wellFormed w.toNat = true)
    (h : doubleFormat.value w.toNat = a.toInt) : floatDouble a = w := by
  rw [floatDouble, mkRat_one, ← h, doubleFormat.represent_value w.isLt hw, Option.getD_some, BitVec.ofNat_toNat,
    BitVec.setWidth_eq]

theorem makeDouble_of_value {a : Word} {w : Double} (ha : realFormat.wellFormed a.toNat = true)
    (hw : doubleFormat.wellFormed w.toNat = true) (h : doubleFormat.value w.toNat = realFormat.value a.toNat) :
    makeDouble a = w := by
  rw [makeDouble, if_pos ha, ← h, doubleFormat.represent_value w.isLt hw]
  exact BitVec.ofNat_toNat _ _ |>.trans (BitVec.setWidth_eq w)

/-- Settles O30: where a pattern has the operand's value, `represent` gives it. -/
theorem realConversionsExact : Obligations.RealConversionsExact := by
  intro s r1 r2 v w hpc hv hw
  refine ⟨fun h => ?_, fun h => ?_, fun ha h => ?_, fun ha h => ?_⟩
  · exact .of_advance (congrArg (plainResult r1 · s) (floatWord_of_value hv h)) hpc
  · exact .of_advance (congrArg (pairResult r1 · s) (floatDouble_of_value hw h)) hpc
  · exact .of_advance (congrArg (pairResult r1 · s) (makeDouble_of_value ha hw h)) hpc
  · have hresult : makeReal (s.pair r2) = (v, .ok) := by
      rw [makeReal_of_wellFormed ha, ← h, realFormat_result_value hv]
    exact .of_advance (congrArg (makeRealEnd r1 · s) hresult) hpc

/-! ### Conversions to integer -/

/-- FIXT and DFIXT: the truncated integer is less than 1 away, toward zero (P2). -/
theorem truncateRat_spec (q : Rat) : |q - truncateRat q| < 1 ∧ |(truncateRat q : Rat)| ≤ |q| := by
  have hd : (0 : Rat) < q.den := by exact_mod_cast q.den_pos
  have hmod : |(q.num.tmod q.den : Rat)| < q.den := by
    rw [← Int.cast_abs, Int.abs_eq_natAbs, Int.natAbs_tmod, Int.natAbs_natCast]
    exact_mod_cast Nat.mod_lt _ q.den_pos
  have hsplit : (q.den : Rat) * truncateRat q + (q.num.tmod q.den : Rat) = q.num := by
    rw [truncateRat]
    exact_mod_cast Int.mul_tdiv_add_tmod q.num q.den
  constructor
  · have hdiff : q - truncateRat q = (q.num.tmod q.den : Rat) / q.den := by
      rw [eq_div_iff hd.ne', sub_mul, Rat.mul_den_eq_num, ← hsplit]
      ring
    rwa [hdiff, abs_div, abs_of_pos hd, div_lt_one hd]
  · rw [abs_eq_natAbs_num_div q, le_div_iff₀ hd, ← Int.cast_abs, Int.abs_eq_natAbs, truncateRat, Int.natAbs_tdiv,
      Int.natAbs_natCast, Int.cast_natCast]
    have hle : q.num.natAbs.div q.den * q.den ≤ q.num.natAbs := Nat.div_mul_le_self _ _
    exact_mod_cast hle

/-- FIXR and DFIXR: the rounded integer is at most a half away, whatever the tie rule (P2, U23). -/
theorem abs_sub_roundRat_le (tieUp : Bool) (q : Rat) : 2 * |q - roundRat tieUp q| ≤ 1 := by
  have hfloor : q.num.fdiv q.den = ⌊q⌋ := by
    rw [Rat.floor_def', Int.fdiv_eq_ediv_of_nonneg _ (Int.natCast_nonneg _)]
  have hlow := Int.floor_le q
  have hhigh := Int.lt_floor_add_one q
  have hup : 1 ≤ 2 * (q - ⌊q⌋) → 2 * |q - (⌊q⌋ + 1 : Int)| ≤ 1 := fun h => by
    rw [Int.cast_add, Int.cast_one, abs_of_nonpos (by linarith)]
    linarith
  have hdown : 2 * (q - ⌊q⌋) ≤ 1 → 2 * |q - ⌊q⌋| ≤ 1 := fun h => by
    rwa [abs_of_nonneg (by linarith)]
  unfold roundRat
  simp only [hfloor, mkRat_one]
  split
  · next h => exact hdown h.le
  · next h =>
    split
    · exact hup (not_lt.mp h)
    · next h' =>
      split
      · exact hup (not_lt.mp h)
      · exact hdown (not_lt.mp h')

section
variable {i : Instr} {r : Reg} {s : State} {n : Int} (h : exec i s = fixEnd r (trunc32 n, overflows n) s)
include h

theorem Writes.of_fixEnd (hn : Fits n) (hpc : s.pc.toNat + 2 < 2 ^ 32) : Writes i 2 r (BitVec.ofInt 32 n) s := by
  rw [fixEnd, (overflows_eq_false n).mpr hn] at h
  exact .of_advance h hpc

theorem UnchangedEnd.of_fixEnd (hn : ¬Fits n) : UnchangedEnd i 16 s := by
  rw [fixEnd, (overflows_iff n).mpr hn] at h
  exact .of_trapsWordEnd h

end

theorem fixWord_of_wellFormed (op : FixOp) {a : Word} (ha : realFormat.wellFormed a.toNat = true) :
    fixWord op a = (trunc32 (fixRat op (Config.fixrTieUp a) (realFormat.value a.toNat)),
      overflows (fixRat op (Config.fixrTieUp a) (realFormat.value a.toNat))) :=
  if_pos ha

theorem fixDouble_of_wellFormed (op : FixOp) {a : Double} (ha : doubleFormat.wellFormed a.toNat = true) :
    fixDouble op a = (trunc32 (fixRat op (Config.dfixrTieUp a) (doubleFormat.value a.toNat)),
      overflows (fixRat op (Config.dfixrTieUp a) (doubleFormat.value a.toNat))) :=
  if_pos ha

/-- Settles O31: the four end as their integer, truncated or rounded, fits or not. -/
theorem fixConversions : Obligations.FixConversions := by
  intro s r1 r2
  refine ⟨fun ha => ?_, fun ha => ?_⟩
  · have hend (op : FixOp) := congrArg (fixEnd r1 · s) (fixWord_of_wellFormed op ha)
    obtain ⟨hnear, htoward⟩ := truncateRat_spec (realFormat.value (s.reg r2).toNat)
    exact ⟨⟨_, hnear, htoward, .of_fixEnd (hend .truncate), .of_fixEnd (hend .truncate)⟩,
      ⟨_, abs_sub_roundRat_le _ _, .of_fixEnd (hend .round), .of_fixEnd (hend .round)⟩⟩
  · have hend (op : FixOp) := congrArg (fixEnd r1 · s) (fixDouble_of_wellFormed op ha)
    obtain ⟨hnear, htoward⟩ := truncateRat_spec (doubleFormat.value (s.pair r2).toNat)
    exact ⟨⟨_, hnear, htoward, .of_fixEnd (hend .truncate), .of_fixEnd (hend .truncate)⟩,
      ⟨_, abs_sub_roundRat_le _ _, .of_fixEnd (hend .round), .of_fixEnd (hend .round)⟩⟩

/-! ### The ends of the range -/

theorem makedr_overflow {s : State} {r1 r2 : Reg} {big : Word}
    (hbig : big = if Config.realTopReserved then 0x7F7FFFFF else 0x7FFFFFFF)
    (ha : doubleFormat.wellFormed (s.pair r2).toNat = true)
    (hq : realFormat.value big.toNat < |doubleFormat.value (s.pair r2).toNat|) : ScrambledEnd (.makedr r1 r2) [r1] 18 s := by
  rw [← realFormat_maxMagnitude hbig] at hq
  have hresult := makeReal_of_wellFormed ha
  rw [realFormat.result_of_largest_lt (by decide) hq] at hresult
  exact .of_scrambleReg (congrArg (makeRealEnd r1 · s) hresult)

theorem makedr_underflow {s : State} {r1 r2 : Reg} (ha : doubleFormat.wellFormed (s.pair r2).toNat = true)
    (hne : doubleFormat.value (s.pair r2).toNat ≠ 0)
    (hq : |doubleFormat.value (s.pair r2).toNat| < realFormat.value 0x00800000) : ScrambledEnd (.makedr r1 r2) [r1] 19 s := by
  have hresult := makeReal_of_wellFormed ha
  rw [realFormat.result_of_lt_smallest (by decide) hne hq] at hresult
  exact .of_scrambleReg (congrArg (makeRealEnd r1 · s) hresult)

/-- Settles O32: an exact result outside the range has no pattern, and a zero divisor is told apart before. -/
theorem realRangeEnds : Obligations.RealRangeEnds := by
  intro s r1 r2 big hbig
  refine ⟨fun x y ha hb hx hy => ⟨fun i z hi => ?_, fun h0 => ?_⟩, fun z ha hz => ?_⟩
  · have hend := endsWithReal_of_mem ha hb hx hy hi
    exact ⟨hend.overflow hbig, hend.underflow⟩
  · exact .of_scrambleReg (congrArg (realEnd r1 · s) (realDivide_of_zero _ (hy ▸ h0)))
  · subst hz
    exact ⟨makedr_overflow hbig ha, makedr_underflow ha⟩

/-- Settles O33, in the same way for pairs. -/
theorem doubleRealRangeEnds : Obligations.DoubleRealRangeEnds := by
  intro s r1 r2 x y big hbig ha hb hx hy
  refine ⟨fun i z hi => ?_, fun h0 => ?_⟩
  · have hend := endsWithDouble_of_mem ha hb hx hy hi
    exact ⟨hend.overflow hbig, hend.underflow⟩
  · exact .of_scramblePair (congrArg (doubleEnd r1 · s) (doubleDivide_of_zero _ (hy ▸ h0)))

/-! ### Compares -/

theorem wordOfOrdering_compare {α : Type} [LinearOrder α] (a b : α) :
    wordOfOrdering (compare a b) = if a < b then 0xFFFFFFFF else if a = b then 0 else 1 := by
  rcases lt_trichotomy a b with h | h | h
  · rw [compare_lt_iff_lt.mpr h, if_pos h, wordOfOrdering]
  · rw [compare_eq_iff_eq.mpr h, if_neg h.not_lt, if_pos h, wordOfOrdering]
  · rw [compare_gt_iff_gt.mpr h, if_neg h.not_gt, if_neg h.ne', wordOfOrdering]

theorem compareReal_of_wellFormed {a b : Word} (ha : realFormat.wellFormed a.toNat = true)
    (hb : realFormat.wellFormed b.toNat = true) :
    compareReal a b = compare (realFormat.key a.toNat) (realFormat.key b.toNat) := by
  rw [compareReal, ha, hb, Bool.and_self, if_pos rfl]

theorem compareDouble_of_wellFormed {a b : Double} (ha : doubleFormat.wellFormed a.toNat = true)
    (hb : doubleFormat.wellFormed b.toNat = true) :
    compareDouble a b = compare (doubleFormat.key a.toNat) (doubleFormat.key b.toNat) := by
  rw [compareDouble, ha, hb, Bool.and_self, if_pos rfl]

/-- Settles O40: the reals' order is that of their keys (R352). -/
theorem compareInstructions : Obligations.CompareInstructions := by
  intro s r1 r2 hpc
  refine ⟨?_, ?_, fun ha hb => ?_, fun ha hb => ?_⟩
  · rw [← wordOfOrdering_compare]
    exact .of_plainResult rfl hpc
  · rw [← wordOfOrdering_compare]
    exact .of_plainResult rfl hpc
  · simp only [realFormat.value_lt_iff_key ha hb, realFormat.value_eq_iff_key ha hb]
    rw [← wordOfOrdering_compare, ← compareReal_of_wellFormed ha hb]
    exact .of_plainResult rfl hpc
  · simp only [doubleFormat.value_lt_iff_key ha hb, doubleFormat.value_eq_iff_key ha hb]
    rw [← wordOfOrdering_compare, ← compareDouble_of_wellFormed ha hb]
    exact .of_plainResult rfl hpc

end Sys2Proof.Machine
end

section
/-! SUPPORT. Bit, check, trap, kernel call and test instructions by the operation they end with, and the theorems that settle
`Obligations.BitInstructions`, `Obligations.CheckInstructions`, `Obligations.TrapInstruction`, `Obligations.KernelCall` and
`Obligations.TestInstructions` (R329 to R347). -/

namespace Sys2Proof.Machine

theorem wordOfBool_decide (p : Prop) [Decidable p] : wordOfBool (decide p) = if p then 1 else 0 := by
  simp only [wordOfBool, decide_eq_true_eq]

/-! ### Bits -/

/-- The mask of bit n, read bit by bit from the most significant (R329). -/
theorem getMsbD_bitMask {n k : Nat} (hn : n ≤ 63) : (bitMask n).getMsbD k = decide (k = n) := by
  rw [bitMask, BitVec.getMsbD_shiftLeft, BitVec.getMsbD_one, decide_eq_true (show 0 < 64 by decide), Bool.and_true]
  exact decide_eq_decide.mpr (by omega)

theorem getMsbD_or_bitMask (w : Double) {n k : Nat} (hn : n ≤ 63) :
    (w ||| bitMask n).getMsbD k = if k = n then true else w.getMsbD k := by
  rw [BitVec.getMsbD_or, getMsbD_bitMask hn]
  by_cases h : k = n <;> simp [h]

theorem getMsbD_and_not_bitMask (w : Double) {n k : Nat} (hn : n ≤ 63) (hk : k < 64) :
    (w &&& ~~~bitMask n).getMsbD k = if k = n then false else w.getMsbD k := by
  rw [BitVec.getMsbD_and, BitVec.getMsbD_not, getMsbD_bitMask hn]
  by_cases h : k = n <;> simp [h, hk]

section
variable {r1 r2 : Reg} {s : State}

theorem exec_tbit_of_le (hn : (s.reg r2).toNat ≤ 63) :
    exec (.tbit r1 r2) s = plainResult r1 (if (s.pair r1).getMsbD (s.reg r2).toNat then 1 else 0) s :=
  if_pos hn

theorem exec_sbit_of_le (hn : (s.reg r2).toNat ≤ 63) :
    exec (.sbit r1 r2) s = pairResult r1 (s.pair r1 ||| bitMask (s.reg r2).toNat) s :=
  if_pos hn

theorem exec_cbit_of_le (hn : (s.reg r2).toNat ≤ 63) :
    exec (.cbit r1 r2) s = pairResult r1 (s.pair r1 &&& ~~~bitMask (s.reg r2).toNat) s :=
  if_pos hn

end

/-- The end of an instruction with a pair as its result: the pair has it, and only the pair's registers changed. -/
theorem pairResult_of_lt (r : Reg) (v : Double) {s : State} (hpc : s.pc.toNat + 2 < 2 ^ 32) :
    ∃ t, pairResult r v s = .next t ∧ t.pc = s.pc + 2 ∧ OnlyRegs [r, r + 1] s t ∧ t.pair r = v :=
  ⟨_, advance_of_lt 2 (s.setPair r v) hpc, rfl, (((OnlyRegsDrawing.refl _ s).setPair v).setPc _).onlyRegs rfl,
    s.pair_setPair_same r v⟩

/-- Settles O35: the number is refused or not by its size, and the mask has the one bit of that number. -/
theorem bitInstructions : Obligations.BitInstructions := by
  rintro s r1 r2 n rfl
  refine ⟨fun hn hpc => ⟨.of_plainResult (exec_tbit_of_le hn) hpc, ?_, ?_⟩, fun hn i hi => ?_⟩
  · rw [exec_sbit_of_le hn]
    obtain ⟨t, ht, hnext, hregs, hpair⟩ := pairResult_of_lt r1 (s.pair r1 ||| bitMask (s.reg r2).toNat) hpc
    refine ⟨t, ht, hnext, hregs, fun k _ => ?_⟩
    rw [hpair, getMsbD_or_bitMask _ hn]
  · rw [exec_cbit_of_le hn]
    obtain ⟨t, ht, hnext, hregs, hpair⟩ := pairResult_of_lt r1 (s.pair r1 &&& ~~~bitMask (s.reg r2).toNat) hpc
    refine ⟨t, ht, hnext, hregs, fun k hk => ?_⟩
    rw [hpair, getMsbD_and_not_bitMask _ hn hk]
  · simp only [List.mem_cons, List.not_mem_nil, or_false] at hi
    obtain rfl | rfl | rfl := hi <;> exact if_neg hn.not_ge

/-! ### Checks -/

section
variable {i : Instr} {p : Prop} [Decidable p] {r1 r2 : Reg} {s : State}

theorem Goes.of_checkEnd (h : exec i s = checkEnd (decide p) r1 r2 s) (hp : ¬p) (hpc : s.pc.toNat + 2 < 2 ^ 32) :
    Goes i (s.pc + 2) s :=
  .of_advance (h.trans (if_neg (mt of_decide_eq_true hp))) hpc

theorem Raises.of_checkEnd (h : exec i s = checkEnd (decide p) r1 r2 s) (hp : p) (hc : CanEnter 0x418 s) :
    Raises i (.check r1 r2) s := by
  rw [Raises, h, checkEnd, if_pos (decide_eq_true hp)]
  exact raise_entered hc

end

/-- Settles O36: the two compare signed, CHKI with the number in its R2 field. -/
theorem checkInstructions : Obligations.CheckInstructions := by
  intro s r1 r2
  rw [← toInt_immediate]
  refine ⟨fun hle => ?_, fun hlt => ?_, fun hnonneg hle => ?_, fun hout => ?_⟩
  · exact .of_checkEnd rfl hle.not_gt
  · exact .of_checkEnd rfl hlt
  · exact .of_checkEnd rfl (not_not_intro ⟨hnonneg, hle⟩)
  · exact .of_checkEnd rfl fun hin => hout.elim hin.1.not_gt hin.2.not_gt

/-! ### Traps and kernel calls -/

/-- Settles O37: TRAP is nothing but the end of an instruction that meets a condition. -/
theorem trapInstruction : Obligations.TrapInstruction := fun _ _ _ => .of_trapsWordEnd rfl

/-- From user mode KCALL enters the kernel with the address past it saved (R338, R531). -/
theorem kcall_user_entered {s : State} {n : BitVec 8} (hm : s.mode = .user) (hc : CanEnter (4 * n.toNat) s) :
    ∃ t, exec (.kcall n) s = .next t ∧ Entered (.kcall n) (s.pc + 2) s t := by
  obtain ⟨husable, halone⟩ := hc
  have hexec : execKcall n s = takeException (.kcall n) (s.pc + 2) s := by
    rw [execKcall, hm]
    rfl
  obtain ⟨t, ht, he⟩ := takeException_entered (e := .kcall n) (s.pc + 2) (between_alone halone) husable
  exact ⟨t, hexec.trans ht, he⟩

/-- A user program under a CCB that begins with the last word of the address space and goes on at address 0 (R10). The word
at 0 is 1; no byte past the last address is listed. -/
def State.ccbAcrossZero : State :=
  { State.reset with mode := .user, sr := State.reset.sr.set 11 0xFFFFFFFC, mem := [(3, 1)] }

theorem canEnter_ccbAcrossZero : CanEnter 4 State.ccbAcrossZero := ⟨by decide, rfl⟩

/-- KCALL 1 goes to the address in the word at 0, four bytes on from SR11 modulo 2^32. -/
theorem kcall_ccbAcrossZero : ∃ t, exec (.kcall 1) State.ccbAcrossZero = .next t ∧ t.pc = 1 := by
  obtain ⟨t, ht, -, -, hpc, -⟩ := kcall_user_entered (n := 1) rfl canEnter_ccbAcrossZero
  have hword : State.ccbAcrossZero.wordAt (State.ccbAcrossZero.spec 11 + 4).toNat = 1 := by decide
  exact ⟨t, ht, hpc.trans hword⟩

/-- Refutes O38: the statement reads the handler's address at SR11 + 4n as an exact sum, the entry at that sum modulo 2^32
(R10, R510; `kcall_user_entered` has the rest of the user mode clause). Where the CCB runs past the last address the two
differ: KCALL 1 goes to 1, and not to the 0 read at 2^32. -/
theorem not_kernelCall : ¬ Obligations.KernelCall := by
  intro h
  obtain ⟨huser, -⟩ := h State.ccbAcrossZero 1
  obtain ⟨t, ht, -, -, -, -, hpast⟩ := huser rfl canEnter_ccbAcrossZero
  obtain ⟨u, hu, hpc⟩ := kcall_ccbAcrossZero
  obtain rfl : t = u := Host.Outcome.next.inj (ht.symm.trans hu)
  have hword : State.ccbAcrossZero.wordAt ((State.ccbAcrossZero.spec 11).toNat + 4) = 0 := by decide
  have : (1 : Word) = 0 := hpc.symm.trans (hpast.trans hword)
  exact absurd this (by decide)

/-! ### Tests -/

theorem Writes.of_testResult {i : Instr} {rop : Relation} {r : Reg} {w v : Word} {s : State}
    (h : exec i s = testResult rop r w s) (hv : wordOfBool (rop.holds (s.reg r) w) = v) (hpc : s.pc.toNat + 2 < 2 ^ 32) :
    Writes i 2 r v s :=
  .of_plainResult (h.trans (congrArg (plainResult r · s) hv)) hpc

theorem wordOfBool_ne (a b : Word) : wordOfBool (Relation.ne.holds a b) = if a.toInt = b.toInt then 0 else 1 :=
  (wordOfBool_decide _).trans (ite_not ..)

/-- Settles O39: each of the twelve ends with its relation as a word, TESTI with the number in its R2 field. -/
theorem testInstructions : Obligations.TestInstructions := by
  rintro s r1 r2 a b m hpc rfl rfl rfl
  rw [← toInt_immediate]
  exact ⟨.of_testResult rfl (wordOfBool_decide _) hpc, .of_testResult rfl (wordOfBool_decide _) hpc,
    .of_testResult rfl (wordOfBool_decide _) hpc, .of_testResult rfl (wordOfBool_decide _) hpc,
    .of_testResult rfl (wordOfBool_decide _) hpc, .of_testResult rfl (wordOfBool_ne _ _) hpc,
    .of_testResult rfl (wordOfBool_decide _) hpc, .of_testResult rfl (wordOfBool_decide _) hpc,
    .of_testResult rfl (wordOfBool_decide _) hpc, .of_testResult rfl (wordOfBool_decide _) hpc,
    .of_testResult rfl (wordOfBool_decide _) hpc, .of_testResult rfl (wordOfBool_ne _ _) hpc⟩

end Sys2Proof.Machine
end

section
/-! SUPPORT. The counts and the values of the shift and sign extend instructions as numbers, and the theorems that settle
`Obligations.LogicalShifts`, `Obligations.ArithmeticShifts` and `Obligations.SignExtensionAndNop` (R360 to R390). -/

namespace Sys2Proof.Machine

/-! ### Counts (R360) -/

theorem countSingle_eq (w : Word) : countSingle w = w.toNat % 32 := BitVec.extractLsb'_toNat 0 5 w

theorem countDouble_eq (w : Word) : countDouble w = w.toNat % 64 := BitVec.extractLsb'_toNat 0 6 w

theorem countSingle_lt (w : Word) : countSingle w < 32 := (w.extractLsb' 0 5).isLt

theorem countImmediate_lt (r : Reg) : countImmediate r < 32 := r.isLt.trans (by decide)

/-! ### Logical and circular shifts -/

theorem shiftLeft_eq_ofNat_mul {k : Nat} (a : BitVec k) (n : Nat) : a <<< n = BitVec.ofNat k (a.toNat * 2 ^ n) :=
  BitVec.eq_of_toNat_eq (by rw [BitVec.toNat_shiftLeft, BitVec.toNat_ofNat, Nat.shiftLeft_eq])

theorem ushiftRight_eq_ofNat_div {k : Nat} (a : BitVec k) (n : Nat) : a >>> n = BitVec.ofNat k (a.toNat / 2 ^ n) := by
  rw [← Nat.shiftRight_eq_div_pow, ← BitVec.toNat_ushiftRight, BitVec.ofNat_toNat, BitVec.setWidth_eq]

/-- The bits shifted out on the left come back on the right, into places that the shift has cleared (R370). -/
theorem rotateLeft_eq_ofNat (a : Word) {n : Nat} (hn : n < 32) :
    a.rotateLeft n = BitVec.ofNat 32 (a.toNat * 2 ^ n + a.toNat / 2 ^ (32 - n)) := by
  have hapart : a <<< n &&& a >>> (32 - n) = 0#32 := by
    ext i hi
    by_cases hin : i < n
    · simp [hin]
    · have hout : 32 ≤ 32 - n + i := by omega
      simp [BitVec.getLsbD_of_ge a _ hout]
  rw [BitVec.rotateLeft_def, Nat.mod_eq_of_lt hn, ← BitVec.add_eq_or_of_and_eq_zero _ _ hapart, shiftLeft_eq_ofNat_mul,
    ushiftRight_eq_ofNat_div, BitVec.ofNat_add]

theorem WritesPair.of_pairResult {i : Instr} {r : Reg} {v : Double} {s : State} (h : exec i s = pairResult r v s)
    (hpc : s.pc.toNat + 2 < 2 ^ 32) : WritesPair i 2 r v s :=
  WritesPair.of_advance h hpc

/-- Settles O41: each of the ten ends by writing its shifted word or pair, which is the number of the statement. -/
theorem logicalShifts : Obligations.LogicalShifts := by
  rintro s r1 r2 _ _ _ _ _ hpc rfl rfl rfl rfl rfl
  have himm : r2.toNat = countImmediate r2 := rfl
  rw [himm, ← countSingle_eq, ← countDouble_eq, ← s.toNat_pair, ← rotateLeft_eq_ofNat _ (countSingle_lt _),
    ← rotateLeft_eq_ofNat _ (countImmediate_lt _)]
  simp only [← shiftLeft_eq_ofNat_mul, ← ushiftRight_eq_ofNat_div]
  exact ⟨.of_plainResult rfl hpc, .of_plainResult rfl hpc, .of_plainResult rfl hpc, .of_plainResult rfl hpc,
    .of_plainResult rfl hpc, .of_plainResult rfl hpc, .of_pairResult rfl hpc, .of_pairResult rfl hpc,
    .of_pairResult rfl hpc, .of_pairResult rfl hpc⟩

/-! ### Arithmetic shifts -/

theorem sshiftRight_eq_ofInt_div (a : Word) (n : Nat) : a.sshiftRight n = BitVec.ofInt 32 (a.toInt / 2 ^ n) := by
  rw [BitVec.sshiftRight_eq, Int.shiftRight_eq_div_pow, Nat.cast_pow, Nat.cast_ofNat]

/-- The sign of the result of ASL and the 31 bits below it fix it (R376). -/
theorem shiftArithmeticLeft_eq {a v : Word} {n : Nat} (hmsb : v.msb = a.msb)
    (hlow : v.toNat % 2 ^ 31 = a.toNat * 2 ^ n % 2 ^ 31) : shiftArithmeticLeft a n = v := by
  have hsign : a.extractLsb' 31 1 = v.extractLsb' 31 1 := by
    rw [BitVec.msb_eq_getLsbD_last, BitVec.msb_eq_getLsbD_last] at hmsb
    ext i hi
    obtain rfl : i = 0 := by omega
    simpa using hmsb.symm
  have hbits : a.extractLsb' 0 31 <<< n = v.extractLsb' 0 31 := by
    apply BitVec.eq_of_toNat_eq
    rw [BitVec.toNat_shiftLeft, BitVec.extractLsb'_toNat, BitVec.extractLsb'_toNat, Nat.shiftRight_zero,
      Nat.shiftRight_zero, Nat.shiftLeft_eq, Nat.mod_mul_mod, hlow]
  rw [shiftArithmeticLeft, hsign, hbits]
  exact (BitVec.extractLsb'_append_extractLsb'_eq_extractLsb' (start₁ := 0) rfl).trans BitVec.extractLsb'_eq_self

theorem ofInt_toInt_mul_two_pow (a : Word) (n : Nat) : BitVec.ofInt 32 (a.toInt * 2 ^ n) = a <<< n := by
  have hpow : ((2 ^ n : Nat) : Int) = 2 ^ n := Nat.cast_pow 2 n
  rw [← hpow, BitVec.ofInt_mul, BitVec.ofInt_toInt, BitVec.ofInt_natCast, shiftLeft_eq_ofNat_mul, BitVec.ofNat_mul,
    BitVec.ofNat_toNat, BitVec.setWidth_eq]

/-- A product that fits has the sign of its multiplicand and the low bits of the word shifted left (R376). -/
theorem shiftArithmeticLeft_of_fits {a : Word} {n : Nat} (h : Fits (a.toInt * 2 ^ n)) :
    shiftArithmeticLeft a n = BitVec.ofInt 32 (a.toInt * 2 ^ n) := by
  obtain ⟨hmin, hmax⟩ := h
  have hpow : (0 : Int) < 2 ^ n := by positivity
  apply shiftArithmeticLeft_eq
  · rw [BitVec.msb_eq_toInt, BitVec.msb_eq_toInt, BitVec.toInt_ofInt_eq_self (by decide) hmin hmax]
    exact decide_eq_decide.mpr (by simp [mul_neg_iff, hpow, hpow.le])
  · rw [ofInt_toInt_mul_two_pow, BitVec.toNat_shiftLeft, Nat.shiftLeft_eq,
      Nat.mod_mod_of_dvd _ (Nat.pow_dvd_pow 2 (by decide))]

/-- A product by 2^n fits where its multiplicand fits in n bits less. -/
theorem fits_mul_two_pow_iff (x : Int) {n : Nat} (hn : n < 32) :
    Fits (x * 2 ^ n) ↔ -2 ^ (31 - n) ≤ x ∧ x < 2 ^ (31 - n) := by
  have hpow : (0 : Int) < 2 ^ n := by positivity
  have hsplit : (2 : Int) ^ 31 = 2 ^ (31 - n) * 2 ^ n := by rw [← pow_add, Nat.sub_add_cancel (by omega)]
  rw [Fits, hsplit, ← neg_mul, mul_le_mul_iff_left₀ hpow, mul_lt_mul_iff_left₀ hpow]

/-- The bits ASL shifts out and the one it would move to the sign's place equal the sign where every bit of the word does,
once it is shifted right until the lowest of them is the lowest bit (R376). -/
theorem shiftOverflows_eq_false_iff_fill (a : Word) {n : Nat} (hn : n < 32) :
    shiftOverflows a n = false ↔ a.sshiftRight (31 - n) = BitVec.fill 32 a.msb := by
  have hsign : a.getLsbD 31 = a.msb := a.msb_eq_getLsbD_last.symm
  simp only [shiftOverflows, List.any_eq_false, List.mem_range, bne_iff_ne, ne_eq, not_not, hsign]
  constructor
  · intro h
    ext i hi
    rw [BitVec.getElem_sshiftRight, BitVec.getElem_fill]
    split
    · rw [← BitVec.getLsbD_eq_getElem]
      obtain hlast | hlt : 31 - n + i = 31 ∨ 31 - n + i < 31 := by omega
      · rw [hlast, hsign]
      · have hbit : 31 - n + i = 30 - (n - 1 - i) := by omega
        rw [hbit, h _ (by omega)]
    · rfl
  · intro h k hk
    have hbit : 31 - n + (n - 1 - k) = 30 - k := by omega
    have hrange : n - 1 - k < 32 := by omega
    have hfill : (a.sshiftRight (31 - n))[n - 1 - k] = a.msb := by simp only [h, BitVec.getElem_fill]
    rwa [BitVec.getElem_sshiftRight, dif_pos (by omega), ← BitVec.getLsbD_eq_getElem, hbit] at hfill

theorem toInt_fill (b : Bool) : (BitVec.fill 32 b).toInt = if b then -1 else 0 := by
  cases b <;> rfl

/-- The condition of R376 on the bits is that the product does not fit. -/
theorem shiftOverflows_iff (a : Word) {n : Nat} (hn : n < 32) :
    shiftOverflows a n = true ↔ ¬Fits (a.toInt * 2 ^ n) := by
  have hpow : (0 : Int) < 2 ^ (31 - n) := by positivity
  rw [← not_iff_not, not_not, Bool.not_eq_true, shiftOverflows_eq_false_iff_fill a hn, fits_mul_two_pow_iff _ hn,
    ← BitVec.toInt_inj, toInt_fill, BitVec.toInt_sshiftRight, Int.shiftRight_eq_div_pow, Nat.cast_pow, Nat.cast_ofNat,
    Int.ediv_eq_iff_of_pos hpow, BitVec.msb_eq_toInt]
  simp only [decide_eq_true_eq]
  split <;> omega

section
variable {r : Reg} {n : Nat} {s : State} (hn : n < 32)
include hn

theorem arithmeticLeft_of_fits (h : Fits ((s.reg r).toInt * 2 ^ n)) :
    arithmeticLeft r n s = plainResult r (BitVec.ofInt 32 ((s.reg r).toInt * 2 ^ n)) s := by
  have hno : ¬shiftOverflows (s.reg r) n = true := by rwa [shiftOverflows_iff _ hn, not_not]
  rw [arithmeticLeft, shiftArithmeticLeft_of_fits h]
  exact if_neg hno

theorem arithmeticLeft_of_not_fits {v : Word} (hmsb : v.msb = (s.reg r).msb)
    (hlow : v.toNat % 2 ^ 31 = (s.reg r).toNat * 2 ^ n % 2 ^ 31) (h : ¬Fits ((s.reg r).toInt * 2 ^ n)) :
    arithmeticLeft r n s = trapsWordEnd 16 (s.setReg r v) := by
  rw [arithmeticLeft, shiftArithmeticLeft_eq hmsb hlow]
  exact if_pos ((shiftOverflows_iff _ hn).mpr h)

end

/-- Settles O42: by register and immediate the count is below 32, and the two shifts are told by it. -/
theorem arithmeticShifts : Obligations.ArithmeticShifts := by
  intro s r1 r2 n left right v hforms hmsb hlow
  obtain ⟨hn, hleft, hright⟩ : n < 32 ∧ exec left s = arithmeticLeft r1 n s ∧
      exec right s = plainResult r1 ((s.reg r1).sshiftRight n) s := by
    obtain ⟨rfl, rfl, rfl⟩ | ⟨rfl, rfl, rfl⟩ := hforms
    · rw [← countSingle_eq]
      exact ⟨countSingle_lt _, rfl, rfl⟩
    · exact ⟨countImmediate_lt r2, rfl, rfl⟩
  refine ⟨fun hpc => ?_, fun hpc hfits => ?_, fun hnot => ?_⟩
  · rw [← sshiftRight_eq_ofInt_div]
    exact .of_plainResult hright hpc
  · exact .of_plainResult (hleft.trans (arithmeticLeft_of_fits hn hfits)) hpc
  · exact .of_trapsWordEnd (hleft.trans (arithmeticLeft_of_not_fits hn hmsb hlow hnot))

/-! ### Sign extension and NOP -/

theorem bmod_two_pow_succ (x : Int) (k : Nat) : x.bmod (2 ^ (k + 1)) = (x + 2 ^ k) % 2 ^ (k + 1) - 2 ^ k := by
  have hpow : (0 : Int) < 2 ^ k := by positivity
  have hnonneg := Int.emod_nonneg (x + 2 ^ k) (b := 2 ^ k * 2) (by omega)
  have hlt := Int.emod_lt_of_pos (x + 2 ^ k) (b := 2 ^ k * 2) (by omega)
  have hdiv := Int.mul_ediv_add_emod (x + 2 ^ k) (2 ^ k * 2)
  rw [Int.bmod_eq_iff (by positivity), Nat.cast_pow, Nat.cast_ofNat, pow_succ]
  exact ⟨by omega, by omega, -((x + 2 ^ k) / (2 ^ k * 2)), by linarith only [hdiv]⟩

/-- The signed value of the low bits of a word, the highest of them being the sign (R385, R386). -/
theorem toInt_extractLsb'_low (w : Word) {k : Nat} (hk : k < 32) :
    (w.extractLsb' 0 (k + 1)).toInt = (w.toInt + 2 ^ k) % 2 ^ (k + 1) - 2 ^ k := by
  rw [← BitVec.setWidth_eq_extractLsb' hk, ← BitVec.signExtend_eq_setWidth_of_le _ hk, BitVec.toInt_signExtend,
    min_eq_left hk, bmod_two_pow_succ]

/-- Settles O43: a sign extension keeps the signed value of the byte or halfword. -/
theorem signExtensionAndNop : Obligations.SignExtensionAndNop := by
  intro s r1 r2 hpc
  have hbyte := toInt_extractLsb'_low (s.reg r2) (k := 7) (by decide)
  have hhalf := toInt_extractLsb'_low (s.reg r2) (k := 15) (by decide)
  refine ⟨.of_plainResult ?_ hpc, .of_plainResult ?_ hpc, .of_advance rfl hpc⟩
  · exact congrArg (fun x => plainResult r1 (BitVec.ofInt 32 x) s) hbyte
  · exact congrArg (fun x => plainResult r1 (BitVec.ofInt 32 x) s) hhalf

end Sys2Proof.Machine
end

section
/-! SUPPORT. The target of a branch as a number, branches, calls and loops by the operation they end with, and the theorems
that settle `Obligations.ConditionalBranches` and `Obligations.BranchesCallsAndLoops` (R401 to R415). -/

namespace Sys2Proof.Machine

/-! ### Targets (R401) -/

/-- To shift bits out and back clears them, also where copies of the sign come in from the left. -/
theorem sshiftRight_shiftLeft (w : Word) (n : Nat) : w.sshiftRight n <<< n = w &&& BitVec.allOnes 32 <<< n := by
  rw [← BitVec.shiftLeft_ushiftRight]
  ext k hk
  by_cases hlow : k < n
  · simp [hlow]
  · have hback : n + (k - n) = k := by omega
    simp [hlow, hback, hk, BitVec.getElem_sshiftRight]

/-- The displacement without its low bit is twice its half toward minus infinity. -/
theorem branchTarget_eq (disp : Word) (s : State) : branchTarget disp s = targetOf s.pc disp.toInt := by
  have hmask : (0xFFFFFFFE : Word) = BitVec.allOnes 32 <<< 1 := by decide
  have hhalf : disp.sshiftRight 1 = BitVec.ofInt 32 (disp.toInt / 2) := sshiftRight_eq_ofInt_div disp 1
  rw [branchTarget, hmask, ← sshiftRight_shiftLeft, hhalf, BitVec.shiftLeft_eq_mul_twoPow, BitVec.mul_comm, targetOf,
    BitVec.ofInt_add, BitVec.ofInt_toInt, BitVec.ofInt_mul]
  rfl

theorem branchTarget_sext16 (disp : Half) (s : State) : branchTarget (sext16 disp) s = targetOf s.pc disp.toInt := by
  rw [branchTarget_eq, sext16, BitVec.toInt_signExtend_of_le (by decide)]

/-! ### Conditional branches -/

/-- Where an instruction ends by a branch on a condition, it has the shape `Branches`. -/
theorem Branches.of_branchIf {i : Instr} {c : Prop} [Decidable c] {disp : Word} {len : Nat} {s : State}
    (h : exec i s = branchIf (decide c) disp len s) : Branches i len c (branchTarget disp s) s :=
  ⟨fun hc => .of_setPc (h.trans (if_pos (decide_eq_true hc))),
    fun hc => .of_advance (h.trans (if_neg (mt of_decide_eq_true hc)))⟩

/-- Settles O44: each of the twenty ends by a branch on its relation, the immediate forms with the number in the R2 field. -/
theorem conditionalBranches : Obligations.ConditionalBranches := by
  rintro s r1 r2 d w _ _ _ _ _ rfl rfl rfl rfl rfl
  rw [← toInt_immediate, ← branchTarget_sext16, ← branchTarget_eq]
  exact ⟨.of_branchIf rfl, .of_branchIf rfl, .of_branchIf rfl, .of_branchIf rfl, .of_branchIf rfl,
    .of_branchIf rfl, .of_branchIf rfl, .of_branchIf rfl, .of_branchIf rfl, .of_branchIf rfl,
    .of_branchIf rfl, .of_branchIf rfl, .of_branchIf rfl, .of_branchIf rfl, .of_branchIf rfl,
    .of_branchIf rfl, .of_branchIf rfl, .of_branchIf rfl, .of_branchIf rfl, .of_branchIf rfl⟩

/-! ### Unconditional branches, calls and loops -/

section
variable {i : Instr} {r1 r2 : Reg} {disp : Word} {len : Nat} {s : State} (h : exec i s = loopBranch r1 r2 disp len s)
include h

/-- The target is that of the first state: the sum in the register leaves the pc as it was. -/
theorem Links.of_loopBranch_neg (hv : (s.reg r1 + immediate r2).toInt < 0) :
    Links i r1 (s.reg r1 + immediate r2) (branchTarget disp s) s :=
  .of_setPc (h.trans (if_pos (decide_eq_true hv)))

theorem Links.of_loopBranch_nonneg (hv : 0 ≤ (s.reg r1 + immediate r2).toInt) (hpc : s.pc.toNat + len < 2 ^ 32) :
    Links i r1 (s.reg r1 + immediate r2) (s.pc + BitVec.ofNat 32 len) s :=
  Writes.of_advance (h.trans (if_neg (mt of_decide_eq_true hv.not_gt))) hpc

end

/-- Settles O45: link and target are formed from the old registers, and LOOP ends by a branch on the sign of its sum. -/
theorem branchesCallsAndLoops : Obligations.BranchesCallsAndLoops := by
  rintro s r1 r2 d w _ _ _ rfl rfl rfl
  rw [← immediate_eq_ofNat, ← branchTarget_sext16, ← branchTarget_eq]
  refine ⟨.of_setPc rfl, .of_setPc rfl, .of_setPc rfl, .of_setPc rfl, .of_setPc rfl, .of_setPc rfl, fun hneg => ?_,
    fun hnonneg => ?_, fun hnonneg => ?_⟩
  · exact ⟨.of_loopBranch_neg rfl hneg, .of_loopBranch_neg rfl hneg⟩
  · exact .of_loopBranch_nonneg rfl hnonneg
  · exact .of_loopBranch_nonneg rfl hnonneg

end Sys2Proof.Machine
end

section
/-! SUPPORT. The members of the Process Control Block stored and loaded one after the other, the mode checks of the kernel
instructions, and the theorems that settle `Obligations.KernelViolations`, `Obligations.SaveUserState`,
`Obligations.LoadUserState` and `Obligations.ResumeAndSpecialMoves` (R425 to R443, R450). -/

namespace Sys2Proof.Machine

/-! ### The range of registers (R433) -/

theorem mem_registerRange {r1 r2 k : Reg} : k ∈ registerRange r1 r2 ↔ InRange r1 r2 k := by
  unfold registerRange InRange
  split
  · rename_i hle
    simp only [List.mem_map, List.mem_range'_1]
    constructor
    · rintro ⟨j, hj, rfl⟩
      rw [BitVec.toNat_ofNat, Nat.mod_eq_of_lt (by omega)]
      exact .inr (by omega)
    · intro h
      have hbounds : r1.toNat ≤ k.toNat ∧ k.toNat ≤ r2.toNat := by
        rcases h with rfl | h
        · exact ⟨Nat.le_refl _, hle⟩
        · exact h
      exact ⟨k.toNat, by omega, by rw [BitVec.ofNat_toNat, BitVec.setWidth_eq]⟩
  · rw [List.mem_singleton]
    exact ⟨.inl, fun h => h.resolve_right (by omega)⟩

/-! ### Words stored one after the other -/

/-- Words stored at their addresses, first to last. -/
def State.setWords (s : State) (ws : List (Word × Word)) : State := ws.foldl (fun u w => u.setWord w.1 w.2) s

theorem State.setWords_frame (s : State) (ws : List (Word × Word)) :
    ∃ m f, s.setWords ws = { s with mem := m, fetch := f } := by
  induction ws generalizing s with
  | nil => exact ⟨_, _, rfl⟩
  | cons w ws ih => exact ih (s.setWord w.1 w.2)

theorem State.read_setWords_other {s : State} {ws : List (Word × Word)} {x : Nat} (h : ∀ w ∈ ws, OutsideWord w.1 x) :
    (s.setWords ws).mem.read x = s.mem.read x := by
  induction ws generalizing s with
  | nil => rfl
  | cons w ws ih =>
    rw [List.forall_mem_cons] at h
    exact (ih h.2).trans (Memory.read_store_other _ _ _ _ _ h.1)

/-- Where no other value is stored at its address, a word stored holds its value in the end; so does one that had it
before. -/
theorem State.wordAt_setWords {s : State} {ws : List (Word × Word)} {a v : Word} (ha : a.toNat % 4 = 0)
    (haligned : ∀ w ∈ ws, w.1.toNat % 4 = 0) (hsame : ∀ w ∈ ws, w.1 = a → w.2 = v)
    (h : s.wordAt a.toNat = v ∨ (a, v) ∈ ws) : (s.setWords ws).wordAt a.toNat = v := by
  induction ws generalizing s with
  | nil => exact h.resolve_right List.not_mem_nil
  | cons w ws ih =>
    obtain ⟨hw, haligned⟩ := List.forall_mem_cons.mp haligned
    obtain ⟨hv, hsame⟩ := List.forall_mem_cons.mp hsame
    refine ih haligned hsame ?_
    by_cases hwa : w.1 = a
    · rw [← hv hwa, ← hwa]
      exact .inl (s.wordAt_setWord _ _)
    · rw [State.wordAt_setWord_ne hw ha (Ne.symm hwa)]
      exact h.imp_right fun hm => (List.mem_cons.mp hm).resolve_left fun e => hwa (congrArg Prod.fst e.symm)

/-! ### Registers written one after the other -/

/-- The registers of a list set to the values of a function. -/
def State.setRegs (s : State) (f : Reg → Word) (l : List Reg) : State := l.foldl (fun u r => u.setReg r (f r)) s

theorem State.setRegs_frame (s : State) (f : Reg → Word) (l : List Reg) :
    ∃ rs, s.setRegs f l = { s with regs := rs } := by
  induction l generalizing s with
  | nil => exact ⟨_, rfl⟩
  | cons r l ih => exact ih (s.setReg r (f r))

theorem State.reg_setRegs (s : State) (f : Reg → Word) (l : List Reg) (k : Reg) :
    (s.setRegs f l).reg k = if k ∈ l then f k else s.reg k := by
  induction l generalizing s with
  | nil => simp [State.setRegs]
  | cons r l ih =>
    refine (ih (s.setReg r (f r))).trans ?_
    rw [State.reg_setReg]
    by_cases hkl : k ∈ l
    · simp [hkl]
    · by_cases hkr : k = r <;> simp [hkl, hkr]

/-! ### The members of the PCB (R430, R431) -/

/-- The word a member of the PCB holds. -/
def State.pcbWord (s : State) (o : Word) : Word := s.wordAt (pcbAt o s)

theorem pcbAt_setSpec {s : State} {k : Reg} (hk : k ≠ 14) (v o : Word) : pcbAt o (s.setSpec k v) = pcbAt o s := by
  rw [pcbAt, State.spec_setSpec_other _ _ _ _ hk.symm, pcbAt]

theorem State.pcbWord_setSpec {s : State} {k : Reg} (hk : k ≠ 14) (v o : Word) :
    (s.setSpec k v).pcbWord o = s.pcbWord o := by
  rw [State.pcbWord, pcbAt_setSpec hk]
  rfl

theorem pcbLayout_pc_mem : Config.pcbLayout.pc ∈ Config.pcbLayout.offsets := by simp [PcbLayout.offsets]
theorem pcbLayout_cs_mem : Config.pcbLayout.cs ∈ Config.pcbLayout.offsets := by simp [PcbLayout.offsets]
theorem pcbLayout_ds_mem : Config.pcbLayout.ds ∈ Config.pcbLayout.offsets := by simp [PcbLayout.offsets]
theorem pcbLayout_tw_mem : Config.pcbLayout.tw ∈ Config.pcbLayout.offsets := by simp [PcbLayout.offsets]

theorem State.pcbAddress_aligned {s : State} {o : Word} (hs : (s.spec 14).toNat % 4 = 0)
    (ho : o ∈ Config.pcbLayout.offsets) : (s.pcbAddress o).toNat % 4 = 0 := by
  have h := pcbOffset_aligned o ho
  rw [State.pcbAddress, BitVec.toNat_add]
  omega

theorem State.pcbAddress_inj {s : State} {o p : Word} : s.pcbAddress o = s.pcbAddress p ↔ o = p := by
  simp [State.pcbAddress]

/-- The members of the PCB are there, and nobody else changes them meanwhile. -/
structure PcbStill (s : State) : Prop where
  alone : Alone s
  backed : ∀ o ∈ Config.pcbLayout.offsets, s.backed (pcbAt o s) 4 = true

section
variable {s : State} (h : PcbStill s)
include h

theorem PcbStill.setReg (r : Reg) (v : Word) : PcbStill (s.setReg r v) := ⟨h.alone, h.backed⟩

theorem PcbStill.setWord (a v : Word) : PcbStill (s.setWord a v) := ⟨h.alone, h.backed⟩

theorem PcbStill.setSpec {k : Reg} (hk : k ≠ 14) (v : Word) : PcbStill (s.setSpec k v) :=
  ⟨h.alone, fun o ho => by rw [pcbAt_setSpec hk]; exact h.backed o ho⟩

theorem PcbStill.busWrite32 {o : Word} (ho : o ∈ Config.pcbLayout.offsets) (v : Word) :
    busWrite32 (s.pcbAddress o) v s = .ok () (s.setWord (s.pcbAddress o) v) := by
  unfold Machine.busWrite32 busWrite writeParts pausedWrite
  rw [if_neg (by decide), between_alone h.alone, Access.ok_bind]
  exact realWrite_of_backed _ _ _ _ (h.backed o ho)

theorem PcbStill.busRead32 {o : Word} (ho : o ∈ Config.pcbLayout.offsets) :
    busRead32 (s.pcbAddress o) s = .ok (s.pcbWord o) s :=
  busRead32_alone h.alone _ (h.backed o ho)

theorem PcbStill.loadSpecial (k : Reg) {o : Word} (ho : o ∈ Config.pcbLayout.offsets) :
    loadSpecial k o s = .ok () (s.setSpec k (s.pcbWord o)) := by
  rw [Machine.loadSpecial, h.busRead32 ho, Access.ok_bind]

end

/-- What SUS stores of a list of registers, and where. -/
def State.savedRegs (s : State) (l : List Reg) : List (Word × Word) :=
  l.map fun r => (s.pcbAddress (pcbRegOffset r), s.reg r)

theorem PcbStill.saveRegisters {s : State} (h : PcbStill s) (l : List Reg) :
    saveRegisters l s = .ok () (s.setWords (s.savedRegs l)) := by
  induction l generalizing s with
  | nil => rfl
  | cons r l ih =>
    rw [Machine.saveRegisters, h.busWrite32 (pcbRegOffset_mem r), Access.ok_bind, ih (h.setWord _ _)]
    rfl

/-- The registers of a list as the PCB has them. -/
def State.setSaved (s : State) (l : List Reg) : State := s.setRegs (fun r => s.pcbWord (pcbRegOffset r)) l

theorem PcbStill.loadRegisters {s : State} (h : PcbStill s) (l : List Reg) :
    loadRegisters l s = .ok () (s.setSaved l) := by
  induction l generalizing s with
  | nil => rfl
  | cons r l ih =>
    rw [Machine.loadRegisters, h.busRead32 (pcbRegOffset_mem r), Access.ok_bind, ih (h.setReg _ _)]
    rfl

/-- Only registers change, those of the range to their words in the PCB. -/
theorem State.setSaved_registerRange (s : State) (r1 r2 : Reg) :
    ∃ rs, s.setSaved (registerRange r1 r2) = { s with regs := rs } ∧
      (∀ k, InRange r1 r2 k → State.reg { s with regs := rs } k = s.pcbWord (pcbRegOffset k)) ∧
      ∀ k, ¬InRange r1 r2 k → State.reg { s with regs := rs } k = s.reg k := by
  have hreg := s.reg_setRegs (fun r => s.pcbWord (pcbRegOffset r)) (registerRange r1 r2)
  obtain ⟨rs, hframe⟩ := s.setRegs_frame (fun r => s.pcbWord (pcbRegOffset r)) (registerRange r1 r2)
  rw [hframe] at hreg
  exact ⟨rs, hframe, fun k hk => (hreg k).trans (if_pos (mem_registerRange.mpr hk)),
    fun k hk => (hreg k).trans (if_neg (mt mem_registerRange.mp hk))⟩

/-- SR15, SR8, SR9 and SR10 as the PCB has them. -/
def State.setProcess (s : State) : State :=
  (((s.setSpec 15 (s.pcbWord Config.pcbLayout.pc)).setSpec 8 (s.pcbWord Config.pcbLayout.cs)).setSpec 9
    (s.pcbWord Config.pcbLayout.ds)).setSpec 10 (s.pcbWord Config.pcbLayout.tw)

theorem State.spec_setProcess (s : State) (k : Reg) :
    s.setProcess.spec k =
      if k = 10 then s.pcbWord Config.pcbLayout.tw else if k = 9 then s.pcbWord Config.pcbLayout.ds
      else if k = 8 then s.pcbWord Config.pcbLayout.cs else if k = 15 then s.pcbWord Config.pcbLayout.pc
      else s.spec k := by
  simp only [State.setProcess, State.spec_setSpec]

theorem State.pcbWord_setProcess (s : State) (o : Word) : s.setProcess.pcbWord o = s.pcbWord o := by
  simp (disch := decide) only [State.setProcess, State.pcbWord_setSpec]

/-- None of the special registers loaded is SR14, so each comes from the same PCB. -/
theorem PcbStill.loadProcess {s : State} (h : PcbStill s) :
    loadProcess s = .ok () s.setProcess ∧ PcbStill s.setProcess := by
  have h15 := h.setSpec (k := 15) (by decide) (s.pcbWord Config.pcbLayout.pc)
  have h8 := h15.setSpec (k := 8) (by decide) (s.pcbWord Config.pcbLayout.cs)
  have h9 := h8.setSpec (k := 9) (by decide) (s.pcbWord Config.pcbLayout.ds)
  refine ⟨?_, h9.setSpec (by decide) _⟩
  simp (disch := decide) only [Machine.loadProcess, h.loadSpecial 15 pcbLayout_pc_mem,
    h15.loadSpecial 8 pcbLayout_cs_mem, h8.loadSpecial 9 pcbLayout_ds_mem, h9.loadSpecial 10 pcbLayout_tw_mem,
    Access.ok_bind, State.pcbWord_setSpec, State.setProcess]

/-! ### SR14 (R431, R432) -/

theorem withProcess_of_one {k : State → Outcome} {s : State} (h : s.spec 14 = 1) : withProcess k s = advance 2 s := if_pos h

theorem withProcess_aligned {k : State → Outcome} {s : State} (h : (s.spec 14).toNat % 4 = 0) :
    withProcess k s = k s := by
  have hne : s.spec 14 ≠ 1 := fun h1 => by rw [h1] at h; exact absurd h (by decide)
  rw [withProcess, if_neg hne, if_pos h]

theorem withProcess_misaligned {k : State → Outcome} {s : State} (hne : s.spec 14 ≠ 1)
    (h : (s.spec 14).toNat % 4 ≠ 0) : withProcess k s = .refused .pcbMisaligned := by
  rw [withProcess, if_neg hne, if_neg h]

/-- In kernel mode the three that need a process look at SR14 first. -/
theorem exec_withProcess {s : State} (r1 r2 : Reg) (hm : s.mode = .kernel) {i : Instr}
    (hi : i ∈ [Instr.sus r1 r2, .lus r1 r2, .ldregs r1 r2]) : ∃ k, exec i s = withProcess k s := by
  simp only [List.mem_cons, List.not_mem_nil, or_false] at hi
  obtain rfl | rfl | rfl := hi
  · exact ⟨_, kernelOnly_kernel _ _ _ _ _ hm⟩
  · exact ⟨_, kernelOnly_kernel _ _ _ _ _ hm⟩
  · exact ⟨_, kernelOnly_kernel _ _ _ _ _ hm⟩

/-! ### What SUS stores -/

/-- All that SUS stores, and where. -/
def State.savedUser (s : State) (r1 r2 : Reg) : List (Word × Word) :=
  (s.pcbAddress Config.pcbLayout.pc, s.spec 15) :: s.savedRegs (registerRange r1 r2)

/-- A word that SUS stores is SR15 or a register of the range, at its member of the PCB. -/
theorem State.mem_savedUser {s : State} {r1 r2 : Reg} {w : Word × Word} :
    w ∈ s.savedUser r1 r2 ↔ w = (s.pcbAddress Config.pcbLayout.pc, s.spec 15) ∨
      ∃ k, InRange r1 r2 k ∧ w = (s.pcbAddress (pcbRegOffset k), s.reg k) := by
  simp only [State.savedUser, State.savedRegs, List.mem_cons, List.mem_map, mem_registerRange, eq_comm]

section
variable {s : State} {r1 r2 : Reg}

theorem State.savedUser_aligned (h14 : (s.spec 14).toNat % 4 = 0) : ∀ w ∈ s.savedUser r1 r2, w.1.toNat % 4 = 0 := by
  intro w hw
  rcases State.mem_savedUser.mp hw with rfl | ⟨k, -, rfl⟩
  · exact State.pcbAddress_aligned h14 pcbLayout_pc_mem
  · exact State.pcbAddress_aligned h14 (pcbRegOffset_mem k)

/-- The pc's member of the PCB is none of the registers'. -/
theorem State.wordAt_savedUser_pc (h14 : (s.spec 14).toNat % 4 = 0) :
    (s.setWords (s.savedUser r1 r2)).wordAt (pcbAt Config.pcbLayout.pc s) = s.spec 15 := by
  refine State.wordAt_setWords (a := s.pcbAddress _) (State.pcbAddress_aligned h14 pcbLayout_pc_mem)
    (State.savedUser_aligned h14) (fun w hw ha => ?_) (.inr (State.mem_savedUser.mpr (.inl rfl)))
  rcases State.mem_savedUser.mp hw with rfl | ⟨k, -, rfl⟩
  · rfl
  · exact absurd (State.pcbAddress_inj.mp ha) (pcbRegOffset_ne_pc k)

/-- No two registers have one member of the PCB. -/
theorem State.wordAt_savedUser_reg (h14 : (s.spec 14).toNat % 4 = 0) {k : Reg} (hk : InRange r1 r2 k) :
    (s.setWords (s.savedUser r1 r2)).wordAt (pcbAt (pcbRegOffset k) s) = s.reg k := by
  refine State.wordAt_setWords (a := s.pcbAddress _) (State.pcbAddress_aligned h14 (pcbRegOffset_mem k))
    (State.savedUser_aligned h14) (fun w hw ha => ?_) (.inr (State.mem_savedUser.mpr (.inr ⟨k, hk, rfl⟩)))
  rcases State.mem_savedUser.mp hw with rfl | ⟨j, -, rfl⟩
  · exact absurd (State.pcbAddress_inj.mp ha).symm (pcbRegOffset_ne_pc k)
  · rw [pcbRegOffset_inj j k (State.pcbAddress_inj.mp ha)]

theorem State.read_savedUser_other {x : Nat} (hpc : OutsideWord (s.pcbAddress Config.pcbLayout.pc) x)
    (hregs : ∀ k, InRange r1 r2 k → OutsideWord (s.pcbAddress (pcbRegOffset k)) x) :
    (s.setWords (s.savedUser r1 r2)).mem.read x = s.mem.read x := by
  refine State.read_setWords_other fun w hw => ?_
  rcases State.mem_savedUser.mp hw with rfl | ⟨k, hk, rfl⟩
  · exact hpc
  · exact hregs k hk

/-- What SUS leaves: memory with SR15 and the registers of the range in the PCB, and the note of the bytes replaced. -/
theorem State.setWords_savedUser (h14 : (s.spec 14).toNat % 4 = 0) (r1 r2 : Reg) :
    ∃ m f, s.setWords (s.savedUser r1 r2) = { s with mem := m, fetch := f } ∧
      State.wordAt { s with mem := m, fetch := f } (pcbAt Config.pcbLayout.pc s) = s.spec 15 ∧
      (∀ k, InRange r1 r2 k →
        State.wordAt { s with mem := m, fetch := f } (pcbAt (pcbRegOffset k) s) = s.reg k) ∧
      ∀ x, OutsideWord (s.pcbAddress Config.pcbLayout.pc) x →
        (∀ k, InRange r1 r2 k → OutsideWord (s.pcbAddress (pcbRegOffset k)) x) → m.read x = s.mem.read x := by
  obtain ⟨m, f, hframe⟩ := s.setWords_frame (s.savedUser r1 r2)
  refine ⟨m, f, hframe, ?_, fun k hk => ?_, fun x hpc hregs => ?_⟩
  · rw [← hframe, State.wordAt_savedUser_pc h14]
  · rw [← hframe, State.wordAt_savedUser_reg h14 hk]
  · rw [← State.read_savedUser_other hpc hregs, hframe]

end

/-! ### SUS, LUS and LDREGS -/

section
variable {s : State} (hm : s.mode = .kernel) (h14 : (s.spec 14).toNat % 4 = 0) (h : PcbStill s) (r1 r2 : Reg)
include hm h14 h

theorem exec_sus : exec (.sus r1 r2) s = advance 2 (s.setWords (s.savedUser r1 r2)) := by
  refine (kernelOnly_kernel _ _ _ _ _ hm).trans ((withProcess_aligned h14).trans ?_)
  rw [h.busWrite32 pcbLayout_pc_mem, Access.ok_bind, (h.setWord _ _).saveRegisters, Access.ok_finish]
  rfl

theorem exec_lus :
    exec (.lus r1 r2) s = advance 2 (s.setProcess.setSaved (registerRange r1 r2)).flushTmt.flushFetch := by
  obtain ⟨hload, hstill⟩ := h.loadProcess
  refine (kernelOnly_kernel _ _ _ _ _ hm).trans ((withProcess_aligned h14).trans ?_)
  rw [hload, Access.ok_bind, hstill.loadRegisters, Access.ok_finish]

theorem exec_ldregs : exec (.ldregs r1 r2) s = advance 2 (s.setSaved (registerRange r1 r2)) := by
  refine (kernelOnly_kernel _ _ _ _ _ hm).trans ((withProcess_aligned h14).trans ?_)
  rw [h.loadRegisters, Access.ok_finish]

end

/-- Settles O56: SUS stores a list of words at members of the PCB, which are apart from each other. -/
theorem saveUserState : Obligations.SaveUserState := by
  refine fun s r1 r2 hm => ⟨fun ha hpc h14 hb => ?_, fun hpc h1 => ?_, fun hne hmis i hi => ?_⟩
  · have hexec := exec_sus hm h14 ⟨ha, hb⟩ r1 r2
    obtain ⟨m, f, hwords, hpcWord, hregs, hother⟩ := State.setWords_savedUser h14 r1 r2
    rw [hwords] at hexec
    exact ⟨_, hexec.trans (advance_of_lt 2 { s with mem := m, fetch := f } hpc), rfl, hpcWord, hregs, hother,
      fun _ => rfl, fun _ => rfl, rfl⟩
  · have goes : ∀ i ∈ [Instr.sus r1 r2, .lus r1 r2, .ldregs r1 r2], Goes i (s.pc + 2) s := fun i hi => by
      obtain ⟨k, hk⟩ := exec_withProcess r1 r2 hm hi
      exact .of_advance (hk.trans (withProcess_of_one h1)) hpc
    exact ⟨goes _ (by simp), goes _ (by simp), goes _ (by simp)⟩
  · obtain ⟨k, hk⟩ := exec_withProcess r1 r2 hm hi
    exact hk.trans (withProcess_misaligned hne hmis)

/-- Settles O57: the words of the PCB are read in a state whose memory and SR14 no load of the instruction changes. -/
theorem loadUserState : Obligations.LoadUserState := by
  intro s r1 r2 hm ha hpc h14 hb
  have hpcb : PcbStill s := ⟨ha, hb⟩
  refine ⟨?_, ?_⟩
  · have hexec := exec_lus hm h14 hpcb r1 r2
    obtain ⟨rs, hregs, hin, hout⟩ := s.setProcess.setSaved_registerRange r1 r2
    rw [hregs] at hexec
    have hspec := s.spec_setProcess
    refine ⟨_, hexec.trans (advance_of_lt 2 (State.flushTmt { s.setProcess with regs := rs }).flushFetch hpc), rfl,
      hspec 15, hspec 8, hspec 9, hspec 10, fun k hk => ?_, fun k hk => (hin k hk).trans (s.pcbWord_setProcess _), hout,
      fun _ => rfl, rfl⟩
    simp only [List.mem_cons, List.not_mem_nil, or_false, not_or] at hk
    obtain ⟨h8, h9, h10, h15⟩ := hk
    exact (hspec k).trans (by rw [if_neg h10, if_neg h9, if_neg h8, if_neg h15])
  · have hexec := exec_ldregs hm h14 hpcb r1 r2
    obtain ⟨rs, hregs, hin, hout⟩ := s.setSaved_registerRange r1 r2
    rw [hregs] at hexec
    exact ⟨_, hexec.trans (advance_of_lt 2 { s with regs := rs } hpc), rfl, hin, hout, fun _ => rfl, fun _ => rfl, rfl⟩

/-- Settles O58: each of the three is its operation in kernel mode. -/
theorem resumeAndSpecialMoves : Obligations.ResumeAndSpecialMoves := by
  intro s r1 r2 hm
  have hrum : exec (.rum r1 r2) s = if s.spec 14 = 1 then advance 2 { s with paused := true } else .next s.resumeUser :=
    (kernelOnly_kernel _ _ _ _ _ hm : execRum r1 r2 s = _)
  have hmovesr : exec (.movesr r1 r2) s = advance 2 (s.setSpec r1 (s.reg r2)) :=
    (kernelOnly_kernel _ _ _ _ _ hm : execMovesr r1 r2 s = _)
  have hmovers : exec (.movers r1 r2) s = advance 2 (s.setReg r1 (s.spec r2)) :=
    (kernelOnly_kernel _ _ _ _ _ hm : execMovers r1 r2 s = _)
  refine ⟨fun hne => hrum.trans (if_neg hne), fun h1 hpc => ?_, fun hpc => ⟨?_, .of_advance hmovers hpc⟩⟩
  · rw [hrum, if_pos h1]
    exact advance_of_lt 2 { s with paused := true } hpc
  · exact ⟨_, hmovesr.trans (advance_of_lt 2 (s.setSpec r1 (s.reg r2)) hpc), rfl, State.spec_setSpec_same _ _ _,
      fun k hk => State.spec_setSpec_other _ _ _ _ hk, fun _ => rfl, fun _ => rfl, rfl⟩

/-! ### Outside kernel mode (R425, R450) -/

theorem Raises.of_kernelOnly {i : Instr} {op : Byte} {r1 r2 : Reg} {k : State → Outcome} {s : State}
    (h : exec i s = kernelOnly op r1 r2 k s) (hm : s.mode = .user) (hc : CanEnter 0x414 s) :
    Raises i (.kernelViolation op r1 r2) s := by
  rw [Raises, h, kernelOnly_user _ _ _ _ _ hm]
  exact raise_entered hc

theorem Raises.of_kernelOrPrivileged {i : Instr} {op : Byte} {r1 r2 : Reg} {k : State → Outcome} {s : State}
    (h : exec i s = kernelOrPrivileged op r1 r2 k s) (hm : s.mode = .user) (hoff : ¬TrapOn 31 s)
    (hc : CanEnter 0x414 s) : Raises i (.kernelViolation op r1 r2) s := by
  rw [Raises, h, kernelOrPrivileged_denied _ _ _ _ _ hm hoff]
  exact raise_entered hc

/-- Settles O55: each instruction is one of the two checks, with its own opcode and fields. -/
theorem kernelViolations : Obligations.KernelViolations := by
  refine fun s r1 r2 hm hc => ⟨fun x hx => ?_, .of_kernelOnly (rfl : execTrapexit r1 s = _) hm hc,
    .of_kernelOnly (rfl : execItest r1 s = _) hm hc, fun hoff => ⟨?_, ?_, ?_, ?_, ?_⟩⟩
  · simp only [List.mem_cons, List.not_mem_nil, or_false] at hx
    obtain rfl | rfl | rfl | rfl | rfl | rfl | rfl | rfl := hx
    · exact .of_kernelOnly (rfl : execSus r1 r2 s = _) hm hc
    · exact .of_kernelOnly (rfl : execLus r1 r2 s = _) hm hc
    · exact .of_kernelOnly (rfl : execRum r1 r2 s = _) hm hc
    · exact .of_kernelOnly (rfl : execLdregs r1 r2 s = _) hm hc
    · exact .of_kernelOnly (rfl : execTrans r1 r2 s = _) hm hc
    · exact .of_kernelOnly (rfl : execDirt r1 r2 s = _) hm hc
    · exact .of_kernelOnly (rfl : execMovesr r1 r2 s = _) hm hc
    · exact .of_kernelOnly (rfl : execMovers r1 r2 s = _) hm hc
  · exact .of_kernelOrPrivileged (rfl : execElogr r1 s = _) hm hoff hc
  · exact .of_kernelOrPrivileged (rfl : execElogw r1 s = _) hm hoff hc
  · exact .of_kernelOrPrivileged (rfl : execFlush r1 s = _) hm hoff hc
  · exact .of_kernelOrPrivileged (rfl : execRead r1 r2 s = _) hm hoff hc
  · exact .of_kernelOrPrivileged (rfl : execWrite r1 r2 s = _) hm hoff hc

end Sys2Proof.Machine
end

section
/-! SUPPORT. A boundary with no event at which no interrupt is accepted, in kernel mode and in the pause; and the theorem that
settles `Obligations.InterruptsHeldOff` (R441, R507, R539). -/

namespace Sys2Proof.Machine

theorem acceptSource_kernel {s : State} (hm : s.mode = .kernel) (hp : s.paused = false) (src : Option Source) :
    acceptSource src s = none := by
  have hoff : s.interruptible = false := by rw [State.interruptible, hp, hm]; rfl
  cases src with
  | none => rfl
  | some x => rw [acceptSource, hoff, if_neg Bool.false_ne_true]

theorem closeBoundary_kernel {b : Boundary} {s : State} (hm : s.mode = .kernel) (hp : s.paused = false)
    (he : b.parityFetch = none) : closeBoundary b s = .instruction none s := by
  simp only [closeBoundary, acceptSource_kernel hm hp, hp, he, Option.filter_none, Bool.false_eq_true, if_false]

theorem closeBoundary_quiet_paused {s : State} (hp : s.paused = true) : closeBoundary .quiet s = .closed (.next s) := by
  simp only [closeBoundary, acceptSource, Boundary.quiet, hp, if_true]

/-- Settles O14: kernel mode accepts no source, and past the end of the outside list none is offered. -/
theorem interruptsHeldOff : Obligations.InterruptsHeldOff := by
  refine ⟨fun s accept within rest hw hpc hm hp => ?_, fun s hq hpc hp => ?_⟩
  · exact step_of_instruction ((openBoundary_eventless hw rfl hpc).trans (closeBoundary_kernel hm hp rfl))
  · obtain ⟨hw, -, ha⟩ := hq
    refine step_of_closed ?_
    rw [openBoundary, if_neg (by omega), nextBoundary_of_quiet (s := s) hw ha]
    exact closeBoundary_quiet_paused hp

end Sys2Proof.Machine
end

section
/-! SUPPORT. Kernel mode through every instruction (R501): each memory access keeps the mode, each shared ending of an
instruction goes on in the mode it began in or enters the kernel, and RUM alone sets user mode. With the theorem that settles
`Obligations.OnlyRumEntersUserMode`. -/

namespace Sys2Proof.Machine

/-! ### Memory accesses -/

section
variable {s t : State}

theorem busRead_mode {a n v : Nat} (he : busRead a n s = .ok v t) : t.mode = s.mode :=
  readParts_keeps (P := fun u => u.mode = s.mode) (fun _ _ h hb => (between_only hb).mode.trans h) rfl he

theorem busWrite_mode {a n v : Nat} (he : busWrite a n v s = .ok () t) : t.mode = s.mode :=
  writeParts_keeps (P := fun u => u.mode = s.mode) (fun _ _ h hb => (between_only hb).mode.trans h)
    (fun _ _ _ _ h _ => h) rfl he

theorem busRead32_mode {a v : Word} (he : busRead32 a s = .ok v t) : t.mode = s.mode := by
  rw [busRead32, Access.bind_eq_ok] at he
  obtain ⟨_, s1, h1, he⟩ := he
  cases he
  exact busRead_mode h1

/-- In kernel mode an address needs no translation, so a load is at most one read. -/
theorem memRead_mode_kernel {seg : Segment} {va : Word} {n v : Nat} (hm : s.mode = .kernel)
    (he : memRead seg va n s = .ok v t) : t.mode = .kernel := by
  rw [memRead, resolve_kernel _ _ _ _ hm, Access.ok_bind] at he
  split at he
  · cases he
  split at he
  · cases he
  · exact (busRead_mode he).trans hm

theorem memWrite_mode_kernel {va : Word} {n v : Nat} (hm : s.mode = .kernel)
    (he : memWrite va n v s = .ok () t) : t.mode = .kernel := by
  rw [memWrite, resolve_kernel _ _ _ _ hm, Access.ok_bind] at he
  split at he
  · cases he
  split at he
  · cases he
  · exact (busWrite_mode he).trans hm

theorem saveRegisters_mode {l : List Reg} (he : saveRegisters l s = .ok () t) : t.mode = s.mode := by
  induction l generalizing s with
  | nil => cases he; rfl
  | cons r l ih =>
    rw [saveRegisters, Access.bind_eq_ok] at he
    obtain ⟨_, s1, h1, he⟩ := he
    exact (ih he).trans (busWrite_mode h1)

theorem loadRegisters_mode {l : List Reg} (he : loadRegisters l s = .ok () t) : t.mode = s.mode := by
  induction l generalizing s with
  | nil => cases he; rfl
  | cons r l ih =>
    rw [loadRegisters, Access.bind_eq_ok] at he
    obtain ⟨_, s1, h1, he⟩ := he
    have hs1 : s1.mode = s.mode := busRead32_mode h1
    exact (ih he).trans hs1

theorem loadSpecial_mode {k : Reg} {o : Word} (he : loadSpecial k o s = .ok () t) : t.mode = s.mode := by
  rw [loadSpecial, Access.bind_eq_ok] at he
  obtain ⟨_, s1, h1, he⟩ := he
  cases he
  have hs1 : s1.mode = s.mode := busRead32_mode h1
  exact hs1

theorem loadProcess_mode (he : loadProcess s = .ok () t) : t.mode = s.mode := by
  simp only [loadProcess, Access.bind_eq_ok] at he
  obtain ⟨_, s1, h1, _, s2, h2, _, s3, h3, h4⟩ := he
  rw [loadSpecial_mode h4, loadSpecial_mode h3, loadSpecial_mode h2, loadSpecial_mode h1]

end

/-! ### Endings -/

/-- An outcome with a next state is in kernel mode there. -/
def KernelStays (o : Outcome) : Prop := ∀ t, o = .next t → t.mode = .kernel

@[simp] theorem kernelStays_next {u : State} : KernelStays (.next u) ↔ u.mode = .kernel :=
  ⟨fun h => h u rfl, fun h _ he => by cases he; exact h⟩

@[simp] theorem kernelStays_refused (r : Refusal) : KernelStays (.refused r) := fun _ he => by cases he

@[simp] theorem kernelStays_fault (f : Fault) : KernelStays (.fault f) := fun _ he => by cases he

/-- The entry of an exception sets kernel mode (R510). -/
@[simp] theorem kernelStays_takeException (e : Exception) (ret : Word) (u : State) : KernelStays (takeException e ret u) :=
  takeException_mode e ret u

@[simp] theorem kernelStays_raise (e : Exception) (u : State) : KernelStays (raise e u) := kernelStays_takeException e _ u

@[simp] theorem kernelStays_advance {u : State} (len : Nat) (h : u.mode = .kernel) : KernelStays (advance len u) := by
  intro t he
  rw [((advance_eq_next _ _ _).mp he).2]
  exact h

/-- An operation that accesses memory may raise an exception, which enters the kernel. -/
theorem kernelStays_finish {α : Type} {x : Access α} {k : α → State → Outcome}
    (hk : ∀ v u, x = .ok v u → KernelStays (k v u)) : KernelStays (x.finish k) := by
  intro t he
  rw [Access.finish_eq_next] at he
  rcases he with ⟨v, u, hx, he⟩ | ⟨e, u, -, he⟩
  · exact hk v u hx t he
  · exact kernelStays_raise e u t he

section
variable {s : State} (hm : s.mode = .kernel)
include hm

@[simp] theorem kernelStays_trapsWordEnd (code : Nat) : KernelStays (trapsWordEnd code s) := by
  unfold trapsWordEnd
  split <;> simp [hm]

@[simp] theorem kernelStays_overflowEnd (o : Bool) : KernelStays (overflowEnd o s) := by
  unfold overflowEnd
  split <;> simp [hm]

theorem kernelStays_branchIf (c : Bool) (disp : Word) (len : Nat) : KernelStays (branchIf c disp len s) := by
  unfold branchIf
  split <;> simp [hm]

end

section
variable {s : State} (hm : s.mode = .kernel) {r r1 r2 : Reg}
include hm

theorem kernelStays_plainResult {v : Word} : KernelStays (plainResult r v s) := kernelStays_advance 2 hm

theorem kernelStays_pairResult {v : Double} : KernelStays (pairResult r v s) := kernelStays_advance 2 hm

theorem kernelStays_integerResult {n : Int} : KernelStays (integerResult r n s) :=
  kernelStays_overflowEnd (s := s.setReg _ _) hm _

theorem kernelStays_arithmeticLeft {n : Nat} : KernelStays (arithmeticLeft r n s) :=
  kernelStays_overflowEnd (s := s.setReg _ _) hm _

theorem kernelStays_neg : KernelStays (execNeg r1 r2 s) := by
  unfold execNeg
  split
  · exact kernelStays_trapsWordEnd hm _
  · exact kernelStays_plainResult hm

theorem kernelStays_divideResult {a b : Word} {n : Int} : KernelStays (divideResult r a b n s) := by
  unfold divideResult
  split
  · exact kernelStays_trapsWordEnd hm _
  split <;> simp [hm]

theorem kernelStays_carryResult {v c : Word} : KernelStays (carryResult r v c s) := by
  unfold carryResult
  split <;> simp [hm]

theorem kernelStays_ediv : KernelStays (execEdiv r1 r2 s) := by
  unfold execEdiv
  dsimp only
  split
  · simp [hm]
  split <;> simp [hm]

theorem kernelStays_realEnd {x : Word × RealCond} : KernelStays (realEnd r x s) := by
  unfold realEnd
  split <;> simp [hm]

theorem kernelStays_doubleEnd {x : Double × RealCond} : KernelStays (doubleEnd r x s) := by
  unfold doubleEnd
  split <;> simp [hm]

theorem kernelStays_makeRealEnd {x : Word × RealCond} : KernelStays (makeRealEnd r x s) := by
  unfold makeRealEnd
  split <;> simp [hm]

theorem kernelStays_fixEnd {x : Word × Bool} : KernelStays (fixEnd r x s) := by
  unfold fixEnd
  split <;> simp [hm]

omit hm in
theorem kernelStays_withBitNumber {n : Word} {k : Nat → State → Outcome} (hk : ∀ m, KernelStays (k m s)) :
    KernelStays (withBitNumber n k s) := by
  unfold withBitNumber
  split
  · exact hk _
  · exact kernelStays_refused _

theorem kernelStays_sbit : KernelStays (execSbit r1 r2 s) := kernelStays_withBitNumber fun _ => kernelStays_pairResult hm

theorem kernelStays_cbit : KernelStays (execCbit r1 r2 s) := kernelStays_withBitNumber fun _ => kernelStays_pairResult hm

theorem kernelStays_checkEnd {fails : Bool} : KernelStays (checkEnd fails r1 r2 s) := by
  unfold checkEnd
  split <;> simp [hm]

theorem kernelStays_linkAndGo {target : Word} {len : Nat} : KernelStays (linkAndGo r target len s) :=
  kernelStays_next.mpr hm

omit hm in
theorem kernelStays_abortLoad {f : State → State} {e : Exception} : KernelStays (abortLoad f e s) := by
  unfold abortLoad
  split <;> exact kernelStays_raise _ _

theorem kernelStays_loadTo {seg : Segment} {n len : Nat} {ea : Word} : KernelStays (loadTo seg n r ea len s) := by
  unfold loadTo
  split
  · rename_i he
    have hs1 := memRead_mode_kernel hm he
    exact kernelStays_advance len hs1
  · exact kernelStays_abortLoad
  · exact kernelStays_fault _
  · exact kernelStays_refused _

theorem kernelStays_loadPairTo {seg : Segment} {len : Nat} {ea : Word} : KernelStays (loadPairTo seg r ea len s) := by
  unfold loadPairTo
  split
  · rename_i he
    have hs1 := memRead_mode_kernel hm he
    exact kernelStays_advance len hs1
  · exact kernelStays_abortLoad
  · exact kernelStays_fault _
  · exact kernelStays_refused _

theorem kernelStays_storeFrom {n v len : Nat} {ea : Word} : KernelStays (storeFrom n v ea len s) :=
  kernelStays_finish fun _ _ he => kernelStays_advance len (memWrite_mode_kernel hm he)

theorem kernelStays_loadAddress {ea : Word} {len : Nat} : KernelStays (loadAddress r ea len s) :=
  kernelStays_advance len hm

omit hm in
theorem kernelStays_kcall {n : BitVec 8} : KernelStays (execKcall n s) := by
  unfold execKcall
  split <;> simp

/-! ### Instructions of kernel mode -/

theorem kernelStays_kernelOnly {op : Byte} {k : State → Outcome} (hk : KernelStays (k s)) :
    KernelStays (kernelOnly op r1 r2 k s) := by
  rwa [kernelOnly_kernel _ _ _ _ _ hm]

theorem kernelStays_kernelOrPrivileged {op : Byte} {k : State → Outcome} (hk : KernelStays (k s)) :
    KernelStays (kernelOrPrivileged op r1 r2 k s) := by
  rwa [kernelOrPrivileged_allowed _ _ _ _ _ (.inl hm)]

theorem kernelStays_withProcess {k : State → Outcome} (hk : KernelStays (k s)) : KernelStays (withProcess k s) := by
  unfold withProcess
  split
  · exact kernelStays_advance 2 hm
  split
  · exact hk
  · exact kernelStays_refused _

theorem kernelStays_sus : KernelStays (execSus r1 r2 s) := by
  refine kernelStays_kernelOnly hm (kernelStays_withProcess hm (kernelStays_finish fun _ u he => ?_))
  rw [Access.bind_eq_ok] at he
  obtain ⟨_, s1, h1, he⟩ := he
  exact kernelStays_advance 2 (((saveRegisters_mode he).trans (busWrite_mode h1)).trans hm)

theorem kernelStays_lus : KernelStays (execLus r1 r2 s) := by
  refine kernelStays_kernelOnly hm (kernelStays_withProcess hm (kernelStays_finish fun _ u he => ?_))
  rw [Access.bind_eq_ok] at he
  obtain ⟨_, s1, h1, he⟩ := he
  exact kernelStays_advance 2 (((loadRegisters_mode he).trans (loadProcess_mode h1)).trans hm)

theorem kernelStays_ldregs : KernelStays (execLdregs r1 r2 s) :=
  kernelStays_kernelOnly hm (kernelStays_withProcess hm (kernelStays_finish fun _ _ he =>
    kernelStays_advance 2 ((loadRegisters_mode he).trans hm)))

theorem kernelStays_translateExplicit {update : Double → Double} : KernelStays (translateExplicit update r1 r2 s) := by
  refine kernelStays_finish fun found u he => ?_
  have hu : u.mode = .kernel := (vrtSearch_only he).mode.trans hm
  cases found with
  | none => exact kernelStays_advance 2 hu
  | some x => exact kernelStays_finish fun _ _ hb => kernelStays_advance 2 ((between_only hb).mode.trans hu)

theorem kernelStays_movesr : KernelStays (execMovesr r1 r2 s) := kernelStays_kernelOnly hm (kernelStays_advance 2 hm)

theorem kernelStays_movers : KernelStays (execMovers r1 r2 s) := kernelStays_kernelOnly hm (kernelStays_advance 2 hm)

theorem kernelStays_elogr : KernelStays (execElogr r1 s) :=
  kernelStays_kernelOrPrivileged hm (kernelStays_advance 2 hm)

theorem kernelStays_elogw : KernelStays (execElogw r1 s) :=
  kernelStays_kernelOrPrivileged hm (kernelStays_advance 2 hm)

theorem kernelStays_flush : KernelStays (execFlush r1 s) :=
  kernelStays_kernelOrPrivileged hm (kernelStays_advance 2 hm)

theorem kernelStays_read : KernelStays (execRead r1 r2 s) :=
  kernelStays_kernelOrPrivileged hm (kernelStays_advance 2 hm)

theorem kernelStays_write : KernelStays (execWrite r1 r2 s) :=
  kernelStays_kernelOrPrivileged hm (kernelStays_advance 2 hm)

theorem kernelStays_trapexit : KernelStays (execTrapexit r1 s) := kernelStays_kernelOnly hm (kernelStays_next.mpr hm)

omit hm in
theorem takeIoir_mode {w : Word} {t : State} (he : takeIoir s = some (w, t)) : t.mode = s.mode := by
  rw [takeIoir, Option.map_eq_some_iff] at he
  obtain ⟨_, -, he⟩ := he
  cases he
  rfl

theorem kernelStays_itest : KernelStays (execItest r1 s) := by
  refine kernelStays_kernelOnly hm ?_
  split
  · rename_i he
    exact kernelStays_advance 2 ((takeIoir_mode he).trans hm)
  · exact kernelStays_advance 2 hm

end

/-! ### Every instruction -/

/-- From kernel mode every instruction but RUM goes on in kernel mode. -/
theorem kernelStays_exec (i : Instr) {s : State} (hm : s.mode = .kernel) (hi : ∀ r1 r2, i ≠ .rum r1 r2) :
    KernelStays (exec i s) := by
  cases i
  case move | not | or | xor | and | movei | noti | andi | float | lcomp | rcomp | dcomp | drcomp | testGt | testLt
      | testEq | testLe | testGe | testNe | testiGt | testiLt | testiEq | testiLe | testiGe | testiNe | csl | csli | lsl
      | lsli | lsr | lsri | asr | asri | seb | seh =>
    exact kernelStays_plainResult hm
  case empy | makerd | dfloat | dlsl | dlsli | dlsr | dlsri => exact kernelStays_pairResult hm
  case add | sub | mpy | addi | subi | mpyi => exact kernelStays_integerResult hm
  case neg => exact kernelStays_neg hm
  case div | rem => exact kernelStays_divideResult hm
  case eadd | esub => exact kernelStays_carryResult hm
  case ediv => exact kernelStays_ediv hm
  case asl | asli => exact kernelStays_arithmeticLeft hm
  case tbit => exact kernelStays_withBitNumber fun _ => kernelStays_plainResult hm
  case sbit => exact kernelStays_sbit hm
  case cbit => exact kernelStays_cbit hm
  case rneg | radd | rsub | rmpy | rdiv => exact kernelStays_realEnd hm
  case drneg | dradd | drsub | drmpy | drdiv => exact kernelStays_doubleEnd hm
  case makedr => exact kernelStays_makeRealEnd hm
  case fixt | fixr | dfixt | dfixr => exact kernelStays_fixEnd hm
  case chk | chki => exact kernelStays_checkEnd hm
  case trap => exact kernelStays_trapsWordEnd hm _
  case kcall => exact kernelStays_kcall
  case nop => exact kernelStays_advance 2 hm
  case brGt | brGtL | brEq | brEqL | brLe | brLeL | brNe | brNeL | briGt | briGtL | briLt | briLtL | briEq | briEqL
      | briLe | briLeL | briGe | briGeL | briNe | briNeL =>
    exact kernelStays_branchIf hm _ _ _
  case loop | loopL => exact kernelStays_branchIf (s := s.setReg _ _) hm _ _ _
  case br | brL => exact kernelStays_next.mpr hm
  case call | callL | callr | ret => exact kernelStays_linkAndGo hm
  case loadb | loadbX | loadbL | loadbLX | loadbC | loadbCX | loadbCL | loadbCLX | loadh | loadhX | loadhL | loadhLX
      | loadhC | loadhCX | loadhCL | loadhCLX | load | loadX | loadL | loadLX | loadC | loadCX | loadCL | loadCLX =>
    exact kernelStays_loadTo hm
  case loadd | loaddX | loaddL | loaddLX | loaddC | loaddCX | loaddCL | loaddCLX => exact kernelStays_loadPairTo hm
  case storeb | storebX | storebL | storebLX | storeh | storehX | storehL | storehLX | store | storeX | storeL | storeLX
      | stored | storedX | storedL | storedLX =>
    exact kernelStays_storeFrom hm
  case laddr | laddrX | laddrL | laddrLX | laddrC | laddrCX | laddrCL | laddrCLX => exact kernelStays_loadAddress hm
  case sus => exact kernelStays_sus hm
  case lus => exact kernelStays_lus hm
  case ldregs => exact kernelStays_ldregs hm
  case rum r1 r2 => exact absurd rfl (hi r1 r2)
  case trans | dirt => exact kernelStays_kernelOnly hm (kernelStays_translateExplicit hm)
  case movesr => exact kernelStays_movesr hm
  case movers => exact kernelStays_movers hm
  case trapexit => exact kernelStays_trapexit hm
  case itest => exact kernelStays_itest hm
  case elogr => exact kernelStays_elogr hm
  case elogw => exact kernelStays_elogw hm
  case flush => exact kernelStays_flush hm
  case read => exact kernelStays_read hm
  case write => exact kernelStays_write hm

/-- RUM in kernel mode: with SR14 = 1 it goes on in kernel mode, else to user mode at SR15 (R440, R441). -/
theorem exec_rum_kernel {s : State} (hm : s.mode = .kernel) (r1 r2 : Reg) :
    exec (.rum r1 r2) s = if s.spec 14 = 1 then advance 2 { s with paused := true } else .next s.resumeUser :=
  (kernelOnly_kernel _ _ _ _ _ hm : execRum r1 r2 s = _)

/-- Settles O21: RUM is the only instruction that does not stay in kernel mode, and it stays there with SR14 = 1. -/
theorem onlyRumEntersUserMode : Obligations.OnlyRumEntersUserMode := by
  intro i s t hm he ht
  have leaves : ¬KernelStays (exec i s) := fun h => by rw [h t he] at ht; cases ht
  have hrum : ∃ r1 r2, i = .rum r1 r2 := by
    by_contra hi
    exact leaves (kernelStays_exec i hm fun r1 r2 h => hi ⟨r1, r2, h⟩)
  obtain ⟨r1, r2, rfl⟩ := hrum
  rw [exec_rum_kernel hm] at he leaves
  have h14 : s.spec 14 ≠ 1 := fun h => leaves (by rw [if_pos h]; exact kernelStays_advance 2 hm)
  rw [if_neg h14] at he
  cases he
  exact ⟨⟨r1, r2, rfl⟩, h14, rfl⟩

end Sys2Proof.Machine
end

section
/-! SUPPORT. The entry of an exception with other agents acting before it, and the columns of its table; the theorems that
settle `Obligations.ExceptionEntry` and `Obligations.ExceptionTable` (R510 to R512, R520 to R524, R558). -/

namespace Sys2Proof.Machine

/-- An entry is refused with a misplaced CCB or with a parity error on its word (R512, R558). -/
theorem State.ccbUsable_eq_false {s : State} (off : Nat)
    (h : (s.spec 11).toNat % 4 ≠ 0 ∨ s.installedAt (s.spec 11 + 0x44F).toNat = false ∨ s.parityEntry = true) :
    s.ccbUsable off = false := by
  have misplaced (hp : ¬s.ccbPlaced = true) : s.ccbUsable off = false := by
    rw [State.ccbUsable, Bool.eq_false_of_not_eq_true hp, Bool.and_false, Bool.false_and]
  rw [State.ccbPlaced_iff] at misplaced
  rcases h with hodd | houtside | herror
  · exact misplaced fun hp => hodd hp.1
  · exact misplaced fun hp => Bool.false_ne_true (houtside.symm.trans hp.2)
  · rw [State.ccbUsable, herror, Bool.not_true, Bool.false_and, Bool.false_and]

/-- An entry whose CCB word cannot be read is refused, after what other agents do. -/
theorem takeException_refused {e : Exception} {s s0 : State} (ret : Word) (hb : s.between = .ok () s0)
    (h : s0.ccbUsable e.ccbOffset = false) : takeException e ret s = .refused .ccbUnusable := by
  rw [takeException_of_between e ret s s0 hb, enterException, h]
  rfl

/-- Settles O11: other agents change nothing of what makes a CCB usable, and an entry is made from the state they leave. -/
theorem exceptionEntry : Obligations.ExceptionEntry := by
  refine fun e ret s => ⟨fun s0 hb => ⟨takeException_entered ret hb, fun h => ?_, between_only hb⟩, between_alone⟩
  have hcong : s0.ccbUsable e.ccbOffset = s.ccbUsable e.ccbOffset :=
    State.ccbUsable_congr _ (between_only hb).sr (between_only hb).installed (between_only hb).parityEntry
  exact takeException_refused ret hb (hcong.trans (State.ccbUsable_eq_false _ h))

/-- Settles O12: each row of the table is a clause of the definitions of the offset and of the three columns. -/
theorem exceptionTable : Obligations.ExceptionTable := by
  refine ⟨fun n => ⟨rfl, rfl⟩, fun seg a => ⟨rfl, rfl, rfl⟩, fun a => ⟨rfl, rfl, rfl⟩,
    fun op r1 r2 => ⟨rfl, rfl, rfl⟩, fun op r1 r2 => ⟨rfl, rfl⟩, fun a => ⟨rfl, rfl⟩, fun a => ⟨rfl, rfl⟩, fun seg a => ⟨rfl, rfl, rfl⟩,
    fun op r1 r2 => ⟨rfl, rfl, rfl, rfl⟩, fun r1 r2 => ⟨rfl, rfl, rfl⟩, fun code => ⟨rfl, rfl⟩, fun w => ⟨rfl, rfl⟩,
    rfl, rfl, rfl, rfl, rfl⟩

end Sys2Proof.Machine
end

section
/-! SUPPORT. A request of a device taken, an interrupt accepted at a boundary, and the theorem that settles
`Obligations.InterruptTaken` (R475, R507, R535 to R543). -/

namespace Sys2Proof.Machine

/-! ### Requests taken -/

/-- The state after the word of a requesting device was taken: the requests that are left, the transaction, one draw. -/
def State.ioirTaken (s : State) (w : Word) (left : List Word) : State :=
  { s with ioTrace := .ioir w :: s.ioTrace, pending := { s.pending with external := left }, draws := s.draws + 1 }

theorem takeIoir_none {s : State} (h : s.pending.external = []) : takeIoir s = none := by
  rw [takeIoir, h]
  rfl

/-- A requesting device's word is taken; that device may withdraw its request, no other does (R475). -/
theorem takeIoir_some {s : State} (h : s.pending.external ≠ []) :
    ∃ w left, takeIoir s = some (w, s.ioirTaken w left) ∧ w ∈ s.pending.external ∧
      (∀ x ∈ left, x ∈ s.pending.external) ∧ ∀ x ∈ s.pending.external, deviceOf x ≠ deviceOf w → x ∈ left := by
  obtain ⟨a, l, hl⟩ := List.exists_cons_of_ne_nil h
  obtain ⟨w, hw⟩ := chooseFrom_cons s.draws a l
  rw [← hl] at hw
  refine ⟨w, _, by rw [takeIoir, hw]; rfl, chooseFrom_mem _ _ _ hw, fun x hx => ?_, fun x hx hne => ?_⟩
  · split at hx
    · exact List.mem_of_mem_filter hx
    · exact hx
  · split
    · exact List.mem_filter.mpr ⟨hx, decide_eq_true hne⟩
    · exact hx

/-! ### Interrupts -/

theorem acceptSource_interruptible {s : State} (h : s.paused = true ∨ s.mode = .user) (src : Source) :
    acceptSource (some src) s = takeSource src s := by
  have hon : s.interruptible = true := by
    rw [State.interruptible, Bool.or_eq_true, decide_eq_true_eq]
    exact h
  rw [acceptSource, if_pos hon]

/-- A boundary at which a source is offered and nothing else happens. -/
def Boundary.accepting (src : Source) : Boundary := { events := [], accept := some src, parityFetch := none, within := [] }

/-- In user mode and in the pause a step takes the interrupt of the pending source offered, with the pc as the saved
address. -/
theorem step_takes {s s1 : State} {src : Source} {rest : List Boundary} {e : Exception}
    (hw : s.world = .accepting src :: rest) (hpc : s.pc.toNat % 2 = 0) (hon : s.paused = true ∨ s.mode = .user)
    (htake : takeSource src { s with world := rest, within := [] } = some (e, s1)) (hs1 : s1.pc = s.pc)
    (hc : CanEnter e.ccbOffset s1) : ∃ t, step s = .next t ∧ Entered e s.pc s1 t := by
  obtain ⟨t, ht, hent⟩ := raise_entered_at hs1 hc
  refine ⟨t, (step_of_closed ?_).trans ht, hent⟩
  have haccept := acceptSource_interruptible (s := { s with world := rest, within := [] }) hon src
  rw [openBoundary_eventless hw rfl hpc, closeBoundary]
  simp only [Boundary.accepting, haccept, htake]
  rfl

/-- Settles O13: the source offered is taken from the state at the boundary, and its exception is entered from what that
leaves. -/
theorem interruptTaken : Obligations.InterruptTaken := by
  intro s src rest hw hpc hon
  refine ⟨?switch0, ?powerFail, ?endGlitch, ?timer1, ?timer2, ?external⟩
  case switch0 | powerFail | endGlitch | timer1 | timer2 =>
    rintro rfl hp hc
    exact step_takes hw hpc hon (if_pos hp) rfl ⟨hc, rfl⟩
  case external =>
    rintro rfl hp hc
    obtain ⟨w, left, htake, hmem, hleft, hothers⟩ := takeIoir_some (s := { s with world := rest, within := [] }) hp
    have hsource := congrArg (Option.map fun x : Word × State => (Exception.external x.1, x.2)) htake
    obtain ⟨t, ht, hent⟩ := step_takes (src := .external) hw hpc hon hsource rfl ⟨hc, rfl⟩
    exact ⟨t, w, left, ht, hmem, hleft, hothers, hent, hent.spec_one rfl⟩

end Sys2Proof.Machine
end

section
/-! SUPPORT. Status words, transactions with devices, the instructions ITEST, READ and WRITE, and the theorem that settles
`Obligations.DeviceInstructions` (R464, R470 to R475). -/

namespace Sys2Proof.Machine

/-! ### Status words -/

/-- A word with one bit, counted from the least significant, set or reset. -/
theorem getLsbD_setOrReset (w : Word) {i j : Nat} (b : Bool) (hi : i < 32) (hj : j < 32) :
    (if b then w ||| 1#32 <<< i else w &&& ~~~(1#32 <<< i)).getLsbD j = if j = i then b else w.getLsbD j := by
  have hbit : (1#32 <<< i).getLsbD j = decide (j = i) := by
    refine (BitVec.getLsbD_twoPow i j).trans ?_
    rw [decide_eq_true hi, Bool.true_and]
    exact decide_eq_decide.mpr eq_comm
  cases b
  · rw [if_neg Bool.false_ne_true, BitVec.getLsbD_and, BitVec.getLsbD_not, hbit]
    by_cases h : j = i <;> simp [h, hj]
  · rw [if_pos rfl, BitVec.getLsbD_or, hbit]
    by_cases h : j = i <;> simp [h]

theorem ioStatusLayout_t_ne_n : Config.ioStatusLayout.t ≠ Config.ioStatusLayout.n := by
  unfold Config.ioStatusLayout
  split
  · assumption
  · decide

/-- The bits T and N of a status word are the ones given (R473). -/
theorem ioStatus_bits (free : Word) (t n : Bool) :
    (ioStatus free t n).getLsbD Config.ioStatusLayout.t.toNat = t ∧
      (ioStatus free t n).getLsbD Config.ioStatusLayout.n.toNat = n := by
  have ht : Config.ioStatusLayout.t.toNat < 32 := Config.ioStatusLayout.t.isLt
  have hn : Config.ioStatusLayout.n.toNat < 32 := Config.ioStatusLayout.n.isLt
  have hne : Config.ioStatusLayout.t.toNat ≠ Config.ioStatusLayout.n.toNat :=
    mt BitVec.eq_of_toNat_eq ioStatusLayout_t_ne_n
  unfold ioStatus
  dsimp only
  rw [getLsbD_setOrReset _ _ hn ht, getLsbD_setOrReset _ _ hn hn, getLsbD_setOrReset _ _ ht ht, if_neg hne, if_pos rfl,
    if_pos rfl]
  exact ⟨rfl, rfl⟩

/-! ### Transactions -/

/-- What a status and a data word tell of a reply (R473). -/
structure Reports (reply : DeviceReply) (status data : Word) : Prop where
  accepted : ∀ d, reply = .accepted d → status.getLsbD Config.ioStatusLayout.t.toNat = false ∧
    status.getLsbD Config.ioStatusLayout.n.toNat = false ∧ data = d
  notReady : reply = .notReady → status.getLsbD Config.ioStatusLayout.n.toNat = true
  timedOut : reply = .timedOut → status.getLsbD Config.ioStatusLayout.t.toNat = true

theorem replyWords_reports (reply : DeviceReply) (s : State) :
    Reports reply (replyWords reply s).1 (replyWords reply s).2 where
  accepted := by
    rintro d rfl
    exact ⟨(ioStatus_bits _ _ _).1, (ioStatus_bits _ _ _).2, rfl⟩
  notReady := by
    rintro rfl
    exact (ioStatus_bits _ _ _).2
  timedOut := by
    rintro rfl
    exact (ioStatus_bits _ _ _).1

/-- The state after a transaction with a device has entered the history. -/
def State.sent (s : State) (x : IoTransaction) : State := { s with ioTrace := x :: s.ioTrace }

/-- The status and the data word that a transaction with the device of an address leads to. -/
def State.answer (s : State) (x : IoTransaction) (a : Word) : Word × Word :=
  replyWords (ioTransaction x a s).1 (s.sent x)

/-- With no device of the number in the address a transaction times out (R474). -/
theorem answer_absent {s : State} {x : IoTransaction} {a : Word} (h : Config.devicePresent (deviceOf a) = false) :
    Reports .timedOut (s.answer x a).1 (s.answer x a).2 := by
  have hreply : (ioTransaction x a s).1 = .timedOut := if_neg (by rw [h]; exact Bool.false_ne_true)
  rw [State.answer, hreply]
  exact replyWords_reports _ _

theorem answer_present {s : State} {x : IoTransaction} {a : Word} (h : Config.devicePresent (deviceOf a) = true) :
    Reports (Config.deviceReply (x :: s.ioTrace)) (s.answer x a).1 (s.answer x a).2 := by
  have hreply : (ioTransaction x a s).1 = Config.deviceReply (x :: s.ioTrace) := if_pos h
  rw [State.answer, hreply]
  exact replyWords_reports _ _

/-! ### The instructions -/

section
variable {s : State} {r1 r2 : Reg}

theorem exec_read (hm : s.mode = .kernel ∨ TrapOn 31 s) :
    exec (.read r1 r2) s =
      advance 2 (((s.sent (.read (s.reg r2))).drawn3.setReg r1 (s.answer (.read (s.reg r2)) (s.reg r2)).1).setReg (r1 + 1)
        (s.answer (.read (s.reg r2)) (s.reg r2)).2) :=
  (kernelOrPrivileged_allowed _ _ _ _ _ hm : execRead r1 r2 s = _)

theorem exec_write (hm : s.mode = .kernel ∨ TrapOn 31 s) :
    exec (.write r1 r2) s =
      advance 2 ((s.sent (.write (s.reg r2) (s.reg r1))).drawn3.setReg r1
        (s.answer (.write (s.reg r2) (s.reg r1)) (s.reg r2)).1) :=
  (kernelOrPrivileged_allowed _ _ _ _ _ hm : execWrite r1 r2 s = _)

/-- What an instruction leaves that ends after a transaction `x` with the device of the address `a`, with the status in
register `r1` and, where `hasData` says so, the data in the next one. -/
theorem transaction_completes {i : Instr} {x : IoTransaction} {a : Word} {rs : List Reg} {u : State} {hasData : Prop}
    (hi : exec i s = advance 2 u) (hu : OnlyRegsDrawing rs (s.sent x) u) (hupc : u.pc = s.pc)
    (hpc : s.pc.toNat + 2 < 2 ^ 32) (hstatus : u.reg r1 = (s.answer x a).1)
    (hdata : hasData → u.reg (r1 + 1) = (s.answer x a).2) :
    ∃ t, exec i s = .next t ∧ t.pc = s.pc + 2 ∧ (∀ r, r ∉ rs → t.reg r = s.reg r) ∧ (∀ k, t.spec k = s.spec k) ∧
      (∀ a, t.mem.read a = s.mem.read a) ∧
      t = { s with regs := t.regs, pc := t.pc, draws := t.draws, ioTrace := x :: s.ioTrace } ∧
      (Config.devicePresent (deviceOf a) = false → (t.reg r1).getLsbD Config.ioStatusLayout.t.toNat = true) ∧
      (Config.devicePresent (deviceOf a) = true →
        (∀ data, Config.deviceReply t.ioTrace = .accepted data →
          (t.reg r1).getLsbD Config.ioStatusLayout.t.toNat = false ∧
          (t.reg r1).getLsbD Config.ioStatusLayout.n.toNat = false ∧ (hasData → t.reg (r1 + 1) = data)) ∧
        (Config.deviceReply t.ioTrace = .notReady → (t.reg r1).getLsbD Config.ioStatusLayout.n.toNat = true) ∧
        (Config.deviceReply t.ioTrace = .timedOut → (t.reg r1).getLsbD Config.ioStatusLayout.t.toNat = true)) := by
  obtain ⟨hreg, hspec, hmem, hframe⟩ := hu.setPc (s.pc + 2)
  have htrace : u.ioTrace = x :: s.ioTrace := congrArg State.ioTrace hframe
  have hnext : exec i s = .next (u.setPc (s.pc + 2)) := by
    rw [hi, advance_of_lt 2 u (hupc ▸ hpc), hupc]
    rfl
  refine ⟨_, hnext, rfl, hreg, hspec, hmem, hframe, fun h => ?_, fun h => ?_⟩
  · rw [State.setPc_reg, hstatus]
    exact (answer_absent h).timedOut rfl
  · have hreports := answer_present (s := s) (x := x) h
    simp only [State.setPc_reg, State.setPc_ioTrace, htrace, hstatus]
    refine ⟨fun data hd => ?_, hreports.notReady, hreports.timedOut⟩
    obtain ⟨ht, hn, hsame⟩ := hreports.accepted data hd
    exact ⟨ht, hn, fun h => (hdata h).trans hsame⟩

/-- ITEST of kernel mode with a device that requests (R464). -/
theorem itest_requested (hm : s.mode = .kernel) (hpc : s.pc.toNat + 2 < 2 ^ 32) (hreq : s.pending.external ≠ []) :
    ∃ t, exec (.itest r1) s = .next t ∧ t.pc = s.pc + 2 ∧ t.reg r1 = 0 ∧ t.reg (r1 + 1) ∈ s.pending.external ∧
      (∀ r, r ∉ [r1, r1 + 1] → t.reg r = s.reg r) ∧ (∀ k, t.spec k = s.spec k) ∧
      (∀ a, t.mem.read a = s.mem.read a) ∧ (∀ x ∈ t.pending.external, x ∈ s.pending.external) ∧
      (∀ x ∈ s.pending.external, deviceOf x ≠ deviceOf (t.reg (r1 + 1)) → x ∈ t.pending.external) ∧
      t = { s with
        regs := t.regs, pc := t.pc, draws := t.draws, ioTrace := .ioir (t.reg (r1 + 1)) :: s.ioTrace,
        pending := { s.pending with external := t.pending.external } } := by
  obtain ⟨w, left, htake, hmem, hleft, hothers⟩ := takeIoir_some hreq
  have hexec : exec (.itest r1) s = advance 2 (((s.ioirTaken w left).setReg r1 0).setReg (r1 + 1) w) := by
    refine (kernelOnly_kernel _ _ _ _ _ hm : execItest r1 s = _).trans ?_
    rw [htake]
  have hne : r1 ≠ r1 + 1 := by bv_omega
  have hword : (((s.ioirTaken w left).setReg r1 0).setReg (r1 + 1) w).reg (r1 + 1) = w := State.reg_setReg_same _ _ _
  refine ⟨_, hexec.trans (advance_of_lt 2 (((s.ioirTaken w left).setReg r1 0).setReg (r1 + 1) w) hpc), rfl, ?_, ?_,
    fun r hr => ?_, fun _ => rfl, fun _ => rfl, hleft, ?_, ?_⟩
  · rw [State.setPc_reg, State.reg_setReg_other _ _ _ _ hne, State.reg_setReg_same]
  · rwa [State.setPc_reg, hword]
  · simp only [List.mem_cons, List.not_mem_nil, or_false, not_or] at hr
    obtain ⟨h1, h2⟩ := hr
    rw [State.setPc_reg, State.reg_setReg_other _ _ _ _ h2, State.reg_setReg_other _ _ _ _ h1]
    rfl
  · rwa [State.setPc_reg, hword]
  · rw [State.setPc_reg, hword]
    rfl

end

/-- Settles O60: ITEST by whether a device requests, READ and WRITE by the transaction and the registers they write. -/
theorem deviceInstructions : Obligations.DeviceInstructions := by
  refine fun s r1 r2 hpc => ⟨fun hm hnone => ?_, fun hm => itest_requested hm hpc, fun hm x hx => ?_⟩
  · have hexec : exec (.itest r1) s = advance 2 (s.setReg r1 1) := by
      refine (kernelOnly_kernel _ _ _ _ _ hm : execItest r1 s = _).trans ?_
      rw [takeIoir_none hnone]
    exact .of_advance hexec hpc
  · have hsent (rs : List Reg) (x : IoTransaction) : OnlyRegsDrawing rs (s.sent x) (s.sent x).drawn3 :=
      ⟨fun _ _ => rfl, fun _ => rfl, fun _ => rfl, rfl⟩
    have hne : r1 ≠ r1 + 1 := by bv_omega
    simp only [List.mem_cons, List.not_mem_nil, or_false] at hx
    obtain rfl | rfl := hx
    · refine transaction_completes (exec_read hm) (((hsent _ _).setReg (by simp) _).setReg (by simp) _) rfl hpc ?_
        fun _ => ?_
      · rw [State.reg_setReg_other _ _ _ _ hne, State.reg_setReg_same]
      · rw [State.reg_setReg_same]
    · refine transaction_completes (exec_write hm) ((hsent _ _).setReg (by simp) _) rfl hpc ?_ nofun
      rw [State.reg_setReg_same]

end Sys2Proof.Machine
end
